-- ==== Sys2Proof/Word.lean ====
section
/-! DEFINITION. The words and numbers of the part: bytes, SRAM words, and the four kinds of number that name things. -/

namespace Sys2Proof

/-- One byte of a frame, of a unit or of a record. -/
abbrev Byte := BitVec 8

/-- The 8 data bytes of one SRAM word (R153); the byte at position 0 is the most significant one. -/
abbrev Word64 := BitVec 64

/-- A word of the management port (R180). -/
abbrev Word32 := BitVec 32

/-- A flow link port, P0 to P3. -/
abbrev PortId := Fin 4

/-- A flow number, 0 to 4095. -/
abbrev FlowId := Fin 4096

/-- A slot of the context cache, 0 to 63. -/
abbrev SlotId := Fin 64

/-- A tag, 0 to 7, by which a master names one of its requests. -/
abbrev TagId := Fin 8

/-- A class, 0 to 3 (R3). -/
abbrev ClassId := Fin 4

end Sys2Proof
end

