-- ==== Sys2Proof/Syntax.lean ====
section
/-! DEFINITION. The commands of the part: one constructor for each row of the opcode table, with the data each event brings. -/

namespace Sys2Proof

/-- What the framing layer delivers on a port: a frame it found corrupt, or a whole frame, which is a header of two
bytes (the kind code, then the byte with the tag or the overflow field) and a body (R176). -/
inductive LinkFrame where
  | corrupt
  | whole (kind sub : Byte) (body : List Byte)
  deriving DecidableEq, Repr

/-- The bits of one SRAM word, and of its check code, that the SRAM presents wrongly at one read (R154). -/
structure ErrorPattern where
  data : Word64
  code : Byte
  deriving DecidableEq, Repr

/-- The commands: the events of the opcode table, one constructor a row. A take-in (OPEN to CREDIT) names the port
unit that takes in the message at the head of its inbound buffer; the message's fields stand in the buffer (R140). -/
inductive Instr where
  /-- POWER_ON: application of power (R166). -/
  | powerOn
  /-- LINK_UP: the framing layer reports link-up on a port (R138). -/
  | linkUp (p : PortId)
  /-- LINK_LOSS: the framing layer reports link loss on a port (R137). -/
  | linkLoss (p : PortId)
  /-- FRAME_ARRIVAL: the framing layer delivers a frame on a port (R139). -/
  | frameArrival (p : PortId) (f : LinkFrame)
  /-- OPEN: take-in of an OPEN (R11). -/
  | openReq (p : PortId)
  /-- CLOSE: take-in of a CLOSE (R13). -/
  | closeReq (p : PortId)
  /-- QUERY: take-in of a QUERY (R19). -/
  | queryReq (p : PortId)
  /-- PUT: take-in of a PUT (R68). -/
  | putReq (p : PortId)
  /-- TAKE: take-in of a TAKE (R87). -/
  | takeReq (p : PortId)
  /-- PEEK: take-in of a PEEK (R87). -/
  | peekReq (p : PortId)
  /-- DROP: take-in of a DROP (R103). -/
  | dropReq (p : PortId)
  /-- NEXT: take-in of a NEXT (R113). -/
  | nextReq (p : PortId)
  /-- HOLD: take-in of a HOLD (R122). -/
  | holdReq (p : PortId)
  /-- RELEASE: take-in of a RELEASE (R128). -/
  | releaseReq (p : PortId)
  /-- PIN: take-in of a PIN (R132). -/
  | pinReq (p : PortId)
  /-- UNPIN: take-in of an UNPIN (R132). -/
  | unpinReq (p : PortId)
  /-- UNDEFINED_REQUEST_CODE: take-in of a REQUEST whose code names no request (R141). -/
  | undefinedRequestCode (p : PortId)
  /-- DATA: take-in of a DATA beat (R75). -/
  | data (p : PortId)
  /-- CUT: take-in of a CUT (R98). -/
  | cut (p : PortId)
  /-- ARM: take-in of an ARM (R118). -/
  | arm (p : PortId)
  /-- CREDIT: take-in of a CREDIT (R145). -/
  | credit (p : PortId)
  /-- DEPARTURE: the head of a port's outbound queue departs (R145). -/
  | departure (p : PortId)
  /-- FILL_COMPLETION: the fill in progress has read its four words (R54). -/
  | fillCompletion (e0 e1 e2 e3 : ErrorPattern)
  /-- SPILL_COMPLETION: the spill in progress has written its four words (R58). -/
  | spillCompletion
  /-- WORD_WRITE_COMPLETION: the word write in progress has been made (R154). -/
  | wordWriteCompletion
  /-- BEAT_READ_COMPLETION: the beat read in progress has read its one to three words (R92). -/
  | beatReadCompletion (e0 e1 e2 : ErrorPattern)
  /-- DIAGNOSTIC_READ_COMPLETION: the diagnostic read in progress has read its four words (R161). -/
  | diagnosticReadCompletion (e0 e1 e2 e3 : ErrorPattern)
  /-- GAP_TIMEOUT: a port's gap timer expires (R77). -/
  | gapTimeout (p : PortId)
  /-- LEASE_EXPIRY: the lease of a port's hold reaches 0 (R129). -/
  | leaseExpiry (p : PortId)
  /-- WRITE_FRAME: a management write frame (R163). -/
  | writeFrame (addr : BitVec 16) (value : Word32)
  /-- UNDEFINED_COMMAND_BYTE: a management frame whose command byte names no other row: no kind of frame (R164), or
  0x01, the read frame, which has no row of its own (R163; log entry 23). -/
  | undefinedCommandByte (cmd : Byte) (addr : BitVec 16) (value : Word32)
  /-- INIT: the command frame INIT (R167). -/
  | init
  /-- INIT_SWEEP_COMPLETION: the INIT sweep ends (R168). -/
  | initSweepCompletion
  /-- RESTART: the command frame RESTART (R169). -/
  | restart
  /-- PORT_RESET: the command frame PORT_RESET, with the port number in its address field (R170). -/
  | portReset (arg : BitVec 16)
  /-- CLEAR_HALT: the command frame CLEAR_HALT, with the flow number in its address field (R171). -/
  | clearHalt (arg : BitVec 16)
  /-- READ_FLOW: the command frame READ_FLOW, with the flow number in its address field (R172). -/
  | readFlow (arg : BitVec 16)
  /-- READ_CONTEXT: the command frame READ_CONTEXT, with the flow number in its address field (R173). -/
  | readContext (arg : BitVec 16)
  /-- READ_SLOT: the command frame READ_SLOT, with the slot number in its address field (R172). -/
  | readSlot (arg : BitVec 16)
  /-- CLEAR_COUNTERS: the command frame CLEAR_COUNTERS (R174). -/
  | clearCounters
  /-- RETURN_SENT: a RETURN finishes being sent on a port (R139). -/
  | returnSent (p : PortId)
  deriving DecidableEq, Repr

end Sys2Proof
end

