-- ==== Sys2Proof/Decode.lean ====
section
/-! DEFINITION. The command a word spells: the 56-bit frames of the management port (R180), the only words of this part. -/

namespace Sys2Proof

/-- The command that a management frame is, by its command byte (R180). A byte that no row names is the frame of
UNDEFINED_COMMAND_BYTE, the read frame 0x01 among them (log entry 23). -/
def frameCommand (cmd : Byte) (addr : BitVec 16) (value : Word32) : Instr :=
  if cmd = 0x02 then .writeFrame addr value
  else if cmd = 0x10 then .init
  else if cmd = 0x11 then .restart
  else if cmd = 0x12 then .portReset addr
  else if cmd = 0x13 then .clearHalt addr
  else if cmd = 0x14 then .readFlow addr
  else if cmd = 0x15 then .readContext addr
  else if cmd = 0x16 then .readSlot addr
  else if cmd = 0x17 then .clearCounters
  else .undefinedCommandByte cmd addr value

/-- Byte `i` of a word. R180 gives the order in which the bytes of a frame are sent, and no number that they make up: that
the first byte sent stands in the least significant place is the model's choice (log entry 3). -/
def byteOfWord (w i : Nat) : Byte := BitVec.ofNat 8 (w / 2 ^ (8 * i))

/-- The command that a word spells. A word of 56 bits is a management frame, its first byte the command byte, and the
address and the data most significant byte first (R175, R180). That its first byte is bits 7 to 0 of the word is the
model's choice, and the opcode table gives no row bits, so no other word spells a command (log entry 3). -/
def decodeTableWord (nbits w : Nat) : Option Instr :=
  if nbits = 56 then
    some (frameCommand (byteOfWord w 0) (byteOfWord w 1 ++ byteOfWord w 2)
      (byteOfWord w 3 ++ byteOfWord w 4 ++ byteOfWord w 5 ++ byteOfWord w 6))
  else none

end Sys2Proof
end

