-- ==== Sys2Proof/Config.lean ====
section
/-! DEFINITION. What the spec leaves open: the free values. None has a body, so a statement that mentions one holds whatever it is. -/

namespace Sys2Proof

/-- What the check reports and what data it yields when the SRAM presents word `addr`, whose contents and check code
the part has not written (since power-on, or since a RESTART damaged them: `drawn` numbers the damage, 0 for power-on),
with the wrong bits `data` and `code`. The outcome is 0 clean, 1 corrected, 2 uncorrectable (R154, R155, R162).
Free: the spec states no power-on contents and no contents of a damaged word. Log entries 6 and 8. -/
opaque Config.unknownWord (addr drawn : Nat) (data : Word64) (code : Byte) : Fin 3 × Word64

/-- The outcome of the check of a word with three or more wrong bits, and the data a false correction yields
(R155, Engineering Note: such a word "may be reported uncorrectable, may be corrected to a wrong value, or may pass as
clean"). Free. Log entry 7. -/
opaque Config.manyWrongBits (stored data : Word64) (code : Byte) : Fin 3 × Word64

/-- The thirteen context fields, in the record layout, that READ_SLOT reports for a slot that is not RESIDENT (R172:
they "have meaning only while the slot is RESIDENT"). Free, a fresh one each time. Log entry 12. -/
opaque Config.slotRecord (drawn : Nat) : BitVec 256

end Sys2Proof
end

