-- ==== Sys2Proof/Machine/State.lean ====
section
/-! DEFINITION. The state of the part as plain data: every register, record, list, queue and counter the spec names, and State.reset. -/

namespace Sys2Proof.Machine

/-! ## Names -/

/-- The device state (R166). -/
inductive DeviceState where
  | config | initializing | running
  deriving DecidableEq, Repr

/-- The state of a port (R137). -/
inductive PortState where
  | down | up | fault
  deriving DecidableEq, Repr

/-- The violation that last took a port to FAULT (R136, R148). -/
inductive LastFault where
  | none | noCredit | creditOverflow | tagReuse | corruptFrame | overLengthBeat
  deriving DecidableEq, Repr

/-- A flow's lifecycle state (R2). -/
inductive Lifecycle where
  | closed | opened | draining
  deriving DecidableEq, Repr

/-- The cause of a halt (R20, R21). -/
inductive HaltCause where
  | dataErr | ctxErr
  deriving DecidableEq, Repr

/-- The state of a slot (R42, R43). -/
inductive SlotState where
  | free | filling | resident | spilling
  deriving DecidableEq, Repr

/-- The state of an assembly record (R67). -/
inductive AsmState where
  | idle | admitting | assembling | discarding
  deriving DecidableEq, Repr

/-- The state of a delivery record (R89). -/
inductive DelState where
  | idle | streaming
  deriving DecidableEq, Repr

/-- The kind of a delivery (section 5.2). -/
inductive DelKind where
  | take | peek
  deriving DecidableEq, Repr

/-- The state of a hold record (R121). -/
inductive HoldState where
  | empty | held | lapsing
  deriving DecidableEq, Repr

/-- The operation a REQUEST names (Table 11-3); `undefined` is a request code that names none. -/
inductive ReqKind where
  | openFlow | closeFlow | query | put | take | peek | drop | next | hold | release | pin | unpin | undefined
  deriving DecidableEq, Repr

/-- The phases of a request (R142). -/
inductive Phase where
  | taken | queuedAtPort | waitingResidency | missWait | linkWait | parked | inService | streaming | responding
  deriving DecidableEq, Repr

/-- Whether a tag record is free, in use or orphaned (R142). -/
inductive TagStatus where
  | free | inUse | orphaned
  deriving DecidableEq, Repr

/-- The statuses of RESPONSE and END (R176); `ended` is END and `existing` is EXISTS. -/
inductive Status where
  | ok | ended | part | empty | cut | nospace | quota | held | holding | notHeld | notCons | notProd
  | closed | existing | badArg | denied | busy | pinFull | halted | dataErr | ctxErr | timeout | badLen | notReady
  deriving DecidableEq, Repr

/-- The state of the management unit's command (R164). -/
inductive CommandState where
  | idle | inFlight | done
  deriving DecidableEq, Repr

/-- The management commands (R163). -/
inductive MgmtCommand where
  | init | restart | portReset | clearHalt | readFlow | readContext | readSlot | clearCounters
  deriving DecidableEq, Repr

/-- The results of management commands (R164). -/
inductive MgmtResult where
  | ok | notHalted | closed | ctxErr | busy | notReady | badArg | wrongState | invalid
  deriving DecidableEq, Repr

/-- Why a management frame was refused (R164). -/
inductive RefusedReason where
  | inFlight | notConfig | undefined
  deriving DecidableEq, Repr

/-! ## Flows -/

/-- A flow map entry (R1). The halted field and its cause are one field: a flow is halted exactly when it has a cause
(R20, R21, R24). Log entry 24. -/
structure FlowEntry where
  state : Lifecycle
  halt : Option HaltCause
  consumer : PortId
  cls : ClassId
  ready : Bool
  listed : Bool
  dispatched : Bool
  prev : Option FlowId
  next : Option FlowId
  residency : Option SlotId
  segCount : Nat
  admittedUnits : Nat
  admittedSegs : Nat
  deriving DecidableEq, Repr

/-- The entry of a flow at power-on, at RESTART and after the INIT sweep (R1). -/
def FlowEntry.initial : FlowEntry where
  state := .closed
  halt := none
  consumer := 0
  cls := 0
  ready := false
  listed := false
  dispatched := false
  prev := none
  next := none
  residency := none
  segCount := 0
  admittedUnits := 0
  admittedSegs := 0

/-- A flow's context: the thirteen fields of the record other than its check (section 1.2, widths of section 11.2). -/
structure Context where
  producers : BitVec 4
  consumer : BitVec 2
  cls : BitVec 2
  readyThreshold : BitVec 8
  quota : BitVec 16
  unitCount : BitVec 16
  headSeg : BitVec 16
  tailSeg : BitVec 16
  cursorOff : BitVec 7
  cursorDone : BitVec 14
  unitsIn : BitVec 32
  unitsOut : BitVec 32
  drops : BitVec 32
  deriving DecidableEq, Repr

/-- The context of a slot that holds none yet: R42 gives the field no meaning there (DESIGN CHOICE 0, log entry 11). -/
def Context.blank : Context where
  producers := 0
  consumer := 0
  cls := 0
  readyThreshold := 0
  quota := 0
  unitCount := 0
  headSeg := 0
  tailSeg := 0
  cursorOff := 0
  cursorDone := 0
  unitsIn := 0
  unitsOut := 0
  drops := 0

/-! ## The segment pool -/

/-- A link table entry (R25). -/
structure LinkEntry where
  next : Nat
  last : Bool
  fill : Nat
  deriving DecidableEq, Repr

/-- The segment pool (R27). The link table is `swept`, the number of segments chained in ascending order by the last
INIT sweep (0 for none since power-on or RESTART), and `links`, the entries that differ from that (log entry 10). -/
structure Pool where
  swept : Nat
  links : List (Nat × LinkEntry)
  freeHead : Nat
  freeTail : Nat
  free : Nat
  reserved : Nat
  stranded : Nat
  lowArmed : Bool
  deriving DecidableEq, Repr

/-- The pool at power-on and at RESTART (R27). -/
def Pool.initial : Pool where
  swept := 0
  links := []
  freeHead := 0
  freeTail := 0
  free := 0
  reserved := 0
  stranded := 0
  lowArmed := false

/-! ## Requests and slots -/

/-- A request record as it stands in a list or wait: the port and tag of a master's request (a finished unit's link
stands under its PUT's tag), or the management command CLEAR_HALT (R42). -/
inductive Req where
  | request (p : PortId) (t : TagId)
  | clearHalt (f : FlowId)
  deriving DecidableEq, Repr

/-- A slot of the context cache (R42). The rescue mark is computed from the return list (R57; log entry 24). -/
structure Slot where
  state : SlotState
  flow : Option FlowId
  incoming : Option FlowId
  context : Context
  dirty : Bool
  ref : Bool
  pins : Nat
  delivering : Bool
  pendingList : List Req
  returnList : List Req
  parkedList : List Req
  deriving DecidableEq, Repr

/-- A slot at power-on, at RESTART and after the INIT sweep (R42). -/
def Slot.initial : Slot where
  state := .free
  flow := none
  incoming := none
  context := Context.blank
  dirty := false
  ref := false
  pins := 0
  delivering := false
  pendingList := []
  returnList := []
  parkedList := []

/-! ## Per-port records -/

/-- An assembly record (section 4.1). The gap timer is stopped (none) or the microseconds since it last started. -/
structure Assembly where
  state : AsmState
  tag : Option TagId
  flow : FlowId
  declared : Nat
  taken : Nat
  needed : Nat
  allocated : Nat
  chainFirst : Nat
  chainLast : Nat
  gapTimer : Option Nat
  writesOutstanding : Nat
  deriving DecidableEq, Repr

/-- An assembly record at power-on and at RESTART (R67; the three fields without meaning: log entry 11). -/
def Assembly.initial : Assembly where
  state := .idle
  tag := none
  flow := 0
  declared := 0
  taken := 0
  needed := 0
  allocated := 0
  chainFirst := 0
  chainLast := 0
  gapTimer := none
  writesOutstanding := 0

/-- A delivery record (section 5.2). -/
structure Delivery where
  state : DelState
  kind : DelKind
  tag : TagId
  flow : FlowId
  planned : Nat
  startSeg : Nat
  startOff : Nat
  startDone : Nat
  readSeg : Nat
  readOff : Nat
  sent : Nat
  readInFlight : Bool
  deriving DecidableEq, Repr

/-- A delivery record at power-on and at RESTART (R89; the fields without meaning: log entry 11). -/
def Delivery.initial : Delivery where
  state := .idle
  kind := .take
  tag := 0
  flow := 0
  planned := 0
  startSeg := 0
  startOff := 0
  startDone := 0
  readSeg := 0
  readOff := 0
  sent := 0
  readInFlight := false

/-- A hold record (section 7.1). -/
structure Hold where
  state : HoldState
  flow : FlowId
  lease : Nat
  deriving DecidableEq, Repr

/-- A hold record at power-on, at RESTART and after the INIT sweep (R121; the fields without meaning: log entry 11). -/
def Hold.initial : Hold where
  state := .empty
  flow := 0
  lease := 0

/-- One ready list (R109). -/
structure ClassList where
  head : Option FlowId
  tail : Option FlowId
  length : Nat
  deriving DecidableEq, Repr

/-- An empty ready list (R109). -/
def ClassList.initial : ClassList where
  head := none
  tail := none
  length := 0

/-! ## The port unit -/

/-- The fields of a REQUEST body (Table 11-2), with its code read as a kind. -/
structure Request where
  kind : ReqKind
  flow : FlowId
  wait : Bool
  cls : ClassId
  consumer : PortId
  argA : BitVec 16
  argB : BitVec 8
  producers : BitVec 4
  deriving DecidableEq, Repr

/-- The request fields of a tag record that holds no request, to which R142 gives no value: the model's choice (log
entry 11). -/
def Request.blank : Request where
  kind := .undefined
  flow := 0
  wait := false
  cls := 0
  consumer := 0
  argA := 0
  argB := 0
  producers := 0

/-- A finished unit: its chain of `needed` segments (R78). -/
structure FinishedUnit where
  first : Nat
  last : Nat
  needed : Nat
  deriving DecidableEq, Repr

/-- A tag record (R142). `busyAnswer` says that a BUSY answer on an orphaned tag has not departed (R141). -/
structure TagRecord where
  status : TagStatus
  request : Request
  phase : Phase
  unit : Option FinishedUnit
  busyAnswer : Bool
  deriving DecidableEq, Repr

/-- A free tag record, at reset and after its response has departed (R142). The spec gives it no request fields and no
phase: the model's choice (log entry 11). -/
def TagRecord.initial : TagRecord where
  status := .free
  request := Request.blank
  phase := .taken
  unit := none
  busyAnswer := false

/-- A message from the master as it stands in the inbound buffer (R177): a REQUEST with its tag and 8-byte body, a
beat, a CUT, an ARM or a CREDIT. -/
inductive Message where
  | request (t : TagId) (body : BitVec 64)
  | data (bytes : List Byte)
  | cut (t : TagId) (kept : BitVec 16)
  | arm
  | credit (n : BitVec 8)
  deriving DecidableEq, Repr

/-- The result fields of a RESPONSE (Table 11-4). -/
inductive Result where
  | none
  | state (st : Lifecycle)
  | query (st : Lifecycle) (halt : Option HaltCause) (holder : Option PortId) (unitCount segCount admittedUnits
      admittedSegs cursorDone pins : Nat)
  | header (f : FlowId) (length startDone planned : Nat)
  | next (f : FlowId) (c : ClassId)
  | lease (n : Nat)
  | pins (n : Nat)
  | dropped (n : Nat)
  deriving DecidableEq, Repr

/-- What a RESPONSE or END is to its tag (R142, R145): a delivery's header, a final response, or a BUSY answer on an
orphaned tag. -/
inductive AnswerRole where
  | header | final | busyAnswer
  deriving DecidableEq, Repr

/-- The notices (R146). -/
inductive Notice where
  | ready
  | poolLow
  | holdLapsed (f : FlowId)
  | drained (f : FlowId)
  | halted (f : FlowId) (cause : HaltCause)
  deriving DecidableEq, Repr

/-- A message of the outbound queue (R144). A notice carries its overflow field (R147). -/
inductive OutMsg where
  | response (t : TagId) (st : Status) (res : Result) (role : AnswerRole)
  | data (bytes : List Byte)
  | endMsg (t : TagId) (st : Status) (count : Nat) (role : AnswerRole)
  | notice (n : Notice) (overflow : Bool)
  deriving DecidableEq, Repr

/-- A port unit (R136), with its consumer queue and current consumer request (R86). A READY or POOL_LOW that waits is
`some` of the overflow field it kept at a displacement (R147). `returning` is the credits of the RETURN being sent, 0
for none, and `returnOwed` the credits freed meanwhile (R139; log entry 18). `linkOut` is the frame the link last
carried to the master (R176; log entry 23). -/
structure PortUnit where
  state : PortState
  lastFault : LastFault
  inbound : List Message
  inboundCredits : Nat
  outbound : List OutMsg
  outboundCredits : Nat
  tags : Vector TagRecord 8
  readyArmed : Bool
  readyWaiting : Option Bool
  poolLowWaiting : Option Bool
  noticeQueue : List (Notice × Bool)
  overflow : Bool
  consumerQueue : List TagId
  current : Option TagId
  returning : Nat
  returnOwed : Nat
  linkOut : List Byte
  deriving DecidableEq, Repr

/-- A port unit at power-on and at RESTART (R136, R86). -/
def PortUnit.initial : PortUnit where
  state := .down
  lastFault := .none
  inbound := []
  inboundCredits := 0
  outbound := []
  outboundCredits := 0
  tags := Vector.replicate 8 TagRecord.initial
  readyArmed := false
  readyWaiting := none
  poolLowWaiting := none
  noticeQueue := []
  overflow := false
  consumerQueue := []
  current := none
  returning := 0
  returnOwed := 0
  linkOut := []

/-! ## The memory controller -/

/-- A word write (R156): the word of the segment, its data, the number of writes (R154) whose last byte it holds,
whether its assembly is still live (R162), and the stamp of its handing (R158). -/
structure WordWrite where
  seg : Nat
  word : Nat
  data : Word64
  ends : Nat
  live : Bool
  stamp : Nat
  deriving DecidableEq, Repr

/-- A beat read (R156): where each byte of the beat lies, as segment and offset, and whether its delivery is live
(R162). -/
structure BeatRead where
  bytes : List (Nat × Nat)
  live : Bool
  deriving DecidableEq, Repr

/-- An entry of a port access queue (R156). -/
inductive PortAccess where
  | write (w : WordWrite)
  | read (r : BeatRead)
  deriving DecidableEq, Repr

/-- The access in progress (R156, R157). -/
inductive Access where
  | fill (slot : SlotId) (f : FlowId)
  | spill (slot : SlotId) (f : FlowId)
  | wordWrite (p : PortId) (w : WordWrite)
  | beatRead (p : PortId) (r : BeatRead)
  | diagnostic (f : FlowId)
  deriving DecidableEq, Repr

/-- A gather word (R154): the word of a segment, the bytes it holds from position 0, and the number of writes whose
last byte it holds. -/
structure GatherWord where
  seg : Nat
  word : Nat
  bytes : List Byte
  ends : Nat
  deriving DecidableEq, Repr

/-- The memory controller (09_external_memory.md, state table). -/
structure MemController where
  fillQueue : List (SlotId × FlowId)
  spillQueue : List (SlotId × FlowId)
  portQueue : Vector (List PortAccess) 4
  gather : Vector (Option GatherWord) 4
  mgmtRead : Option FlowId
  inProgress : Option Access
  lastPort : PortId
  corrected : Nat
  uncorrectableData : Nat
  contextErrors : Nat
  deriving DecidableEq, Repr

/-- The memory controller at power-on and at RESTART. -/
def MemController.initial : MemController where
  fillQueue := []
  spillQueue := []
  portQueue := Vector.replicate 4 []
  gather := Vector.replicate 4 none
  mgmtRead := none
  inProgress := none
  lastPort := 3
  corrected := 0
  uncorrectableData := 0
  contextErrors := 0

/-! ## Management -/

/-- The configuration words (R165), with the widths of R180. -/
structure Configuration where
  nSeg : BitVec 16
  memSize : BitVec 23
  segBase : BitVec 22
  ctxBase : BitVec 22
  floors : Vector (BitVec 16) 4
  warning : BitVec 16
  gapTimeout : BitVec 8
  adminRole : Vector Bool 4
  poolNotice : Vector Bool 4
  deriving DecidableEq, Repr

/-- The configuration at power-on (R165). -/
def Configuration.powerOn : Configuration where
  nSeg := 8192
  memSize := 262144
  segBase := 0
  ctxBase := 131072
  floors := #v[0, 32, 64, 128]
  warning := 256
  gapTimeout := 20
  adminRole := Vector.replicate 4 false
  poolNotice := Vector.replicate 4 false

/-- The management unit: the device state and the status word (R164), the result words (R180), the SPI output line
(R180), and the two counters of the port units (R174). -/
structure Management where
  device : DeviceState
  command : CommandState
  lastCommand : Option MgmtCommand
  result : Option MgmtResult
  refused : Option RefusedReason
  resultWords : Vector Word32 16
  spiOut : Word32
  strayBeats : Nat
  strayControls : Nat
  deriving DecidableEq, Repr

/-- The management unit at power-on (R164, R166, R174). -/
def Management.initial : Management where
  device := .config
  command := .idle
  lastCommand := none
  result := none
  refused := none
  resultWords := Vector.replicate 16 0
  spiOut := 0
  strayBeats := 0
  strayControls := 0

/-! ## The whole part -/

/-- The state of the part, with the queue of commands that wait. -/
structure State where
  /-- The commands that wait, first in, first out (the model's own). -/
  pending : List Instr
  mgmt : Management
  config : Configuration
  pool : Pool
  /-- The flow map: a list of the entries that are not at their reset values, by flow number. -/
  flows : List (Nat × FlowEntry)
  slots : Vector Slot 64
  hand : SlotId
  pinnedOrHeld : Nat
  missWait : List Req
  linkWait : List Req
  asms : Vector Assembly 4
  dels : Vector Delivery 4
  holds : Vector Hold 4
  lists : Vector (Vector ClassList 4) 4
  units : Vector PortUnit 4
  mem : MemController
  /-- The bytes of the SRAM that the part has written, by 8 x word address + position. -/
  sram : List Host.Cell
  /-- The words a RESTART or power-on damaged, each with the number of its free contents (R162; log entry 8). -/
  damage : List (Nat × Nat)
  /-- An event of R62 has been met in the event being taken (the model's own; log entry 28). -/
  retryDue : Bool
  /-- The stamp of the next word write handed over (the model's own; R158, log entry 28). -/
  handed : Nat
  /-- How many free values have been drawn (the model's own; log entry 28). -/
  drawn : Nat
  deriving DecidableEq, Repr

/-- Why a step can stop with a fault: never. The spec gives every event of the part an effect, and what it calls an
error is a state (a refusal, the port state FAULT, a halt). Nothing raises a fault, so there is none to be safe or
not. -/
inductive Fault where
  deriving DecidableEq, Repr

/-- Why a command has no meaning in the model. -/
inductive Refusal where
  /-- Raised by exec for a command whose meaning is not written yet (safe: no claim can be proved of it). No command
  of this model is in that case. -/
  | notModelled (mnemonic : String)
  deriving DecidableEq, Repr

/-- The outcome of a command or of a step. -/
abbrev Step := Host.Outcome State Fault Refusal

/-- The part right after power-on (R166), with no command waiting. -/
def State.reset : State where
  pending := []
  mgmt := Management.initial
  config := Configuration.powerOn
  pool := Pool.initial
  flows := []
  slots := Vector.replicate 64 Slot.initial
  hand := 0
  pinnedOrHeld := 0
  missWait := []
  linkWait := []
  asms := Vector.replicate 4 Assembly.initial
  dels := Vector.replicate 4 Delivery.initial
  holds := Vector.replicate 4 Hold.initial
  lists := Vector.replicate 4 (Vector.replicate 4 ClassList.initial)
  units := Vector.replicate 4 PortUnit.initial
  mem := MemController.initial
  sram := []
  damage := []
  retryDue := false
  handed := 0
  drawn := 0

end Sys2Proof.Machine
end

