-- ==== Sys2Proof/Machine/Ops.lean ====
section
/-! DEFINITION. The named operations over tables, SRAM bytes and the parts of State: every read and write goes through one of these. -/

namespace Sys2Proof.Machine

/-! ## Sparse tables: a list of key and value, keys strictly rising, read through a default -/

/-- The value listed at a key. -/
def Table.find? {α : Type} : List (Nat × α) → Nat → Option α
  | [], _ => none
  | (k, v) :: t, i => if i = k then some v else Table.find? t i

/-- List a value at a key, in key order, in place of one listed there. -/
def Table.insert {α : Type} : List (Nat × α) → Nat → α → List (Nat × α)
  | [], i, x => [(i, x)]
  | (k, v) :: t, i, x =>
    if i < k then (i, x) :: (k, v) :: t
    else if i = k then (i, x) :: t
    else (k, v) :: Table.insert t i x

/-- Take the value at a key out of the list. -/
def Table.erase {α : Type} : List (Nat × α) → Nat → List (Nat × α)
  | [], _ => []
  | (k, v) :: t, i => if i = k then Table.erase t i else (k, v) :: Table.erase t i

/-- The value a table has at a key; `d` is what an unlisted key has. -/
def Table.get {α : Type} (d : α) (t : List (Nat × α)) (i : Nat) : α := (Table.find? t i).getD d

/-- Give a table the value `x` at a key whose default is `d`; a default value is not listed. -/
def Table.put {α : Type} [DecidableEq α] (d : α) (t : List (Nat × α)) (i : Nat) (x : α) : List (Nat × α) :=
  if x = d then Table.erase t i else Table.insert t i x

/-- Every key listed is above `lo`, and the keys rise. -/
def Table.risingFrom {α : Type} : Option Nat → List (Nat × α) → Bool
  | _, [] => true
  | none, (k, _) :: t => Table.risingFrom (some k) t
  | some lo, (k, _) :: t => decide (lo < k) && Table.risingFrom (some k) t

/-- The canonical form of a table with the default `d`: keys strictly rising, no default listed. -/
def Table.wf {α : Type} [DecidableEq α] (d : Nat → α) (t : List (Nat × α)) : Bool :=
  Table.risingFrom none t && t.all (fun e => decide (e.2 ≠ d e.1))

/-! ## SRAM bytes -/

/-- The canonical form of the SRAM: addresses strictly rising. An unlisted address reads as no value, so no listed
entry equals what an unlisted address reads as. -/
def Memory.wf (m : List Host.Cell) : Bool := Table.risingFrom none m

/-- The byte at an address, none if the part has not written it (log entry 6). -/
def Memory.read (m : List Host.Cell) (a : Nat) : Option Byte := Table.find? m a

/-- Write the byte at an address. -/
def Memory.write (m : List Host.Cell) (a : Nat) (b : Byte) : List Host.Cell := Table.insert m a b

/-- Forget the byte at an address (R162: a word cut short). -/
def Memory.forget (m : List Host.Cell) (a : Nat) : List Host.Cell := Table.erase m a

/-- Byte `i` of a word, position 0 first. -/
def wordByte (w : Word64) (i : Nat) : Byte := w.extractLsb' (8 * (7 - i)) 8

/-- The word whose bytes are listed, position 0 first, with 0 in the positions not reached (R154). -/
def wordOfBytes (bs : List Byte) : Word64 :=
  (bs ++ List.replicate (8 - bs.length) 0).foldl (fun (w : Word64) (b : Byte) => (w <<< 8) ||| b.setWidth 64) 0

/-- Write a word whole (R154): its 8 bytes, at 8 x the word address. -/
def Memory.writeWord (m : List Host.Cell) (a : Nat) (w : Word64) : List Host.Cell :=
  (List.range 8).foldl (fun m i => Memory.write m (8 * a + i) (wordByte w i)) m

/-- Forget a word (R162). -/
def Memory.forgetWord (m : List Host.Cell) (a : Nat) : List Host.Cell :=
  (List.range 8).foldl (fun m i => Memory.forget m (8 * a + i)) m

/-- A word the part has written, none if one of its bytes is not listed. -/
def Memory.readWord (m : List Host.Cell) (a : Nat) : Option Word64 :=
  ((List.range 8).mapM (fun i => Memory.read m (8 * a + i))).map wordOfBytes

/-! ## Parts of State -/

/-- A flow's flow map entry (R1). -/
def State.flow (s : State) (f : FlowId) : FlowEntry := Table.get FlowEntry.initial s.flows f.val

def State.setFlow (s : State) (f : FlowId) (e : FlowEntry) : State :=
  { s with flows := Table.put FlowEntry.initial s.flows f.val e }

def State.slot (s : State) (S : SlotId) : Slot := s.slots[S]

def State.setSlot (s : State) (S : SlotId) (v : Slot) : State := { s with slots := s.slots.set S.val v S.isLt }

def State.asm (s : State) (p : PortId) : Assembly := s.asms[p]

def State.setAsm (s : State) (p : PortId) (v : Assembly) : State := { s with asms := s.asms.set p.val v p.isLt }

def State.del (s : State) (p : PortId) : Delivery := s.dels[p]

def State.setDel (s : State) (p : PortId) (v : Delivery) : State := { s with dels := s.dels.set p.val v p.isLt }

def State.hold (s : State) (p : PortId) : Hold := s.holds[p]

def State.setHold (s : State) (p : PortId) (v : Hold) : State := { s with holds := s.holds.set p.val v p.isLt }

def State.unit (s : State) (p : PortId) : PortUnit := s.units[p]

def State.setUnit (s : State) (p : PortId) (v : PortUnit) : State := { s with units := s.units.set p.val v p.isLt }

/-- A port's ready list for a class (R109). -/
def State.readyList (s : State) (p : PortId) (c : ClassId) : ClassList := s.lists[p][c]

def State.setReadyList (s : State) (p : PortId) (c : ClassId) (v : ClassList) : State :=
  { s with lists := s.lists.set p.val (s.lists[p].set c.val v c.isLt) p.isLt }

def State.setPool (s : State) (v : Pool) : State := { s with pool := v }

def State.setMem (s : State) (v : MemController) : State := { s with mem := v }

def State.setMgmt (s : State) (v : Management) : State := { s with mgmt := v }

/-- An event of R62 has been met: the waits are retried before the event ends. -/
def State.dueRetry (s : State) : State := { s with retryDue := true }

/-- A port's record of a tag (R142). -/
def PortUnit.tag (u : PortUnit) (t : TagId) : TagRecord := u.tags[t]

def PortUnit.setTag (u : PortUnit) (t : TagId) (r : TagRecord) : PortUnit :=
  { u with tags := u.tags.set t.val r t.isLt }

def State.tagRec (s : State) (p : PortId) (t : TagId) : TagRecord := (s.unit p).tag t

def State.setTagRec (s : State) (p : PortId) (t : TagId) (r : TagRecord) : State :=
  s.setUnit p ((s.unit p).setTag t r)

def State.setPhase (s : State) (p : PortId) (t : TagId) (ph : Phase) : State :=
  s.setTagRec p t { s.tagRec p t with phase := ph }

/-- The ports in ascending order. -/
def allPorts : List PortId := [0, 1, 2, 3]

/-- The classes in ascending order. -/
def allClasses : List ClassId := [0, 1, 2, 3]

/-! ## Requests in lists -/

/-- A record stands for a finished unit's link (R78) when its tag record holds the unit. -/
def State.isLink (s : State) : Req → Bool
  | .request p t => (s.tagRec p t).unit.isSome
  | .clearHalt _ => false

/-- The flow a record names. -/
def State.reqFlow (s : State) : Req → FlowId
  | .request p t => (s.tagRec p t).request.flow
  | .clearHalt f => f

/-- Whether a record is an OPEN. -/
def State.isOpen (s : State) : Req → Bool
  | .request p t => (s.tagRec p t).request.kind = .openFlow
  | .clearHalt _ => false

/-- Enter a phase in the request's tag record, if it has one. -/
def State.enterPhase (s : State) (ph : Phase) : Req → State
  | .request p t => s.setPhase p t ph
  | .clearHalt _ => s

/-- Enter a phase for every record of a list. -/
def State.enterPhases (s : State) (ph : Phase) (rs : List Req) : State := rs.foldl (fun s r => s.enterPhase ph r) s

/-- A counter that stays at its maximum (R155, R174). -/
def saturating (n k : Nat) : Nat := min (n + k) 4294967295

end Sys2Proof.Machine
end

