-- ==== Sys2Proof/Machine/Operands.lean ====
section
/-! DEFINITION. The formats: frames in and out, REQUEST bodies, the context record and its check, the management words (chapter 11). -/

namespace Sys2Proof.Machine

/-! ## Numbers and bytes -/

/-- A number as `n` bytes, most significant byte first (R175). -/
def beBytes : Nat → Nat → List Byte
  | 0, _ => []
  | n + 1, v => beBytes n (v / 256) ++ [BitVec.ofNat 8 v]

/-- Byte `i` of an 8-byte body, byte 0 first. -/
def bodyByte (body : BitVec 64) (i : Nat) : Byte := body.extractLsb' (8 * (7 - i)) 8

/-! ## Frames from the master (R176 to R178) -/

/-- A frame of defined kind as a message, identified by its kind code and its body length together; every other frame
is of undefined kind (R177). -/
def frameMessage : LinkFrame → Option Message
  | .corrupt => none
  | .whole kind sub body =>
    if kind = 0x10 ∧ body.length = 8 then some (.request (BitVec.toFin (sub.extractLsb' 0 3)) (wordOfBytes body))
    else if kind = 0x20 ∧ 1 ≤ body.length ∧ body.length ≤ 16 then some (.data body)
    else if kind = 0x30 then
      match body with
      | [h, l] => some (.cut (BitVec.toFin (sub.extractLsb' 0 3)) (h ++ l))
      | _ => none
    else if kind = 0x40 ∧ body.length = 0 then some .arm
    else if kind = 0x50 then
      match body with
      | [n] => some (.credit n)
      | _ => none
    else none

/-- The request code of Table 11-3. -/
def ReqKind.ofCode (c : Byte) : ReqKind :=
  if c = 0x01 then .openFlow else if c = 0x02 then .closeFlow else if c = 0x03 then .query
  else if c = 0x04 then .put else if c = 0x05 then .take else if c = 0x06 then .peek
  else if c = 0x07 then .drop else if c = 0x08 then .next else if c = 0x09 then .hold
  else if c = 0x0A then .release else if c = 0x0B then .pin else if c = 0x0C then .unpin else .undefined

/-- The fields of a REQUEST body (Tables 11-2 and 11-3). -/
def Request.ofBody (body : BitVec 64) : Request where
  kind := ReqKind.ofCode (bodyByte body 0)
  flow := BitVec.toFin (body.extractLsb' 32 12)
  wait := body.getLsbD 48
  cls := BitVec.toFin (body.extractLsb' 49 2)
  consumer := BitVec.toFin (body.extractLsb' 51 2)
  argA := body.extractLsb' 16 16
  argB := body.extractLsb' 8 8
  producers := body.extractLsb' 0 4

/-- The kept count of a CUT: 16,385 and above is taken as 16,384 (R177). -/
def keptCount (k : BitVec 16) : Nat := min k.toNat 16384

/-! ## Frames to the master (R176) -/

/-- The status codes of RESPONSE and END. -/
def Status.code : Status → Byte
  | .ok => 0x00 | .ended => 0x01 | .part => 0x02 | .empty => 0x03 | .cut => 0x04
  | .nospace => 0x10 | .quota => 0x11 | .held => 0x12 | .holding => 0x13 | .notHeld => 0x14
  | .notCons => 0x16 | .notProd => 0x17 | .closed => 0x18 | .existing => 0x19 | .badArg => 0x1A
  | .denied => 0x1B | .busy => 0x1C | .pinFull => 0x1D | .halted => 0x1E | .dataErr => 0x20
  | .ctxErr => 0x21 | .timeout => 0x22 | .badLen => 0x23 | .notReady => 0x24

/-- The code of a lifecycle state (Table 11-4, R180). -/
def Lifecycle.code : Lifecycle → Nat
  | .closed => 0 | .opened => 1 | .draining => 2

/-- The code of a halt cause, 0 for none (Table 11-4). -/
def haltCode : Option HaltCause → Nat
  | none => 0 | some .dataErr => 1 | some .ctxErr => 2

/-- The result bytes 1 to 13 of a RESPONSE (Table 11-4); a byte the answer does not use is 0. -/
def Result.bytes (r : Result) : List Byte :=
  let used : List Byte := match r with
    | .none => []
    | .state st => beBytes 1 st.code
    | .query st halt holder uc sc au asg cd pn =>
      beBytes 1 st.code ++
      beBytes 1 ((if halt.isSome then 1 else 0) + 2 * haltCode halt + 16 * (match holder with
        | Option.some h => h.val
        | Option.none => 7)) ++
      beBytes 2 uc ++ beBytes 2 sc ++ beBytes 1 au ++ beBytes 2 asg ++ beBytes 2 cd ++ beBytes 1 pn
    | .header f len done planned => beBytes 2 f.val ++ beBytes 2 len ++ beBytes 2 done ++ beBytes 2 planned
    | .next f c => beBytes 2 f.val ++ beBytes 1 c.val
    | .lease n => beBytes 2 n
    | .pins n => beBytes 1 n
    | .dropped n => beBytes 2 n
  used ++ List.replicate (13 - used.length) 0

/-- The overflow field in header byte 1 of a notice. -/
def overflowByte (o : Bool) : Byte := if o then 0x80 else 0x00

/-- The frame of a message sent to the master: header and body (R176). -/
def OutMsg.frame : OutMsg → List Byte
  | .response t st res _ => [0x90, BitVec.ofNat 8 t.val] ++ [st.code] ++ res.bytes
  | .data bytes => [0xA0, 0x00] ++ bytes
  | .endMsg t st n _ => [0xB0, BitVec.ofNat 8 t.val] ++ [st.code, 0x00] ++ beBytes 2 n
  | .notice .ready o => [0xC0, overflowByte o]
  | .notice .poolLow o => [0xC1, overflowByte o]
  | .notice (.holdLapsed f) o => [0xC8, overflowByte o] ++ beBytes 2 f.val
  | .notice (.drained f) o => [0xC9, overflowByte o] ++ beBytes 2 f.val
  | .notice (.halted f c) o => [0xCA, overflowByte o] ++ beBytes 2 f.val ++ beBytes 1 (haltCode (some c))

/-- The frame of a RETURN (R176). -/
def returnFrame (credits : Nat) : List Byte := [0xD0, 0x00] ++ beBytes 1 credits

/-! ## The context record (R159, R179) -/

/-- One bit of the CRC-8 with generator x^8 + x^2 + x + 1, most significant bit first (R159). -/
def crcBit (c : Byte) (b : Bool) : Byte := if c.msb != b then (c <<< 1) ^^^ 0x07 else c <<< 1

/-- The check byte of a record's 31 other bytes: starting value all ones, no inversion of the result (R159). -/
def crc8 (body : BitVec 248) : Byte := (List.range 248).foldl (fun c i => crcBit c (body.getMsbD i)) 0xFF

/-- Bytes 0 to 30 of a record (section 11.2). -/
def Context.body (c : Context) : BitVec 248 :=
  (c.cls ++ c.consumer ++ c.producers ++ c.readyThreshold ++ c.quota ++ c.unitCount ++ c.headSeg ++ c.tailSeg ++
    (0#1 ++ c.cursorOff) ++ (0#2 ++ c.cursorDone) ++ c.unitsIn ++ c.unitsOut ++ c.drops ++ 0#48 : BitVec 248)

/-- The record a spill writes: the 31 bytes and their check (R179). -/
def Context.record (c : Context) : BitVec 256 := c.body ++ crc8 c.body

/-- Whether a record's check byte matches the one computed over its other bytes (R160). -/
def recordSound (r : BitVec 256) : Bool := crc8 (r.extractLsb' 8 248) = r.extractLsb' 0 8

/-- The context fields of a record, as stored; the bits no field reads are ignored (R179). -/
def Context.ofRecord (r : BitVec 256) : Context where
  cls := r.extractLsb' 254 2
  consumer := r.extractLsb' 252 2
  producers := r.extractLsb' 248 4
  readyThreshold := r.extractLsb' 240 8
  quota := r.extractLsb' 224 16
  unitCount := r.extractLsb' 208 16
  headSeg := r.extractLsb' 192 16
  tailSeg := r.extractLsb' 176 16
  cursorOff := r.extractLsb' 168 7
  cursorDone := r.extractLsb' 152 14
  unitsIn := r.extractLsb' 120 32
  unitsOut := r.extractLsb' 88 32
  drops := r.extractLsb' 56 32

/-- Word `i` of a record, word 0 first (section 11.2). -/
def recordWord (r : BitVec 256) (i : Nat) : Word64 := r.extractLsb' (64 * (3 - i)) 64

/-- The record whose four words are given. -/
def recordOfWords (a b c d : Word64) : BitVec 256 := a ++ b ++ c ++ d

/-- Four bytes of a record as a result word, `i` from 0 to 7 (R180: four to a word, in the record's byte order). -/
def recordResultWord (r : BitVec 256) (i : Nat) : Word32 := r.extractLsb' (32 * (7 - i)) 32

/-! ## Management words (R180) -/

def DeviceState.code : DeviceState → Nat
  | .config => 0 | .initializing => 1 | .running => 2

def CommandState.code : CommandState → Nat
  | .idle => 0 | .inFlight => 1 | .done => 2

/-- The command byte of a management command, 0 for none. -/
def commandByte : Option MgmtCommand → Nat
  | none => 0 | some .init => 0x10 | some .restart => 0x11 | some .portReset => 0x12 | some .clearHalt => 0x13
  | some .readFlow => 0x14 | some .readContext => 0x15 | some .readSlot => 0x16 | some .clearCounters => 0x17

def resultCode : Option MgmtResult → Nat
  | none => 0 | some .ok => 1 | some .notHalted => 2 | some .closed => 3 | some .ctxErr => 4 | some .busy => 5
  | some .notReady => 6 | some .badArg => 7 | some .wrongState => 8 | some .invalid => 9

def reasonCode : Option RefusedReason → Nat
  | none => 0 | some .inFlight => 1 | some .notConfig => 2 | some .undefined => 3

def PortState.code : PortState → Nat
  | .down => 0 | .up => 1 | .fault => 2

def LastFault.code : LastFault → Nat
  | .none => 0 | .noCredit => 1 | .creditOverflow => 2 | .tagReuse => 3 | .corruptFrame => 4 | .overLengthBeat => 5

def SlotState.code : SlotState → Nat
  | .free => 0 | .filling => 1 | .resident => 2 | .spilling => 3

def bit (b : Bool) : Nat := if b then 1 else 0

/-- A flow number as a 13-bit field, 8191 for none. -/
def flowField : Option FlowId → Nat
  | none => 8191 | some f => f.val

/-- The status word (address 0x0000). -/
def Management.statusWord (m : Management) : Word32 :=
  BitVec.ofNat 32 (m.device.code + 2 ^ 2 * m.command.code + 2 ^ 4 * commandByte m.lastCommand +
    2 ^ 12 * resultCode m.result + 2 ^ 16 * bit m.refused.isSome + 2 ^ 17 * reasonCode m.refused)

/-- The port roles word (address 0x001A). -/
def Configuration.roles (c : Configuration) : Word32 :=
  BitVec.ofNat 32 (bit c.adminRole[0] + 2 * bit c.adminRole[1] + 4 * bit c.adminRole[2] + 8 * bit c.adminRole[3] +
    16 * bit c.poolNotice[0] + 32 * bit c.poolNotice[1] + 64 * bit c.poolNotice[2] + 128 * bit c.poolNotice[3])

/-- A port word (addresses 0x0020 to 0x0023). -/
def PortUnit.word (u : PortUnit) : Word32 := BitVec.ofNat 32 (u.state.code + 2 ^ 4 * u.lastFault.code)

/-- The value a read frame returns for an address; an address that names no word reads as 0 (R163, R180, R181). -/
def State.readWord (s : State) (addr : BitVec 16) : Word32 :=
  let a := addr.toNat
  if a = 0x0000 then s.mgmt.statusWord
  else if a = 0x0010 then s.config.nSeg.setWidth 32
  else if a = 0x0011 then s.config.memSize.setWidth 32
  else if a = 0x0012 then s.config.segBase.setWidth 32
  else if a = 0x0013 then s.config.ctxBase.setWidth 32
  else if a = 0x0014 then s.config.floors[0].setWidth 32
  else if a = 0x0015 then s.config.floors[1].setWidth 32
  else if a = 0x0016 then s.config.floors[2].setWidth 32
  else if a = 0x0017 then s.config.floors[3].setWidth 32
  else if a = 0x0018 then s.config.warning.setWidth 32
  else if a = 0x0019 then s.config.gapTimeout.setWidth 32
  else if a = 0x001A then s.config.roles
  else if a = 0x0020 then (s.unit 0).word
  else if a = 0x0021 then (s.unit 1).word
  else if a = 0x0022 then (s.unit 2).word
  else if a = 0x0023 then (s.unit 3).word
  else if a = 0x0030 then BitVec.ofNat 32 s.pool.free
  else if a = 0x0031 then BitVec.ofNat 32 s.pool.reserved
  else if a = 0x0032 then BitVec.ofNat 32 s.pool.stranded
  else if a = 0x0040 then BitVec.ofNat 32 s.mem.corrected
  else if a = 0x0041 then BitVec.ofNat 32 s.mem.uncorrectableData
  else if a = 0x0042 then BitVec.ofNat 32 s.mem.contextErrors
  else if a = 0x0043 then BitVec.ofNat 32 s.mgmt.strayBeats
  else if a = 0x0044 then BitVec.ofNat 32 s.mgmt.strayControls
  else if h : 0x0100 ≤ a ∧ a < 0x0110 then s.mgmt.resultWords[a - 0x0100]'(by omega)
  else 0

/-- The configuration with the word at an address written: the bits its layout assigns are stored and the others
dropped (R181); none for an address that names no configuration word. -/
def Configuration.write (c : Configuration) (addr : BitVec 16) (v : Word32) : Option Configuration :=
  let a := addr.toNat
  if a = 0x0010 then some { c with nSeg := v.setWidth 16 }
  else if a = 0x0011 then some { c with memSize := v.setWidth 23 }
  else if a = 0x0012 then some { c with segBase := v.setWidth 22 }
  else if a = 0x0013 then some { c with ctxBase := v.setWidth 22 }
  else if a = 0x0014 then some { c with floors := c.floors.set 0 (v.setWidth 16) }
  else if a = 0x0015 then some { c with floors := c.floors.set 1 (v.setWidth 16) }
  else if a = 0x0016 then some { c with floors := c.floors.set 2 (v.setWidth 16) }
  else if a = 0x0017 then some { c with floors := c.floors.set 3 (v.setWidth 16) }
  else if a = 0x0018 then some { c with warning := v.setWidth 16 }
  else if a = 0x0019 then some { c with gapTimeout := v.setWidth 8 }
  else if a = 0x001A then some { c with
    adminRole := #v[v.getLsbD 0, v.getLsbD 1, v.getLsbD 2, v.getLsbD 3],
    poolNotice := #v[v.getLsbD 4, v.getLsbD 5, v.getLsbD 6, v.getLsbD 7] }
  else none

/-- Word 0 to 3 of READ_FLOW's results (R180). -/
def FlowEntry.resultWord (e : FlowEntry) : Nat → Word32
  | 0 => BitVec.ofNat 32 (e.state.code + 2 ^ 2 * bit e.halt.isSome + 2 ^ 3 * haltCode e.halt + 2 ^ 5 * e.consumer.val +
      2 ^ 7 * e.cls.val + 2 ^ 9 * bit e.ready + 2 ^ 10 * bit e.listed + 2 ^ 11 * bit e.dispatched +
      2 ^ 16 * (match e.residency with
        | some S => S.val
        | none => 127))
  | 1 => BitVec.ofNat 32 (flowField e.prev + 2 ^ 16 * flowField e.next)
  | 2 => BitVec.ofNat 32 (e.segCount + 2 ^ 16 * e.admittedSegs)
  | 3 => BitVec.ofNat 32 e.admittedUnits
  | _ => 0

end Sys2Proof.Machine
end

