-- ==== Sys2Proof/Machine/Flags.lean ====
section
/-! DEFINITION. The conditions the part computes from its state: held, evictable, ready, drain end, room, and when an event may be taken. -/

namespace Sys2Proof.Machine

/-- The holder of a flow: the port whose record in HELD or LAPSING names it (R121). -/
def State.holder (s : State) (f : FlowId) : Option PortId :=
  allPorts.find? (fun p => decide ((s.hold p).state ≠ .empty) && decide ((s.hold p).flow = f))

/-- A port other than the holder meets a held flow (R125). -/
def State.heldAgainst (s : State) (f : FlowId) (p : PortId) : Bool :=
  match s.holder f with
  | some h => decide (h ≠ p)
  | none => false

/-- The rescue mark: yes exactly when the return list is non-empty (R57). -/
def Slot.rescueMark (v : Slot) : Bool := !v.returnList.isEmpty

/-- Whether the flow of a slot is held. -/
def State.slotHeld (s : State) (S : SlotId) : Bool :=
  match (s.slot S).flow with
  | some f => (s.holder f).isSome
  | none => false

/-- Whether a slot is evictable (R47). -/
def State.evictable (s : State) (S : SlotId) : Bool :=
  let v := s.slot S
  decide (v.state = .resident) && decide (v.pins = 0) && !s.slotHeld S && v.pendingList.isEmpty &&
    v.returnList.isEmpty && v.parkedList.isEmpty && !v.delivering

/-- Whether a slot is counted in the pinned-or-held count (R47). -/
def State.counted (s : State) (S : SlotId) : Bool := decide (0 < (s.slot S).pins) || s.slotHeld S

/-- The ready condition (R107). -/
def readyCondition (e : FlowEntry) (c : Context) : Bool :=
  e.halt.isNone &&
    ((decide (e.state = .opened) && decide (c.readyThreshold.toNat ≤ c.unitCount.toNat)) ||
     (decide (e.state = .draining) && decide (1 ≤ c.unitCount.toNat)))

/-- The drain end test (R17). -/
def FlowEntry.drainEnded (e : FlowEntry) : Bool :=
  decide (e.state = .draining) && decide (e.segCount = 0) && decide (e.admittedUnits = 0)

/-- A flow is halted with cause CTXERR. -/
def FlowEntry.lost (e : FlowEntry) : Bool := decide (e.halt = some .ctxErr)

/-- free − reserved is below warning (R41). -/
def State.poolLow (s : State) : Bool := decide (s.pool.free - s.pool.reserved < s.config.warning.toNat)

/-- free − reserved has reached the re-arm level (R41). -/
def State.poolRearmed (s : State) : Bool :=
  decide (s.config.warning.toNat + 64 ≤ s.pool.free - s.pool.reserved)

/-- How many DATA beats stand in an outbound queue (R92, R144). -/
def beatsIn (q : List OutMsg) : Nat :=
  q.countP (fun m => match m with
    | .data _ => true
    | _ => false)

/-- A notice is flow-bearing (R146). -/
def Notice.flowBearing : Notice → Bool
  | .ready | .poolLow => false
  | .holdLapsed _ | .drained _ | .halted _ _ => true

/-- A port's count of flow-bearing notices: raised and not yet departed (R146). -/
def PortUnit.flowBearing (u : PortUnit) : Nat :=
  u.noticeQueue.length + u.outbound.countP (fun m => match m with
    | .notice n _ => n.flowBearing
    | _ => false)

/-- How many flows stand in a port's four ready lists (R117). -/
def State.listedFlows (s : State) (p : PortId) : Nat :=
  (allClasses.map (fun c => (s.readyList p c).length)).sum

/-- How many word writes wait in a port access queue (R156). -/
def writesIn (q : List PortAccess) : Nat :=
  q.countP (fun a => match a with
    | .write _ => true
    | .read _ => false)

/-- A beat read of a port, an abandoned one included, waits or is in progress (R92). -/
def State.readOutstanding (s : State) (p : PortId) : Bool :=
  s.mem.portQueue[p].any (fun a => match a with
    | .write _ => false
    | .read _ => true) ||
  (match s.mem.inProgress with
    | some (.beatRead q _) => decide (q = p)
    | _ => false)

/-- The delivery engine issues a port's next beat read (R92). -/
def State.readDue (s : State) (p : PortId) : Bool :=
  let d := s.del p
  decide (d.state = .streaming) && !d.readInFlight && decide (d.sent < d.planned) &&
    decide (beatsIn (s.unit p).outbound < 48) && !s.readOutstanding p

/-- The head of the consumer queue is handed on (R88). -/
def State.handOnDue (s : State) (p : PortId) : Bool :=
  (s.unit p).current.isNone && !(s.unit p).consumerQueue.isEmpty

/-- A tag is in use for check 1 of R141. -/
def TagRecord.taken (r : TagRecord) : Bool :=
  decide (r.status = .inUse) || (decide (r.status = .orphaned) && r.busyAnswer)

/-- The message a port unit would take in next: the head of its inbound buffer, while the port is UP and its assembly
record is not ADMITTING (R140, R70). -/
def State.nextMessage (s : State) (p : PortId) : Option Message :=
  if (s.unit p).state = .up ∧ (s.asm p).state ≠ .admitting then (s.unit p).inbound.head? else none

/-- A PUT at the head waits for an assembly that has taken all its bytes (R69). -/
def State.putWaits (s : State) (p : PortId) : Bool :=
  decide ((s.asm p).state = .assembling) && decide ((s.asm p).taken = (s.asm p).declared)

/-- A beat at the head waits for 3 of the 16 places of the port access queue (R156). -/
def State.beatWaits (s : State) (p : PortId) : Bool :=
  decide ((s.asm p).state = .assembling) && decide (16 < writesIn s.mem.portQueue[p] + 3)

/-- A port's gap timer has expired: it runs, and the time since it last started has reached the limit x 10 us; a limit
of 0 never expires (R77). -/
def State.gapDue (s : State) (p : PortId) : Bool :=
  decide (s.config.gapTimeout ≠ 0) && (s.asm p).gapTimer.any (fun n => decide (10 * s.config.gapTimeout.toNat ≤ n))

/-- The lease of a port's HELD record has reached 0 (R129). -/
def State.leaseDue (s : State) (p : PortId) : Bool := decide ((s.hold p).state = .held) && decide ((s.hold p).lease = 0)

/-- The event being taken has left nothing to do: no retry is due, no request to hand on, no beat read to issue, and
no access to grant. Between events a state is quiet. -/
def State.quiet (s : State) : Bool :=
  !s.retryDue && allPorts.all (fun p => !s.handOnDue p && !s.readDue p) &&
    (s.mem.inProgress.isSome ||
      (s.mem.fillQueue.isEmpty && s.mem.spillQueue.isEmpty && allPorts.all (fun p => s.mem.portQueue[p].isEmpty) &&
        s.mem.mgmtRead.isNone))

end Sys2Proof.Machine
end

