-- ==== Sys2Proof/Machine/Outbound.lean ====
section
/-! DEFINITION. The outbound side of a port unit: placing, displacement, notices, answers, and the READY flag (R117, R142, R144 to R147). -/

namespace Sys2Proof.Machine

/-! ## Notices (R146, R147) -/

/-- Place one waiting notice, if one waits: READY, then POOL_LOW, then the head of the notice queue. Its overflow field
is yes if it kept a yes at a displacement or the overflow flag is yes, and the flag becomes no (R147; log entry 22). -/
def PortUnit.placeOneNotice (u : PortUnit) : Option PortUnit :=
  match u.readyWaiting with
  | some kept => some { u with
      readyWaiting := none, overflow := false, outbound := u.outbound ++ [.notice .ready (kept || u.overflow)] }
  | none =>
    match u.poolLowWaiting with
    | some kept => some { u with
        poolLowWaiting := none, overflow := false,
        outbound := u.outbound ++ [.notice .poolLow (kept || u.overflow)] }
    | none =>
      match u.noticeQueue with
      | [] => none
      | (n, kept) :: rest => some { u with
          noticeQueue := rest, overflow := false, outbound := u.outbound ++ [.notice n (kept || u.overflow)] }

/-- Place waiting notices one at a time while the queue holds fewer than 64 messages (R147); `n` bounds how many. -/
def PortUnit.placeNotices : Nat → PortUnit → PortUnit
  | 0, u => u
  | n + 1, u =>
    if u.outbound.length < 64 then
      match u.placeOneNotice with
      | some u' => PortUnit.placeNotices n u'
      | none => u
    else u

/-- Place every waiting notice there is room for: at most a READY, a POOL_LOW and the notice queue wait. -/
def PortUnit.noticesPlaced (u : PortUnit) : PortUnit := u.placeNotices (u.noticeQueue.length + 2)

/-- The notice nearest the tail of a queue, and the queue without it. -/
def lastNotice : List OutMsg → Option (Notice × Bool × List OutMsg)
  | [] => none
  | m :: q =>
    match lastNotice q with
    | some (n, o, q') => some (n, o, m :: q')
    | none =>
      match m with
      | .notice n o => some (n, o, q)
      | _ => none

/-- Merge a displaced READY or POOL_LOW with a waiting one: the overflow field is kept if either is yes (R147). -/
def mergeWaiting (w : Option Bool) (o : Bool) : Option Bool := some (o || w.getD false)

/-- A displacement: the notice nearest the tail goes back to waiting and keeps its overflow field (R147). -/
def PortUnit.displaced (u : PortUnit) : PortUnit :=
  match lastNotice u.outbound with
  | none => u
  | some (.ready, o, q) => { u with outbound := q, readyWaiting := mergeWaiting u.readyWaiting o }
  | some (.poolLow, o, q) => { u with outbound := q, poolLowWaiting := mergeWaiting u.poolLowWaiting o }
  | some (n, o, q) => { u with outbound := q, noticeQueue := (n, o) :: u.noticeQueue }

/-- Place a message of a tag or a beat at the tail, displacing a notice of a full queue (R144, R147). A port that is
not UP is sent nothing: the message is discarded (R150). -/
def PortUnit.place (m : OutMsg) (u : PortUnit) : PortUnit :=
  if u.state ≠ .up then u
  else if u.outbound.length < 64 then { u with outbound := u.outbound ++ [m] }
  else
    let v := u.displaced
    { v with outbound := v.outbound ++ [m] }.noticesPlaced

/-- The raising of a notice at a port unit (R146). -/
def PortUnit.raise (n : Notice) (u : PortUnit) : PortUnit :=
  if u.state ≠ .up then u
  else match n with
    | .ready => { u with readyWaiting := mergeWaiting u.readyWaiting false }.noticesPlaced
    | .poolLow => { u with poolLowWaiting := mergeWaiting u.poolLowWaiting false }.noticesPlaced
    | _ =>
      if 8 ≤ u.flowBearing then { u with overflow := true }.noticesPlaced
      else { u with noticeQueue := u.noticeQueue ++ [(n, false)] }.noticesPlaced

def State.place (s : State) (p : PortId) (m : OutMsg) : State := s.setUnit p ((s.unit p).place m)

def State.raise (s : State) (p : PortId) (n : Notice) : State := s.setUnit p ((s.unit p).raise n)

/-! ## Answers (R142, R86) -/

/-- A TAKE or PEEK is answered by an END, every other request by a RESPONSE (R141). -/
def ReqKind.endsByEnd : ReqKind → Bool
  | .take | .peek => true
  | .openFlow | .closeFlow | .query | .put | .drop | .next | .hold | .release | .pin | .unpin | .undefined => false

/-- The kinds of a consumer request (R86). -/
def ReqKind.isConsumer : ReqKind → Bool
  | .take | .peek | .drop => true
  | .openFlow | .closeFlow | .query | .put | .next | .hold | .release | .pin | .unpin | .undefined => false

/-- A current consumer request ends with its final response (R86). -/
def PortUnit.currentEnded (u : PortUnit) (t : TagId) : PortUnit :=
  if u.current = some t ∧ (u.tag t).request.kind.isConsumer then { u with current := none } else u

/-- The final response of a request is placed: its record is responding, and a current consumer request ends (R142,
R86). -/
def State.answered (s : State) (p : PortId) (t : TagId) (m : OutMsg) : State :=
  let u := (s.unit p).setTag t { (s.unit p).tag t with phase := .responding }
  s.setUnit p ((u.currentEnded t).place m)

/-- A RESPONSE as the final response. -/
def State.respond (s : State) (p : PortId) (t : TagId) (st : Status) (res : Result) : State :=
  s.answered p t (.response t st res .final)

/-- An END as the final response. -/
def State.respondEnd (s : State) (p : PortId) (t : TagId) (st : Status) (count : Nat) : State :=
  s.answered p t (.endMsg t st count .final)

/-- A refusal as the final response: an END for TAKE and PEEK, a RESPONSE otherwise (R9, R87, R141). -/
def State.refuse (s : State) (p : PortId) (t : TagId) (st : Status) : State :=
  if (s.tagRec p t).request.kind.endsByEnd then s.respondEnd p t st 0 else s.respond p t st .none

/-- The management command in flight is DONE with a result and the result words given (R164). -/
def State.commandDone (s : State) (r : MgmtResult) (ws : Vector Word32 16) : State :=
  s.setMgmt { s.mgmt with command := .done, result := some r, resultWords := ws }

/-- The command result that stands for a status (R171). -/
def Status.asResult : Status → MgmtResult
  | .closed => .closed
  | .ctxErr => .ctxErr
  | .busy => .busy
  | _ => .ok

/-- The beats of a refused PUT are taken in and discarded: its assembly record enters DISCARDING, or stays IDLE when
the length announces no beats (R68, R73). The flow and needed of a DISCARDING record are 0, the model's choice (log entry
35). A record that is ASSEMBLING has no PUT to be refused (R70; log entry 27). -/
def State.discardBeats (s : State) (p : PortId) (declared : Nat) : State :=
  if (s.asm p).state = .assembling then s
  else if declared = 0 then s.setAsm p Assembly.initial
  else s.setAsm p { Assembly.initial with state := .discarding, declared := declared, gapTimer := some 0 }

/-- The refusal of a PUT, and the discard of its beats. -/
def State.refusePut (s : State) (p : PortId) (t : TagId) (st : Status) : State :=
  (s.refuse p t st).discardBeats p (s.tagRec p t).request.argA.toNat

/-- A request met in a list or wait is answered with a status: a PUT's beats are discarded (R55), and CLEAR_HALT is
answered on the management port. -/
def State.answerReq (s : State) (st : Status) : Req → State
  | .request p t =>
    if (s.tagRec p t).request.kind = .put then s.refusePut p t st else s.refuse p t st
  | .clearHalt _ => s.commandDone st.asResult (Vector.replicate 16 0)

/-- The final response of a finished unit's PUT, when its link is served or refused. The response of an orphaned tag is
discarded, and its record is freed unless a BUSY answer on it is outstanding (R142, R83). -/
def State.answerLink (s : State) (p : PortId) (t : TagId) (st : Status) : State :=
  let r := s.tagRec p t
  if r.status = .orphaned then
    if r.busyAnswer then s.setTagRec p t { r with unit := none } else s.setTagRec p t TagRecord.initial
  else (s.setTagRec p t { r with unit := none }).respond p t st .none

/-! ## READY (R116 to R118) -/

/-- An arming by ARM or by the transition to UP: READY is raised at once if the lists are not empty (R117, R118). -/
def State.armReady (s : State) (p : PortId) : State :=
  if 0 < s.listedFlows p then
    (s.setUnit p { s.unit p with readyArmed := false }).raise p .ready
  else s.setUnit p { s.unit p with readyArmed := true }

/-- The port's lists have gone from all empty to non-empty (R117). -/
def State.listsFilled (s : State) (p : PortId) : State :=
  if (s.unit p).readyArmed then (s.setUnit p { s.unit p with readyArmed := false }).raise p .ready else s

end Sys2Proof.Machine
end

