-- ==== Sys2Proof/Machine/Pool.lean ====
section
/-! DEFINITION. The segment pool: the link table, allocation, release, reservation and the POOL_LOW flag (chapter 2). -/

namespace Sys2Proof.Machine

/-- What the link table holds at an index since the last INIT sweep of `swept` segments, power-on or RESTART (R27).
The fill has no meaning until it is written (log entry 10). -/
def sweptEntry (swept n : Nat) : LinkEntry where
  next := if 0 < n ∧ n < swept then n + 1 else 0
  last := false
  fill := 0

/-- The link table entry at an index (R25). -/
def Pool.link (P : Pool) (n : Nat) : LinkEntry := Table.get (sweptEntry P.swept n) P.links n

def Pool.setLink (P : Pool) (n : Nat) (e : LinkEntry) : Pool :=
  { P with links := Table.put (sweptEntry P.swept n) P.links n e }

/-- Entry `n` takes a next. -/
def Pool.setNext (P : Pool) (n next : Nat) : Pool := P.setLink n { P.link n with next := next }

/-- The segments of a unit of a given length (R26). -/
def neededFor (length : Nat) : Nat := (length + 127) / 128

/-- The fill of the k-th segment of a unit, k from 1 (R26). -/
def fillOf (length k : Nat) : Nat :=
  if k = neededFor length then length - 128 * (neededFor length - 1) else 128

/-- A chain joins another at the old chain's last segment (R26, R37): nothing to do when there is none. -/
def Pool.join (P : Pool) (last first : Nat) : Pool := if last = 0 then P else P.setNext last first

/-- The release of a chain of `count` segments to the tail of the free list (R30). A chain of no segments is not
released. -/
def Pool.release (P : Pool) (first last count : Nat) : Pool :=
  if count = 0 then P
  else
    let P := P.setNext last 0
    let P := if P.freeHead = 0 then { P with freeHead := first } else P.setNext P.freeTail first
    { P with freeTail := last, free := P.free + count }

/-- The head of the free list leaves it, and its entry becomes the k-th of a unit of a given length (R29). -/
def Pool.allocate (P : Pool) (length k : Nat) : Pool :=
  let S := P.freeHead
  let head := (P.link S).next
  let P := if S = P.freeTail then { P with freeHead := 0, freeTail := 0 } else { P with freeHead := head }
  { P with free := P.free - 1, reserved := P.reserved - 1 }.setLink S
    { next := 0, last := decide (k = neededFor length), fill := fillOf length k }

/-- The segments of a unit, from one of its segments through the one with last-of-unit yes; `n` bounds the walk (a
unit has at most 128, R26). -/
def Pool.unitFrom (P : Pool) : Nat → Nat → List Nat
  | 0, _ => []
  | n + 1, seg =>
    if seg = 0 then []
    else if (P.link seg).last then [seg]
    else seg :: Pool.unitFrom P n (P.link seg).next

/-- The segments of the next `k` units of a chain from a segment; `n` bounds the walk. -/
def Pool.unitsFrom (P : Pool) : Nat → Nat → Nat → List Nat
  | 0, _, _ => []
  | n + 1, k, seg =>
    if seg = 0 ∨ k = 0 then []
    else seg :: Pool.unitsFrom P n (if (P.link seg).last then k - 1 else k) (P.link seg).next

/-- The sum of the fills of segments (R91). -/
def Pool.fills (P : Pool) (segs : List Nat) : Nat := (segs.map (fun n => (P.link n).fill)).sum

/-- After each release and each abort: the flag becomes yes at the re-arm level (R41). -/
def State.rearm (s : State) : State :=
  if !s.pool.lowArmed && s.poolRearmed then s.setPool { s.pool with lowArmed := true } else s

/-- A release, with the re-arm test after it (R30, R41). A release of no segments is not made. -/
def State.release (s : State) (first last count : Nat) : State :=
  if count = 0 then s else (s.setPool (s.pool.release first last count)).rearm

/-- The segments of a list, which are a chain in that order, are released (R30). -/
def State.releaseSegs (s : State) (segs : List Nat) : State :=
  s.release (segs.head?.getD 0) (segs.getLast?.getD 0) segs.length

/-- After each admission: a fall below warning raises POOL_LOW to every UP port with its enable set (R41). -/
def State.warnPoolLow (s : State) : State :=
  if s.pool.lowArmed && s.poolLow then
    allPorts.foldl (fun s p => if s.config.poolNotice[p] then s.raise p .poolLow else s)
      (s.setPool { s.pool with lowArmed := false })
  else s

/-- The pool's part of an admission's tests: the refusal, or none (R33). -/
def State.poolRefusal (s : State) (f : FlowId) (quota needed : Nat) : Option Status :=
  let e := s.flow f
  if quota ≠ 0 ∧ quota < e.segCount + e.admittedSegs + needed then some .quota
  else if s.pool.free - s.pool.reserved < needed + s.config.floors[e.cls].toNat then some .nospace
  else none

/-- The reservation of an admission, with the POOL_LOW test after it (R33, R41). -/
def State.reserve (s : State) (f : FlowId) (needed : Nat) : State :=
  let e := s.flow f
  let s := s.setPool { s.pool with reserved := s.pool.reserved + needed }
  (s.setFlow f { e with admittedSegs := e.admittedSegs + needed, admittedUnits := e.admittedUnits + 1 }).warnPoolLow

/-- A unit's admission leaves the flow map counts (R5): at an abort and at a refused link. -/
def State.unadmit (s : State) (f : FlowId) (needed : Nat) : State :=
  let e := s.flow f
  s.setFlow f { e with admittedSegs := e.admittedSegs - needed, admittedUnits := e.admittedUnits - 1 }

end Sys2Proof.Machine
end

