-- ==== Sys2Proof/Machine/MemoryControl.lean ====
section
/-! DEFINITION. The memory controller: regions, check codes, gather words, the arbiter, and accesses cut short (chapter 9). -/

namespace Sys2Proof.Machine

/-! ## Regions (R153) -/

/-- The SRAM word that holds word `w` of segment `n`. -/
def State.segWordAddr (s : State) (n w : Nat) : Nat := s.config.segBase.toNat + 16 * (n - 1) + w

/-- The SRAM word that holds word `i` of the record of flow `f`. -/
def State.recordWordAddr (s : State) (f : FlowId) (i : Nat) : Nat := s.config.ctxBase.toNat + 4 * f.val + i

/-! ## Check codes (R154, R155) -/

/-- The outcome of a word's check (R155). -/
inductive WordOutcome where
  | clean | corrected | uncorrectable
  deriving DecidableEq, Repr

/-- What a read of one word yields: the outcome and the data as read, with a corrected word corrected. -/
structure WordReport where
  outcome : WordOutcome
  data : Word64
  deriving DecidableEq, Repr

/-- How many bits of a value are one. -/
def onesIn {n : Nat} (x : BitVec n) : Nat := (List.range n).countP (fun i => x.getLsbD i)

/-- How many bits an error pattern makes wrong. -/
def errorWeight (e : ErrorPattern) : Nat := onesIn e.data + onesIn e.code

def outcomeOfCode (c : Fin 3) : WordOutcome :=
  if c = 0 then .clean else if c = 1 then .corrected else .uncorrectable

/-- The check of a word that the part wrote, presented with an error pattern: one wrong bit is corrected, two are
detected (R154); more have a free outcome (log entry 7). -/
def checkWord (stored : Word64) (e : ErrorPattern) : WordReport :=
  if errorWeight e = 0 then { outcome := .clean, data := stored }
  else if errorWeight e = 1 then { outcome := .corrected, data := stored }
  else if errorWeight e = 2 then { outcome := .uncorrectable, data := stored ^^^ e.data }
  else
    let r := Config.manyWrongBits stored e.data e.code
    match outcomeOfCode r.1 with
    | .corrected => { outcome := .corrected, data := r.2 }
    | o => { outcome := o, data := stored ^^^ e.data }

/-- The read of SRAM word `a`, presented with an error pattern. A word never written by the part, or damaged, has free
contents and a free check code (log entries 6 and 8). -/
def State.readSram (s : State) (a : Nat) (e : ErrorPattern) : WordReport :=
  match Memory.readWord s.sram a with
  | some w => checkWord w e
  | none =>
    let r := Config.unknownWord a (Table.get 0 s.damage a) e.data e.code
    { outcome := outcomeOfCode r.1, data := r.2 }

/-- The write of SRAM word `a`, whole, with a fresh check code (R154). -/
def State.writeSram (s : State) (a : Nat) (w : Word64) : State :=
  { s with sram := Memory.writeWord s.sram a w, damage := Table.erase s.damage a }

/-- Word `a` was being written when its access was cut short: any data and any check code (R162; log entry 8). -/
def State.damageWord (s : State) (a : Nat) : State :=
  { s with sram := Memory.forgetWord s.sram a, damage := Table.insert s.damage a (s.drawn + 1), drawn := s.drawn + 1 }

/-- The damage of the access in progress (R162): the words it was writing. -/
def State.cutShort (s : State) : State :=
  match s.mem.inProgress with
  | some (.spill _ f) => (List.range 4).foldl (fun s i => s.damageWord (s.recordWordAddr f i)) s
  | some (.wordWrite _ w) => s.damageWord (s.segWordAddr w.seg w.word)
  | some (.fill _ _) | some (.beatRead _ _) | some (.diagnostic _) | none => s

/-- Count the corrected words among reports (R155). -/
def State.countCorrected (s : State) (rs : List WordReport) : State :=
  s.setMem { s.mem with
    corrected := saturating s.mem.corrected (rs.countP (fun r => decide (r.outcome = .corrected))) }

/-- The four reports of a record's words (R156). -/
def State.readRecord (s : State) (f : FlowId) (es : Vector ErrorPattern 4) : Vector WordReport 4 :=
  #v[s.readSram (s.recordWordAddr f 0) es[0], s.readSram (s.recordWordAddr f 1) es[1],
     s.readSram (s.recordWordAddr f 2) es[2], s.readSram (s.recordWordAddr f 3) es[3]]

/-- The record that four reports make up. -/
def recordOfReports (rs : Vector WordReport 4) : BitVec 256 :=
  recordOfWords rs[0].data rs[1].data rs[2].data rs[3].data

/-- Whether the outcome of a fill is a sound record (R160). -/
def fillSound (rs : Vector WordReport 4) : Bool :=
  rs.toList.all (fun r => decide (r.outcome ≠ .uncorrectable)) && recordSound (recordOfReports rs)

/-! ## Gather words and word writes (R154, R156) -/

def MemController.setQueue (m : MemController) (p : PortId) (q : List PortAccess) : MemController :=
  { m with portQueue := m.portQueue.set p.val q p.isLt }

def MemController.setGather (m : MemController) (p : PortId) (g : Option GatherWord) : MemController :=
  { m with gather := m.gather.set p.val g p.isLt }

/-- A port's gather word becomes a word write at the tail of its queue, with 0 in the positions not reached. -/
def State.flushGather (s : State) (p : PortId) (live : Bool) : State :=
  match s.mem.gather[p] with
  | none => s
  | some g =>
    let w : WordWrite :=
      { seg := g.seg, word := g.word, data := wordOfBytes g.bytes, ends := g.ends, live := live, stamp := s.handed }
    { s with
      mem := (s.mem.setQueue p (s.mem.portQueue[p] ++ [.write w])).setGather p none
      handed := s.handed + 1 }

/-- A byte is placed in the port's gather word: at `off` of segment `seg`. `ends` says that a write ends with it, and
`final` that it is the unit's last byte (R154). -/
def State.gatherByte (s : State) (p : PortId) (seg off : Nat) (b : Byte) (ends final : Bool) : State :=
  let g := (s.mem.gather[p]).getD { seg := seg, word := off / 8, bytes := [], ends := 0 }
  let g := { g with bytes := g.bytes ++ [b], ends := g.ends + (if ends then 1 else 0) }
  let s := s.setMem (s.mem.setGather p (some g))
  if g.bytes.length = 8 ∨ final then s.flushGather p true else s

/-- A word write whose reports no longer concern an assembly (R82). -/
def PortAccess.orphaned : PortAccess → PortAccess
  | .write w => .write { w with live := false }
  | .read r => .read r

/-- The word writes of a port's aborted assembly, its gather word included, are still carried out, and their reports
no longer concern the record (R82, R162). -/
def State.abandonWrites (s : State) (p : PortId) : State :=
  let s := s.flushGather p false
  let m := s.mem.setQueue p (s.mem.portQueue[p].map PortAccess.orphaned)
  s.setMem { m with
    inProgress := match m.inProgress with
      | some (.wordWrite q w) => some (.wordWrite q (if q = p then { w with live := false } else w))
      | a => a }

/-- A beat read whose report is discarded (R162). -/
def PortAccess.abandonedRead : PortAccess → PortAccess
  | .write w => .write w
  | .read r => .read { r with live := false }

/-- The port's beat read, waiting or in progress, is abandoned (R100, R105, R162). -/
def State.abandonRead (s : State) (p : PortId) : State :=
  let m := s.mem.setQueue p (s.mem.portQueue[p].map PortAccess.abandonedRead)
  s.setMem { m with
    inProgress := match m.inProgress with
      | some (.beatRead q r) => some (.beatRead q (if q = p then { r with live := false } else r))
      | a => a }

/-! ## Beat reads (R92) -/

/-- Where the next `n` bytes of a delivery lie, and the read position after them: past the end of a segment's fill the
read goes on at offset 0 of the segment that its next names (R92). -/
def Pool.readBytes (P : Pool) : Nat → Nat → Nat → List (Nat × Nat) × Nat × Nat
  | 0, seg, off => ([], seg, off)
  | n + 1, seg, off =>
    let past := if off + 1 < (P.link seg).fill then (seg, off + 1) else ((P.link seg).next, 0)
    let r := Pool.readBytes P n past.1 past.2
    ((seg, off) :: r.1, r.2)

/-- Issue a port's next beat read (R92). -/
def State.issueRead (s : State) (p : PortId) : State :=
  let d := s.del p
  let r := s.pool.readBytes (min 16 (d.planned - d.sent)) d.readSeg d.readOff
  let s := s.setDel p { d with readSeg := r.2.1, readOff := r.2.2, readInFlight := true }
  s.setMem (s.mem.setQueue p (s.mem.portQueue[p] ++ [.read { bytes := r.1, live := true }]))

/-- Issue every beat read that is due. -/
def State.issueReads (s : State) : State := allPorts.foldl (fun s p => if s.readDue p then s.issueRead p else s) s

/-- The words a beat read covers, in order (R156). -/
def BeatRead.words (r : BeatRead) : List (Nat × Nat) := ((r.bytes.map (fun b => (b.1, b.2 / 8))).eraseDups)

/-- The reports of a beat read's words. -/
def State.readBeat (s : State) (r : BeatRead) (es : List ErrorPattern) : List ((Nat × Nat) × WordReport) :=
  (r.words.zip es).map (fun we => (we.1, s.readSram (s.segWordAddr we.1.1 we.1.2) we.2))

/-- The bytes of a beat, from its words' reports. -/
def beatBytes (r : BeatRead) (ws : List ((Nat × Nat) × WordReport)) : List Byte :=
  r.bytes.map (fun b =>
    match ws.find? (fun w => decide (w.1 = (b.1, b.2 / 8))) with
    | some w => wordByte w.2.data (b.2 % 8)
    | none => 0)

/-! ## The arbiter (R157, R158) -/

/-- A word write to a segment, handed before a stamp, waits in a queue. -/
def earlierWrite (seg stamp : Nat) (q : List PortAccess) : Bool :=
  q.any (fun a => match a with
    | .write w => decide (w.seg = seg) && decide (w.stamp < stamp)
    | .read _ => false)

/-- Whether the head of a port's queue is eligible (R158). -/
def MemController.eligible (m : MemController) (p : PortId) : Bool :=
  match m.portQueue[p] with
  | [] => false
  | .read _ :: _ => true
  | .write w :: _ => allPorts.all (fun q => decide (q = p) || !earlierWrite w.seg w.stamp m.portQueue[q])

/-- The ports in order from the one after the last granted (R157). -/
def rotation (last : PortId) : List PortId := [last + 1, last + 2, last + 3, last]

/-- The grant (R157): the oldest fill, else the oldest spill, else an eligible port in rotation, else the management
read. Nothing is granted while an access is in progress. -/
def MemController.grant (m : MemController) : MemController :=
  if m.inProgress.isSome then m
  else match m.fillQueue with
  | (S, f) :: q => { m with fillQueue := q, inProgress := some (.fill S f) }
  | [] =>
    match m.spillQueue with
    | (S, f) :: q => { m with spillQueue := q, inProgress := some (.spill S f) }
    | [] =>
      match (rotation m.lastPort).find? m.eligible with
      | some p =>
        match m.portQueue[p] with
        | .write w :: q => { m.setQueue p q with inProgress := some (.wordWrite p w), lastPort := p }
        | .read r :: q => { m.setQueue p q with inProgress := some (.beatRead p r), lastPort := p }
        | [] => m
      | none =>
        match m.mgmtRead with
        | some f => { m with mgmtRead := none, inProgress := some (.diagnostic f) }
        | none => m

/-- The access in progress ends. -/
def State.accessEnded (s : State) : State := s.setMem { s.mem with inProgress := none }

end Sys2Proof.Machine
end

