-- ==== Sys2Proof/Machine/ReadyLists.lean ====
section
/-! DEFINITION. The ready lists: listing, withdrawal, the comparison of R111, and re-evaluation (chapter 6). -/

namespace Sys2Proof.Machine

/-- A listing at the tail of the list of the flow's consumer and class; READY is raised when the port's lists were all
empty and the flag is yes (R110, R117). -/
def State.listFlow (s : State) (f : FlowId) : State :=
  let e := s.flow f
  let l := s.readyList e.consumer e.cls
  let before := s.listedFlows e.consumer
  let s := s.setFlow f { e with prev := l.tail, next := none, listed := true }
  let s := match l.tail with
    | none => s
    | some g => s.setFlow g { s.flow g with next := some f }
  let s := s.setReadyList e.consumer e.cls
    { head := if l.tail.isNone then some f else l.head, tail := some f, length := l.length + 1 }
  if before = 0 then s.listsFilled e.consumer else s

/-- A withdrawal from the position where the flow stands (R110). -/
def State.withdrawFlow (s : State) (f : FlowId) : State :=
  let e := s.flow f
  let l := s.readyList e.consumer e.cls
  let s := match e.prev with
    | none => s
    | some g => s.setFlow g { s.flow g with next := e.next }
  let s := match e.next with
    | none => s
    | some g => s.setFlow g { s.flow g with prev := e.prev }
  let s := s.setReadyList e.consumer e.cls
    { head := if e.prev.isNone then e.next else l.head, tail := if e.next.isNone then e.prev else l.tail,
      length := l.length - 1 }
  s.setFlow f { s.flow f with prev := none, next := none, listed := false }

/-- The comparison of a flow's ready, dispatched and listed fields (R111). -/
def State.relist (s : State) (f : FlowId) : State :=
  let e := s.flow f
  if e.ready && !e.dispatched then (if e.listed then s else s.listFlow f)
  else if e.listed then s.withdrawFlow f else s

/-- Write the ready field, and act on it (R108, R111). -/
def State.setReady (s : State) (f : FlowId) (b : Bool) : State := (s.setFlow f { s.flow f with ready := b }).relist f

/-- Readiness is re-evaluated at the flow's slot (R107, R108). -/
def State.reevaluate (s : State) (f : FlowId) (S : SlotId) : State :=
  s.setReady f (readyCondition (s.flow f) (s.slot S).context)

/-- The dispatched field becomes no, and R111 is applied (R112). -/
def State.undispatch (s : State) (f : FlowId) : State := (s.setFlow f { s.flow f with dispatched := false }).relist f

/-- The dispatched field becomes no, and readiness is re-evaluated, in one comparison (R96, R104, R115). -/
def State.undispatchAndReevaluate (s : State) (f : FlowId) (S : SlotId) : State :=
  (s.setFlow f { s.flow f with dispatched := false }).reevaluate f S

/-- A TAKE or DROP is refused EMPTY: ready no and dispatched no (R90, R103, R108, R112). -/
def State.foundEmpty (s : State) (f : FlowId) : State :=
  (s.setFlow f { s.flow f with dispatched := false }).setReady f false

/-- The first class whose list is non-empty, and its head (R113). -/
def State.nextListed (s : State) (p : PortId) : Option (ClassId × FlowId) :=
  allClasses.findSome? (fun c => ((s.readyList p c).head).map (fun f => (c, f)))

end Sys2Proof.Machine
end

