-- ==== Sys2Proof/Machine/Closing.lean ====
section
/-! DEFINITION. A flow enters CLOSED, and the drain end (R16, R17). -/

namespace Sys2Proof.Machine

/-- A slot goes FREE: it holds no flow, and its other fields take their reset values (R43; log entry 13). -/
def State.freeSlot (s : State) (S : SlotId) : State := (s.setSlot S Slot.initial).dueRetry

/-- A flow's residency is written (R4, R44). -/
def State.setResidency (s : State) (f : FlowId) (r : Option SlotId) : State :=
  s.setFlow f { s.flow f with residency := r }

/-- A slot is RESIDENT with the context of a flow. -/
def State.residentWith (s : State) (S : SlotId) (f : FlowId) : Bool :=
  decide ((s.slot S).state = .resident) && decide ((s.slot S).flow = some f)

/-- The slot at which a flow's requests are served: the one its residency names, when RESIDENT (R48). -/
def State.servingSlot (s : State) (f : FlowId) : Option SlotId :=
  match (s.flow f).residency with
  | some S => if s.residentWith S f then some S else none
  | none => none

/-- The holder's record of a flow becomes EMPTY. -/
def State.dropHold (s : State) (f : FlowId) : State :=
  match s.holder f with
  | some p => s.setHold p Hold.initial
  | none => s

/-- The slot's part of entering CLOSED (R16): the slot goes FREE without a spill, the pinned-or-held count falls if the
slot was counted (R47; log entry 15), the hold ends, and the parked requests are answered CLOSED in list order. -/
def State.closeSlot (s : State) (f : FlowId) : State :=
  match s.servingSlot f with
  | none => s.dropHold f
  | some S =>
    let parked := (s.slot S).parkedList
    let s := if s.counted S then { s with pinnedOrHeld := s.pinnedOrHeld - 1 } else s
    let s := ((s.dropHold f).freeSlot S).setResidency f none
    parked.foldl (fun s r => s.answerReq .closed r) s

/-- A flow enters CLOSED (R16). The final response of the request that caused it stands in its queue already. A slot
that fills or spills for the flow goes on (R18). -/
def State.enterClosed (s : State) (f : FlowId) : State :=
  let s := (s.setFlow f { s.flow f with state := .closed, halt := none, ready := false, dispatched := false }).relist f
  s.closeSlot f

/-- The drain end test, and the drain end with its DRAINED notice (R17). -/
def State.drainTest (s : State) (f : FlowId) : State :=
  if (s.flow f).drainEnded then (s.enterClosed f).raise (s.flow f).consumer (.drained f) else s

end Sys2Proof.Machine
end

