-- ==== Sys2Proof/Machine/Services.lean ====
section
/-! DEFINITION. The services at a RESIDENT slot: one for each kind of request, the parked list, the end of a hold, and the link (R12, R14, R19, R64, R72, R80, R90, R103, R123 to R134). -/

namespace Sys2Proof.Machine

def State.setContext (s : State) (S : SlotId) (c : Context) : State := s.setSlot S { s.slot S with context := c }

/-- A service sets the slot's ref flag (R46), and the request is in service (R142). -/
def State.startService (s : State) (S : SlotId) (p : PortId) (t : TagId) : State :=
  (s.setSlot S { s.slot S with ref := true }).setPhase p t .inService

/-- A request parks at the tail of the slot's parked list (R125). -/
def State.park (s : State) (S : SlotId) (p : PortId) (t : TagId) : State :=
  (s.setSlot S { s.slot S with parkedList := (s.slot S).parkedList ++ [.request p t] }).setPhase p t .parked

/-- A request that a hold or an admission blocks: it parks if its wait flag is set, and is refused HELD otherwise
(R123, R125). -/
def State.parkOrHeld (s : State) (S : SlotId) (p : PortId) (t : TagId) : State :=
  if (s.tagRec p t).request.wait then s.park S p t else s.refuse p t .held

/-- The fresh context of an OPEN (R7). -/
def Request.freshContext (r : Request) : Context :=
  { Context.blank with
    producers := r.producers, consumer := BitVec.ofFin r.consumer, cls := BitVec.ofFin r.cls,
    quota := r.argA, readyThreshold := r.argB }

/-- The service of OPEN (R12). It checks the state of the flow map alone, and writes the counts as 0: where the flow was
opened by another OPEN meanwhile and closed under R13 with units still admitted, admitted_units is not looked at again,
which R12 and R23 leave open between them: the model's choice (log entry 31). -/
def State.serveOpen (s : State) (S : SlotId) (p : PortId) (t : TagId) : State :=
  let r := (s.tagRec p t).request
  let f := r.flow
  if (s.flow f).state ≠ .closed then (s.startService S p t).refuse p t .existing
  else
    let s := s.setSlot S { Slot.initial with
      state := .resident, flow := some f, context := r.freshContext, dirty := true, ref := true }
    let s := s.setFlow f { FlowEntry.initial with
      state := .opened, consumer := r.consumer, cls := r.cls, residency := some S }
    s.respond p t .ok (.state .opened)

/-- The service of CLOSE, past the hold rules (R14). -/
def State.serveCloseHere (s : State) (S : SlotId) (p : PortId) (t : TagId) (f : FlowId) : State :=
  let e := s.flow f
  match e.state with
  | .opened =>
    if e.segCount = 0 ∧ e.admittedUnits = 0 then (s.respond p t .ok (.state .closed)).enterClosed f
    else ((s.setFlow f { e with state := .draining }).respond p t .ok (.state .draining)).reevaluate f S
  | .draining => s.respond p t .ok (.state .draining)
  | .closed => s.refuse p t .closed

/-- The service of QUERY (R19). -/
def State.serveQueryHere (s : State) (S : SlotId) (p : PortId) (t : TagId) (f : FlowId) : State :=
  let e := s.flow f
  let v := s.slot S
  s.respond p t .ok (.query e.state e.halt (s.holder f) v.context.unitCount.toNat e.segCount e.admittedUnits
    e.admittedSegs v.context.cursorDone.toNat v.pins)

/-- A HOLD from some port, and one from port `p`, stand in a parked list (R72, test 4). -/
def State.holdParked (s : State) (q : List Req) (p : Option PortId) : Bool :=
  q.any (fun r => match r with
    | .request q t => decide ((s.tagRec q t).request.kind = .hold) && p.all (fun p => decide (p = q))
    | .clearHalt _ => false)

/-- Test 4 of R72 fails: the flow is held by another port; or it is not held, a HOLD is parked, and none of the PUT's
port is (R127). -/
def State.putHeldOff (s : State) (S : SlotId) (p : PortId) (f : FlowId) : Bool :=
  match s.holder f with
  | some h => decide (h ≠ p)
  | none => s.holdParked (s.slot S).parkedList none && !s.holdParked (s.slot S).parkedList (some p)

/-- The admission tests of a PUT, in order: the refusal, or none (R72). -/
def State.admissionRefusal (s : State) (S : SlotId) (p : PortId) (f : FlowId) (needed : Nat) : Option Status :=
  let e := s.flow f
  let c := (s.slot S).context
  if e.state ≠ .opened then some .closed
  else if e.halt.isSome then some .halted
  else if !c.producers.getLsbD p.val then some .notProd
  else if s.putHeldOff S p f then some .held
  else s.poolRefusal f c.quota.toNat needed

/-- The admission of a PUT at its flow's slot (R72, R73). Its port's assembly record is ADMITTING (R70; log entry
27). -/
def State.servePut (s : State) (S : SlotId) (p : PortId) (t : TagId) (f : FlowId) : State :=
  let a := s.asm p
  if a.state = .admitting then
    match s.admissionRefusal S p f a.needed with
    | some st => s.refusePut p t st
    | none => (s.setAsm p { a with state := .assembling, allocated := 0, gapTimer := some 0 }).reserve f a.needed
  else s

/-- The remaining length of the head unit (R91). -/
def State.remaining (s : State) (c : Context) : Nat :=
  s.pool.fills (s.pool.unitFrom 128 c.headSeg.toNat) - c.cursorOff.toNat

/-- The bytes a delivery plans: the remaining length, or the limit if it is smaller; the limit 0 of a TAKE is none
(R91). -/
def plannedBytes (k : DelKind) (limit remaining : Nat) : Nat :=
  match k with
  | .take => if limit = 0 then remaining else min limit remaining
  | .peek => min limit remaining

/-- The start of a delivery (R91). Its first read is issued when the event ends. -/
def State.startDelivery (s : State) (S : SlotId) (p : PortId) (t : TagId) (f : FlowId) (k : DelKind) : State :=
  let c := (s.slot S).context
  let rem := s.remaining c
  let planned := plannedBytes k (s.tagRec p t).request.argA.toNat rem
  let s := s.setDel p {
    state := .streaming, kind := k, tag := t, flow := f, planned := planned,
    startSeg := c.headSeg.toNat, startOff := c.cursorOff.toNat, startDone := c.cursorDone.toNat,
    readSeg := c.headSeg.toNat, readOff := c.cursorOff.toNat, sent := 0, readInFlight := false }
  let s := (s.setSlot S { s.slot S with delivering := true }).setPhase p t .streaming
  s.place p (.response t .ok (.header f (rem + c.cursorDone.toNat) c.cursorDone.toNat planned) .header)

/-- The service of TAKE and PEEK, past the hold rules (R90). -/
def State.serveTakeHere (s : State) (S : SlotId) (p : PortId) (t : TagId) (f : FlowId) (k : DelKind) : State :=
  let e := s.flow f
  if e.consumer ≠ p then s.refuse p t .notCons
  else if e.halt.isSome then s.refuse p t .halted
  else if (s.slot S).context.unitCount = 0 then
    match k with
    | .take => (s.refuse p t .empty).foundEmpty f
    | .peek => s.refuse p t .empty
  else s.startDelivery S p t f k

/-- The segment that follows a chain's last segment (R30). -/
def Pool.after (P : Pool) (segs : List Nat) : Nat :=
  match segs.getLast? with
  | some n => (P.link n).next
  | none => 0

/-- The context when a chain leaves the head of a flow, followed by `next`, and the cursor returns to 0 (R95, R103). -/
def Context.headRemoved (c : Context) (next : Nat) : Context :=
  { c with
    headSeg := BitVec.ofNat 16 next, tailSeg := if next = 0 then 0 else c.tailSeg, cursorOff := 0, cursorDone := 0 }

/-- The service of DROP, past the hold rules (R103, R104). -/
def State.serveDropHere (s : State) (S : SlotId) (p : PortId) (t : TagId) (f : FlowId) : State :=
  let e := s.flow f
  let c := (s.slot S).context
  if e.consumer ≠ p then s.refuse p t .notCons
  else if c.unitCount = 0 then (s.refuse p t .empty).foundEmpty f
  else
    let count := (s.tagRec p t).request.argB.toNat
    let k := if count = 0 then c.unitCount.toNat else min count c.unitCount.toNat
    let segs := s.pool.unitsFrom e.segCount k c.headSeg.toNat
    let next := s.pool.after segs
    let s := s.respond p t .ok (.dropped k)
    let s := s.setSlot S { s.slot S with
      dirty := true
      context := { c.headRemoved next with
        unitCount := c.unitCount - BitVec.ofNat 16 k, drops := c.drops + BitVec.ofNat 32 k } }
    let s := s.setFlow f { s.flow f with segCount := e.segCount - segs.length, halt := none }
    let s := s.releaseSegs segs
    (s.undispatchAndReevaluate f S).drainTest f

/-- The grant of a hold (R124). -/
def State.grantHold (s : State) (S : SlotId) (p : PortId) (t : TagId) (f : FlowId) : State :=
  let lease := (s.tagRec p t).request.argA.toNat
  let s := if (s.slot S).pins = 0 then { s with pinnedOrHeld := s.pinnedOrHeld + 1 } else s
  (s.setHold p { state := .held, flow := f, lease := lease }).respond p t .ok (.lease lease)

/-- The service of HOLD, in the order of R123. -/
def State.serveHoldHere (s : State) (S : SlotId) (p : PortId) (t : TagId) (f : FlowId) : State :=
  let h := s.hold p
  let lease := (s.tagRec p t).request.argA.toNat
  if h.state = .held ∧ h.flow = f then (s.setHold p { h with lease := lease }).respond p t .ok (.lease lease)
  else if h.state ≠ .empty ∧ h.flow ≠ f then s.respond p t .holding .none
  else if (s.holder f).isSome then s.parkOrHeld S p t
  else if 0 < (s.flow f).admittedUnits then s.parkOrHeld S p t
  else if (s.slot S).pins = 0 ∧ 48 ≤ s.pinnedOrHeld then s.respond p t .pinFull .none
  else s.grantHold S p t f

/-- The service of PIN (R133). -/
def State.servePinHere (s : State) (S : SlotId) (p : PortId) (t : TagId) : State :=
  let v := s.slot S
  if 255 ≤ v.pins then s.respond p t .badArg .none
  else if v.pins = 0 ∧ !s.slotHeld S ∧ 48 ≤ s.pinnedOrHeld then s.respond p t .pinFull .none
  else
    let s := if s.counted S then s else { s with pinnedOrHeld := s.pinnedOrHeld + 1 }
    (s.setSlot S { v with pins := v.pins + 1 }).respond p t .ok (.pins (v.pins + 1))

/-- The service of UNPIN (R134). -/
def State.serveUnpinHere (s : State) (S : SlotId) (p : PortId) (t : TagId) : State :=
  let v := s.slot S
  if v.pins = 0 then s.respond p t .badArg .none
  else
    let s := if v.pins = 1 ∧ !s.slotHeld S then { s with pinnedOrHeld := s.pinnedOrHeld - 1 } else s
    let s := (s.setSlot S { v with pins := v.pins - 1 }).respond p t .ok (.pins (v.pins - 1))
    if v.pins = 1 then s.dueRetry else s

/-- The service of CLEAR_HALT (R171). -/
def State.serveClearHalt (s : State) (S : SlotId) (f : FlowId) : State :=
  let s := s.setSlot S { s.slot S with ref := true }
  if (s.flow f).halt.isSome then
    ((s.setFlow f { s.flow f with halt := none }).undispatchAndReevaluate f S).commandDone .ok (Vector.replicate 16 0)
  else s.commandDone .notHalted (Vector.replicate 16 0)

/-- The hold rules come first for CLOSE, TAKE, PEEK and DROP (R125). -/
def State.unlessHeld (s : State) (S : SlotId) (p : PortId) (t : TagId) (f : FlowId) (body : State) : State :=
  if s.heldAgainst f p then s.parkOrHeld S p t else body

/-- The service of a master's request, other than a link, at its flow's RESIDENT slot (R64). -/
def State.serveRequest (s : State) (S : SlotId) (p : PortId) (t : TagId) : State :=
  let r := (s.tagRec p t).request
  let s' := s.startService S p t
  match r.kind with
  | .openFlow => s.serveOpen S p t
  | .closeFlow => s'.unlessHeld S p t r.flow (s'.serveCloseHere S p t r.flow)
  | .query => s'.serveQueryHere S p t r.flow
  | .put => s'.servePut S p t r.flow
  | .take => s'.unlessHeld S p t r.flow (s'.serveTakeHere S p t r.flow .take)
  | .peek => s'.unlessHeld S p t r.flow (s'.serveTakeHere S p t r.flow .peek)
  | .drop => s'.unlessHeld S p t r.flow (s'.serveDropHere S p t r.flow)
  | .hold => s'.serveHoldHere S p t r.flow
  | .pin => s'.servePinHere S p t
  | .unpin => s'.serveUnpinHere S p t
  | .next | .release | .undefined => s

/-- The service of a record that is not a link. -/
def State.serve (s : State) (S : SlotId) : Req → State
  | .request p t => s.serveRequest S p t
  | .clearHalt f => s.serveClearHalt S f

/-! ## The parked list (R126) -/

def State.setParked (s : State) (S : SlotId) (q : List Req) : State := s.setSlot S { s.slot S with parkedList := q }

/-- Serve the requests of a parked list in order (R126). `kept` are the requests of the pass that have parked again:
they stay in the list, ahead of those not reached. A request in service has left the list, so that a flow that enters
CLOSED by it answers the others CLOSED in list order, ahead of a DRAINED (R16, R17), and the pass ends there. -/
def State.serveParked (S : SlotId) (f : FlowId) : List Req → List Req → State → State
  | _, [], s => s
  | kept, r :: rs, s =>
    let s := (s.setParked S (kept ++ rs)).serve S r
    if s.residentWith S f then
      if (s.slot S).parkedList.length = kept.length + rs.length then State.serveParked S f kept rs s
      else State.serveParked S f (kept ++ [r]) rs (s.setParked S (kept ++ r :: rs))
    else s

/-- One pass over the parked list of a flow's slot (R126). A pass that empties the list is an event of R62. -/
def State.parkedPass (s : State) (f : FlowId) : State :=
  match s.servingSlot f with
  | none => s
  | some S =>
    let parked := (s.slot S).parkedList
    if parked.isEmpty then s
    else
      let s := State.serveParked S f [] parked s
      if (s.slot S).parkedList.isEmpty then s.dueRetry else s

/-- The end of a port's hold, by RELEASE, expiry or teardown (R130): the record becomes EMPTY, the count falls, the
notice given is raised to the holder, the parked list is served, and a retry is due. -/
def State.endHold (s : State) (p : PortId) (n : Option Notice) : State :=
  let f := (s.hold p).flow
  let s := s.setHold p Hold.initial
  let s := match s.servingSlot f with
    | some S => if (s.slot S).pins = 0 then { s with pinnedOrHeld := s.pinnedOrHeld - 1 } else s
    | none => s
  let s := match n with
    | some n => s.raise p n
    | none => s
  (s.parkedPass f).dueRetry

/-- A delivery of a port from a flow has ended: a LAPSING hold of the port on the flow ends with HOLD_LAPSED (R129). -/
def State.lapse (s : State) (p : PortId) (f : FlowId) : State :=
  if (s.hold p).state = .lapsing ∧ (s.hold p).flow = f then s.endHold p (some (.holdLapsed f)) else s

/-- After admitted_units has fallen: at 0 the parked list is served (R127). -/
def State.admittedFell (s : State) (f : FlowId) : State :=
  if (s.flow f).admittedUnits = 0 then s.parkedPass f else s

/-! ## The link (R37, R80) -/

/-- The chain of a finished unit joins the tail of a flow's chain (R37). -/
def Context.linked (c : Context) (u : FinishedUnit) : Context :=
  { c with
    headSeg := if c.headSeg = 0 then BitVec.ofNat 16 u.first else c.headSeg
    tailSeg := BitVec.ofNat 16 u.last
    unitCount := c.unitCount + 1
    unitsIn := c.unitsIn + 1 }

/-- The flow map's counts at a link (R5, R37). -/
def FlowEntry.linked (e : FlowEntry) (u : FinishedUnit) : FlowEntry :=
  { e with
    segCount := e.segCount + u.needed, admittedSegs := e.admittedSegs - u.needed, admittedUnits := e.admittedUnits - 1 }

/-- The service of the link of a finished unit (R80), with the pass over the parked list that a fall of admitted_units to
0 brings (R126, R127). Where the link is served out of a pending or return list, the pass comes before the later requests
of that list, which R49 and R126 leave open: the model's choice (log entry 32). -/
def State.serveLink (s : State) (S : SlotId) (p : PortId) (t : TagId) : State :=
  let r := s.tagRec p t
  let f := r.request.flow
  match r.unit with
  | none => s
  | some u =>
    let v := s.slot S
    let s := s.setPool (s.pool.join v.context.tailSeg.toNat u.first)
    let s := s.setSlot S { v with context := v.context.linked u, dirty := true, ref := true }
    let s := s.setFlow f ((s.flow f).linked u)
    ((s.answerLink p t .ok).reevaluate f S).admittedFell f

/-- A refused link (R39, R81): the chain is released, the counts fall, and the PUT is answered. The drain end test
follows where the rule applies it. -/
def State.refuseLink (s : State) (p : PortId) (t : TagId) (st : Status) : State :=
  let r := s.tagRec p t
  match r.unit with
  | none => s
  | some u => ((s.release u.first u.last u.needed).unadmit r.request.flow u.needed).answerLink p t st

/-- A service at a RESIDENT slot, of a link or of another record. -/
def State.serveAny (s : State) (S : SlotId) (r : Req) : State :=
  if s.isLink r then
    match r with
    | .request p t => s.serveLink S p t
    | .clearHalt _ => s
  else s.serve S r

/-- The status a request is answered with where it meets its flow CLOSED (R10) or halted with CTXERR (R22): none where
it meets neither. An OPEN goes on at a CLOSED flow (log entry 14). -/
def State.metStatus (s : State) (r : Req) : Option Status :=
  let e := s.flow (s.reqFlow r)
  if e.state = .closed then (if s.isOpen r then none else some .closed)
  else if e.lost then some .ctxErr
  else none

/-- Answer a record with a status without a service: a link is refused (R81), with the drain end test after its answer
(the order is the model's choice, log entry 34). -/
def State.turnAway (s : State) (st : Status) (r : Req) : State :=
  if s.isLink r then
    match r with
    | .request p t => (s.refuseLink p t st).drainTest (s.reqFlow r)
    | .clearHalt _ => s
  else s.answerReq st r

end Sys2Proof.Machine
end

