-- ==== Sys2Proof/Machine/Cache.lean ====
section
/-! DEFINITION. The cache controller: victim search, placement, arrival, the waits and their retry, fills and spills (chapter 3). -/

namespace Sys2Proof.Machine

/-- Inspections of a victim search: `n` are left (R50). A victim leaves the hand just after it. -/
def State.inspect : Nat → State → Option SlotId × State
  | 0, s => (none, s)
  | n + 1, s =>
    let S := s.hand
    let s' := { s with hand := S + 1 }
    if (s.slot S).state = .free then (some S, s')
    else if s.evictable S then
      if (s.slot S).ref then State.inspect n (s'.setSlot S { s.slot S with ref := false })
      else (some S, s')
    else State.inspect n s'

/-- A victim search: at most 128 inspections from the clock hand (R50). -/
def State.search (s : State) : Option SlotId × State := s.inspect 128

/-- The requests of a waiting list ahead of its first OPEN, and the rest from that OPEN on (R52). -/
def State.splitAtOpen (s : State) (rs : List Req) : List Req × List Req := rs.span (fun r => !s.isOpen r)

/-- A request joins the tail of the miss wait, or is refused BUSY when it is full (R60). -/
def State.joinMiss (s : State) (r : Req) : State :=
  if 16 ≤ s.missWait.length then s.answerReq .busy r
  else { s with missWait := s.missWait ++ [r] }.enterPhase .missWait r

/-- The placement of flow `f` on slot `S`, which holds no other flow, with its waiting list, up to its first service
(R52): the state, and the requests that stand behind the OPEN that has been served. -/
def State.placeHead (s : State) (f : FlowId) (S : SlotId) (rs : List Req) : State × List Req :=
  if (s.flow f).state ≠ .closed then
    match rs with
    | [] => ((s.freeSlot S).setResidency f none, [])
    | _ =>
      let s := (s.setSlot S { Slot.initial with state := .filling, flow := some f, pendingList := rs }).setResidency f
        (some S)
      ((s.setMem { s.mem with fillQueue := s.mem.fillQueue ++ [(S, f)] }).enterPhases .waitingResidency rs, [])
  else
    let parts := s.splitAtOpen rs
    let s := parts.1.foldl (fun s r => s.turnAway .closed r) s
    match parts.2 with
    | .request p t :: rest => ((s.serveOpen S p t).dueRetry, rest)
    | _ => ((s.freeSlot S).setResidency f none, [])

/-- A victim is taken for a flow and its waiting list (R51), up to the first service of a placement. -/
def State.victimHead (s : State) (V : SlotId) (f : FlowId) (rs : List Req) : State × List Req :=
  let v := s.slot V
  match v.state, v.flow with
  | .resident, some x =>
    if v.dirty then
      let s := (s.setSlot V { v with state := .spilling, incoming := some f, pendingList := rs }).setResidency f (some V)
      ((s.setMem { s.mem with spillQueue := s.mem.spillQueue ++ [(V, x)] }).enterPhases .waitingResidency rs, [])
    else (s.setResidency x none).placeHead f V rs
  | _, _ => s.placeHead f V rs

/-- A victim is taken for the one request that made the search (R51): none stands behind it. -/
def State.takeFor (s : State) (V : SlotId) (r : Req) : State := (s.victimHead V (s.reqFlow r) [r]).1

/-- A link joins the tail of the link wait (R61). -/
def State.joinLinkWait (s : State) (r : Req) : State :=
  { s with linkWait := s.linkWait ++ [r] }.enterPhase .linkWait r

/-- A victim search for one request, which waits when the search finds none (R60, R61). -/
def State.searchFor (s : State) (r : Req) (wait : State → State) : State :=
  match s.search with
  | (some V, s') => s'.takeFor V r
  | (none, s') => wait s'

/-- A record reaches the cache controller with residency none (R60, R61). -/
def State.reach (s : State) (r : Req) : State :=
  if s.isLink r then
    if s.linkWait.isEmpty then s.searchFor r (fun s => s.joinLinkWait r) else s.joinLinkWait r
  else if s.missWait.isEmpty && s.linkWait.isEmpty then s.searchFor r (fun s => s.joinMiss r)
  else s.joinMiss r

/-- A record reaches the cache controller (R48): it meets its flow CLOSED or halted with CTXERR first (R10, R22). -/
def State.arrive (s : State) (r : Req) : State :=
  match s.metStatus r with
  | some st => s.turnAway st r
  | none =>
    let f := s.reqFlow r
    match (s.flow f).residency with
    | none => s.reach r
    | some S =>
      let v := s.slot S
      match v.state with
      | .resident => s.serveAny S r
      | .filling => (s.setSlot S { v with pendingList := v.pendingList ++ [r] }).enterPhase .waitingResidency r
      | .spilling =>
        if v.incoming = some f then
          (s.setSlot S { v with pendingList := v.pendingList ++ [r] }).enterPhase .waitingResidency r
        else (s.setSlot S { v with returnList := v.returnList ++ [r] }).enterPhase .waitingResidency r
      | .free => s.reach r

/-! ## Services in list order (R49) -/

/-- The service of a list's requests at a slot in order (R49). Where a request before it has taken the flow out of the
slot, by a close, a request is one that reaches the controller in its turn (R10, R48, R60). -/
def State.serveAt (S : SlotId) (f : FlowId) : List Req → State → State
  | [], s => s
  | r :: rs, s => State.serveAt S f rs (if s.residentWith S f then s.serveAny S r else s.arrive r)

/-- The placement of a flow on a slot with its waiting list (R52). -/
def State.placeFlow (s : State) (f : FlowId) (S : SlotId) (rs : List Req) : State :=
  let r := s.placeHead f S rs
  State.serveAt S f r.2 r.1

/-- A victim is taken for a flow and its waiting list (R51). -/
def State.takeVictim (s : State) (V : SlotId) (f : FlowId) (rs : List Req) : State :=
  let r := s.victimHead V f rs
  State.serveAt V f r.2 r.1

/-! ## Retry (R62, R63) -/

/-- Take the head of the wait considered: the link wait if it is non-empty, the miss wait otherwise (R63). -/
def State.headOfWaits (s : State) : Option (Req × State) :=
  match s.linkWait, s.missWait with
  | r :: rs, _ => some (r, { s with linkWait := rs })
  | [], r :: rs => some (r, { s with missWait := rs })
  | [], [] => none

/-- A retry: the heads of the waits are served one at a time while each makes progress (R63). -/
def State.retry : Nat → State → State
  | 0, s => s
  | n + 1, s =>
    match s.headOfWaits with
    | none => s
    | some (r, s') =>
      if (s.flow (s.reqFlow r)).residency.isSome ∨ (s.metStatus r).isSome then State.retry n (s'.arrive r)
      else
        match s.search with
        | (none, s'') => s''
        | (some V, s'') =>
          match s''.headOfWaits with
          | none => s''
          | some (_, s3) => State.retry n (s3.takeFor V r)

/-- The retry that is due, if one of the waits is non-empty (R62). -/
def State.retryWaits (s : State) : State :=
  State.retry (s.linkWait.length + s.missWait.length) { s with retryDue := false }

/-! ## Fill completion (R54, R55) -/

/-- The requests of a list are taken in order as requests that newly reach the controller (R18, R54, R58, R59). -/
def State.arriveAll (s : State) (rs : List Req) : State := rs.foldl (fun s r => s.arrive r) s

/-- The flow effects of a context error (R21, R40): the segments are stranded, the flow is halted with CTXERR, not
ready, and not resident. -/
def State.loseContext (s : State) (f : FlowId) : State :=
  let e := s.flow f
  let s := s.setPool { s.pool with stranded := s.pool.stranded + e.segCount }
  (s.setFlow f { e with segCount := 0, halt := some .ctxErr, residency := none }).setReady f false

/-- A record of the pending list at a context error: a link is refused, any other is answered CTXERR (R55). -/
def State.contextErrorAnswer (s : State) (r : Req) : State :=
  if s.isLink r then
    match r with
    | .request p t => s.refuseLink p t .ctxErr
    | .clearHalt _ => s
  else s.answerReq .ctxErr r

/-- A fill completion with a context error (R55): the answers come before the HALTED notice, and the drain end test
after it (R21; log entry 26). -/
def State.contextError (s : State) (S : SlotId) (f : FlowId) : State :=
  let rs := (s.slot S).pendingList
  let s := ((s.setMem { s.mem with contextErrors := saturating s.mem.contextErrors 1 }).freeSlot S).loseContext f
  let s := rs.foldl (fun s r => s.contextErrorAnswer r) s
  (s.raise (s.flow f).consumer (.halted f .ctxErr)).drainTest f

/-- A fill completion with the reports of the record's four words (R54, R160). -/
def State.fillDone (s : State) (S : SlotId) (f : FlowId) (reports : Vector WordReport 4) : State :=
  let s := (s.countCorrected reports.toList).dueRetry
  let v := s.slot S
  if (s.flow f).state = .closed then ((s.freeSlot S).setResidency f none).arriveAll v.pendingList
  else if fillSound reports then
    let s := s.setSlot S { v with
      state := .resident, dirty := false, pendingList := [], context := Context.ofRecord (recordOfReports reports) }
    State.serveAt S f v.pendingList s
  else s.contextError S f

/-! ## Spill completion (R58, R59) -/

/-- The spill's record is in the context store (R56, R179). -/
def State.storeRecord (s : State) (S : SlotId) (f : FlowId) : State :=
  let r := (s.slot S).context.record
  (List.range 4).foldl (fun s i => s.writeSram (s.recordWordAddr f i) (recordWord r i)) s

/-- The outgoing flow keeps the slot, and its return list is served (R59). -/
def State.keepOutgoing (s : State) (S : SlotId) (x : FlowId) : State :=
  let v := s.slot S
  State.serveAt S x v.returnList
    (s.setSlot S { v with state := .resident, incoming := none, dirty := false, pendingList := [], returnList := [] })

/-- A victim is found for the incoming flow and taken only when the return list has been served (R59): meanwhile it is
neither FREE nor evictable, so that no search of a request of the return list finds it again (R50). -/
def State.reserveSlot (s : State) (V : SlotId) : State := s.setSlot V { s.slot V with state := .spilling }

/-- The slot is given to the incoming flow with its pending list (R58, R59); the outgoing flow has lost its residency. -/
def State.giveToIncoming (s : State) (S : SlotId) (y : FlowId) : State :=
  let v := s.slot S
  (s.setSlot S { v with returnList := [], pendingList := [] }).placeFlow y S v.pendingList

/-- A spill completion: `x` goes out of slot `S` (R58, R59). -/
def State.spillDone (s : State) (S : SlotId) (x : FlowId) : State :=
  let s := (s.storeRecord S x).dueRetry
  let v := s.slot S
  match v.incoming with
  | none => s
  | some y =>
    if (s.flow x).state = .closed then
      -- R58: the return list meets the closed flow before the incoming flow is placed
      let s := (s.setResidency x none).setSlot S { v with returnList := [] }
      (s.arriveAll v.returnList).giveToIncoming S y
    else if v.returnList.isEmpty then (s.setResidency x none).giveToIncoming S y
    else if v.pendingList.isEmpty then (s.setResidency y none).keepOutgoing S x
    else
      match s.search with
      | (some V, s') => (((s'.reserveSlot V).keepOutgoing S x).setSlot V (s'.slot V)).takeVictim V y v.pendingList
      | (none, s') => ((s'.setResidency x none).giveToIncoming S y).arriveAll v.returnList

end Sys2Proof.Machine
end

