-- ==== Sys2Proof/Machine/Assembling.lean ====
section
/-! DEFINITION. Assemblies: taking in beats, completion, and the abort before link (chapter 4). -/

namespace Sys2Proof.Machine

/-- An abort of a port's assembly at the pool and the flow map (R38): what was allocated is released, what was not is
unreserved, and the flow map counts fall. -/
def State.abortPool (s : State) (a : Assembly) : State :=
  let s := s.setPool (s.pool.release a.chainFirst a.chainLast a.allocated)
  let s := s.setPool { s.pool with reserved := s.pool.reserved - (a.needed - a.allocated) }
  s.rearm.unadmit a.flow a.needed

/-- An abort of a port's assembly, with its PUT's answer if there is one (R82), up to the drain end test. The answer is
placed before the messages of a drain end that the abort brings: the order is the model's choice (log entry 34). -/
def State.abortRecord (s : State) (p : PortId) (st : Option Status) : State :=
  let a := s.asm p
  let s := ((s.abortPool a).abandonWrites p).setAsm p Assembly.initial
  let s := match st, a.tag with
    | some st, some t => s.respond p t st .none
    | _, _ => s
  s.drainTest a.flow

/-- An abort before link, with the pass over the parked list that a fall of admitted_units to 0 brings (R82, R126,
R127). Where a new PUT brings the abort, the pass comes before that PUT's own take-in: the model's choice (log entry 30). -/
def State.abort (s : State) (p : PortId) (st : Status) : State :=
  (s.abortRecord p (some st)).admittedFell (s.asm p).flow

/-- A new PUT ends the record's current work (R69): an assembly is truncated with BADLEN, a discard ends. The abort and
the pass over the parked list that it may bring come before the new PUT is taken in, which R126 leaves open: the model's
choice (log entry 30). -/
def State.endAssemblyWork (s : State) (p : PortId) : State :=
  match (s.asm p).state with
  | .assembling => s.abort p .badLen
  | .discarding => s.setAsm p Assembly.initial
  | .idle | .admitting => s

/-- Completion (R78): when every byte is taken and written, the chain passes to the PUT's tag record, the record
becomes IDLE, and the link goes to the cache controller. -/
def State.completeAssembly (s : State) (p : PortId) : State :=
  let a := s.asm p
  match a.tag with
  | none => s
  | some t =>
    if a.state = .assembling ∧ a.taken = a.declared ∧ a.writesOutstanding = 0 then
      let u : FinishedUnit := { first := a.chainFirst, last := a.chainLast, needed := a.needed }
      let s := s.setTagRec p t { s.tagRec p t with unit := some u, phase := .waitingResidency }
      (s.setAsm p Assembly.initial).arrive (.request p t)
    else s

/-- The allocation of the next segment of a port's assembly (R29). -/
def State.allocateFor (s : State) (p : PortId) : State :=
  let a := s.asm p
  let seg := s.pool.freeHead
  let P := s.pool.allocate a.declared (a.allocated + 1)
  let P := if a.allocated = 0 then P else P.setNext a.chainLast seg
  (s.setPool P).setAsm p { a with
    allocated := a.allocated + 1, chainFirst := if a.allocated = 0 then seg else a.chainFirst, chainLast := seg }

/-- The bytes of a beat that fits, one by one (R74): a byte that begins a segment allocates it; each byte goes to its
place in the gather word. A write ends with the beat's last byte and with a segment's last byte (R154). -/
def State.takeBytes (p : PortId) : List Byte → State → State
  | [], s => s
  | b :: bs, s =>
    let off := (s.asm p).taken
    let s := if off % 128 = 0 then s.allocateFor p else s
    let a := s.asm p
    let ends := bs.isEmpty || decide ((off + 1) % 128 = 0)
    let s := s.setAsm p { a with
      taken := off + 1, writesOutstanding := a.writesOutstanding + (if ends then 1 else 0) }
    let s := s.gatherByte p a.chainLast (off % 128) b ends (decide (off + 1 = a.declared))
    State.takeBytes p bs s

/-- A beat that fits is accepted (R74); the gap timer restarts, or stops with the last byte (R77). -/
def State.acceptBeat (s : State) (p : PortId) (bytes : List Byte) : State :=
  let s := State.takeBytes p bytes s
  let a := s.asm p
  let s := s.setAsm p { a with gapTimer := if a.taken = a.declared then none else some 0 }
  s.completeAssembly p

/-- A beat that fits is discarded; the discard ends with the last declared byte (R76). -/
def State.discardBeat (s : State) (p : PortId) (n : Nat) : State :=
  let a := s.asm p
  if a.taken + n = a.declared then s.setAsm p Assembly.initial
  else s.setAsm p { a with taken := a.taken + n, gapTimer := some 0 }

/-- A stray beat is counted (R75, R174). -/
def State.strayBeat (s : State) : State :=
  s.setMgmt { s.mgmt with strayBeats := saturating s.mgmt.strayBeats 1 }

/-- The reports of a word write (R154): each write whose last word it is lowers writes outstanding of a live assembly,
which may complete (R78). -/
def State.wordWritten (s : State) (p : PortId) (w : WordWrite) : State :=
  let s := s.writeSram (s.segWordAddr w.seg w.word) w.data
  if w.live then
    let a := s.asm p
    (s.setAsm p { a with writesOutstanding := a.writesOutstanding - w.ends }).completeAssembly p
  else s

end Sys2Proof.Machine
end

