-- ==== Sys2Proof/Machine/Delivering.lean ====
section
/-! DEFINITION. Deliveries: beats, completion, commit, CUT and data errors (chapter 5). -/

namespace Sys2Proof.Machine

/-- The walk of a commit of `c` bytes from an offset of a segment (R95): the segments marked for release, and where the
walk stopped, none at the end of the unit. `n` bounds the walk (a unit has at most 128 segments, R26). -/
def Pool.commitWalk (P : Pool) : Nat → Nat → Nat → Nat → List Nat × Option (Nat × Nat)
  | 0, seg, off, _ => ([], some (seg, off))
  | n + 1, seg, off, c =>
    let left := (P.link seg).fill - off
    if left ≤ c then
      if (P.link seg).last then ([seg], none)
      else
        let r := Pool.commitWalk P n (P.link seg).next 0 (c - left)
        (seg :: r.1, r.2)
    else ([], some (seg, off + c))

/-- The context after a commit of `c` bytes: the head unit removed, or the cursor advanced (R95). -/
def Context.committed (x : Context) (c next : Nat) : Option (Nat × Nat) → Context
  | none => { x.headRemoved next with unitCount := x.unitCount - 1, unitsOut := x.unitsOut + 1 }
  | some (seg, off) => { x with
      headSeg := BitVec.ofNat 16 seg, cursorOff := BitVec.ofNat 7 off,
      cursorDone := x.cursorDone + BitVec.ofNat 14 c }

/-- A TAKE commits `c` bytes against the flow's context (R95). A commit of 0 changes nothing. -/
def State.commit (s : State) (f : FlowId) (S : SlotId) (d : Delivery) (c : Nat) : State :=
  if c = 0 then s
  else
    let r := s.pool.commitWalk 128 d.startSeg d.startOff c
    let v := s.slot S
    let next := s.pool.after r.1
    let s := s.setSlot S { v with context := v.context.committed c next r.2, dirty := true }
    let s := s.setFlow f { s.flow f with segCount := (s.flow f).segCount - r.1.length }
    s.releaseSegs r.1

/-- Whether a commit of `c` bytes removes the head unit. -/
def State.commitRemoves (s : State) (d : Delivery) (c : Nat) : Bool :=
  decide (c ≠ 0) && (s.pool.commitWalk 128 d.startSeg d.startOff c).2.isNone

/-- A port's delivery ends: the record is IDLE, and the slot is not delivering, an event of R62 (R89, R94). -/
def State.endDelivery (s : State) (p : PortId) (S : SlotId) : State :=
  (s.setDel p Delivery.initial).setSlot S { s.slot S with delivering := false } |>.dueRetry

/-- The end of a TAKE's delivery, by its last beat or by CUT: the END, the commit of `c` bytes, and what follows
(R94 to R96, R100, R129). -/
def State.finishTake (s : State) (p : PortId) (S : SlotId) (st : Status) (c : Nat) : State :=
  let d := s.del p
  let f := d.flow
  let removes := s.commitRemoves d c
  let s := (s.endDelivery p S).respondEnd p d.tag st c
  let s := s.setSlot S { s.slot S with ref := true }
  let s := (s.commit f S d c).undispatchAndReevaluate f S
  let s := s.lapse p f
  if removes then s.drainTest f else s

/-- The end of a PEEK's delivery, by its last beat or by CUT: the END, and nothing committed (R97, R100, R129). -/
def State.finishPeek (s : State) (p : PortId) (S : SlotId) (st : Status) (n : Nat) : State :=
  let d := s.del p
  let s := (s.endDelivery p S).respondEnd p d.tag st n
  (s.setSlot S { s.slot S with ref := true }).lapse p d.flow

/-- Whether a delivery's plan is the head unit's remaining length: its last beat is the unit's end (R94, R97). -/
def State.plansToEnd (s : State) (d : Delivery) : Bool :=
  decide (s.pool.fills (s.pool.unitFrom 128 d.startSeg) - d.startOff ≤ d.planned)

/-- A delivery completes when its last beat is placed (R94, R97). -/
def State.completeDelivery (s : State) (p : PortId) (S : SlotId) : State :=
  let d := s.del p
  let st := if s.plansToEnd d then .ended else .part
  match d.kind with
  | .take => s.finishTake p S st d.planned
  | .peek => s.finishPeek p S st d.planned

/-- A data error ends a delivery without commit and halts the flow with DATAERR (R20, R102, R129). -/
def State.dataError (s : State) (p : PortId) (S : SlotId) : State :=
  let d := s.del p
  let s := (s.endDelivery p S).respondEnd p d.tag .dataErr d.sent
  let s := s.setSlot S { s.slot S with ref := true }
  let s := s.setFlow d.flow { s.flow d.flow with halt := some .dataErr }
  ((s.raise (s.flow d.flow).consumer (.halted d.flow .dataErr)).setReady d.flow false).lapse p d.flow

/-- A beat read of a live delivery is reported clean: the beat is placed (R92). -/
def State.placeBeat (s : State) (p : PortId) (S : SlotId) (bytes : List Byte) : State :=
  let d := s.del p
  let s := s.place p (.data bytes)
  let s := s.setDel p { d with sent := d.sent + bytes.length, readInFlight := false }
  if d.sent + bytes.length = d.planned then s.completeDelivery p S else s

/-- The report of a port's beat read (R92, R102, R155, R162). -/
def State.beatReported (s : State) (p : PortId) (r : BeatRead) (ws : List ((Nat × Nat) × WordReport)) : State :=
  let bad := ws.countP (fun w => decide (w.2.outcome = .uncorrectable))
  let s := s.countCorrected (ws.map (fun w => w.2))
  let s := s.setMem { s.mem with uncorrectableData := saturating s.mem.uncorrectableData bad }
  match r.live, s.servingSlot (s.del p).flow with
  | true, some S => if bad = 0 then s.placeBeat p S (beatBytes r ws) else s.dataError p S
  | _, _ => s

/-! ## CUT (R98 to R100) -/

/-- A list without a record, and whether taking the record out emptied it. -/
def withoutReq (q : List Req) (keep : Req → Bool) : List Req × Bool :=
  (q.filter keep, !q.isEmpty && (q.filter keep).isEmpty)

/-- Take out of every list of a slot the records not kept; a list that empties is an event of R62 (R57, R65, R99). -/
def State.purgeSlot (s : State) (S : SlotId) (keep : Req → Bool) : State :=
  let v := s.slot S
  let a := withoutReq v.pendingList keep
  let b := withoutReq v.returnList keep
  let c := withoutReq v.parkedList keep
  let s := s.setSlot S { v with pendingList := a.1, returnList := b.1, parkedList := c.1 }
  if a.2 || b.2 || c.2 then s.dueRetry else s

/-- The slots in ascending order. -/
def allSlots : List SlotId := (List.range 64).map (fun n => Fin.ofNat 64 n)

/-- Take the records not kept out of every slot's lists and out of the miss wait; a removal from the miss wait is an
event at which the waits are retried (R65, R99). -/
def State.purge (s : State) (keep : Req → Bool) : State :=
  let s := allSlots.foldl (fun s S => s.purgeSlot S keep) s
  let q := s.missWait.filter keep
  if q.length < s.missWait.length then { s with missWait := q }.dueRetry else s

/-- A CUT whose TAKE or PEEK is not yet served (R99). -/
def State.cutUnserved (s : State) (p : PortId) (t : TagId) : State :=
  let s := s.setUnit p { s.unit p with consumerQueue := (s.unit p).consumerQueue.filter (fun u => decide (u ≠ t)) }
  (s.purge (fun r => decide (r ≠ .request p t))).respondEnd p t .cut 0

/-- A CUT whose delivery is streaming (R100). -/
def State.cutStreaming (s : State) (p : PortId) (kept : Nat) : State :=
  let d := s.del p
  match s.servingSlot d.flow with
  | none => s
  | some S =>
    let s := s.abandonRead p
    match d.kind with
    | .take => s.finishTake p S .cut (min kept d.sent)
    | .peek => s.finishPeek p S .cut d.sent

/-- A stray control is counted (R98, R174). -/
def State.strayControl (s : State) : State :=
  s.setMgmt { s.mgmt with strayControls := saturating s.mgmt.strayControls 1 }

/-- The effect of a CUT by the request that holds its tag (R98). -/
def State.cutTag (s : State) (p : PortId) (t : TagId) (kept : Nat) : State :=
  let r := s.tagRec p t
  if r.status = .inUse ∧ r.request.kind.endsByEnd then
    match r.phase with
    | .queuedAtPort | .waitingResidency | .missWait | .parked => s.cutUnserved p t
    | .streaming => s.cutStreaming p kept
    | .taken | .linkWait | .inService | .responding => s.strayControl
  else s.strayControl

end Sys2Proof.Machine
end

