-- ==== Sys2Proof/Machine/Events.lean ====
section
/-! DEFINITION. What ends every event (hand-on, retry, beat reads, grant), port teardown, violations, and the take-in of a message. -/

namespace Sys2Proof.Machine

/-! ## The end of an event -/

/-- The head of a port's consumer queue is handed on (R88). -/
def State.handOn (s : State) (p : PortId) : State :=
  match (s.unit p).consumerQueue with
  | [] => s
  | t :: ts =>
    (s.setUnit p { s.unit p with consumerQueue := ts, current := some t }).arrive (.request p t)

/-- Hand-ons and retries until none is due: hand-ons first, the lowest port first (log entry 16). `n` bounds them (log
entry 25). -/
def State.settle : Nat → State → State
  | 0, s => s
  | n + 1, s =>
    match allPorts.find? s.handOnDue with
    | some p => State.settle n (s.handOn p)
    | none => if s.retryDue then State.settle n s.retryWaits else s

/-- The requests that stand in consumer queues and waits: what bounds the hand-ons and retries of one event. -/
def State.waiting (s : State) : Nat :=
  (allPorts.map (fun p => (s.unit p).consumerQueue.length)).sum + s.missWait.length + s.linkWait.length

/-- What ends an event: hand-ons (R88) and retries (R62), then the beat reads that are due (R92), then the grant
(R157; log entry 17). -/
def State.finish (s : State) : State :=
  let s := (State.settle (4 * s.waiting + 4) s).issueReads
  s.setMem s.mem.grant

/-- The outcome of an event whose own effects leave the state given. -/
def State.concluded (s : State) : Step := .next s.finish

/-! ## Port teardown (R150) -/

/-- A tag record at the end of a teardown (R142, R151): a record that holds a finished unit is orphaned, every other is
free. -/
def TagRecord.tornDown (r : TagRecord) : TagRecord :=
  if r.unit.isSome then { r with status := .orphaned, busyAnswer := false } else TagRecord.initial

/-- Order 1: the port state takes its new value, and the inbound side is emptied (R150; log entry 18). -/
def PortUnit.leftUp (u : PortUnit) (st : PortState) : PortUnit :=
  { u with state := st, inbound := [], inboundCredits := 0, returning := 0, returnOwed := 0 }

/-- Order 2: the assembly record is brought to IDLE; an assembly is aborted without response (R83). -/
def State.teardownAssembly (s : State) (p : PortId) : State :=
  match (s.asm p).state with
  | .assembling => s.abortRecord p none
  | .admitting | .discarding => s.setAsm p Assembly.initial
  | .idle => s

/-- Order 3: the consumer queue is emptied, and a streaming delivery ends without commit and without END (R105). -/
def State.teardownDelivery (s : State) (p : PortId) : State :=
  let s := s.setUnit p { s.unit p with consumerQueue := [], current := none }
  if (s.del p).state = .streaming then
    let s := s.abandonRead p
    match s.servingSlot (s.del p).flow with
    | some S => s.endDelivery p S
    | none => s.setDel p Delivery.initial
  else s

/-- Order 4: the port's requests leave the cache, links excepted (R65). -/
def State.teardownCache (s : State) (p : PortId) : State :=
  s.purge (fun r => match r with
    | .request q _ => decide (q ≠ p) || s.isLink r
    | .clearHalt _ => true)

/-- Order 5: the port's hold ends (R130). -/
def State.teardownHold (s : State) (p : PortId) : State :=
  if (s.hold p).state = .empty then s else s.endHold p none

/-- The flows that a port consumes and that are dispatched, in ascending order (R119). -/
def State.dispatchedFlows (s : State) (p : PortId) : List FlowId :=
  s.flows.filterMap (fun e =>
    if h : e.1 < 4096 then
      if e.2.consumer = p ∧ e.2.dispatched then some ⟨e.1, h⟩ else none
    else none)

/-- Order 6: the dispatched flows are relisted (R119). -/
def State.teardownRelist (s : State) (p : PortId) : State :=
  (s.dispatchedFlows p).foldl (fun s f => s.undispatch f) s

/-- Order 7: the port unit's own state is cleared (R151). -/
def PortUnit.cleared (u : PortUnit) : PortUnit :=
  { u with
    outbound := [], outboundCredits := 0, noticeQueue := [], readyWaiting := none, poolLowWaiting := none,
    overflow := false, readyArmed := false, tags := u.tags.map TagRecord.tornDown }

/-- A port teardown, in the order of R150. The pass over the parked list that the abort may bring (R127) is made after
order 5, when the port's own requests have left the list (log entry 21). -/
def State.teardown (s : State) (p : PortId) (st : PortState) : State :=
  let a := s.asm p
  let s := s.setUnit p ((s.unit p).leftUp st)
  let s := (((s.teardownAssembly p).teardownDelivery p).teardownCache p).teardownHold p
  let s := if a.state = .assembling then s.admittedFell a.flow else s
  let s := s.teardownRelist p
  s.setUnit p (s.unit p).cleared

/-- A protocol violation of an UP port (R148). -/
def State.violation (s : State) (p : PortId) (v : LastFault) : State :=
  (s.setUnit p { s.unit p with lastFault := v }).teardown p .fault

/-! ## Take-in (R139 to R141) -/

/-- A place of the inbound buffer is returned to the master: with the RETURN sent now, or with the next one (R139). -/
def PortUnit.creditFreed (u : PortUnit) : PortUnit :=
  if u.returning = 0 then { u with inboundCredits := u.inboundCredits + 1, returning := 1 }
  else { u with inboundCredits := u.inboundCredits + 1, returnOwed := u.returnOwed + 1 }

/-- The head message leaves the inbound buffer (R140). -/
def State.popInbound (s : State) (p : PortId) : State :=
  let u := s.unit p
  s.setUnit p { u with inbound := u.inbound.tail }.creditFreed

/-- A request taken in with a free tag puts the record in use (R142). -/
def State.useTag (s : State) (p : PortId) (t : TagId) (r : Request) (ph : Phase) : State :=
  s.setTagRec p t { status := .inUse, request := r, phase := ph, unit := none, busyAnswer := false }

/-- The BUSY answer on an orphaned tag (R141, check 2). -/
def State.answerBusyOrphan (s : State) (p : PortId) (t : TagId) (r : Request) : State :=
  let s := s.setTagRec p t { s.tagRec p t with busyAnswer := true }
  s.place p (if r.kind.endsByEnd then .endMsg t .busy 0 .busyAnswer else .response t .busy .none .busyAnswer)

/-- The generic checks of a REQUEST taken in, in the order of R141; `own` acts on a request that passes them. A PUT
that is no tag reuse ends the assembly record's work first (R69), and a refused PUT's beats are discarded (R68). -/
def State.takeInRequest (s : State) (p : PortId) (t : TagId) (r : Request) (own : State → State) : State :=
  let s := s.popInbound p
  let isPut := decide (r.kind = .put)
  if (s.tagRec p t).taken then s.violation p .tagReuse
  else
    let s := if isPut then s.endAssemblyWork p else s
    if (s.tagRec p t).status = .orphaned then
      let s := s.answerBusyOrphan p t r
      if isPut then s.discardBeats p r.argA.toNat else s
    else
      let s := s.useTag p t r .taken
      if s.mgmt.device ≠ .running then
        if isPut then s.refusePut p t .notReady else s.refuse p t .notReady
      else own s

/-- A PUT waits at the head while the assembly has taken all its bytes (R69); one that reuses a tag does not wait (log
entry 20). -/
def State.putStalled (s : State) (p : PortId) (t : TagId) : Bool := s.putWaits p && !(s.tagRec p t).taken

/-- The take-in of a REQUEST of a kind at a port (R140): nothing happens unless the port takes in messages and the head
is such a REQUEST (log entry 2). -/
def State.takeIn (s : State) (p : PortId) (k : ReqKind) (own : State → TagId → Request → State) : Step :=
  match s.nextMessage p with
  | some (.request t body) =>
    let r := Request.ofBody body
    if r.kind = k ∧ ¬(k = .put ∧ s.putStalled p t) then
      (s.takeInRequest p t r (fun s => own s t r)).concluded
    else .next s
  | _ => .next s

/-- The checks that most requests share (R9, R22): the flow is not CLOSED and not halted with CTXERR. -/
def State.flowRefusal (s : State) (f : FlowId) : Option Status :=
  if (s.flow f).state = .closed then some .closed
  else if (s.flow f).lost then some .ctxErr
  else none

/-- Answer a request with the first failing check, or go on with it. -/
def State.checked (s : State) (p : PortId) (t : TagId) (st : Option Status) (go : State → State) : State :=
  match st with
  | some st => s.refuse p t st
  | none => go s

end Sys2Proof.Machine
end

