-- ==== Sys2Proof/Machine/Completions.lean ====
section
/-! DEFINITION. The meanings of the memory controller's completions (R54, R58, R154, R92, R161). Each is the end of the access in progress, and no event when that is of another kind (log entry 2). -/

namespace Sys2Proof.Machine

/-- FILL_COMPLETION (R54, R160). -/
def execFillCompletion (e0 e1 e2 e3 : ErrorPattern) (s : State) : Step :=
  match s.mem.inProgress with
  | some (.fill S f) => (s.accessEnded.fillDone S f (s.readRecord f #v[e0, e1, e2, e3])).concluded
  | _ => .next s

/-- SPILL_COMPLETION (R58, R59). -/
def execSpillCompletion (s : State) : Step :=
  match s.mem.inProgress with
  | some (.spill S x) => (s.accessEnded.spillDone S x).concluded
  | _ => .next s

/-- WORD_WRITE_COMPLETION (R154). -/
def execWordWriteCompletion (s : State) : Step :=
  match s.mem.inProgress with
  | some (.wordWrite p w) => (s.accessEnded.wordWritten p w).concluded
  | _ => .next s

/-- BEAT_READ_COMPLETION (R92, R102, R162). -/
def execBeatReadCompletion (e0 e1 e2 : ErrorPattern) (s : State) : Step :=
  match s.mem.inProgress with
  | some (.beatRead p r) => (s.accessEnded.beatReported p r (s.readBeat r [e0, e1, e2])).concluded
  | _ => .next s

def WordOutcome.code : WordOutcome → Nat
  | .clean => 0 | .corrected => 1 | .uncorrectable => 2

/-- The result words of READ_CONTEXT (R161, R180). -/
def diagnosticWords (rs : Vector WordReport 4) : Vector Word32 16 :=
  let r := recordOfReports rs
  #v[recordResultWord r 0, recordResultWord r 1, recordResultWord r 2, recordResultWord r 3,
     recordResultWord r 4, recordResultWord r 5, recordResultWord r 6, recordResultWord r 7,
     BitVec.ofNat 32 (rs[0].outcome.code + 2 ^ 2 * rs[1].outcome.code + 2 ^ 4 * rs[2].outcome.code +
       2 ^ 6 * rs[3].outcome.code + 2 ^ 8 * bit (recordSound r)), 0, 0, 0, 0, 0, 0, 0]

/-- DIAGNOSTIC_READ_COMPLETION (R161, R173). -/
def execDiagnosticReadCompletion (e0 e1 e2 e3 : ErrorPattern) (s : State) : Step :=
  match s.mem.inProgress with
  | some (.diagnostic f) =>
    let rs := s.readRecord f #v[e0, e1, e2, e3]
    ((s.accessEnded.countCorrected rs.toList).commandDone .ok (diagnosticWords rs)).concluded
  | _ => .next s

end Sys2Proof.Machine
end

