-- ==== Sys2Proof/Machine/Links.lean ====
section
/-! DEFINITION. The meanings of the framing layer's events and of the outbound departures (R137 to R139, R145). -/

namespace Sys2Proof.Machine

/-- LINK_UP (R137, R138): a DOWN port becomes UP; no effect in UP or FAULT. -/
def execLinkUp (p : PortId) (s : State) : Step :=
  if (s.unit p).state = .down then
    let s := s.setUnit p { s.unit p with
      state := .up, inbound := [], inboundCredits := 32, returning := 32, returnOwed := 0, outboundCredits := 0 }
    .next (s.armReady p)
  else .next s

/-- LINK_LOSS (R137): an UP port goes DOWN with teardown, one in FAULT without; no effect in DOWN. -/
def execLinkLoss (p : PortId) (s : State) : Step :=
  match (s.unit p).state with
  | .up => (s.teardown p .down).concluded
  | .fault => .next (s.setUnit p { s.unit p with state := .down })
  | .down => .next s

/-- FRAME_ARRIVAL (R139, R177): a frame of undefined kind is a corrupt frame; one found corrupt is so whatever the
credits (log entry 19). -/
def execFrameArrival (p : PortId) (f : LinkFrame) (s : State) : Step :=
  let u := s.unit p
  if u.state ≠ .up then .next s
  else
    match frameMessage f with
    | none => (s.violation p .corruptFrame).concluded
    | some m =>
      if u.inboundCredits = 0 then (s.violation p .noCredit).concluded
      else .next (s.setUnit p { u with inboundCredits := u.inboundCredits - 1, inbound := u.inbound ++ [m] })

/-- What a departure does to the tag of the message that departs (R142, R145). -/
def PortUnit.tagDeparted (u : PortUnit) : OutMsg → PortUnit
  | .response t _ _ .final | .endMsg t _ _ .final => u.setTag t TagRecord.initial
  | .response t _ _ .busyAnswer | .endMsg t _ _ .busyAnswer =>
    if (u.tag t).unit.isSome then u.setTag t { u.tag t with busyAnswer := false } else u.setTag t TagRecord.initial
  | .response _ _ _ .header | .endMsg _ _ _ .header | .data _ | .notice _ _ => u

/-- DEPARTURE (R145): the head of an UP port's outbound queue departs on one outbound credit, and the place freed may
receive a waiting notice (R147). -/
def execDeparture (p : PortId) (s : State) : Step :=
  let u := s.unit p
  match u.outbound with
  | [] => .next s
  | m :: q =>
    if u.state = .up ∧ 0 < u.outboundCredits then
      let u := { u with outbound := q, outboundCredits := u.outboundCredits - 1, linkOut := m.frame }
      (s.setUnit p (u.tagDeparted m).noticesPlaced).concluded
    else .next s

/-- RETURN_SENT (R139): the RETURN being sent has been sent, and the next one carries the credits freed meanwhile, at
most the 32 that a RETURN can carry (R176, R178; log entry 18). -/
def execReturnSent (p : PortId) (s : State) : Step :=
  let u := s.unit p
  if u.returning = 0 then .next s
  else .next (s.setUnit p { u with
    linkOut := returnFrame u.returning, returning := min 32 u.returnOwed, returnOwed := u.returnOwed - 32 })

end Sys2Proof.Machine
end

