-- ==== Sys2Proof/WellFormed.lean ====
section
/-! DEFINITION. The check of a command as data: what the event's operands must be for the event to be the one its row names. -/

namespace Sys2Proof

/-- The management command bytes that name a kind of frame (R180): read, write and the eight commands. -/
def definedCommandByte (cmd : Byte) : Bool :=
  cmd = 0x01 || cmd = 0x02 || (0x10 ≤ cmd.toNat && cmd.toNat ≤ 0x17)

/-- The management command bytes whose frames have a row of their own: the write frame and the eight commands. -/
def rowedCommandByte (cmd : Byte) : Bool := cmd = 0x02 || (0x10 ≤ cmd.toNat && cmd.toNat ≤ 0x17)

/-- A command is well formed when its operands are ones its row's event can bring. Every operand's range is in its
type but one: an UNDEFINED_COMMAND_BYTE carries a byte whose frame has no row of its own (R164, R181; log entry 23). -/
def Instr.wellFormed : Instr → Bool
  | .powerOn | .linkUp _ | .linkLoss _ | .frameArrival _ _ => true
  | .openReq _ | .closeReq _ | .queryReq _ | .putReq _ | .takeReq _ | .peekReq _ | .dropReq _ | .nextReq _ => true
  | .holdReq _ | .releaseReq _ | .pinReq _ | .unpinReq _ | .undefinedRequestCode _ => true
  | .data _ | .cut _ | .arm _ | .credit _ | .departure _ => true
  | .fillCompletion _ _ _ _ | .spillCompletion | .wordWriteCompletion | .beatReadCompletion _ _ _ => true
  | .diagnosticReadCompletion _ _ _ _ | .gapTimeout _ | .leaseExpiry _ | .writeFrame _ _ => true
  | .undefinedCommandByte cmd _ _ => !rowedCommandByte cmd
  | .init | .initSweepCompletion | .restart | .portReset _ | .clearHalt _ | .readFlow _ | .readContext _ => true
  | .readSlot _ | .clearCounters | .returnSent _ => true

end Sys2Proof
end

