-- ==== Sys2Proof/Machine/Management.lean ====
section
/-! DEFINITION. The management port: acceptance and refusal of frames, and the meanings of its frames and diagnostic commands (chapter 10). -/

namespace Sys2Proof.Machine

/-- A frame other than a read leaves 0 on the output line for the next frame (R180). -/
def State.spiClear (s : State) : State := s.setMgmt { s.mgmt with spiOut := 0 }

/-- A refused frame changes nothing except the refused flag (R164). -/
def State.refuseFrame (s : State) (r : RefusedReason) : State := s.setMgmt { s.mgmt with refused := some r }

/-- The acceptance of a command (R164). -/
def State.accept (s : State) (c : MgmtCommand) : State :=
  s.setMgmt { s.mgmt with
    command := .inFlight, lastCommand := some c, result := none, refused := none,
    resultWords := Vector.replicate 16 0 }

/-- A command frame other than RESTART: refused while a command is in flight, accepted and carried out otherwise
(R164). -/
def State.command (s : State) (c : MgmtCommand) (act : State → State) : State :=
  let s := s.spiClear
  if s.mgmt.command = .inFlight then s.refuseFrame .inFlight else act (s.accept c)

/-- A command DONE with a result and no result words. -/
def State.commandResult (s : State) (r : MgmtResult) : State := s.commandDone r (Vector.replicate 16 0)

/-- A read frame (R163): the word's value goes out with the next frame, and nothing else changes. -/
def State.readFrame (s : State) (addr : BitVec 16) : State := s.setMgmt { s.mgmt with spiOut := s.readWord addr }

/-- WRITE_FRAME (R163, R181): stored in CONFIG, refused otherwise and at an address that names no configuration word
(log entry 29). -/
def execWriteFrame (addr : BitVec 16) (value : Word32) (s : State) : Step :=
  let s := s.spiClear
  match s.config.write addr value with
  | none => .next (s.refuseFrame .undefined)
  | some c => if s.mgmt.device = .config then .next { s with config := c } else .next (s.refuseFrame .notConfig)

/-- UNDEFINED_COMMAND_BYTE (R164, R181): a frame whose byte names no kind is refused. The byte 0x01 is the read frame
(R163), which has no row of its own; the frame of another row is not this event (log entries 23 and 2). -/
def execUndefinedCommandByte (cmd : Byte) (addr : BitVec 16) (_value : Word32) (s : State) : Step :=
  if cmd = 0x01 then .next (s.readFrame addr)
  else if definedCommandByte cmd then .next s
  else .next (s.spiClear.refuseFrame .undefined)

/-- PORT_RESET past its acceptance (R170). -/
def State.portResetAct (arg : BitVec 16) (s : State) : State :=
  if h : arg.toNat < 4 then
    let p : PortId := ⟨arg.toNat, h⟩
    let s := match (s.unit p).state with
      | .up => s.teardown p .down
      | .fault => s.setUnit p { s.unit p with state := .down }
      | .down => s
    s.commandResult .ok
  else s.commandResult .badArg

/-- PORT_RESET (R170). -/
def execPortReset (arg : BitVec 16) (s : State) : Step := (s.command .portReset (State.portResetAct arg)).concluded

/-- CLEAR_HALT past its acceptance (R171): it goes to the cache controller, where it meets a CLOSED flow or one halted
with CTXERR first. -/
def State.clearHaltAct (arg : BitVec 16) (s : State) : State :=
  if s.mgmt.device ≠ .running then s.commandResult .notReady
  else if h : arg.toNat < 4096 then s.arrive (.clearHalt ⟨arg.toNat, h⟩)
  else s.commandResult .badArg

/-- CLEAR_HALT (R171). -/
def execClearHalt (arg : BitVec 16) (s : State) : Step := (s.command .clearHalt (State.clearHaltAct arg)).concluded

/-- The result words of READ_FLOW (R172, R180). -/
def FlowEntry.resultWords (e : FlowEntry) : Vector Word32 16 :=
  #v[e.resultWord 0, e.resultWord 1, e.resultWord 2, e.resultWord 3, 0, 0, 0, 0, 0, 0, 0, 0, 0, 0, 0, 0]

/-- READ_FLOW past its acceptance (R172). -/
def State.readFlowAct (arg : BitVec 16) (s : State) : State :=
  if h : arg.toNat < 4096 then s.commandDone .ok (s.flow ⟨arg.toNat, h⟩).resultWords else s.commandResult .badArg

/-- READ_FLOW (R172). -/
def execReadFlow (arg : BitVec 16) (s : State) : Step := .next (s.command .readFlow (State.readFlowAct arg))

/-- The record layout of the context fields a slot holds, check byte 0 (R180). They have meaning only while the slot is
RESIDENT; otherwise they are free (log entry 12). -/
def State.slotRecord (s : State) (S : SlotId) : BitVec 256 :=
  (if (s.slot S).state = .resident then (s.slot S).context
   else Context.ofRecord (Config.slotRecord s.drawn)).body ++ 0#8

/-- The result words of READ_SLOT (R172, R180). -/
def State.slotWords (s : State) (S : SlotId) : Vector Word32 16 :=
  let v := s.slot S
  let r := s.slotRecord S
  #v[BitVec.ofNat 32 (v.state.code + 2 ^ 2 * bit v.dirty + 2 ^ 3 * bit v.ref + 2 ^ 4 * bit v.delivering +
       2 ^ 5 * bit v.rescueMark + 2 ^ 8 * v.pins + 2 ^ 16 * flowField v.flow),
     BitVec.ofNat 32 (flowField v.incoming + 2 ^ 16 * v.pendingList.length),
     BitVec.ofNat 32 (v.returnList.length + 2 ^ 8 * v.parkedList.length + 2 ^ 16 * s.hand.val +
       2 ^ 24 * s.pinnedOrHeld),
     BitVec.ofNat 32 (s.missWait.length + 2 ^ 8 * s.linkWait.length),
     recordResultWord r 0, recordResultWord r 1, recordResultWord r 2, recordResultWord r 3,
     recordResultWord r 4, recordResultWord r 5, recordResultWord r 6, recordResultWord r 7, 0, 0, 0, 0]

/-- READ_SLOT past its acceptance (R172). -/
def State.readSlotAct (arg : BitVec 16) (s : State) : State :=
  if h : arg.toNat < 64 then
    let S : SlotId := ⟨arg.toNat, h⟩
    let s' := if (s.slot S).state = .resident then s else { s with drawn := s.drawn + 1 }
    s'.commandDone .ok (s.slotWords S)
  else s.commandResult .badArg

/-- READ_SLOT (R172). -/
def execReadSlot (arg : BitVec 16) (s : State) : Step := .next (s.command .readSlot (State.readSlotAct arg))

/-- READ_CONTEXT past its acceptance (R173). -/
def State.readContextAct (arg : BitVec 16) (s : State) : State :=
  if s.mgmt.device ≠ .running then s.commandResult .notReady
  else if h : arg.toNat < 4096 then s.setMem { s.mem with mgmtRead := some ⟨arg.toNat, h⟩ }
  else s.commandResult .badArg

/-- READ_CONTEXT (R173): the read is granted when nothing else waits (R157). -/
def execReadContext (arg : BitVec 16) (s : State) : Step :=
  (s.command .readContext (State.readContextAct arg)).concluded

/-- CLEAR_COUNTERS past its acceptance (R174): every device counter except stranded. -/
def State.clearCountersAct (s : State) : State :=
  let s := s.setMem { s.mem with corrected := 0, uncorrectableData := 0, contextErrors := 0 }
  (s.setMgmt { s.mgmt with strayBeats := 0, strayControls := 0 }).commandResult .ok

/-- CLEAR_COUNTERS (R174). -/
def execClearCounters (s : State) : Step := .next (s.command .clearCounters State.clearCountersAct)

end Sys2Proof.Machine
end

