-- ==== Sys2Proof/Machine/Messages.lean ====
section
/-! DEFINITION. The meanings of the take-ins of DATA, CUT, ARM and CREDIT (R75, R98, R118, R145). -/

namespace Sys2Proof.Machine

/-- A beat taken in, by the state of the port's assembly record (R75). At an over-length beat in ASSEMBLING the pass over
the parked list that the abort may bring (R127) comes before the port enters FAULT and is torn down (R148), which R126
leaves open: the model's choice (log entry 33). -/
def State.beatTaken (s : State) (p : PortId) (bytes : List Byte) : State :=
  let a := s.asm p
  match a.state with
  | .assembling =>
    if a.taken + bytes.length ≤ a.declared then s.acceptBeat p bytes
    else (s.abort p .badLen).violation p .overLengthBeat
  | .discarding =>
    if a.taken + bytes.length ≤ a.declared then s.discardBeat p bytes.length
    else (s.setAsm p Assembly.initial).violation p .overLengthBeat
  | .idle => s.strayBeat
  | .admitting => s

/-- DATA (R75): a beat waits while its assembly has fewer than 3 places free in the port access queue (R156). -/
def execData (p : PortId) (s : State) : Step :=
  match s.nextMessage p with
  | some (.data bytes) => if s.beatWaits p then .next s else ((s.popInbound p).beatTaken p bytes).concluded
  | _ => .next s

/-- CUT (R98). -/
def execCut (p : PortId) (s : State) : Step :=
  match s.nextMessage p with
  | some (.cut t kept) => ((s.popInbound p).cutTag p t (keptCount kept)).concluded
  | _ => .next s

/-- ARM (R118). -/
def execArm (p : PortId) (s : State) : Step :=
  match s.nextMessage p with
  | some .arm => .next ((s.popInbound p).armReady p)
  | _ => .next s

/-- CREDIT (R145): more than 255 outbound credits is a protocol violation. -/
def execCredit (p : PortId) (s : State) : Step :=
  match s.nextMessage p with
  | some (.credit n) =>
    let s := s.popInbound p
    let u := s.unit p
    if 255 < u.outboundCredits + n.toNat then (s.violation p .creditOverflow).concluded
    else .next (s.setUnit p { u with outboundCredits := u.outboundCredits + n.toNat })
  | _ => .next s

end Sys2Proof.Machine
end

