-- ==== Sys2Proof/Machine/Requests.lean ====
section
/-! DEFINITION. The meanings of the take-ins of the requests: each request's own checks, and where it goes (R143). -/

namespace Sys2Proof.Machine

/-- The take-in checks of OPEN, in order (R11). -/
def State.openRefusal (s : State) (p : PortId) (r : Request) : Option Status :=
  if !s.config.adminRole[p] then some .denied
  else if r.producers = 0 ∨ r.argB = 0 then some .badArg
  else if (s.flow r.flow).state ≠ .closed then some .existing
  else if (s.flow r.flow).admittedUnits ≠ 0 then some .busy
  else none

/-- OPEN (R11). -/
def execOpen (p : PortId) (s : State) : Step :=
  s.takeIn p .openFlow (fun s t r => s.checked p t (s.openRefusal p r) (fun s => s.arrive (.request p t)))

/-- CLOSE past its role and state checks: a flow halted with CTXERR is closed at once (R13, R23). -/
def State.closeGo (s : State) (p : PortId) (t : TagId) (f : FlowId) : State :=
  if (s.flow f).lost then (s.respond p t .ok (.state .closed)).enterClosed f else s.arrive (.request p t)

/-- The take-in checks of CLOSE (R13). -/
def State.closeRefusal (s : State) (p : PortId) (r : Request) : Option Status :=
  if !s.config.adminRole[p] then some .denied
  else if (s.flow r.flow).state = .closed then some .closed
  else none

/-- CLOSE (R13). -/
def execClose (p : PortId) (s : State) : Step :=
  s.takeIn p .closeFlow (fun s t r => s.checked p t (s.closeRefusal p r) (fun s => s.closeGo p t r.flow))

/-- QUERY (R19). -/
def execQuery (p : PortId) (s : State) : Step :=
  s.takeIn p .query (fun s t r => s.checked p t (s.flowRefusal r.flow) (fun s => s.arrive (.request p t)))

/-- The take-in checks of PUT (R68). -/
def State.putRefusal (s : State) (r : Request) : Option Status :=
  if r.argA.toNat < 1 ∨ 16384 < r.argA.toNat then some .badArg else s.flowRefusal r.flow

/-- A PUT that passes its take-in checks: the record is ADMITTING, and its admission goes to the cache controller (R68,
R71). -/
def State.putGo (s : State) (p : PortId) (t : TagId) (r : Request) : State :=
  (s.setAsm p { Assembly.initial with
    state := .admitting, tag := some t, flow := r.flow, declared := r.argA.toNat,
    needed := neededFor r.argA.toNat }).arrive (.request p t)

/-- PUT (R68). -/
def execPut (p : PortId) (s : State) : Step :=
  s.takeIn p .put (fun s t r =>
    match s.putRefusal r with
    | some st => s.refusePut p t st
    | none => s.putGo p t r)

/-- The take-in checks of TAKE, PEEK and DROP past the argument range (R87). -/
def State.consumerRefusal (s : State) (p : PortId) (r : Request) (inRange : Bool) : Option Status :=
  if !inRange then some .badArg
  else match s.flowRefusal r.flow with
    | some st => some st
    | none => if (s.flow r.flow).consumer ≠ p then some .notCons else none

/-- A consumer request joins the tail of its port's consumer queue (R86, R87); it is handed on when the event ends. -/
def State.queueConsumer (s : State) (p : PortId) (t : TagId) : State :=
  let s := s.setPhase p t .queuedAtPort
  s.setUnit p { s.unit p with consumerQueue := (s.unit p).consumerQueue ++ [t] }

/-- TAKE (R87): the limit is 0 or 1 to 16,384. -/
def execTake (p : PortId) (s : State) : Step :=
  s.takeIn p .take (fun s t r =>
    s.checked p t (s.consumerRefusal p r (decide (r.argA.toNat ≤ 16384))) (fun s => s.queueConsumer p t))

/-- PEEK (R87): the limit is 1 to 4096. -/
def execPeek (p : PortId) (s : State) : Step :=
  s.takeIn p .peek (fun s t r =>
    s.checked p t (s.consumerRefusal p r (decide (1 ≤ r.argA.toNat ∧ r.argA.toNat ≤ 4096)))
      (fun s => s.queueConsumer p t))

/-- DROP (R87, R103): every count a request can carry is in range. -/
def execDrop (p : PortId) (s : State) : Step :=
  s.takeIn p .drop (fun s t r => s.checked p t (s.consumerRefusal p r true) (fun s => s.queueConsumer p t))

/-- NEXT at the ready lists block (R113). -/
def State.nextGo (s : State) (p : PortId) (t : TagId) : State :=
  match s.nextListed p with
  | some (c, f) =>
    ((s.setFlow f { s.flow f with dispatched := true }).relist f).respond p t .ok (.next f c)
  | none =>
    let s := s.respond p t .empty .none
    s.setUnit p { s.unit p with readyArmed := true }

/-- NEXT (R113). -/
def execNext (p : PortId) (s : State) : Step := s.takeIn p .next (fun s t _ => s.nextGo p t)

/-- The take-in checks of HOLD, in order (R122). -/
def State.holdRefusal (s : State) (p : PortId) (r : Request) : Option Status :=
  if r.argA = 0 then some .badArg
  else match s.flowRefusal r.flow with
    | some st => some st
    | none => if (s.hold p).state ≠ .empty ∧ (s.hold p).flow ≠ r.flow then some .holding else none

/-- HOLD (R122). -/
def execHold (p : PortId) (s : State) : Step :=
  s.takeIn p .hold (fun s t r => s.checked p t (s.holdRefusal p r) (fun s => s.arrive (.request p t)))

/-- RELEASE at the hold table (R128). -/
def State.releaseGo (s : State) (p : PortId) (t : TagId) (f : FlowId) : State :=
  if (s.hold p).state = .held ∧ (s.hold p).flow = f then (s.respond p t .ok .none).endHold p none
  else s.respond p t .notHeld .none

/-- RELEASE (R128). -/
def execRelease (p : PortId) (s : State) : Step := s.takeIn p .release (fun s t r => s.releaseGo p t r.flow)

/-- The take-in checks of PIN and UNPIN (R132). -/
def State.pinRefusal (s : State) (p : PortId) (r : Request) : Option Status :=
  if !s.config.adminRole[p] then some .denied else s.flowRefusal r.flow

/-- PIN (R132, R133). -/
def execPin (p : PortId) (s : State) : Step :=
  s.takeIn p .pin (fun s t r => s.checked p t (s.pinRefusal p r) (fun s => s.arrive (.request p t)))

/-- UNPIN (R132, R134). -/
def execUnpin (p : PortId) (s : State) : Step :=
  s.takeIn p .unpin (fun s t r => s.checked p t (s.pinRefusal p r) (fun s => s.arrive (.request p t)))

/-- UNDEFINED_REQUEST_CODE (R141, check 4). -/
def execUndefinedRequestCode (p : PortId) (s : State) : Step :=
  s.takeIn p .undefined (fun s t _ => s.refuse p t .badArg)

end Sys2Proof.Machine
end

