-- ==== Sys2Proof/Machine/Resets.lean ====
section
/-! DEFINITION. The meanings of POWER_ON, INIT, INIT_SWEEP_COMPLETION and RESTART (R166 to R169). -/

namespace Sys2Proof.Machine

/-- What a reset of the whole part leaves of a state whose access in progress has been cut short: the contents of the
SRAM, which no kind of reset initializes (R153, R162), and the queue of commands, which is not the part's. -/
def State.volatileReset (s : State) : State :=
  let s := s.cutShort
  { State.reset with pending := s.pending, sram := s.sram, damage := s.damage, drawn := s.drawn }

/-- POWER_ON (R166): every block, the configuration included, takes its power-on value. -/
def execPowerOn (s : State) : Step := .next s.volatileReset

/-- RESTART (R169): accepted in every device state and command state. Every block takes its RESTART value, and the
configuration is kept. -/
def execRestart (s : State) : Step :=
  .next { s.volatileReset with
    config := s.config
    mgmt := { Management.initial with command := .done, lastCommand := some .restart, result := some .ok } }

/-- The number of the first failing test of the stored configuration, none when it is valid (R167). -/
def Configuration.failingTest (c : Configuration) : Option Nat :=
  let n := c.nSeg.toNat
  let m := c.memSize.toNat
  let segEnd := c.segBase.toNat + 16 * n
  let ctxEnd := c.ctxBase.toNat + 16384
  if n < 1024 then some 1
  else if m < 32768 ∨ 2097152 < m then some 2
  else if m < segEnd then some 3
  else if m < ctxEnd then some 4
  else if c.ctxBase.toNat < segEnd ∧ c.segBase.toNat < ctxEnd then some 5
  else if ¬(c.floors[0].toNat ≤ c.floors[1].toNat ∧ c.floors[1].toNat ≤ c.floors[2].toNat ∧
      c.floors[2].toNat ≤ c.floors[3].toNat) then some 6
  else none

/-- INIT past its acceptance (R167): refused INVALID with the failing test, or the sweep begins. -/
def State.initAct (s : State) : State :=
  if s.mgmt.device = .config then
    match s.config.failingTest with
    | some k => s.commandDone .invalid ((Vector.replicate 16 0).set 0 (BitVec.ofNat 32 k))
    | none => s.setMgmt { s.mgmt with device := .initializing }
  else s.commandDone .wrongState (Vector.replicate 16 0)

/-- INIT (R166, R167). -/
def execInit (s : State) : Step := .next (s.command .init State.initAct)

/-- The pool at the end of the INIT sweep (R27, R168). -/
def Pool.atSweepEnd (nSeg : Nat) : Pool :=
  { Pool.initial with swept := nSeg, freeHead := 1, freeTail := nSeg, free := nSeg, lowArmed := true }

/-- What the part holds at the end of the INIT sweep (R168). -/
def State.sweepEnd (s : State) : State :=
  { s with
    pool := Pool.atSweepEnd s.config.nSeg.toNat
    flows := []
    slots := Vector.replicate 64 Slot.initial
    hand := 0
    pinnedOrHeld := 0
    missWait := []
    linkWait := []
    holds := Vector.replicate 4 Hold.initial
    lists := Vector.replicate 4 (Vector.replicate 4 ClassList.initial)
    units := s.units.map (fun u => { u with readyArmed := decide (u.state = .up) })
    mgmt := { s.mgmt with device := .running, command := .done, result := some .ok } }

/-- INIT_SWEEP_COMPLETION (R168). -/
def execInitSweepCompletion (s : State) : Step :=
  if s.mgmt.device = .initializing then .next s.sweepEnd else .next s

end Sys2Proof.Machine
end

