-- ==== Sys2Proof/Machine/Timers.lean ====
section
/-! DEFINITION. The meanings of GAP_TIMEOUT and LEASE_EXPIRY, and what a step does on an empty queue: an expiry that is due, or one microsecond of the time base (R77, R129). -/

namespace Sys2Proof.Machine

/-- GAP_TIMEOUT (R77): the timer has reached the limit. The command is no event before that (log entry 2). -/
def execGapTimeout (p : PortId) (s : State) : Step :=
  if s.gapDue p then
    match (s.asm p).state with
    | .assembling => (s.abort p .timeout).concluded
    | .discarding => .next (s.setAsm p Assembly.initial)
    | .idle | .admitting => .next s
  else .next s

/-- LEASE_EXPIRY (R129): the lease of a HELD record has reached 0. The command is no event before that (log entry 2). -/
def execLeaseExpiry (p : PortId) (s : State) : Step :=
  let h := s.hold p
  if s.leaseDue p then
    if (s.del p).state = .streaming ∧ (s.del p).flow = h.flow then .next (s.setHold p { h with state := .lapsing })
    else (s.endHold p (some (.holdLapsed h.flow))).concluded
  else .next s

/-- One microsecond of the time base (R77, R129): each lease that runs falls by 1, and each running gap timer rises by
1. -/
def State.tick (s : State) : State :=
  { s with
    holds := s.holds.map (fun h => if h.state = .held then { h with lease := h.lease - 1 } else h)
    asms := s.asms.map (fun a => { a with gapTimer := a.gapTimer.map (fun n => n + 1) }) }

/-- A step on an empty queue: an expiry that is due is taken, a gap timer before a lease and the lowest port first, and
where none is due one microsecond passes. No time passes while an expiry is due (log entries 4 and 5). -/
def State.idle (s : State) : Step :=
  match allPorts.find? s.gapDue with
  | some p => execGapTimeout p s
  | none =>
    match allPorts.find? s.leaseDue with
    | some p => execLeaseExpiry p s
    | none => .next s.tick

end Sys2Proof.Machine
end

