-- ==== Sys2Proof/Machine/Dispatch.lean ====
section
/-! DEFINITION. The meaning of each command: one arm per constructor, each one call. -/

namespace Sys2Proof.Machine

def exec (i : Instr) (s : State) : Host.Outcome State Fault Refusal :=
  match i with
  | .powerOn => Sys2Proof.Machine.execPowerOn s
  | .linkUp p => Sys2Proof.Machine.execLinkUp p s
  | .linkLoss p => Sys2Proof.Machine.execLinkLoss p s
  | .frameArrival p f => Sys2Proof.Machine.execFrameArrival p f s
  | .openReq p => Sys2Proof.Machine.execOpen p s
  | .closeReq p => Sys2Proof.Machine.execClose p s
  | .queryReq p => Sys2Proof.Machine.execQuery p s
  | .putReq p => Sys2Proof.Machine.execPut p s
  | .takeReq p => Sys2Proof.Machine.execTake p s
  | .peekReq p => Sys2Proof.Machine.execPeek p s
  | .dropReq p => Sys2Proof.Machine.execDrop p s
  | .nextReq p => Sys2Proof.Machine.execNext p s
  | .holdReq p => Sys2Proof.Machine.execHold p s
  | .releaseReq p => Sys2Proof.Machine.execRelease p s
  | .pinReq p => Sys2Proof.Machine.execPin p s
  | .unpinReq p => Sys2Proof.Machine.execUnpin p s
  | .undefinedRequestCode p => Sys2Proof.Machine.execUndefinedRequestCode p s
  | .data p => Sys2Proof.Machine.execData p s
  | .cut p => Sys2Proof.Machine.execCut p s
  | .arm p => Sys2Proof.Machine.execArm p s
  | .credit p => Sys2Proof.Machine.execCredit p s
  | .departure p => Sys2Proof.Machine.execDeparture p s
  | .fillCompletion e0 e1 e2 e3 => Sys2Proof.Machine.execFillCompletion e0 e1 e2 e3 s
  | .spillCompletion => Sys2Proof.Machine.execSpillCompletion s
  | .wordWriteCompletion => Sys2Proof.Machine.execWordWriteCompletion s
  | .beatReadCompletion e0 e1 e2 => Sys2Proof.Machine.execBeatReadCompletion e0 e1 e2 s
  | .diagnosticReadCompletion e0 e1 e2 e3 => Sys2Proof.Machine.execDiagnosticReadCompletion e0 e1 e2 e3 s
  | .gapTimeout p => Sys2Proof.Machine.execGapTimeout p s
  | .leaseExpiry p => Sys2Proof.Machine.execLeaseExpiry p s
  | .writeFrame addr value => Sys2Proof.Machine.execWriteFrame addr value s
  | .undefinedCommandByte cmd addr value => Sys2Proof.Machine.execUndefinedCommandByte cmd addr value s
  | .init => Sys2Proof.Machine.execInit s
  | .initSweepCompletion => Sys2Proof.Machine.execInitSweepCompletion s
  | .restart => Sys2Proof.Machine.execRestart s
  | .portReset arg => Sys2Proof.Machine.execPortReset arg s
  | .clearHalt arg => Sys2Proof.Machine.execClearHalt arg s
  | .readFlow arg => Sys2Proof.Machine.execReadFlow arg s
  | .readContext arg => Sys2Proof.Machine.execReadContext arg s
  | .readSlot arg => Sys2Proof.Machine.execReadSlot arg s
  | .clearCounters => Sys2Proof.Machine.execClearCounters s
  | .returnSent p => Sys2Proof.Machine.execReturnSent p s

end Sys2Proof.Machine
end

