-- ==== Sys2Proof/Safety.lean ====
section
/-! DEFINITION. What every run keeps, and the words in which claims about a command are made: when a message is taken in, what a take-in leaves, the values after a reset, and what a ready list holds. -/

namespace Sys2Proof.Machine

/-! ## What every run keeps -/

/-- The flow map, the link table, the damage table and the SRAM are in their canonical forms. -/
def State.canonical (s : State) : Prop :=
  Memory.wf s.sram = true ∧ Table.risingFrom none s.damage = true ∧
    Table.wf (fun _ => FlowEntry.initial) s.flows = true ∧ Table.wf (sweptEntry s.pool.swept) s.pool.links = true

/-- Inbound credits and messages in the buffer of an UP port are 32 together (R139). -/
def State.creditsWhole (s : State) : Prop :=
  ∀ p, (s.unit p).state = .up → (s.unit p).inboundCredits + (s.unit p).inbound.length = 32

/-- The pinned-or-held count is at most 48 (R135). -/
def State.pinsBounded (s : State) : Prop := s.pinnedOrHeld ≤ 48

/-- The miss wait holds at most 16 requests (R60). -/
def State.missBounded (s : State) : Prop := s.missWait.length ≤ 16

/-- A flow is held by at most one port (R121). -/
def State.holdsExclusive (s : State) : Prop :=
  ∀ p q, p ≠ q → (s.hold p).state ≠ .empty → (s.hold q).state ≠ .empty → (s.hold p).flow ≠ (s.hold q).flow

/-- What an assembly record holds of the pool's reserved count: while ASSEMBLING, what it needs and has not allocated
(R36). -/
def Assembly.reservation (a : Assembly) : Nat := if a.state = .assembling then a.needed - a.allocated else 0

/-- The pool's reserved count is the sum over the assemblies, and at most its free count (R36). -/
def State.reservedWhole (s : State) : Prop :=
  s.pool.reserved = (allPorts.map (fun p => (s.asm p).reservation)).sum ∧ s.pool.reserved ≤ s.pool.free

/-- What an assembly record keeps in a device state: in ADMITTING and ASSEMBLING the device is RUNNING and the record
needs the segments of its declared length; in ASSEMBLING it has taken at most that length, and allocated the segments of
the bytes taken (R26, R29, R67, R72). -/
def Assembly.whole (a : Assembly) (d : DeviceState) : Prop :=
  (a.state = .admitting ∨ a.state = .assembling → d = .running ∧ a.needed = neededFor a.declared) ∧
    (a.state = .admitting → a.taken = 0) ∧
    (a.state = .assembling → a.taken ≤ a.declared ∧ a.allocated = neededFor a.taken)

/-- Every assembly record is whole. -/
def State.assembliesWhole (s : State) : Prop := ∀ p, (s.asm p).whole s.mgmt.device

/-- The six tests that INIT makes of the configuration, by number (R167). -/
def Configuration.test (c : Configuration) : Nat → Prop
  | 1 => 1024 ≤ c.nSeg.toNat ∧ c.nSeg.toNat ≤ 65535
  | 2 => 32768 ≤ c.memSize.toNat ∧ c.memSize.toNat ≤ 2097152
  | 3 => ∀ w, c.segBase.toNat ≤ w → w ≤ c.segBase.toNat + 16 * c.nSeg.toNat - 1 → w ≤ c.memSize.toNat - 1
  | 4 => ∀ w, c.ctxBase.toNat ≤ w → w ≤ c.ctxBase.toNat + 16383 → w ≤ c.memSize.toNat - 1
  | 5 => ∀ w, ¬((c.segBase.toNat ≤ w ∧ w ≤ c.segBase.toNat + 16 * c.nSeg.toNat - 1) ∧
      (c.ctxBase.toNat ≤ w ∧ w ≤ c.ctxBase.toNat + 16383))
  | 6 => c.floors[0].toNat ≤ c.floors[1].toNat ∧ c.floors[1].toNat ≤ c.floors[2].toNat ∧
      c.floors[2].toNat ≤ c.floors[3].toNat
  | _ => True

/-- A device that has left CONFIG has a configuration that passes the six tests of INIT (R166, R167). -/
def State.configuredWell (s : State) : Prop := s.mgmt.device ≠ .config → ∀ k, 1 ≤ k → k ≤ 6 → s.config.test k

/-- What every run keeps. -/
def State.safe (s : State) : Prop :=
  s.canonical ∧ s.creditsWhole ∧ s.pinsBounded ∧ s.missBounded ∧ s.holdsExclusive ∧ s.configuredWell ∧
    s.reservedWhole ∧ s.assembliesWhole

/-! ## What the segments account for -/

/-- The segments of an assembly record's chain: those it has allocated, while ASSEMBLING (R32). -/
def Assembly.segments (a : Assembly) : Nat := if a.state = .assembling then a.allocated else 0

/-- The segments of a tag record's chain: those of its finished unit (R32). -/
def TagRecord.segments (r : TagRecord) : Nat :=
  match r.unit with
  | some u => u.needed
  | none => 0

/-- The sum of R32: free, stranded, seg_count over all flows, and the allocated segments of the assemblies in ASSEMBLING
and of the finished units. -/
@[irreducible] def State.segments (s : State) : Nat :=
  s.pool.free + s.pool.stranded + ((List.finRange 4096).map (fun f => (s.flow f).segCount)).sum +
    (allPorts.map (fun p => (s.asm p).segments)).sum +
    (allPorts.map (fun p => ((List.finRange 8).map (fun t => (s.tagRec p t).segments)).sum)).sum

/-! ## What the pinned-or-held count counts -/

/-- A slot that holds a flow is the one that the flow's residency names (R44, R48). -/
def State.namesWhole (s : State) : Prop := ∀ S f, (s.slot S).flow = some f → (s.flow f).residency = some S

/-- The pinned-or-held count is the number of slots that are pinned or whose flow is held (R47). -/
def State.countWhole (s : State) : Prop := s.pinnedOrHeld = allSlots.countP (fun S => s.counted S)

/-! ## Expiries -/

/-- A port's gap timer has run for the limit x 10 us since it last started; a limit of 0 is never reached (R77). -/
def State.gapExpired (s : State) (p : PortId) : Prop :=
  s.config.gapTimeout ≠ 0 ∧ ∃ n, (s.asm p).gapTimer = some n ∧ 10 * s.config.gapTimeout.toNat ≤ n

/-- The lease of a port's HELD record has run out (R129). -/
def State.leaseExpired (s : State) (p : PortId) : Prop := (s.hold p).state = .held ∧ (s.hold p).lease = 0

/-! ## Take-in -/

/-- The message at the head of a port's inbound buffer is taken in (R140, R70). -/
def State.takesIn (s : State) (p : PortId) (m : Message) (rest : List Message) : Prop :=
  (s.unit p).state = .up ∧ (s.asm p).state ≠ .admitting ∧ (s.unit p).inbound = m :: rest

/-- A REQUEST of a kind is taken in on a free tag by a device that is RUNNING: the generic checks of R141 pass. A free
tag is not the tag of the port's current consumer request, which is in use (R86, R142). -/
def State.takesRequest (s : State) (p : PortId) (t : TagId) (body : BitVec 64) (rest : List Message) (k : ReqKind) :
    Prop :=
  s.takesIn p (.request t body) rest ∧ (Request.ofBody body).kind = k ∧ (s.tagRec p t).status = .free ∧
    (s.unit p).current ≠ some t ∧ s.mgmt.device = .running

/-- The command that takes in a REQUEST of a kind. -/
def ReqKind.command (k : ReqKind) (p : PortId) : Instr :=
  match k with
  | .openFlow => .openReq p
  | .closeFlow => .closeReq p
  | .query => .queryReq p
  | .put => .putReq p
  | .take => .takeReq p
  | .peek => .peekReq p
  | .drop => .dropReq p
  | .next => .nextReq p
  | .hold => .holdReq p
  | .release => .releaseReq p
  | .pin => .pinReq p
  | .unpin => .unpinReq p
  | .undefined => .undefinedRequestCode p

/-- A port unit that has taken its head message in, with `rest` left: the place is returned to the master (R139). -/
def PortUnit.afterTakeIn (u : PortUnit) (rest : List Message) : PortUnit :=
  { u with
    inbound := rest
    inboundCredits := u.inboundCredits + 1
    returning := if u.returning = 0 then 1 else u.returning
    returnOwed := if u.returning = 0 then u.returnOwed else u.returnOwed + 1 }

/-- A tag record in use by a request in a phase (R142). -/
def TagRecord.using (r : Request) (ph : Phase) : TagRecord :=
  { status := .inUse, request := r, phase := ph, unit := none, busyAnswer := false }

/-- The state when a port has taken a request in on a tag, in a phase (R140, R142). -/
def State.takenIn (s : State) (p : PortId) (rest : List Message) (t : TagId) (r : Request) (ph : Phase) : State :=
  s.setUnit p (((s.unit p).afterTakeIn rest).setTag t (.using r ph))

/-- The state when a port has taken a request in on a tag and placed a message for it: its final response when the
phase is `responding` (R142, R144). -/
def State.takenAndPlaced (s : State) (p : PortId) (rest : List Message) (t : TagId) (r : Request) (ph : Phase)
    (m : OutMsg) : State :=
  s.setUnit p ((((s.unit p).afterTakeIn rest).setTag t (.using r ph)).place m)

/-- The message that refuses a request with a status: an END for TAKE and PEEK, a RESPONSE otherwise (R9, R141). -/
def refusal (k : ReqKind) (t : TagId) (st : Status) : OutMsg :=
  match k with
  | .take | .peek => .endMsg t st 0 .final
  | _ => .response t st .none .final

/-- The state when a port has taken a request in on a tag and refused it with a status. -/
def State.refused (s : State) (p : PortId) (rest : List Message) (t : TagId) (body : BitVec 64) (st : Status) : State :=
  s.takenAndPlaced p rest t (Request.ofBody body) .responding (refusal (Request.ofBody body).kind t st)

/-- The state when a port has taken a request in on a tag and answered it OK with a result. -/
def State.granted (s : State) (p : PortId) (rest : List Message) (t : TagId) (body : BitVec 64) (res : Result) : State :=
  s.takenAndPlaced p rest t (Request.ofBody body) .responding (.response t .ok res .final)

/-- The state when a service at a slot has marked it used (R46). -/
def State.used (s : State) (S : SlotId) : State := s.setSlot S { s.slot S with ref := true }

/-- The state when a port has taken a request in on a tag, and the request has parked at the tail of a slot's parked list
(R46, R125). -/
def State.parks (s : State) (S : SlotId) (p : PortId) (rest : List Message) (t : TagId) (r : Request) : State :=
  (s.setSlot S { s.slot S with ref := true, parkedList := (s.slot S).parkedList ++ [.request p t] }).takenIn p rest t r
    .parked

/-- A port unit whose inbound side and outbound queue are empty, as a teardown leaves them (R150, R151). -/
def PortUnit.shut (u : PortUnit) : Prop := u.inbound = [] ∧ u.inboundCredits = 0 ∧ u.outbound = []

/-- The state after a protocol violation of a port: FAULT, with the violation as its last fault (R137, R148). -/
def State.faulted (t : State) (p : PortId) (v : LastFault) : Prop :=
  (t.unit p).state = .fault ∧ (t.unit p).lastFault = v ∧ (t.unit p).shut

/-- A port unit whose head message has gone out on one outbound credit (R145). -/
def PortUnit.sent (u : PortUnit) (m : OutMsg) (q : List OutMsg) : PortUnit :=
  { u with outbound := q, outboundCredits := u.outboundCredits - 1, linkOut := m.frame }

/-- The assembly record when `n` bytes of a refused PUT's beats are to be discarded: IDLE when there are none (R68,
R73, R76, R77). Its flow and needed are 0, the model's choice (log entry 35). -/
def Assembly.discarding (n : Nat) : Assembly :=
  { Assembly.initial with
    state := if n = 0 then .idle else .discarding, declared := n, gapTimer := if n = 0 then none else some 0 }

/-- No request waits for a victim: both waits are empty (R60, R61). -/
def State.noWaits (s : State) : Prop := s.missWait = [] ∧ s.linkWait = []

/-- Nothing is due and no access waits but the one in progress: when it ends, the arbiter has nothing to grant. -/
def State.lastAccess (s : State) : Prop := ({ s with mem := { s.mem with inProgress := none } } : State).quiet = true

/-- Test 4 of R72 fails for a PUT of port `p`: another port holds the flow; or no port holds it, and a HOLD stands in the
slot's parked list but none from `p` (R127). -/
def State.putBlocked (s : State) (f : FlowId) (S : SlotId) (p : PortId) : Prop :=
  (∃ q, q ≠ p ∧ (s.hold q).state ≠ .empty ∧ (s.hold q).flow = f) ∨
    ((∀ q, ¬((s.hold q).state ≠ .empty ∧ (s.hold q).flow = f)) ∧
      (∃ q t, .request q t ∈ (s.slot S).parkedList ∧ (s.tagRec q t).request.kind = .hold) ∧
      ¬ ∃ t, .request p t ∈ (s.slot S).parkedList ∧ (s.tagRec p t).request.kind = .hold)

/-- Step 1 of R33 fails: the flow has a quota, and the unit's segments would exceed it. -/
def State.overQuota (s : State) (f : FlowId) (S : SlotId) (needed : Nat) : Prop :=
  (s.slot S).context.quota ≠ 0 ∧
    (s.slot S).context.quota.toNat < (s.flow f).segCount + (s.flow f).admittedSegs + needed

/-- The command that takes a TAKE or a PEEK in. -/
def DelKind.command (k : DelKind) (p : PortId) : Instr :=
  match k with
  | .take => .takeReq p
  | .peek => .peekReq p

/-- The request kind of a delivery's kind. -/
def DelKind.request : DelKind → ReqKind
  | .take => .take
  | .peek => .peek

/-- Requests of flow `f`, none of which is a link, and of which a PUT's record is ADMITTING for it (R67, R70). -/
def State.plainRequests (s : State) (f : FlowId) (rs : List Req) : Prop :=
  ∀ r ∈ rs, match r with
    | .request q g => (s.tagRec q g).request.flow = f ∧ (s.tagRec q g).unit = none ∧
        ((s.tagRec q g).request.kind = .put → (s.asm q).state = .admitting ∧ (s.asm q).tag = some g)
    | .clearHalt _ => False

/-- Requests of flow `f`, all of them QUERY. -/
def State.queries (s : State) (f : FlowId) (rs : List Req) : Prop :=
  s.plainRequests f rs ∧ ∀ r ∈ rs, match r with
    | .request q g => (s.tagRec q g).request.kind = .query
    | .clearHalt _ => False

/-- The port units when the requests of a list have been refused with a status, in list order. -/
def State.unitsRefusing (s : State) (rs : List Req) (st : Status) : Vector PortUnit 4 :=
  (rs.foldl (fun v r => match r with
    | .request q g => v.refuse q g st
    | .clearHalt _ => v) s).units

/-- The port units when the requests of a list have been answered OK with a result, in list order. -/
def State.unitsAnswering (s : State) (rs : List Req) (res : Result) : Vector PortUnit 4 :=
  (rs.foldl (fun v r => match r with
    | .request q g => v.respond q g .ok res
    | .clearHalt _ => v) s).units

/-- What a QUERY of flow `f` reports, whose slot has context `c` and pins `n` (R19). -/
def State.queried (s : State) (f : FlowId) (c : Context) (n : Nat) : Result :=
  .query (s.flow f).state (s.flow f).halt (s.holder f) c.unitCount.toNat (s.flow f).segCount (s.flow f).admittedUnits
    (s.flow f).admittedSegs c.cursorDone.toNat n

/-- A PUT refused in a list leaves its port's beats to be discarded (R55, R68). -/
def State.discardsFor (s u : State) (rs : List Req) : Prop :=
  ∀ q, (∀ g, .request q g ∈ rs → (s.tagRec q g).request.kind = .put →
      u.asm q = .discarding (s.tagRec q g).request.argA.toNat) ∧
    ((∀ g, .request q g ∈ rs → (s.tagRec q g).request.kind ≠ .put) → u.asm q = s.asm q)

/-! ## Beats -/

/-- The segment of the byte at offset `o` of a unit: one whose segment is not yet allocated goes to `next` (R29, R74). -/
def Assembly.segAt (a : Assembly) (next o : Nat) : Nat := if o / 128 < neededFor a.taken then a.chainLast else next

/-- How many writes end with the bytes of a beat from offset `lo` to `hi` of the unit, with the beat ending at `last`:
a write ends with the beat's last byte and with a segment's last byte (R154). -/
def writesEnding (last lo hi : Nat) : Nat :=
  ((List.range' lo (hi - lo)).filter (fun o => o + 1 = last ∨ (o + 1) % 128 = 0)).length

/-- The bytes in a port's gather word, and the writes that end in it. -/
def State.gathered (s : State) (p : PortId) : List Byte × Nat :=
  match s.mem.gather[p] with
  | some g => (g.bytes, g.ends)
  | none => ([], 0)

/-- A port's gather word holds the last bytes its assembly has taken, back to a word's start (R154). -/
def State.gatherWhole (s : State) (p : PortId) : Prop :=
  match s.mem.gather[p] with
  | none => (s.asm p).taken % 8 = 0
  | some g => g.bytes ≠ [] ∧ g.bytes.length = (s.asm p).taken % 8 ∧ g.seg = (s.asm p).chainLast ∧
      g.word = (s.asm p).taken % 128 / 8

/-- The `j`-th word that a beat of an assembly fills, from its gather word on: its place, its bytes and the writes that
end in it (R74, R154). -/
def State.beatWord (s : State) (p : PortId) (bytes : List Byte) (j : Nat) : WordWrite :=
  let a := s.asm p
  let g := s.gathered p
  let o := a.taken - g.1.length + 8 * j
  { seg := a.segAt s.pool.freeHead o, word := o % 128 / 8, data := wordOfBytes (((g.1 ++ bytes).drop (8 * j)).take 8)
    ends := (if j = 0 then g.2 else 0) +
      writesEnding (a.taken + bytes.length) (max o a.taken) (min (o + 8) (a.taken + bytes.length))
    live := true, stamp := s.handed + j }

/-! ## What leaves a chain -/

/-- The pool when the chain `segs` has been released, with the re-arm test (R30, R41). -/
def State.poolReleasing (s : State) (segs : List Nat) : Pool :=
  { s.pool.release (segs.head?.getD 0) (segs.getLast?.getD 0) segs.length with
    lowArmed := s.pool.lowArmed || decide (segs ≠ [] ∧
      s.config.warning.toNat + 64 ≤ s.pool.free + segs.length - s.pool.reserved) }

/-- The pool when an assembly has been aborted, with the re-arm test (R38, R41). -/
def State.poolAborting (s : State) (a : Assembly) : Pool :=
  let reserved := s.pool.reserved - (a.needed - a.allocated)
  { s.pool.release a.chainFirst a.chainLast a.allocated with
    reserved := reserved
    lowArmed := s.pool.lowArmed || decide (s.config.warning.toNat + 64 ≤ s.pool.free + a.allocated - reserved) }

/-- The state when port `p`'s assembly has been aborted and its PUT, on tag `g`, answered (R38, R82): the record is IDLE,
what it allocated is released and the rest unreserved, its flow's admitted counts have fallen, and its writes are still
carried out, with no record to report to. -/
def State.assemblyAborted (s : State) (p : PortId) (g : TagId) (st : Status) : State :=
  let a := s.asm p
  let e := s.flow a.flow
  { ((s.setFlow a.flow { e with
      admittedSegs := e.admittedSegs - a.needed, admittedUnits := e.admittedUnits - 1 }).setAsm p Assembly.initial).setUnit p
        (((s.unit p).setTag g { s.tagRec p g with phase := .responding }).place (.response g st .none .final)) with
    pool := s.poolAborting a, mem := (s.abandonWrites p).mem, handed := (s.abandonWrites p).handed }

/-- What the commit of `c` bytes, at least 1, of a delivery leaves of its flow and its pool, from `s` to `u` (R95): the
cursor in the segment where the walk stopped, or the head unit gone; the segments walked over released. -/
def State.commits (s u : State) (S : SlotId) (d : Delivery) (c : Nat) : Prop :=
  let x := (s.slot S).context
  let walk := s.pool.commitWalk 128 d.startSeg d.startOff c
  let next := s.pool.after walk.1
  (∀ seg into, walk.2 = some (seg, into) → (u.slot S).context = { x with
    headSeg := BitVec.ofNat 16 seg, cursorOff := BitVec.ofNat 7 into
    cursorDone := x.cursorDone + BitVec.ofNat 14 c }) ∧
  (walk.2 = none → (u.slot S).context = { x with
    headSeg := BitVec.ofNat 16 next, tailSeg := if next = 0 then 0 else x.tailSeg, cursorOff := 0, cursorDone := 0
    unitCount := x.unitCount - 1, unitsOut := x.unitsOut + 1 }) ∧
  ((u.slot S).dirty = true ∧ (u.slot S).ref = true ∧ (u.slot S).delivering = false) ∧
  ((u.flow d.flow).segCount = (s.flow d.flow).segCount - walk.1.length ∧ (u.flow d.flow).dispatched = false) ∧
  u.pool = s.poolReleasing walk.1

/-! ## Beat reads, and the end of a delivery -/

/-- A delivery `d` of port `p`, whose outbound queue is `q`, may have its next beat read (R92): it streams, its previous
beat has been placed and bytes of its plan are left, fewer than 48 beats stand in the queue, and no beat read of the port
waits or is in progress. -/
def MemController.mayRead (m : MemController) (p : PortId) (d : Delivery) (q : List OutMsg) : Prop :=
  d.state = .streaming ∧ d.readInFlight = false ∧ d.sent < d.planned ∧ beatsIn q < 48 ∧
    (∀ r, .read r ∉ m.portQueue[p]) ∧ ∀ r, m.inProgress ≠ some (.beatRead p r)

/-- The memory controller when it has been handed a beat read of port `p` and nothing else waits: the read is granted
where no access is in progress, and waits otherwise (R157). -/
def MemController.withRead (m : MemController) (p : PortId) (r : BeatRead) : MemController :=
  if m.inProgress = none then { m with inProgress := some (.beatRead p r), lastPort := p }
  else m.setQueue p (m.portQueue[p] ++ [.read r])

/-- What becomes of port `p`'s delivery and the memory controller, which are `d` and `m` when the other effects of an
event are made, the outbound queue being `q` (R92): the next beat, of 16 bytes or what is left of the plan, is read from
the read position on, which moves past it; where it may not be read yet, the delivery waits. -/
def State.readFollows (u : State) (p : PortId) (d : Delivery) (m : MemController) (q : List OutMsg) : Prop :=
  (m.mayRead p d q →
    let read := u.pool.readBytes (min 16 (d.planned - d.sent)) d.readSeg d.readOff
    u.del p = { d with readSeg := read.2.1, readOff := read.2.2, readInFlight := true } ∧
      u.mem = m.withRead p { bytes := read.1, live := true }) ∧
  (¬ m.mayRead p d q → u.del p = d ∧ u.mem = m)

/-- No access waits at the memory controller. -/
def MemController.noneWaits (m : MemController) : Prop :=
  m.fillQueue = [] ∧ m.spillQueue = [] ∧ (∀ p : PortId, m.portQueue[p] = []) ∧ m.mgmtRead = none

/-- The end of port `p`'s delivery ends a LAPSING hold of the port on the delivery's flow (R129). -/
def State.lapses (s : State) (p : PortId) : Bool :=
  decide ((s.hold p).state = .lapsing) && decide ((s.hold p).flow = (s.del p).flow)

/-- A port unit when the end of its delivery has been told: HOLD_LAPSED is raised where a LAPSING hold ends with it
(R129). -/
def State.lapseRaised (s : State) (p : PortId) (v : PortUnit) : PortUnit :=
  if s.lapses p then v.raise (.holdLapsed (s.del p).flow) else v

/-- What the end of port `p`'s delivery at slot `S` leaves of the holds, from `s` to `u` (R129, R130): a LAPSING hold ends
with it, and the count falls where the slot has no pins; every other hold stays. -/
def State.lapsesTo (s u : State) (p : PortId) (S : SlotId) : Prop :=
  (s.lapses p = true → (u.hold p).state = .empty) ∧ (s.lapses p = false → u.hold p = s.hold p) ∧
    (∀ q, q ≠ p → u.hold q = s.hold q) ∧
    u.pinnedOrHeld = s.pinnedOrHeld - (if s.lapses p = true ∧ (s.slot S).pins = 0 then 1 else 0)

/-! ## Management -/

/-- The management unit when a command has been accepted and is DONE with a result (R164). -/
def Management.answeredNow (m : Management) (c : MgmtCommand) (r : MgmtResult) (ws : Vector Word32 16) : Management :=
  { m with command := .done, lastCommand := some c, result := some r, refused := none, resultWords := ws, spiOut := 0 }

/-- The management unit when a command has been accepted and is IN_FLIGHT (R164). -/
def Management.acceptedNow (m : Management) (c : MgmtCommand) : Management :=
  { m with
    command := .inFlight, lastCommand := some c, result := none, refused := none,
    resultWords := Vector.replicate 16 0, spiOut := 0 }

/-- The management unit when a frame has been refused (R164). -/
def Management.refusedNow (m : Management) (r : RefusedReason) : Management :=
  { m with refused := some r, spiOut := 0 }

/-- Result words that are all 0. -/
def noWords : Vector Word32 16 := Vector.replicate 16 0

/-- The bits of a configuration word that its layout assigns (R180), none for an address that names none. -/
def configurationBits (addr : BitVec 16) : Option Word32 :=
  if addr = 0x0010 then some 0xFFFF
  else if addr = 0x0011 then some 0x7FFFFF
  else if addr = 0x0012 ∨ addr = 0x0013 then some 0x3FFFFF
  else if addr = 0x0014 ∨ addr = 0x0015 ∨ addr = 0x0016 ∨ addr = 0x0017 ∨ addr = 0x0018 then some 0xFFFF
  else if addr = 0x0019 ∨ addr = 0x001A then some 0xFF
  else none

/-! ## The values after a reset of the whole part -/

/-- The SRAM words that the access in progress is writing (R156, R162). -/
def State.wordsBeingWritten (s : State) : List Nat :=
  match s.mem.inProgress with
  | some (.spill _ f) => (List.range 4).map (fun i => s.recordWordAddr f i)
  | some (.wordWrite _ w) => [s.segWordAddr w.seg w.word]
  | _ => []

/-- Every block has the value its chapter gives for power-on and for RESTART, where it gives one (R1, R27, R42, R67,
R89, R109, R121, R136, R162). -/
def State.blank (t : State) : Prop :=
  (∀ f, t.flow f =
    { state := .closed, halt := none, consumer := 0, cls := 0, ready := false, listed := false, dispatched := false,
      prev := none, next := none, residency := none, segCount := 0, admittedUnits := 0, admittedSegs := 0 }) ∧
  (∀ n, (t.pool.link n).next = 0 ∧ (t.pool.link n).last = false) ∧
  (t.pool.freeHead = 0 ∧ t.pool.freeTail = 0 ∧ t.pool.free = 0 ∧ t.pool.reserved = 0 ∧ t.pool.stranded = 0 ∧
    t.pool.lowArmed = false) ∧
  (∀ S, (t.slot S).state = .free ∧ (t.slot S).flow = none ∧ (t.slot S).incoming = none ∧ (t.slot S).dirty = false ∧
    (t.slot S).ref = false ∧ (t.slot S).pins = 0 ∧ (t.slot S).delivering = false ∧ (t.slot S).pendingList = [] ∧
    (t.slot S).returnList = [] ∧ (t.slot S).parkedList = []) ∧
  (t.hand = 0 ∧ t.pinnedOrHeld = 0 ∧ t.missWait = [] ∧ t.linkWait = []) ∧
  (∀ p, (t.asm p).state = .idle ∧ (t.asm p).tag = none ∧ (t.asm p).taken = 0 ∧ (t.asm p).allocated = 0 ∧
    (t.asm p).chainFirst = 0 ∧ (t.asm p).chainLast = 0 ∧ (t.asm p).gapTimer = none ∧
    (t.asm p).writesOutstanding = 0) ∧
  (∀ p, (t.del p).state = .idle ∧ (t.del p).sent = 0 ∧ (t.del p).readInFlight = false) ∧
  (∀ p, (t.hold p).state = .empty) ∧
  (∀ p c, t.readyList p c = { head := none, tail := none, length := 0 }) ∧
  (∀ p, (t.unit p).state = .down ∧ (t.unit p).lastFault = .none ∧ (t.unit p).inbound = [] ∧
    (t.unit p).inboundCredits = 0 ∧ (t.unit p).outbound = [] ∧ (t.unit p).outboundCredits = 0 ∧
    (∀ g, (t.tagRec p g).status = .free) ∧ (t.unit p).readyArmed = false ∧ (t.unit p).readyWaiting = none ∧
    (t.unit p).poolLowWaiting = none ∧ (t.unit p).noticeQueue = [] ∧ (t.unit p).overflow = false ∧
    (t.unit p).consumerQueue = [] ∧ (t.unit p).current = none) ∧
  (t.mem.fillQueue = [] ∧ t.mem.spillQueue = [] ∧ (∀ p : PortId, t.mem.portQueue[p] = [] ∧ t.mem.gather[p] = none) ∧
    t.mem.mgmtRead = none ∧ t.mem.inProgress = none ∧ t.mem.lastPort = 3 ∧ t.mem.corrected = 0 ∧
    t.mem.uncorrectableData = 0 ∧ t.mem.contextErrors = 0)

/-! ## Ready lists -/

/-- A port's ready list for a class holds exactly the flows `fs`, in this order (R109). -/
def State.listHolds (s : State) (p : PortId) (c : ClassId) (fs : List FlowId) : Prop :=
  fs.Nodup ∧ s.readyList p c = { head := fs.head?, tail := fs.getLast?, length := fs.length } ∧
    ∀ i, (h : i < fs.length) →
      (s.flow fs[i]).listed = true ∧ (s.flow fs[i]).consumer = p ∧ (s.flow fs[i]).cls = c ∧
        (s.flow fs[i]).prev = (if i = 0 then none else fs[i - 1]?) ∧ (s.flow fs[i]).next = fs[i + 1]?

/-- The ready lists of a port hold the flows that their fields say they hold. -/
def State.listsWhole (s : State) (p : PortId) : Prop := ∀ c, ∃ fs, s.listHolds p c fs

/-- A request stays in the lists and the miss wait when port `p` is torn down: it is another port's, or a link, or
CLEAR_HALT (R65). -/
def State.outlasts (s : State) (p : PortId) : Req → Bool
  | .request q g => decide (q ≠ p) || (s.tagRec q g).unit.isSome
  | .clearHalt _ => true

/-! ## Chains -/

/-- The segments `segs` are a chain of the pool: each one's next names the one after it, and the last one's next is
`after` (R25, R28). -/
def Pool.chained (P : Pool) (after : Nat) : List Nat → Prop
  | [] => True
  | [n] => n ≠ 0 ∧ (P.link n).next = after
  | n :: m :: segs => n ≠ 0 ∧ (P.link n).next = m ∧ Pool.chained P after (m :: segs)

/-- The free list is exactly `segs` (R28). -/
def Pool.freeIs (P : Pool) (segs : List Nat) : Prop :=
  P.chained 0 segs ∧ segs.Nodup ∧ P.freeHead = segs.head?.getD 0 ∧ P.freeTail = segs.getLast?.getD 0 ∧
    P.free = segs.length

end Sys2Proof.Machine
end

