-- ==== Sys2Proof/Certificates/Slice0/Obligations.lean ====
section
/-! DEFINITION. The statements about the part that the provers are asked to prove. -/

open Sys2Proof Sys2Proof.Machine

/-! ## The block and its steps -/

/-- A step takes the command at the front of the queue, on the state with the queue's rest. -/
def Obligations.StepRunsTheFrontCommand : Prop :=
  ∀ (s : State) (c : Instr) (rest : List Instr), s.pending = c :: rest →
    step s = exec c { s with pending := rest }

/-- The model's choice (log entries 4 and 5): a step on an empty queue takes an expiry that is due (R77, R129), a gap
timer before a lease and the lowest port first; where none is due, it is one microsecond of the time base. Each lease
that runs falls by 1, each running gap timer rises by 1, and nothing else changes. -/
def Obligations.EmptyQueueIsOneMicrosecond : Prop :=
  ∀ s : State, s.pending = [] →
    (∀ p, s.gapExpired p → (∀ q, q < p → ¬ s.gapExpired q) → step s = exec (.gapTimeout p) s) ∧
    (∀ p, (∀ q, ¬ s.gapExpired q) → s.leaseExpired p → (∀ q, q < p → ¬ s.leaseExpired q) →
      step s = exec (.leaseExpiry p) s) ∧
    ((∀ q, ¬ s.gapExpired q ∧ ¬ s.leaseExpired q) → ∃ t : State, step s = .next t ∧
      t = { s with holds := t.holds, asms := t.asms } ∧
      (∀ p, (t.hold p).state = (s.hold p).state ∧ (t.hold p).flow = (s.hold p).flow ∧
        (t.hold p).lease = (if (s.hold p).state = .held then (s.hold p).lease - 1 else (s.hold p).lease)) ∧
      (∀ p, t.asm p = { s.asm p with gapTimer := (s.asm p).gapTimer.map (fun n => n + 1) }))

/-- Every command has an effect in every state: it answers a next state, and it does not touch the queue. -/
def Obligations.EveryCommandAnswersANextState : Prop :=
  ∀ (c : Instr) (s : State), ∃ t, exec c s = .next t ∧ t.pending = s.pending

/-- Outside CONFIG only POWER_ON changes a configuration word, and in CONFIG only WRITE_FRAME and POWER_ON do (R165). -/
def Obligations.ConfigurationIsKept : Prop :=
  ∀ (c : Instr) (s t : State), exec c s = .next t → c ≠ .powerOn →
    (s.mgmt.device = .config → ∀ a v, c ≠ .writeFrame a v) → t.config = s.config

/-! ## What every step keeps -/

/-- The state right after reset has everything that every step keeps. -/
def Obligations.ResetIsSafe : Prop := State.reset.safe

/-- Every step keeps the canonical forms of the SRAM and of the tables. -/
def Obligations.StepKeepsCanonicalForm : Prop :=
  ∀ s t : State, s.canonical → step s = .next t → t.canonical

/-- Every step keeps the inbound credits of an UP port: credits and messages in its buffer are 32 together (R138, R139,
R140). -/
def Obligations.StepKeepsInboundCredits : Prop :=
  ∀ s t : State, s.creditsWhole → step s = .next t → t.creditsWhole

/-- Every step keeps the pinned-or-held count at 48 or below (R135) and the miss wait at 16 requests or fewer (R60), and
keeps the pool's account of its reservations: reserved is the sum over the assemblies in ASSEMBLING of what each needs
and has not allocated, and is at most free (R36), with the records that this account is made of. A service that pins or
unpins a slot, or grants a hold, the end of a hold behind which nothing is parked, and a flow's entry into CLOSED keep
the pinned-or-held count the number of slots that are pinned or held (R47). -/
def Obligations.StepKeepsCacheBounds : Prop :=
  (∀ s t : State, s.pinsBounded → step s = .next t → t.pinsBounded) ∧
    (∀ s t : State, s.missBounded → step s = .next t → t.missBounded) ∧
    (∀ s t : State, s.reservedWhole → s.assembliesWhole → step s = .next t → t.reservedWhole ∧ t.assembliesWhole) ∧
    (∀ (s : State) (S : SlotId) (p : PortId) (t : TagId) (f : FlowId), s.countWhole → s.namesWhole →
      s.holdsExclusive → s.servingSlot f = some S →
      (s.servePinHere S p t).countWhole ∧ (s.serveUnpinHere S p t).countWhole ∧
        (s.serveHoldHere S p t f).countWhole ∧ (s.enterClosed f).countWhole ∧
        ((s.hold p).state ≠ .empty → (s.hold p).flow = f → (s.slot S).parkedList = [] →
          (s.endHold p none).countWhole))

/-- Every step keeps each flow held by at most one port (R121). -/
def Obligations.StepKeepsHoldsExclusive : Prop :=
  ∀ s t : State, s.holdsExclusive → step s = .next t → t.holdsExclusive

/-- Every step keeps the device out of INITIALIZING and RUNNING unless its configuration passes the six tests of INIT
(R166, R167). -/
def Obligations.StepKeepsValidConfiguration : Prop :=
  ∀ s t : State, s.configuredWell → step s = .next t → t.configuredWell

/-! ## Resets and the management port -/

/-- POWER_ON, and the state right after reset: CONFIG, every block at its power-on value, the configuration at its
defaults (R164 to R166, R174). RESTART: the same, with every configuration word kept, and the status word showing
RESTART DONE with OK (R169). The SRAM words that were not being written keep their bytes (the model's choice, log
entry 9). -/
def Obligations.PowerOnAndRestartValues : Prop :=
  (State.reset.blank ∧ State.reset.config = Configuration.powerOn ∧ State.reset.mgmt = Management.initial) ∧
  (∀ s : State, ∃ t, exec .powerOn s = .next t ∧ t.blank ∧ t.pending = s.pending ∧
    (t.config.nSeg = 8192 ∧ t.config.memSize = 262144 ∧ t.config.segBase = 0 ∧ t.config.ctxBase = 131072 ∧
      t.config.floors = #v[0, 32, 64, 128] ∧ t.config.warning = 256 ∧ t.config.gapTimeout = 20 ∧
      (∀ p : PortId, t.config.adminRole[p] = false ∧ t.config.poolNotice[p] = false)) ∧
    (t.mgmt.device = .config ∧ t.mgmt.command = .idle ∧ t.mgmt.lastCommand = none ∧ t.mgmt.result = none ∧
      t.mgmt.refused = none ∧ t.mgmt.strayBeats = 0 ∧ t.mgmt.strayControls = 0) ∧
    ∀ a, (∀ w ∈ s.wordsBeingWritten, a / 8 ≠ w) → Memory.read t.sram a = Memory.read s.sram a) ∧
  (∀ s : State, ∃ t, exec .restart s = .next t ∧ t.blank ∧ t.pending = s.pending ∧ t.config = s.config ∧
      (t.mgmt.device = .config ∧ t.mgmt.command = .done ∧ t.mgmt.lastCommand = some .restart ∧
        t.mgmt.result = some .ok ∧ t.mgmt.refused = none ∧ t.mgmt.strayBeats = 0 ∧ t.mgmt.strayControls = 0) ∧
      ∀ a, (∀ w ∈ s.wordsBeingWritten, a / 8 ≠ w) → Memory.read t.sram a = Memory.read s.sram a)

/-- INIT (R164, R166, R167): refused while a command is in flight; in CONFIG, INVALID with the number of the first
failing test, or INITIALIZING and in flight when the six tests pass; WRONGSTATE elsewhere. Nothing else changes. -/
def Obligations.InitTestsTheConfiguration : Prop :=
  ∀ s : State,
    (s.mgmt.command = .inFlight → exec .init s = .next (s.setMgmt (s.mgmt.refusedNow .inFlight))) ∧
    (s.mgmt.command ≠ .inFlight → s.mgmt.device = .config →
      ∀ k, 1 ≤ k → k ≤ 6 → ¬ s.config.test k → (∀ j, 1 ≤ j → j < k → s.config.test j) →
        exec .init s = .next (s.setMgmt (s.mgmt.answeredNow .init .invalid (noWords.set 0 (BitVec.ofNat 32 k))))) ∧
    (s.mgmt.command ≠ .inFlight → s.mgmt.device = .config → (∀ k, 1 ≤ k → k ≤ 6 → s.config.test k) →
      exec .init s = .next (s.setMgmt { s.mgmt.acceptedNow .init with device := .initializing })) ∧
    (s.mgmt.command ≠ .inFlight → s.mgmt.device ≠ .config →
      exec .init s = .next (s.setMgmt (s.mgmt.answeredNow .init .wrongState noWords)))

/-- INIT_SWEEP_COMPLETION (R168): the pool, the flow map, the cache, the ready lists and the holds at the values of the
sweep, READY armed on the UP ports, RUNNING, and INIT DONE with OK. N_SEG is at least 1, as test 1 of INIT requires of
a device that sweeps (StepKeepsValidConfiguration). The values of the fields that have no meaning at a reset, the
context of a FREE slot among them, are the model's choice (log entry 11), and so is last-of-unit of the entries 1 to
N_SEG, which the sweep leaves at no (log entry 10). -/
def Obligations.SweepEndValues : Prop :=
  ∀ s : State, s.mgmt.device = .initializing → 1 ≤ s.config.nSeg.toNat → ∃ t, exec .initSweepCompletion s = .next t ∧
    t = { s with
      pool := t.pool, flows := t.flows, slots := t.slots, hand := 0, pinnedOrHeld := 0, missWait := [], linkWait := [],
      holds := t.holds, lists := t.lists, units := t.units
      mgmt := { s.mgmt with device := .running, command := .done, result := some .ok } } ∧
    t.pool.freeIs (List.range' 1 s.config.nSeg.toNat) ∧ (∀ n, (t.pool.link n).last = false) ∧
    (∀ n, n = 0 ∨ s.config.nSeg.toNat < n → (t.pool.link n).next = 0) ∧
    (t.pool.reserved = 0 ∧ t.pool.stranded = 0 ∧ t.pool.lowArmed = true) ∧
    (∀ f, t.flow f = FlowEntry.initial) ∧ (∀ S, t.slot S = Slot.initial) ∧ (∀ p, (t.hold p).state = .empty) ∧
    (∀ p c, t.readyList p c = { head := none, tail := none, length := 0 }) ∧
    (∀ p, t.unit p = { s.unit p with readyArmed := decide ((s.unit p).state = .up) })

/-- WRITE_FRAME (R163, R164, R181): in CONFIG the word takes the bits its layout assigns, as a read of it then
returns, and every other word keeps its value; in another device state the frame is refused with reason not CONFIG; a
frame that names no configuration word is refused with reason undefined, in every device state (the model's choice,
log entry 29). The read frame (R163, R180, R181), whose byte 0x01 UNDEFINED_COMMAND_BYTE carries (the model's reading,
log entry 23): the output line carries the word named with the next frame, and nothing else changes. A frame of 56
bits spells its command by the command byte, in the order of R180 (log entry 3). -/
def Obligations.WriteFrameStoresOrIsRefused : Prop :=
  (∀ (s : State) (addr : BitVec 16) (v : Word32),
    (∀ bits, configurationBits addr = some bits → s.mgmt.device = .config →
      ∃ t, exec (.writeFrame addr v) s = .next t ∧ t = { s with config := t.config, mgmt := { s.mgmt with spiOut := 0 } } ∧
        t.readWord addr = v &&& bits ∧
        ∀ other, other ≠ addr → (configurationBits other).isSome = true → t.readWord other = s.readWord other) ∧
    (∀ bits, configurationBits addr = some bits → s.mgmt.device ≠ .config →
      exec (.writeFrame addr v) s = .next (s.setMgmt (s.mgmt.refusedNow .notConfig))) ∧
    (configurationBits addr = none →
      exec (.writeFrame addr v) s = .next (s.setMgmt (s.mgmt.refusedNow .undefined))) ∧
    exec (.undefinedCommandByte 0x01 addr v) s = .next (s.setMgmt { s.mgmt with spiOut := s.readWord addr })) ∧
  ∀ cmd a1 a0 d3 d2 d1 d0 : Byte,
    let frame := cmd.toNat + 2 ^ 8 * a1.toNat + 2 ^ 16 * a0.toNat + 2 ^ 24 * d3.toNat + 2 ^ 32 * d2.toNat +
      2 ^ 40 * d1.toNat + 2 ^ 48 * d0.toNat
    decodeTableWord 56 frame = some
      (if cmd = 0x02 then .writeFrame (a1 ++ a0) (d3 ++ d2 ++ d1 ++ d0)
      else if cmd = 0x10 then .init
      else if cmd = 0x11 then .restart
      else if cmd = 0x12 then .portReset (a1 ++ a0)
      else if cmd = 0x13 then .clearHalt (a1 ++ a0)
      else if cmd = 0x14 then .readFlow (a1 ++ a0)
      else if cmd = 0x15 then .readContext (a1 ++ a0)
      else if cmd = 0x16 then .readSlot (a1 ++ a0)
      else if cmd = 0x17 then .clearCounters
      else .undefinedCommandByte cmd (a1 ++ a0) (d3 ++ d2 ++ d1 ++ d0))

/-- Refused frames (R164, R180, R181): an undefined command byte, with reason undefined, and a command frame other than
RESTART while a command is in flight, with that reason, change nothing except the refused flag and the output line. -/
def Obligations.RefusedFramesChangeNothing : Prop :=
  (∀ (s : State) (cmd : Byte) (addr : BitVec 16) (v : Word32),
    cmd ≠ 0x01 → cmd ≠ 0x02 → ¬(0x10 ≤ cmd.toNat ∧ cmd.toNat ≤ 0x17) →
      exec (.undefinedCommandByte cmd addr v) s = .next (s.setMgmt (s.mgmt.refusedNow .undefined))) ∧
  (∀ (s : State) (c : Instr) (arg : BitVec 16), s.quiet = true → s.mgmt.command = .inFlight →
    c = .init ∨ c = .portReset arg ∨ c = .clearHalt arg ∨ c = .readFlow arg ∨ c = .readContext arg ∨
      c = .readSlot arg ∨ c = .clearCounters →
    exec c s = .next (s.setMgmt (s.mgmt.refusedNow .inFlight)))

/-- PORT_RESET of a port that is not UP, and of no port (R170). -/
def Obligations.PortResetOfADownPort : Prop :=
  ∀ (s : State) (arg : BitVec 16), s.quiet = true → s.mgmt.command ≠ .inFlight →
    (3 < arg.toNat → exec (.portReset arg) s = .next (s.setMgmt (s.mgmt.answeredNow .portReset .badArg noWords))) ∧
    ∀ p : PortId, p.val = arg.toNat →
      ((s.unit p).state = .down →
        exec (.portReset arg) s = .next (s.setMgmt (s.mgmt.answeredNow .portReset .ok noWords))) ∧
      ((s.unit p).state = .fault →
        exec (.portReset arg) s = .next ((s.setMgmt (s.mgmt.answeredNow .portReset .ok noWords)).setUnit p
          { s.unit p with state := .down }))

/-- READ_FLOW (R172, R180): the entry of the flow map in the result words, or BADARG. READ_SLOT (R172, R180): the
slot's fields, the cache's device-wide state and the context in the result words, or BADARG. Nothing else changes. The
context words of a slot that is not RESIDENT are free (the model's choice, log entry 12). -/
def Obligations.ReadFlowAndReadSlotReport : Prop :=
  (∀ (s : State) (arg : BitVec 16), s.mgmt.command ≠ .inFlight →
    (63 < arg.toNat → exec (.readSlot arg) s = .next (s.setMgmt (s.mgmt.answeredNow .readSlot .badArg noWords))) ∧
    ∀ S : SlotId, S.val = arg.toNat → ∃ t, exec (.readSlot arg) s = .next t ∧
      t = { s with drawn := t.drawn, mgmt := s.mgmt.answeredNow .readSlot .ok t.mgmt.resultWords } ∧
      t.mgmt.resultWords[0] = BitVec.ofNat 32 ((s.slot S).state.code + 4 * bit (s.slot S).dirty +
        8 * bit (s.slot S).ref + 16 * bit (s.slot S).delivering + 32 * bit (!(s.slot S).returnList.isEmpty) +
        256 * (s.slot S).pins + 65536 * flowField (s.slot S).flow) ∧
      t.mgmt.resultWords[1] = BitVec.ofNat 32 (flowField (s.slot S).incoming +
        65536 * (s.slot S).pendingList.length) ∧
      t.mgmt.resultWords[2] = BitVec.ofNat 32 ((s.slot S).returnList.length + 256 * (s.slot S).parkedList.length +
        65536 * s.hand.val + 16777216 * s.pinnedOrHeld) ∧
      t.mgmt.resultWords[3] = BitVec.ofNat 32 (s.missWait.length + 256 * s.linkWait.length) ∧
      ((s.slot S).state = .resident → ∀ i : Fin 8, t.mgmt.resultWords[4 + i.val]'(by omega) =
        ((s.slot S).context.body ++ (0 : BitVec 8)).extractLsb' (32 * (7 - i.val)) 32)) ∧
  ∀ (s : State) (arg : BitVec 16), s.mgmt.command ≠ .inFlight →
    (4095 < arg.toNat → exec (.readFlow arg) s = .next (s.setMgmt (s.mgmt.answeredNow .readFlow .badArg noWords))) ∧
    ∀ f : FlowId, f.val = arg.toNat →
      exec (.readFlow arg) s = .next (s.setMgmt (s.mgmt.answeredNow .readFlow .ok (s.flow f).resultWords)) 

/-- READ_CONTEXT (R157, R161, R166, R173): NOTREADY outside RUNNING, BADARG above 4095, and otherwise a diagnostic read
of the flow's record, which is granted at once when no access waits or is in progress. DIAGNOSTIC_READ_COMPLETION (R155,
R161, R173): OK, with the 32 bytes as read, each word's outcome and the match of the check byte in the result words;
corrected rises by the words corrected, and nothing else changes. No other access waits. -/
def Obligations.ReadContextReportsTheRecord : Prop :=
  (∀ (s : State) (f : FlowId) (e0 e1 e2 e3 : ErrorPattern), s.lastAccess → s.mem.inProgress = some (.diagnostic f) →
    ∃ t, exec (.diagnosticReadCompletion e0 e1 e2 e3) s = .next t ∧
      t = { s with
        mem := { s.mem with inProgress := none, corrected := t.mem.corrected }
        mgmt := { s.mgmt with command := .done, result := some .ok, resultWords := t.mgmt.resultWords } } ∧
      t.mem.corrected = min (s.mem.corrected + (s.readRecord f #v[e0, e1, e2, e3]).toList.countP
        (fun r => decide (r.outcome = .corrected))) 4294967295 ∧
      t.mgmt.resultWords = diagnosticWords (s.readRecord f #v[e0, e1, e2, e3])) ∧
  ∀ (s : State) (arg : BitVec 16), s.quiet = true → s.mgmt.command ≠ .inFlight →
    (s.mgmt.device ≠ .running →
      exec (.readContext arg) s = .next (s.setMgmt (s.mgmt.answeredNow .readContext .notReady noWords))) ∧
    (s.mgmt.device = .running → 4095 < arg.toNat →
      exec (.readContext arg) s = .next (s.setMgmt (s.mgmt.answeredNow .readContext .badArg noWords))) ∧
    ∀ f : FlowId, f.val = arg.toNat → s.mgmt.device = .running →
      (s.mem.inProgress = none →
        exec (.readContext arg) s = .next ((s.setMgmt (s.mgmt.acceptedNow .readContext)).setMem
          { s.mem with inProgress := some (.diagnostic f) })) ∧
      (s.mem.inProgress ≠ none →
        exec (.readContext arg) s = .next ((s.setMgmt (s.mgmt.acceptedNow .readContext)).setMem
          { s.mem with mgmtRead := some f }))

/-- CLEAR_COUNTERS (R174): every device counter except stranded becomes 0, and nothing else changes. -/
def Obligations.ClearCountersKeepsStranded : Prop :=
  ∀ s : State, s.mgmt.command ≠ .inFlight →
    exec .clearCounters s = .next ((s.setMem { s.mem with corrected := 0, uncorrectableData := 0, contextErrors := 0 }).setMgmt
      { s.mgmt.answeredNow .clearCounters .ok noWords with strayBeats := 0, strayControls := 0 })

/-- CLEAR_HALT (R166, R171): NOTREADY outside RUNNING; BADARG; CLOSED; CTXERR; at a RESIDENT slot of a flow that is
not halted, NOTHALTED; of a flow halted with DATAERR, OK, with the halt and the dispatch ended, and the flow listed at
the tail of its list when it is ready. -/
def Obligations.ClearHaltEndsADataError : Prop :=
  ∀ (s : State) (arg : BitVec 16), s.quiet = true → s.mgmt.command ≠ .inFlight →
    (s.mgmt.device ≠ .running →
      exec (.clearHalt arg) s = .next (s.setMgmt (s.mgmt.answeredNow .clearHalt .notReady noWords))) ∧
    (s.mgmt.device = .running → 4095 < arg.toNat →
      exec (.clearHalt arg) s = .next (s.setMgmt (s.mgmt.answeredNow .clearHalt .badArg noWords))) ∧
    ∀ f : FlowId, f.val = arg.toNat → s.mgmt.device = .running →
      ((s.flow f).state = .closed →
        exec (.clearHalt arg) s = .next (s.setMgmt (s.mgmt.answeredNow .clearHalt .closed noWords))) ∧
      ((s.flow f).state ≠ .closed → (s.flow f).halt = some .ctxErr →
        exec (.clearHalt arg) s = .next (s.setMgmt (s.mgmt.answeredNow .clearHalt .ctxErr noWords))) ∧
      ∀ S, (s.flow f).state ≠ .closed → s.servingSlot f = some S →
        ((s.flow f).halt = none →
          exec (.clearHalt arg) s = .next ((s.used S).setMgmt (s.mgmt.answeredNow .clearHalt .notHalted noWords))) ∧
        ((s.flow f).halt = some .dataErr → (s.flow f).listed = false →
          readyCondition { s.flow f with halt := none } (s.slot S).context = false →
          exec (.clearHalt arg) s = .next (((s.used S).setFlow f
            { s.flow f with halt := none, dispatched := false, ready := false }).setMgmt
              (s.mgmt.answeredNow .clearHalt .ok noWords))) ∧
        ((s.flow f).halt = some .dataErr → (s.flow f).listed = false →
          readyCondition { s.flow f with halt := none } (s.slot S).context = true →
          ∃ t, exec (.clearHalt arg) s = .next t ∧ t.mgmt = s.mgmt.answeredNow .clearHalt .ok noWords ∧
            ((t.flow f).halt = none ∧ (t.flow f).dispatched = false ∧ (t.flow f).ready = true ∧
              (t.flow f).listed = true) ∧
            (t.readyList (s.flow f).consumer (s.flow f).cls).tail = some f ∧ t.slots = (s.used S).slots ∧
            t = { s with mgmt := t.mgmt, slots := t.slots, flows := t.flows, lists := t.lists, units := t.units })

/-! ## The flow link -/

/-- LINK_UP (R117, R137, R138): a DOWN port comes UP with 32 inbound credits, a RETURN of 32 and no outbound credit,
its READY armed, or READY raised at once where its ready lists are not empty; no effect on a port that is UP or in
FAULT. -/
def Obligations.LinkUpBringsADownPortUp : Prop :=
  ∀ (s : State) (p : PortId),
    ((s.unit p).state = .down → s.listedFlows p = 0 →
      exec (.linkUp p) s = .next (s.setUnit p { s.unit p with
        state := .up, inbound := [], inboundCredits := 32, returning := 32, returnOwed := 0, outboundCredits := 0,
        readyArmed := true })) ∧
    ((s.unit p).state = .down → 0 < s.listedFlows p → (s.unit p).outbound = [] → (s.unit p).noticeQueue = [] →
      (s.unit p).readyWaiting = none → (s.unit p).poolLowWaiting = none → (s.unit p).overflow = false →
      exec (.linkUp p) s = .next (s.setUnit p { s.unit p with
        state := .up, inbound := [], inboundCredits := 32, returning := 32, returnOwed := 0, outboundCredits := 0,
        readyArmed := false, outbound := [.notice .ready false] })) ∧
    ((s.unit p).state ≠ .down → exec (.linkUp p) s = .next s)

/-- LINK_LOSS, and PORT_RESET of an UP port (R137, R150, R170): the port goes DOWN with its buffers and queue empty
and its last fault kept; a port in FAULT goes DOWN with nothing else changed; no effect on a DOWN port. PORT_RESET is
DONE with OK, said of a quiet state where nothing waits and the port neither assembles nor holds. -/
def Obligations.LinkLossTakesThePortDown : Prop :=
  ∀ (s : State) (p : PortId),
    ((s.unit p).state = .up → ∃ t, exec (.linkLoss p) s = .next t ∧ (t.unit p).state = .down ∧
      (t.unit p).lastFault = (s.unit p).lastFault ∧ (t.unit p).shut) ∧
    ((s.unit p).state = .up → s.mgmt.command ≠ .inFlight →
      ∃ t, exec (.portReset (BitVec.ofNat 16 p.val)) s = .next t ∧ (t.unit p).state = .down ∧
        (t.unit p).lastFault = (s.unit p).lastFault ∧ (t.unit p).shut ∧
        (s.quiet = true → s.noWaits → (s.asm p).state ≠ .assembling → (s.hold p).state = .empty → t.mgmt.command = .done ∧
          t.mgmt.lastCommand = some .portReset ∧ t.mgmt.result = some .ok)) ∧
    ((s.unit p).state = .fault → exec (.linkLoss p) s = .next (s.setUnit p { s.unit p with state := .down })) ∧
    ((s.unit p).state = .down → exec (.linkLoss p) s = .next s)

/-- The teardown of a port (R83, R105, R130, R150, R151), when no other port's work is brought on by it: nothing is
parked at the slot of the flow it assembles for or holds, and the flow it assembles for is not DRAINING. Its port unit,
its assembly record, its delivery record and its hold are cleared; an assembly is aborted without a response, its
segments are released and unreserved, and its flow's admitted counts fall (R38, R82); the end of a hold lowers the
count where the slot has no pins. A tag record is freed, or orphaned with its finished unit. The RETURN being sent is
dropped (the model's choice, log entry 18). The port's requests, links excepted, leave the lists of every slot and the
miss wait (R65), and the slot it delivered from is no longer delivering (R105). The flows that were dispatched to it are
not dispatched any more, and those of them that are ready stand in its lists behind the flows listed before, in ascending
flow number, with no READY raised (R119). The tables are in their canonical form, as every step keeps them
(StepKeepsCanonicalForm). -/
def Obligations.TeardownClearsThePort : Prop :=
  ∀ (s : State) (p : PortId) (st : PortState), s.canonical → st ≠ .up →
    let a := s.asm p
    let h := s.hold p
    (a.state = .assembling → (s.flow a.flow).state ≠ .draining ∧
      ∀ S, s.servingSlot a.flow = some S → (s.slot S).parkedList = []) →
    (h.state ≠ .empty → ∀ S, s.servingSlot h.flow = some S → (s.slot S).parkedList = []) →
    let t := s.teardown p st
    t.unit p = { s.unit p with
      state := st, inbound := [], inboundCredits := 0, outbound := [], outboundCredits := 0, noticeQueue := []
      readyWaiting := none, poolLowWaiting := none, overflow := false, readyArmed := false, consumerQueue := []
      current := none, returning := 0, returnOwed := 0, tags := (t.unit p).tags } ∧
    (∀ g, (s.tagRec p g).unit = none → (t.tagRec p g).status = .free) ∧
    (∀ g u, (s.tagRec p g).unit = some u → (t.tagRec p g).status = .orphaned ∧ (t.tagRec p g).unit = some u ∧
      (t.tagRec p g).busyAnswer = false) ∧
    ((t.asm p).state = .idle ∧ (t.del p).state = .idle ∧ (t.hold p).state = .empty) ∧
    (∀ q, q ≠ p → t.asm q = s.asm q ∧ t.del q = s.del q ∧ t.hold q = s.hold q ∧ t.unit q = s.unit q) ∧
    t.config = s.config ∧ t.mgmt = s.mgmt ∧
    (a.state ≠ .assembling → t.pool = s.pool) ∧
    (a.state = .assembling → t.pool = s.poolAborting a ∧
      (t.flow a.flow).admittedSegs = (s.flow a.flow).admittedSegs - a.needed ∧
      (t.flow a.flow).admittedUnits = (s.flow a.flow).admittedUnits - 1) ∧
    (∀ g, (a.state = .assembling → g ≠ a.flow) → (t.flow g).admittedSegs = (s.flow g).admittedSegs ∧
      (t.flow g).admittedUnits = (s.flow g).admittedUnits) ∧
    (h.state = .empty → t.pinnedOrHeld = s.pinnedOrHeld) ∧
    (h.state ≠ .empty → ∀ S, s.servingSlot h.flow = some S →
      t.pinnedOrHeld = s.pinnedOrHeld - (if (s.slot S).pins = 0 then 1 else 0)) ∧
    ((∀ S, t.slot S = { s.slot S with
        pendingList := (s.slot S).pendingList.filter (s.outlasts p)
        returnList := (s.slot S).returnList.filter (s.outlasts p)
        parkedList := (s.slot S).parkedList.filter (s.outlasts p)
        delivering := if (s.del p).state = .streaming ∧ s.servingSlot (s.del p).flow = some S then false
          else (s.slot S).delivering }) ∧
      t.missWait = s.missWait.filter (s.outlasts p)) ∧
    ((∀ f, (t.flow f).dispatched = if (s.flow f).consumer = p then false else (s.flow f).dispatched) ∧
      (∀ f, t.flow f = { s.flow f with
        dispatched := (t.flow f).dispatched, listed := (t.flow f).listed, prev := (t.flow f).prev, next := (t.flow f).next
        admittedUnits := (t.flow f).admittedUnits, admittedSegs := (t.flow f).admittedSegs }) ∧
      (∀ q c, q ≠ p → t.readyList q c = s.readyList q c) ∧
      (s.listsWhole p →
        (∀ f, (s.flow f).consumer = p → (s.flow f).dispatched = true → (s.flow f).listed = false) →
        (∀ f, (s.flow f).consumer ≠ p → (t.flow f).listed = (s.flow f).listed ∧ (t.flow f).prev = (s.flow f).prev ∧
          (t.flow f).next = (s.flow f).next) ∧
        ∀ (c : ClassId) (listed relisted : List FlowId), s.listHolds p c listed → relisted.Pairwise (fun f g => f < g) →
          (∀ f, f ∈ relisted ↔ ((s.flow f).consumer = p ∧ (s.flow f).cls = c ∧ (s.flow f).dispatched = true ∧
            (s.flow f).ready = true)) →
          t.listHolds p c (listed ++ relisted))) ∧
    t = { s with
      units := t.units, asms := t.asms, dels := t.dels, holds := t.holds, slots := t.slots, missWait := t.missWait
      flows := t.flows, lists := t.lists, pool := t.pool, pinnedOrHeld := t.pinnedOrHeld, mem := t.mem
      handed := t.handed, retryDue := t.retryDue }

/-- FRAME_ARRIVAL (R139, R148): on an UP port a message joins the inbound buffer against a credit; without a credit,
and for a frame that is corrupt or of undefined kind, the port goes to FAULT; on any other port nothing happens. A
frame that is corrupt is so whatever the credits (the model's choice, log entry 19). -/
def Obligations.FrameArrivalFillsTheBuffer : Prop :=
  ∀ (s : State) (p : PortId) (f : LinkFrame),
    (∀ m, (s.unit p).state = .up → frameMessage f = some m → 0 < (s.unit p).inboundCredits →
      exec (.frameArrival p f) s = .next (s.setUnit p { s.unit p with
        inboundCredits := (s.unit p).inboundCredits - 1, inbound := (s.unit p).inbound ++ [m] })) ∧
    (∀ m, (s.unit p).state = .up → frameMessage f = some m → (s.unit p).inboundCredits = 0 →
      ∃ t, exec (.frameArrival p f) s = .next t ∧ t.faulted p .noCredit) ∧
    ((s.unit p).state = .up → frameMessage f = none →
      ∃ t, exec (.frameArrival p f) s = .next t ∧ t.faulted p .corruptFrame) ∧
    ((s.unit p).state ≠ .up → exec (.frameArrival p f) s = .next s)

/-- Which frames are messages (R176 to R178): identified by kind code and body length together; the tag in bits 2:0 of
header byte 1 of REQUEST and CUT, and no other bit of that byte read; a kept count above 16,384 taken as 16,384; the
bits of a REQUEST body that the layout does not assign ignored. Every other frame takes an UP port to FAULT, whatever
its inbound credits (the model's choice, log entry 19). -/
def Obligations.FramesAreIdentifiedByKindAndLength : Prop :=
  (frameMessage .corrupt = none) ∧
  (∀ kind sub body, (frameMessage (.whole kind sub body)).isSome = true ↔
    (kind = 0x10 ∧ body.length = 8) ∨ (kind = 0x20 ∧ 1 ≤ body.length ∧ body.length ≤ 16) ∨
      (kind = 0x30 ∧ body.length = 2) ∨ (kind = 0x40 ∧ body.length = 0) ∨ (kind = 0x50 ∧ body.length = 1)) ∧
  (∀ sub b0 b1 b2 b3 b4 b5 b6 b7, ∃ t : TagId, t.val = sub.toNat % 8 ∧
    frameMessage (.whole 0x10 sub [b0, b1, b2, b3, b4, b5, b6, b7]) =
      some (.request t (b0 ++ b1 ++ b2 ++ b3 ++ b4 ++ b5 ++ b6 ++ b7))) ∧
  (∀ sub body, 1 ≤ body.length → body.length ≤ 16 → frameMessage (.whole 0x20 sub body) = some (.data body)) ∧
  (∀ sub b0 b1, ∃ t : TagId, t.val = sub.toNat % 8 ∧ 
    frameMessage (.whole 0x30 sub [b0, b1]) = some (.cut t (b0 ++ b1))) ∧
  (∀ sub, frameMessage (.whole 0x40 sub []) = some .arm) ∧
  (∀ sub n, frameMessage (.whole 0x50 sub [n]) = some (.credit n)) ∧
  (∀ k : BitVec 16, keptCount k = if k.toNat ≤ 16384 then k.toNat else 16384) ∧
  (∀ body x : BitVec 64, Request.ofBody (body ^^^ (x &&& 0x00E0F000000000F0)) = Request.ofBody body) ∧
  (∀ (s : State) (p : PortId) (f : LinkFrame), (s.unit p).state = .up → frameMessage f = none →
    ∃ t, exec (.frameArrival p f) s = .next t ∧ t.faulted p .corruptFrame)

/-- RETURN_SENT (R139, R176): the RETURN goes out as its frame, and the credits freed meanwhile are carried together
by the next one, 32 at most (the model's choice, log entry 18). DEPARTURE (R142, R145, R176), when no notice waits:
the head of an UP port's outbound queue goes out as its frame on one outbound credit; a final response frees its tag;
a BUSY answer on an orphaned tag is no longer outstanding, and the tag is free if its finished unit is linked; a
header, a beat or a notice leaves the tags as they are; a beat lets a delivery of the port that waits for room have its
next beat read (R92). A port that is not UP or has no credit is left as it is, and so is one with no RETURN to send (log
entry 2). The fields of a freed tag record are the model's values (log entry 11). -/
def Obligations.LinkSendsFrames : Prop :=
  (∀ (s : State) (p : PortId),
    (1 ≤ (s.unit p).returning → (s.unit p).returning ≤ 32 → (s.unit p).returnOwed ≤ 32 →
      exec (.returnSent p) s = .next (s.setUnit p { s.unit p with
        linkOut := [0xD0, 0x00, BitVec.ofNat 8 (s.unit p).returning], returning := (s.unit p).returnOwed
        returnOwed := 0 })) ∧
    ((s.unit p).returning = 0 → exec (.returnSent p) s = .next s)) ∧
  ∀ (s : State) (p : PortId) (m : OutMsg) (q : List OutMsg), s.quiet = true → (s.unit p).outbound = m :: q →
    ((s.unit p).readyWaiting = none → (s.unit p).poolLowWaiting = none → (s.unit p).noticeQueue = [] →
      (s.unit p).state = .up → 0 < (s.unit p).outboundCredits →
      (∀ t, (∃ st res, m = .response t st res .final) ∨ (∃ st n, m = .endMsg t st n .final) →
        exec (.departure p) s = .next (s.setUnit p (((s.unit p).sent m q).setTag t TagRecord.initial))) ∧
      (∀ t, (∃ st res, m = .response t st res .busyAnswer) ∨ (∃ st n, m = .endMsg t st n .busyAnswer) →
        exec (.departure p) s = .next (s.setUnit p (((s.unit p).sent m q).setTag t
          (if (s.tagRec p t).unit.isSome then { s.tagRec p t with busyAnswer := false } else TagRecord.initial)))) ∧
      (∀ t st res, m = .response t st res .header → exec (.departure p) s = .next (s.setUnit p ((s.unit p).sent m q))) ∧
      (∀ n o, m = .notice n o → exec (.departure p) s = .next (s.setUnit p ((s.unit p).sent m q))) ∧
      (∀ bytes, m = .data bytes → ∃ u, exec (.departure p) s = .next u ∧ u.readFollows p (s.del p) s.mem q ∧
        (∀ o, o ≠ p → u.del o = s.del o) ∧ u = { s.setUnit p ((s.unit p).sent m q) with dels := u.dels, mem := u.mem })) ∧
    ((s.unit p).state ≠ .up ∨ (s.unit p).outboundCredits = 0 → exec (.departure p) s = .next s)

/-- CREDIT (R145, R148): n is added to the outbound credits; a sum above 255 is a credit overflow. -/
def Obligations.CreditAddsOutboundCredits : Prop :=
  ∀ (s : State) (p : PortId) (n : BitVec 8) (rest : List Message), s.takesIn p (.credit n) rest →
    ((s.unit p).outboundCredits + n.toNat ≤ 255 →
      exec (.credit p) s = .next (s.setUnit p { (s.unit p).afterTakeIn rest with
        outboundCredits := (s.unit p).outboundCredits + n.toNat })) ∧
    (255 < (s.unit p).outboundCredits + n.toNat →
      ∃ t, exec (.credit p) s = .next t ∧ t.faulted p .creditOverflow)

/-- ARM (R118): it waits while the port's assembly record is ADMITTING; at its take-in READY is raised and the flag left
no where the port's lists are not empty; otherwise the flag becomes yes. -/
def Obligations.ArmRaisesReadyOrArms : Prop :=
  ∀ (s : State) (p : PortId),
    ((s.asm p).state = .admitting → exec (.arm p) s = .next s) ∧
    ∀ rest : List Message, s.takesIn p .arm rest →
      (0 < s.listedFlows p → exec (.arm p) s = .next (s.setUnit p
        (PortUnit.raise .ready { (s.unit p).afterTakeIn rest with readyArmed := false }))) ∧
      (s.listedFlows p = 0 →
        exec (.arm p) s = .next (s.setUnit p { (s.unit p).afterTakeIn rest with readyArmed := true }))

/-- Notices at a port unit (R144, R146, R147). Placement: READY first, then POOL_LOW, then the notice queue in order, the
first of them with overflow yes where the overflow flag is yes, and the flag then no; nothing in a full queue. Raising:
discarded by a port that is not UP; where the queue is full, READY and POOL_LOW wait, merged with one of their kind, and
a flow-bearing notice joins the notice queue; where there is room and nothing waits, it is placed at once; with 8
flow-bearing notices raised and not departed, another is discarded and the overflow flag becomes yes. Displacement: a
message placed in a full queue takes the place of the notice nearest the tail, which waits again with its overflow
field, a flow-bearing one at the head of the notice queue, a READY or POOL_LOW merged with a waiting one. The overflow
field of a notice placed again (yes if it was yes at its displacement, or if the flag is), the fields that the notices
behind it keep, and the field of a READY or POOL_LOW merged at a displacement (yes if either was) are the model's reading
of R147 (log entry 22). -/
def Obligations.WaitingNoticesArePlacedInOrder : Prop :=
  (∀ u : PortUnit, u.outbound.length + u.noticeQueue.length + 2 ≤ 64 →
    let waiting := u.readyWaiting.toList.map (fun o => (Notice.ready, o)) ++
      u.poolLowWaiting.toList.map (fun o => (Notice.poolLow, o)) ++ u.noticeQueue
    u.noticesPlaced = { u with
      readyWaiting := none, poolLowWaiting := none, noticeQueue := [], overflow := u.overflow && waiting.isEmpty
      outbound := u.outbound ++ (match waiting with
        | [] => []
        | (n, o) :: rest => OutMsg.notice n (o || u.overflow) :: rest.map (fun w => OutMsg.notice w.1 w.2)) }) ∧
  (∀ (u : PortUnit) (n : Notice) (m : OutMsg), u.state ≠ .up → u.raise n = u ∧ u.place m = u) ∧
  (∀ u : PortUnit, u.state = .up → 64 ≤ u.outbound.length → u.noticesPlaced = u ∧
    u.raise .ready = { u with readyWaiting := some (u.readyWaiting.getD false) } ∧
    u.raise .poolLow = { u with poolLowWaiting := some (u.poolLowWaiting.getD false) } ∧
    ∀ n : Notice, n.flowBearing = true →
      (u.flowBearing < 8 → u.raise n = { u with noticeQueue := u.noticeQueue ++ [(n, false)] }) ∧
      (8 ≤ u.flowBearing → u.raise n = { u with overflow := true })) ∧
  (∀ (u : PortUnit) (n : Notice), u.state = .up → u.outbound.length < 64 → u.readyWaiting = none →
    u.poolLowWaiting = none → u.noticeQueue = [] →
    (n.flowBearing = true → 8 ≤ u.flowBearing → u.raise n = { u with overflow := true }) ∧
    (n.flowBearing = false ∨ u.flowBearing < 8 →
      u.raise n = { u with outbound := u.outbound ++ [.notice n u.overflow], overflow := false })) ∧
  (∀ (u : PortUnit) (m : OutMsg), u.state = .up → u.outbound.length < 64 →
    u.place m = { u with outbound := u.outbound ++ [m] }) ∧
  (∀ (u : PortUnit) (m : OutMsg) (before after : List OutMsg) (n : Notice) (o : Bool), u.state = .up →
    u.outbound = before ++ .notice n o :: after → u.outbound.length = 64 →
    (∀ k b, .notice k b ∉ after) →
    (n = .ready → u.place m = { u with
      outbound := before ++ after ++ [m], readyWaiting := some (o || u.readyWaiting.getD false) }) ∧
    (n = .poolLow → u.place m = { u with
      outbound := before ++ after ++ [m], poolLowWaiting := some (o || u.poolLowWaiting.getD false) }) ∧
    (n.flowBearing = true → u.place m = { u with
      outbound := before ++ after ++ [m], noticeQueue := (n, o) :: u.noticeQueue }))

/-! ## Take-in of a REQUEST -/

/-- Check 1 of R141: a REQUEST of any kind that names a tag in use, or an orphaned one whose BUSY answer has not
departed, takes the port to FAULT. A PUT that reuses a tag does not wait for a complete assembly (the model's reading,
log entry 20). -/
def Obligations.TagReuseIsAViolation : Prop :=
  ∀ (s : State) (p : PortId) (t : TagId) (body : BitVec 64) (rest : List Message),
    s.takesIn p (.request t body) rest →
    (s.tagRec p t).status = .inUse ∨ ((s.tagRec p t).status = .orphaned ∧ (s.tagRec p t).busyAnswer = true) →
    ∃ u, exec ((Request.ofBody body).kind.command p) s = .next u ∧ u.faulted p .tagReuse

/-- Checks 2 to 4 of R141: BUSY on an orphaned tag, which keeps its finished unit; NOTREADY outside RUNNING; BADARG for
a request code that names no request. A PUT's declared beats are discarded after it (R68); its port's record is not
ASSEMBLING (PutIsRefusedInOrder says what a PUT does to one that is). The flow and needed of a DISCARDING record, and the
fields of an IDLE one that have no meaning, are the model's values (log entries 35 and 11). -/
def Obligations.GenericChecksRefuse : Prop :=
  ∀ (s : State) (p : PortId) (t : TagId) (body : BitVec 64) (rest : List Message) (k : ReqKind),
    s.quiet = true → s.takesIn p (.request t body) rest → (Request.ofBody body).kind = k →
    (s.unit p).current ≠ some t → (k = .put → (s.asm p).state ≠ .assembling) →
    ((s.tagRec p t).status = .orphaned → (s.tagRec p t).busyAnswer = false →
      exec (k.command p) s = .next
        ((s.setUnit p ((((s.unit p).afterTakeIn rest).setTag t { s.tagRec p t with busyAnswer := true }).place
          (if k = .take ∨ k = .peek then .endMsg t .busy 0 .busyAnswer else .response t .busy .none .busyAnswer))).setAsm p
            (if k = .put then .discarding (Request.ofBody body).argA.toNat else s.asm p))) ∧
    ((s.tagRec p t).status = .free → s.mgmt.device ≠ .running →
      exec (k.command p) s = .next ((s.refused p rest t body .notReady).setAsm p
        (if k = .put then .discarding (Request.ofBody body).argA.toNat else s.asm p))) ∧
    ((s.tagRec p t).status = .free → s.mgmt.device = .running → k = .undefined →
      exec (.undefinedRequestCode p) s = .next (s.refused p rest t body .badArg))

/-! ## Requests: their own checks and their services -/

/-- OPEN's take-in checks in order (R11), and its service in the free slot at the clock hand when nothing waits (R7,
R12, R50, R51, R52): the slot RESIDENT with the fresh context, the flow OPEN, the answer OK. -/
def Obligations.OpenIsCheckedAndServed : Prop :=
  ∀ (s : State) (p : PortId) (t : TagId) (body : BitVec 64) (rest : List Message), s.quiet = true →
    s.takesRequest p t body rest .openFlow →
    let r := Request.ofBody body
    (s.config.adminRole[p] = false → exec (.openReq p) s = .next (s.refused p rest t body .denied)) ∧
    (s.config.adminRole[p] = true → r.producers = 0 ∨ r.argB = 0 →
      exec (.openReq p) s = .next (s.refused p rest t body .badArg)) ∧
    (s.config.adminRole[p] = true → r.producers ≠ 0 → r.argB ≠ 0 → (s.flow r.flow).state ≠ .closed →
      exec (.openReq p) s = .next (s.refused p rest t body .existing)) ∧
    (s.config.adminRole[p] = true → r.producers ≠ 0 → r.argB ≠ 0 → (s.flow r.flow).state = .closed →
      (s.flow r.flow).admittedUnits ≠ 0 → exec (.openReq p) s = .next (s.refused p rest t body .busy)) ∧
    (s.config.adminRole[p] = true → r.producers ≠ 0 → r.argB ≠ 0 → (s.flow r.flow).state = .closed →
      (s.flow r.flow).admittedUnits = 0 → (s.flow r.flow).residency = none → s.noWaits →
      (s.slot s.hand).state = .free →
      exec (.openReq p) s = .next ((({ s with hand := s.hand + 1 }.setSlot s.hand
        { state := .resident, flow := some r.flow, incoming := none, dirty := true, ref := true, pins := 0
          delivering := false, pendingList := [], returnList := [], parkedList := []
          context :=
            { producers := r.producers, consumer := BitVec.ofNat 2 r.consumer.val, cls := BitVec.ofNat 2 r.cls.val
              readyThreshold := r.argB, quota := r.argA, unitCount := 0, headSeg := 0, tailSeg := 0, cursorOff := 0
              cursorDone := 0, unitsIn := 0, unitsOut := 0, drops := 0 } }).setFlow r.flow
        { state := .opened, halt := none, consumer := r.consumer, cls := r.cls, ready := false, listed := false
          dispatched := false, prev := none, next := none, residency := some s.hand, segCount := 0, admittedUnits := 0
          admittedSegs := 0 }).granted p rest t body (.state .opened)))

/-- CLOSE's take-in checks (R13), and its service at a RESIDENT slot against no other port's hold (R14): DRAINING
stays DRAINING; an OPEN flow with segments or admitted units becomes DRAINING, and is ready when it is not halted and
has a unit; an OPEN flow with neither, with nothing parked and nothing waiting, enters CLOSED (R16): its slot is FREE,
its hold is over, and the count falls if the slot was pinned or held (the model's readings, log entries 13 and 15). A
flow halted with CTXERR is closed at once (R23). Where another port holds the flow, CLOSE parks with the wait flag and
is refused HELD without it (R125). The answer carries the state that the flow enters; where the change to DRAINING lists
the flow as the only one of its consumer, and READY is armed, READY is raised behind the answer (R111, R117). -/
def Obligations.CloseDrainsOrCloses : Prop :=
  ∀ (s : State) (p : PortId) (t : TagId) (body : BitVec 64) (rest : List Message), s.quiet = true →
    s.takesRequest p t body rest .closeFlow →
    let f := (Request.ofBody body).flow
    (s.config.adminRole[p] = false → exec (.closeReq p) s = .next (s.refused p rest t body .denied)) ∧
    (s.config.adminRole[p] = true → (s.flow f).state = .closed →
      exec (.closeReq p) s = .next (s.refused p rest t body .closed)) ∧
    (s.config.adminRole[p] = true → (s.flow f).state ≠ .closed → (s.flow f).halt ≠ some .ctxErr →
      ∀ S, s.servingSlot f = some S → s.heldAgainst f p = false →
        ((s.flow f).state = .draining →
          exec (.closeReq p) s = .next ((s.used S).granted p rest t body (.state .draining))) ∧
        ((s.flow f).state = .opened → ¬((s.flow f).segCount = 0 ∧ (s.flow f).admittedUnits = 0) →
          ∃ u, exec (.closeReq p) s = .next u ∧
            u.flow f = { s.flow f with
              state := .draining, ready := (u.flow f).ready, listed := (u.flow f).ready && !(s.flow f).dispatched
              prev := (u.flow f).prev, next := (u.flow f).next } ∧
            ((u.flow f).ready = true ↔ (s.flow f).halt = none ∧ 1 ≤ (s.slot S).context.unitCount.toNat) ∧
            (∀ g, g ≠ f → u.flow g = { s.flow g with prev := (u.flow g).prev, next := (u.flow g).next }) ∧
            (∀ q d, (q, d) ≠ ((s.flow f).consumer, (s.flow f).cls) → u.readyList q d = s.readyList q d) ∧
            (let v := s.granted p rest t body (.state .draining)
            let c := (s.flow f).consumer
            let fills := (s.flow f).listed = false ∧ (u.flow f).listed = true ∧ s.listedFlows c = 0 ∧
              (s.unit c).readyArmed = true
            (¬ fills → u.units = v.units) ∧
            (fills →
              u.units = (v.setUnit c (PortUnit.raise .ready { v.unit c with readyArmed := false })).units)) ∧
            u = { s with slots := (s.used S).slots, flows := u.flows, lists := u.lists, units := u.units }) ∧
        ((s.flow f).state = .opened → (s.flow f).segCount = 0 → (s.flow f).admittedUnits = 0 → s.noWaits →
          (s.slot S).parkedList = [] → s.holdsExclusive →
          ∃ u, exec (.closeReq p) s = .next u ∧
            u.units = (s.granted p rest t body (.state .closed)).units ∧
            u.flow f = { s.flow f with
              state := .closed, halt := none, ready := false, listed := false, dispatched := false, residency := none
              prev := (u.flow f).prev, next := (u.flow f).next } ∧
            ((s.flow f).listed = true → (u.flow f).prev = none ∧ (u.flow f).next = none) ∧
            (∀ g, g ≠ f → u.flow g = { s.flow g with prev := (u.flow g).prev, next := (u.flow g).next }) ∧
            (∀ q d, (q, d) ≠ ((s.flow f).consumer, (s.flow f).cls) → u.readyList q d = s.readyList q d) ∧
            (u.slot S).state = .free ∧ (u.slot S).flow = none ∧ (u.slot S).pins = 0 ∧ (u.slot S).dirty = false ∧
            (∀ T, T ≠ S → u.slot T = s.slot T) ∧
            (∀ q, (u.hold q).state ≠ .empty → (u.hold q).flow ≠ f) ∧
            (∀ q, (s.hold q).state = .empty ∨ (s.hold q).flow ≠ f → u.hold q = s.hold q) ∧
            u.pinnedOrHeld = s.pinnedOrHeld - (if s.counted S then 1 else 0) ∧
            u = { s with
              slots := u.slots, flows := u.flows, lists := u.lists, units := u.units, holds := u.holds
              pinnedOrHeld := u.pinnedOrHeld })) ∧
    (s.config.adminRole[p] = true → (s.flow f).state ≠ .closed → (s.flow f).halt ≠ some .ctxErr →
      ∀ S, s.servingSlot f = some S → s.heldAgainst f p = true →
        ((Request.ofBody body).wait = false → exec (.closeReq p) s = .next ((s.used S).refused p rest t body .held)) ∧
        ((Request.ofBody body).wait = true →
          exec (.closeReq p) s = .next (s.parks S p rest t (Request.ofBody body)))) ∧
    (s.config.adminRole[p] = true → (s.flow f).state ≠ .closed → (s.flow f).halt = some .ctxErr →
      (s.flow f).residency = none → (s.flow f).listed = false → s.holder f = none →
      exec (.closeReq p) s = .next ((s.setFlow f { s.flow f with
        state := .closed, halt := none, ready := false, dispatched := false }).granted p rest t body (.state .closed)))

/-- QUERY (R9, R19, R22): CLOSED, CTXERR, or the flow as it stands, with its holder. A QUERY of a flow that is not
resident waits for its context (R48, R51, R52, R60): where nothing waits and the slot at the clock hand is FREE, or
holds a clean context that is evictable and has not been used, that slot is FILLING for the flow, and its fill waits
or is granted; where that context is dirty, the slot is SPILLING for it; where no slot is FREE or evictable, or
others wait, it joins the tail of the miss wait, or is refused BUSY when that holds 16. -/
def Obligations.QueryReportsTheFlow : Prop :=
  ∀ (s : State) (p : PortId) (t : TagId) (body : BitVec 64) (rest : List Message), s.quiet = true →
    s.takesRequest p t body rest .query →
    let f := (Request.ofBody body).flow
    ((s.flow f).state = .closed → exec (.queryReq p) s = .next (s.refused p rest t body .closed)) ∧
    ((s.flow f).state ≠ .closed → (s.flow f).halt = some .ctxErr →
      exec (.queryReq p) s = .next (s.refused p rest t body .ctxErr)) ∧
    ((s.flow f).state ≠ .closed → (s.flow f).halt ≠ some .ctxErr → ∀ S, s.servingSlot f = some S →
      ∃ holder, exec (.queryReq p) s = .next ((s.used S).granted p rest t body (.query (s.flow f).state (s.flow f).halt
          holder (s.slot S).context.unitCount.toNat (s.flow f).segCount (s.flow f).admittedUnits (s.flow f).admittedSegs
          (s.slot S).context.cursorDone.toNat (s.slot S).pins)) ∧
        (∀ q, holder = some q → (s.hold q).state ≠ .empty ∧ (s.hold q).flow = f) ∧
        (holder = none → ∀ q, (s.hold q).state ≠ .empty → (s.hold q).flow ≠ f)) ∧
    ((s.flow f).state ≠ .closed → (s.flow f).halt ≠ some .ctxErr → (s.flow f).residency = none →
      let S := s.hand
      let v := s.slot S
      let r := Request.ofBody body
      let fillMem := if s.mem.inProgress = none then { s.mem with inProgress := some (.fill S f) }
        else { s.mem with fillQueue := s.mem.fillQueue ++ [(S, f)] }
      let spillMem (x : FlowId) := if s.mem.inProgress = none then { s.mem with inProgress := some (.spill S x) }
        else { s.mem with spillQueue := s.mem.spillQueue ++ [(S, x)] }
      (s.noWaits → v.state = .free → ∃ u, exec (.queryReq p) s = .next u ∧
        ((u.slot S).state = .filling ∧ (u.slot S).flow = some f ∧ (u.slot S).pendingList = [.request p t] ∧
          (u.slot S).returnList = [] ∧ (u.slot S).parkedList = [] ∧ (u.slot S).pins = 0) ∧
        (∀ T, T ≠ S → u.slot T = s.slot T) ∧ u.flow f = { s.flow f with residency := some S } ∧
        (∀ g, g ≠ f → u.flow g = s.flow g) ∧
        u = { s with
          hand := S + 1, slots := u.slots, flows := u.flows, mem := fillMem
          units := (s.takenIn p rest t r .waitingResidency).units }) ∧
      (∀ x, s.noWaits → s.evictable S = true → v.ref = false → v.flow = some x → x ≠ f → v.dirty = false →
        ∃ u, exec (.queryReq p) s = .next u ∧
          ((u.slot S).state = .filling ∧ (u.slot S).flow = some f ∧ (u.slot S).pendingList = [.request p t] ∧
            (u.slot S).returnList = [] ∧ (u.slot S).parkedList = [] ∧ (u.slot S).pins = 0) ∧
          (∀ T, T ≠ S → u.slot T = s.slot T) ∧ u.flow f = { s.flow f with residency := some S } ∧
          u.flow x = { s.flow x with residency := none } ∧ (∀ g, g ≠ f → g ≠ x → u.flow g = s.flow g) ∧
          u = { s with
            hand := S + 1, slots := u.slots, flows := u.flows, mem := fillMem
            units := (s.takenIn p rest t r .waitingResidency).units }) ∧
      (∀ x, s.noWaits → s.evictable S = true → v.ref = false → v.flow = some x → x ≠ f → v.dirty = true →
        exec (.queryReq p) s = .next ((({ s with hand := S + 1, mem := spillMem x }.setSlot S
          { v with state := .spilling, incoming := some f, pendingList := [.request p t] }).setFlow f
            { s.flow f with residency := some S }).takenIn p rest t r .waitingResidency)) ∧
      (s.noWaits → (∀ T, (s.slot T).state ≠ .free ∧ s.evictable T = false) →
        exec (.queryReq p) s = .next ({ s with missWait := [.request p t] }.takenIn p rest t r .missWait)) ∧
      (¬ s.noWaits → s.missWait.length < 16 →
        exec (.queryReq p) s = .next
          ({ s with missWait := s.missWait ++ [Req.request p t] }.takenIn p rest t r .missWait)) ∧
      (16 ≤ s.missWait.length → exec (.queryReq p) s = .next (s.refused p rest t body .busy)))

/-- A PUT that is no tag reuse and finds its port's record ASSEMBLING (R69): it waits while the assembly has all its
bytes; otherwise the assembly is aborted with BADLEN first (R38, R82), and the PUT is then taken in as at an IDLE record,
said where the abort ends no drain. Where the abort takes admitted_units to 0, the requests parked at the slot are served
before the PUT is taken in, so that a HOLD that stands there alone is granted first (R126, R127): the model's choice (log
entry 30). The refusals of a PUT: at take-in (R9, R22, R68), and at its flow's RESIDENT slot in the order of the six tests
(R33, R72). Its beats are then to be discarded. The port's record is IDLE or DISCARDING; the flow and needed of a
DISCARDING record, and the fields of an IDLE one that have no meaning, are the model's values (log entries 35 and 11). -/
def Obligations.PutIsRefusedInOrder : Prop :=
  (∀ (s : State) (p : PortId) (t : TagId) (body : BitVec 64) (rest : List Message),
    s.takesIn p (.request t body) rest → (Request.ofBody body).kind = .put → (s.asm p).state = .assembling →
    (s.tagRec p t).status = .free ∨ ((s.tagRec p t).status = .orphaned ∧ (s.tagRec p t).busyAnswer = false) →
    let a := s.asm p
    let e := s.flow a.flow
    (a.taken = a.declared → exec (.putReq p) s = .next s) ∧
    ∀ g, a.taken < a.declared → a.tag = some g → (s.unit p).current ≠ some g →
      let aborted := s.assemblyAborted p g .badLen
      (1 < e.admittedUnits ∨ (e.state ≠ .draining ∨ e.segCount ≠ 0) ∧
          (∀ S, s.servingSlot a.flow = some S → (s.slot S).parkedList = []) →
        exec (.putReq p) s = exec (.putReq p) aborted) ∧
      ∀ S q i, e.admittedUnits ≤ 1 → e.state ≠ .draining ∨ e.segCount ≠ 0 → s.servingSlot a.flow = some S →
        (s.slot S).parkedList = [.request q i] → q ≠ p →
        let r := (s.tagRec q i).request
        r.kind = .hold → r.flow = a.flow → (s.tagRec q i).unit = none → (s.hold q).state = .empty →
        (∀ o, (s.hold o).state ≠ .empty → (s.hold o).flow ≠ a.flow) → 1 ≤ (s.slot S).pins ∨ s.pinnedOrHeld < 48 →
        exec (.putReq p) s = exec (.putReq p)
          { ((aborted.setSlot S { s.slot S with ref := true, parkedList := [] }).setHold q
              { state := .held, flow := a.flow, lease := r.argA.toNat }).setUnit q
                (((s.unit q).setTag i { s.tagRec q i with phase := .responding }).place
                  (.response i .ok (.lease r.argA.toNat) .final)) with
            pinnedOrHeld := s.pinnedOrHeld + (if (s.slot S).pins = 0 then 1 else 0), retryDue := true }) ∧
  ∀ (s : State) (p : PortId) (t : TagId) (body : BitVec 64) (rest : List Message), s.quiet = true →
    s.takesRequest p t body rest .put → (s.asm p).state ≠ .assembling → s.holdsExclusive →
    let f := (Request.ofBody body).flow
    let len := (Request.ofBody body).argA.toNat
    let needed := (len + 127) / 128
    (len < 1 ∨ 16384 < len →
      exec (.putReq p) s = .next ((s.refused p rest t body .badArg).setAsm p (.discarding len))) ∧
    (1 ≤ len → len ≤ 16384 → (s.flow f).state = .closed →
      exec (.putReq p) s = .next ((s.refused p rest t body .closed).setAsm p (.discarding len))) ∧
    (1 ≤ len → len ≤ 16384 → (s.flow f).state ≠ .closed → (s.flow f).halt = some .ctxErr →
      exec (.putReq p) s = .next ((s.refused p rest t body .ctxErr).setAsm p (.discarding len))) ∧
    (1 ≤ len → len ≤ 16384 → (s.flow f).state ≠ .closed → (s.flow f).halt ≠ some .ctxErr →
      ∀ S, s.servingSlot f = some S → ∀ st,
        (st = .closed ∧ (s.flow f).state = .draining) ∨
        ((s.flow f).state = .opened ∧ st = .halted ∧ (s.flow f).halt = some .dataErr) ∨
        ((s.flow f).state = .opened ∧ (s.flow f).halt = none ∧
          ((st = .notProd ∧ (s.slot S).context.producers.getLsbD p.val = false) ∨
          ((s.slot S).context.producers.getLsbD p.val = true ∧ st = .held ∧ s.putBlocked f S p) ∨
          ((s.slot S).context.producers.getLsbD p.val = true ∧ ¬ s.putBlocked f S p ∧
            ((st = .quota ∧ s.overQuota f S needed) ∨ (st = .nospace ∧ ¬ s.overQuota f S needed ∧
              s.pool.free - s.pool.reserved < needed + s.config.floors[(s.flow f).cls].toNat))))) →
        exec (.putReq p) s = .next (((s.used S).refused p rest t body st).setAsm p (.discarding len)))

/-- A PUT that passes every test is admitted (R33, R41, R72, R73): its record is ASSEMBLING with the gap timer started,
its needed segments are reserved, and POOL_LOW is raised to the UP ports enabled for it when free less reserved falls
below warning with the flag yes. -/
def Obligations.PutIsAdmitted : Prop :=
  ∀ (s : State) (p : PortId) (t : TagId) (body : BitVec 64) (rest : List Message), s.quiet = true →
    s.takesRequest p t body rest .put → (s.asm p).state ≠ .assembling →
    let f := (Request.ofBody body).flow
    let len := (Request.ofBody body).argA.toNat
    let needed := (len + 127) / 128
    1 ≤ len → len ≤ 16384 → (s.flow f).state = .opened → (s.flow f).halt = none → ∀ S, s.servingSlot f = some S →
    (s.slot S).context.producers.getLsbD p.val = true → ¬ s.putBlocked f S p → ¬ s.overQuota f S needed →
    needed + s.config.floors[(s.flow f).cls].toNat ≤ s.pool.free - s.pool.reserved →
    ∃ u, exec (.putReq p) s = .next u ∧
      u.asm p =
        { state := .assembling, tag := some t, flow := f, declared := len, taken := 0, needed := needed, allocated := 0
          chainFirst := 0, chainLast := 0, gapTimer := some 0, writesOutstanding := 0 } ∧
      u.flow f = { s.flow f with
        admittedSegs := (s.flow f).admittedSegs + needed, admittedUnits := (s.flow f).admittedUnits + 1 } ∧
      (let falls := s.pool.lowArmed = true ∧ s.pool.free - (s.pool.reserved + needed) < s.config.warning.toNat
      (¬ falls → u.pool = { s.pool with reserved := s.pool.reserved + needed } ∧
        u.unit p = (s.takenIn p rest t (Request.ofBody body) .inService).unit p ∧ ∀ q, q ≠ p → u.unit q = s.unit q) ∧
      (falls → u.pool = { s.pool with reserved := s.pool.reserved + needed, lowArmed := false } ∧
        ∀ q, u.unit q =
          let v := (s.takenIn p rest t (Request.ofBody body) .inService).unit q
          if s.config.poolNotice[q] then v.raise .poolLow else v)) ∧
      (∀ g, g ≠ f → u.flow g = s.flow g) ∧ (∀ q, q ≠ p → u.asm q = s.asm q) ∧
      u = { s with slots := (s.used S).slots, flows := u.flows, asms := u.asms, units := u.units, pool := u.pool }

/-- The take-in checks of TAKE, PEEK and DROP in order, and the consumer queue past them (R86, R87); those of PIN and
UNPIN (R132). A TAKE, PEEK or DROP handed on at once to its flow's RESIDENT slot, where another port holds the flow,
parks with the wait flag and is refused HELD without it (R88, R125). -/
def Obligations.TakeInChecksComeInOrder : Prop :=
  (∀ (s : State) (p : PortId) (t : TagId) (body : BitVec 64) (rest : List Message) (k : ReqKind), s.quiet = true →
    k = .pin ∨ k = .unpin → s.takesRequest p t body rest k →
    let f := (Request.ofBody body).flow
    (s.config.adminRole[p] = false → exec (k.command p) s = .next (s.refused p rest t body .denied)) ∧
    (s.config.adminRole[p] = true → (s.flow f).state = .closed →
      exec (k.command p) s = .next (s.refused p rest t body .closed)) ∧
    (s.config.adminRole[p] = true → (s.flow f).state ≠ .closed → (s.flow f).halt = some .ctxErr →
      exec (k.command p) s = .next (s.refused p rest t body .ctxErr))) ∧
  ∀ (s : State) (p : PortId) (t : TagId) (body : BitVec 64) (rest : List Message) (k : ReqKind), s.quiet = true →
    k = .take ∨ k = .peek ∨ k = .drop → s.takesRequest p t body rest k →
    let f := (Request.ofBody body).flow
    let inRange := (k = .take ∧ (Request.ofBody body).argA.toNat ≤ 16384) ∨
      (k = .peek ∧ 1 ≤ (Request.ofBody body).argA.toNat ∧ (Request.ofBody body).argA.toNat ≤ 4096) ∨ k = .drop
    (¬ inRange → exec (k.command p) s = .next (s.refused p rest t body .badArg)) ∧
    (inRange → (s.flow f).state = .closed → exec (k.command p) s = .next (s.refused p rest t body .closed)) ∧
    (inRange → (s.flow f).state ≠ .closed → (s.flow f).halt = some .ctxErr →
      exec (k.command p) s = .next (s.refused p rest t body .ctxErr)) ∧
    (inRange → (s.flow f).state ≠ .closed → (s.flow f).halt ≠ some .ctxErr → (s.flow f).consumer ≠ p →
      exec (k.command p) s = .next (s.refused p rest t body .notCons)) ∧
    (inRange → (s.flow f).state ≠ .closed → (s.flow f).halt ≠ some .ctxErr → (s.flow f).consumer = p →
      (s.unit p).current ≠ none →
      exec (k.command p) s = .next ((s.takenIn p rest t (Request.ofBody body) .queuedAtPort).setUnit p
        { (s.takenIn p rest t (Request.ofBody body) .queuedAtPort).unit p with
          consumerQueue := (s.unit p).consumerQueue ++ [t] })) ∧
    (inRange → (s.flow f).state ≠ .closed → (s.flow f).halt ≠ some .ctxErr → (s.flow f).consumer = p →
      (s.unit p).current = none → (s.unit p).consumerQueue = [] → ∀ S, s.servingSlot f = some S →
      s.heldAgainst f p = true →
      ((Request.ofBody body).wait = false → exec (k.command p) s = .next ((s.used S).refused p rest t body .held)) ∧
      ((Request.ofBody body).wait = true →
        exec (k.command p) s = .next ((s.parks S p rest t (Request.ofBody body)).setUnit p
          { (s.parks S p rest t (Request.ofBody body)).unit p with current := some t })))

/-- A TAKE or PEEK handed on at once to its flow's RESIDENT slot begins a delivery (R86, R88, R90, R91): the header
stands in the queue, the record is STREAMING with its plan, the slot is delivering. Its first beat is read from the cursor
on, or waits for room in the outbound queue or for an abandoned read of the port to end (R92). The bytes of a read: they
follow one another in a segment up to its fill, and go on at offset 0 of the segment that its next names. -/
def Obligations.DeliveryBegins : Prop :=
  (∀ (P : Pool) (n seg off : Nat), off < (P.link seg).fill →
    let left := (P.link seg).fill - off
    let r := P.readBytes (n - left) (P.link seg).next 0
    (n < left → P.readBytes n seg off = ((List.range n).map (fun i => (seg, off + i)), seg, off + n)) ∧
    (left ≤ n → P.readBytes n seg off = ((List.range left).map (fun i => (seg, off + i)) ++ r.1, r.2))) ∧
  ∀ (s : State) (p : PortId) (t : TagId) (body : BitVec 64) (rest : List Message) (k : DelKind), s.quiet = true →
    s.takesRequest p t body rest k.request →
    let f := (Request.ofBody body).flow
    let limit := (Request.ofBody body).argA.toNat
    (k = .take → limit ≤ 16384) → (k = .peek → 1 ≤ limit ∧ limit ≤ 4096) →
    (s.flow f).state ≠ .closed → (s.flow f).halt = none → (s.flow f).consumer = p → s.heldAgainst f p = false →
    (s.unit p).current = none → (s.unit p).consumerQueue = [] → ∀ S, s.servingSlot f = some S →
    let c := (s.slot S).context
    1 ≤ c.unitCount.toNat →
    let rem := s.pool.fills (s.pool.unitFrom 128 c.headSeg.toNat) - c.cursorOff.toNat
    let planned := if k = .take ∧ limit = 0 then rem else min limit rem
    ∃ u, exec ((k.command) p) s = .next u ∧
      u.unit p = { (s.takenAndPlaced p rest t (Request.ofBody body) .streaming
        (.response t .ok (.header f (rem + c.cursorDone.toNat) c.cursorDone.toNat planned) .header)).unit p with
        current := some t } ∧
      u.readFollows p
        { state := .streaming, kind := k, tag := t, flow := f, planned := planned, startSeg := c.headSeg.toNat
          startOff := c.cursorOff.toNat, startDone := c.cursorDone.toNat, readSeg := c.headSeg.toNat
          readOff := c.cursorOff.toNat, sent := 0, readInFlight := false } s.mem (s.unit p).outbound ∧
      u.slots = (s.setSlot S { s.slot S with ref := true, delivering := true }).slots ∧
      (∀ q, q ≠ p → u.unit q = s.unit q ∧ u.del q = s.del q) ∧
      u = { s with slots := u.slots, dels := u.dels, units := u.units, mem := u.mem }

/-- A DROP handed on at once to its flow's RESIDENT slot (R30, R88, R103, R104): k units leave the head of the flow, whose
chain then begins at the segment behind them, their segments are released to the pool, a halt and a dispatch end,
readiness is re-evaluated, and the answer OK carries k. READY is not armed. Where it takes the last segment of a
DRAINING flow with no admitted unit, the flow enters CLOSED behind the answer, and DRAINED is raised to the consumer
(R16, R17), and the count falls if the slot was pinned or held (the model's reading, log entry 15); nothing is parked,
and nothing waits. EMPTY where the flow has no unit. -/
def Obligations.DropRemovesUnits : Prop :=
  ∀ (s : State) (p : PortId) (t : TagId) (body : BitVec 64) (rest : List Message), s.quiet = true →
    s.takesRequest p t body rest .drop →
    let f := (Request.ofBody body).flow
    let e := s.flow f
    let count := (Request.ofBody body).argB.toNat
    e.state ≠ .closed → e.halt ≠ some .ctxErr → e.consumer = p →
    s.heldAgainst f p = false → (s.unit p).current = none → (s.unit p).consumerQueue = [] →
    (s.unit p).readyArmed = false → ∀ S, s.servingSlot f = some S →
    let c := (s.slot S).context
    let n := c.unitCount.toNat
    let k := if count = 0 then n else min count n
    let segs := s.pool.unitsFrom e.segCount k c.headSeg.toNat
    let next := s.pool.after segs
    let ends := e.state = .draining ∧ e.segCount - segs.length = 0 ∧ e.admittedUnits = 0
    (1 ≤ n → ¬ ends → ∃ u, exec (.dropReq p) s = .next u ∧ u.units = (s.granted p rest t body (.dropped k)).units ∧
      (u.slot S = { s.slot S with dirty := true, ref := true, context := { c with
        unitCount := c.unitCount - BitVec.ofNat 16 k, drops := c.drops + BitVec.ofNat 32 k
        headSeg := BitVec.ofNat 16 next, tailSeg := if next = 0 then 0 else c.tailSeg
        cursorOff := 0, cursorDone := 0 } }) ∧ (∀ T, T ≠ S → u.slot T = s.slot T) ∧
      ((u.flow f).segCount = e.segCount - segs.length ∧ (u.flow f).halt = none ∧
        (u.flow f).dispatched = false ∧ (u.flow f).state = e.state ∧ (u.flow f).residency = e.residency ∧
        (u.flow f).admittedUnits = e.admittedUnits ∧ (u.flow f).admittedSegs = e.admittedSegs ∧
        ((u.flow f).ready = true ↔ if e.state = .opened then c.readyThreshold.toNat ≤ n - k else 1 ≤ n - k)) ∧
      u.pool = s.poolReleasing segs ∧
      u = { s with slots := u.slots, flows := u.flows, lists := u.lists, units := u.units, pool := u.pool }) ∧
    (1 ≤ n → ends → s.noWaits → (s.slot S).parkedList = [] → s.holdsExclusive → ∃ u, exec (.dropReq p) s = .next u ∧
      u.unit p = ((s.granted p rest t body (.dropped k)).unit p).raise (.drained f) ∧
      (∀ q, q ≠ p → u.unit q = s.unit q) ∧
      ((u.flow f).state = .closed ∧ (u.flow f).segCount = 0 ∧ (u.flow f).halt = none ∧ (u.flow f).ready = false ∧
        (u.flow f).listed = false ∧ (u.flow f).dispatched = false ∧ (u.flow f).residency = none) ∧
      ((u.slot S).state = .free ∧ (u.slot S).flow = none ∧ ∀ T, T ≠ S → u.slot T = s.slot T) ∧
      (∀ q, (u.hold q).state ≠ .empty → (u.hold q).flow ≠ f) ∧
      u.pinnedOrHeld = s.pinnedOrHeld - (if s.counted S then 1 else 0) ∧ u.pool = s.poolReleasing segs ∧
      u = { s with
        slots := u.slots, flows := u.flows, lists := u.lists, units := u.units, pool := u.pool, holds := u.holds
        pinnedOrHeld := u.pinnedOrHeld }) ∧
    (n = 0 → ∃ u, exec (.dropReq p) s = .next u ∧ u.units = (s.refused p rest t body .empty).units ∧
      (u.flow f).dispatched = false ∧ (u.flow f).ready = false ∧
      u = { s with slots := (s.used S).slots, flows := u.flows, lists := u.lists, units := u.units })

/-- NEXT (R113): the head of the first of the port's lists that is not empty is popped and dispatched, and the answer OK
carries its number and class; where all four are empty, EMPTY, and READY is armed. NEXT is not taken in while the
port's assembly record is ADMITTING. -/
def Obligations.NextPopsTheFirstList : Prop :=
  (∀ (s : State) (p : PortId), (s.asm p).state = .admitting → exec (.nextReq p) s = .next s) ∧
  ∀ (s : State) (p : PortId) (t : TagId) (body : BitVec 64) (rest : List Message), s.quiet = true →
    s.takesRequest p t body rest .next →
    ((∀ c, (s.readyList p c).head = none) →
      exec (.nextReq p) s = .next (s.setUnit p
        { (s.refused p rest t body .empty).unit p with readyArmed := true })) ∧
    (∀ c f fs, (∀ b, b < c → (s.readyList p b).head = none) → s.listHolds p c (f :: fs) →
      ∃ u, exec (.nextReq p) s = .next u ∧ u.listHolds p c fs ∧
        u.flow f = { s.flow f with dispatched := true, listed := false, prev := none, next := none } ∧
        (∀ g, g ≠ f → u.flow g = { s.flow g with prev := (u.flow g).prev }) ∧
        (∀ q d, (q, d) ≠ (p, c) → u.readyList q d = s.readyList q d) ∧
        u = { s with flows := u.flows, lists := u.lists, units := (s.granted p rest t body (.next f c)).units })

/-- HOLD (R121 to R125): the take-in checks in order, and the outcomes at the flow's RESIDENT slot in the order of R123:
renewal, HOLDING, blocked by a hold or by admissions in flight (parked with the wait flag, HELD without), PINFULL, and
the grant. -/
def Obligations.HoldIsGrantedInOrder : Prop :=
  ∀ (s : State) (p : PortId) (t : TagId) (body : BitVec 64) (rest : List Message), s.quiet = true →
    s.takesRequest p t body rest .hold →
    let r := Request.ofBody body
    let f := r.flow
    let h := s.hold p
    (r.argA = 0 → exec (.holdReq p) s = .next (s.refused p rest t body .badArg)) ∧
    (r.argA ≠ 0 → (s.flow f).state = .closed → exec (.holdReq p) s = .next (s.refused p rest t body .closed)) ∧
    (r.argA ≠ 0 → (s.flow f).state ≠ .closed → (s.flow f).halt = some .ctxErr →
      exec (.holdReq p) s = .next (s.refused p rest t body .ctxErr)) ∧
    (r.argA ≠ 0 → (s.flow f).state ≠ .closed → (s.flow f).halt ≠ some .ctxErr →
      (h.state ≠ .empty → h.flow ≠ f → exec (.holdReq p) s = .next (s.refused p rest t body .holding)) ∧
      (h.state = .empty ∨ h.flow = f → ∀ S, s.servingSlot f = some S →
        let blocked := (∃ q, (s.hold q).state ≠ .empty ∧ (s.hold q).flow = f) ∨ 0 < (s.flow f).admittedUnits
        (h.state = .held → h.flow = f →
          exec (.holdReq p) s = .next (((s.used S).setHold p { h with lease := r.argA.toNat }).granted p rest t body
            (.lease r.argA.toNat))) ∧
        (h.state ≠ .held → blocked → r.wait = false →
          exec (.holdReq p) s = .next ((s.used S).refused p rest t body .held)) ∧
        (h.state ≠ .held → blocked → r.wait = true →
          exec (.holdReq p) s = .next ((s.setSlot S { s.slot S with
            ref := true, parkedList := (s.slot S).parkedList ++ [.request p t] }).takenIn p rest t r .parked)) ∧
        (h.state ≠ .held → ¬ blocked → (s.slot S).pins = 0 → 48 ≤ s.pinnedOrHeld →
          exec (.holdReq p) s = .next ((s.used S).refused p rest t body .pinFull)) ∧
        (h.state ≠ .held → ¬ blocked → 0 < (s.slot S).pins ∨ s.pinnedOrHeld < 48 →
          exec (.holdReq p) s = .next (({ s.used S with
            pinnedOrHeld := s.pinnedOrHeld + (if (s.slot S).pins = 0 then 1 else 0) }.setHold p
              { state := .held, flow := f, lease := r.argA.toNat }).granted p rest t body (.lease r.argA.toNat)))))

/-- RELEASE (R128, R130): NOTHELD where the port's record is not HELD for the flow; otherwise the record is EMPTY, the
count falls if the slot has no pins, and, where a HOLD of another port stands first in the parked list with nothing in
its way, that HOLD is granted (R126). The fields that an EMPTY record keeps are the model's values (log entry 11). -/
def Obligations.ReleaseEndsTheHold : Prop :=
  ∀ (s : State) (p : PortId) (t : TagId) (body : BitVec 64) (rest : List Message), s.quiet = true →
    s.takesRequest p t body rest .release →
    let f := (Request.ofBody body).flow
    (¬((s.hold p).state = .held ∧ (s.hold p).flow = f) →
      exec (.releaseReq p) s = .next (s.refused p rest t body .notHeld)) ∧
    ((s.hold p).state = .held → (s.hold p).flow = f → s.noWaits → ∀ S, s.servingSlot f = some S →
      ((s.slot S).parkedList = [] →
        exec (.releaseReq p) s = .next (({ s with
          pinnedOrHeld := s.pinnedOrHeld - (if (s.slot S).pins = 0 then 1 else 0) }.setHold p Hold.initial).granted p
            rest t body .none)) ∧
      (∀ q g, q ≠ p → (s.slot S).parkedList = [.request q g] → (s.tagRec q g).request.kind = .hold →
        (s.tagRec q g).request.flow = f → (s.tagRec q g).unit = none → (s.hold q).state = .empty → s.holdsExclusive →
        (s.flow f).admittedUnits = 0 → 1 ≤ s.pinnedOrHeld → s.pinnedOrHeld ≤ 48 →
        ∃ u, exec (.releaseReq p) s = .next u ∧ (u.hold p).state = .empty ∧
          u.hold q = { state := .held, flow := f, lease := (s.tagRec q g).request.argA.toNat } ∧
          (u.slot S).parkedList = [] ∧ u.unit p = (s.granted p rest t body .none).unit p ∧
          u = { s with slots := u.slots, holds := u.holds, units := u.units }))

/-- PIN's service at the flow's slot (R133), in the order of its table; a pinned slot is not evictable. -/
def Obligations.PinCountsAtTheSlot : Prop :=
  ∀ (s : State) (p : PortId) (t : TagId) (body : BitVec 64) (rest : List Message), s.quiet = true →
    s.takesRequest p t body rest .pin → s.config.adminRole[p] = true →
    let f := (Request.ofBody body).flow
    (s.flow f).state ≠ .closed → (s.flow f).halt ≠ some .ctxErr → ∀ S, s.servingSlot f = some S →
    let v := s.slot S
    let isHeld := ∃ q, (s.hold q).state ≠ .empty ∧ (s.hold q).flow = f
    (255 ≤ v.pins → exec (.pinReq p) s = .next ((s.used S).refused p rest t body .badArg)) ∧
    (v.pins = 0 → ¬ isHeld → 48 ≤ s.pinnedOrHeld →
      exec (.pinReq p) s = .next ((s.used S).refused p rest t body .pinFull)) ∧
    (v.pins = 0 → ¬ isHeld → s.pinnedOrHeld < 48 →
      exec (.pinReq p) s = .next (({ s with pinnedOrHeld := s.pinnedOrHeld + 1 }.setSlot S
        { v with ref := true, pins := 1 }).granted p rest t body (.pins 1))) ∧
    (v.pins = 0 → isHeld →
      exec (.pinReq p) s = .next ((s.setSlot S { v with ref := true, pins := 1 }).granted p rest t body (.pins 1))) ∧
    (1 ≤ v.pins → v.pins ≤ 254 →
      exec (.pinReq p) s = .next ((s.setSlot S { v with ref := true, pins := v.pins + 1 }).granted p rest t body
        (.pins (v.pins + 1)))) ∧
    (1 ≤ v.pins → s.evictable S = false)

/-- UNPIN's service at the flow's slot (R134). Where pins fall to 0 nothing waits, so the retry it brings finds nothing
to do. A retry of waits that are not empty (R62, R63): the head of the link wait, or of the miss wait where that is
empty, is considered; one whose flow is resident, CLOSED or halted with CTXERR is taken as one that newly arrives; for
any other a victim is searched, and taken for it, and where there is none the retry ends with the waits as they were. -/
def Obligations.UnpinCountsAtTheSlot : Prop :=
  (∀ (s : State) (n : Nat) (r : Req) (s' : State),
    (∀ rest, s.linkWait = r :: rest → s' = { s with linkWait := rest } → s.headOfWaits = some (r, s')) ∧
    (∀ rest, s.linkWait = [] → s.missWait = r :: rest → s' = { s with missWait := rest } →
      s.headOfWaits = some (r, s')) ∧
    (s.noWaits → s.retryWaits = { s with retryDue := false }) ∧
    (s.headOfWaits = some (r, s') →
      let e := s.flow (s.reqFlow r)
      (e.residency ≠ none ∨ (e.state = .closed ∧ s.isOpen r = false) ∨
          (e.state ≠ .closed ∧ e.halt = some .ctxErr) → State.retry (n + 1) s = State.retry n (s'.arrive r)) ∧
      (e.residency = none → e.state ≠ .closed → e.halt ≠ some .ctxErr →
        ((∀ T, (s.slot T).state ≠ .free ∧ s.evictable T = false) → State.retry (n + 1) s = s) ∧
        ∀ V t t', s.search = (some V, t) → t.headOfWaits = some (r, t') →
          State.retry (n + 1) s = State.retry n (t'.takeFor V r)))) ∧
  ∀ (s : State) (p : PortId) (t : TagId) (body : BitVec 64) (rest : List Message), s.quiet = true →
    s.takesRequest p t body rest .unpin → s.config.adminRole[p] = true →
    let f := (Request.ofBody body).flow
    (s.flow f).state ≠ .closed → (s.flow f).halt ≠ some .ctxErr → ∀ S, s.servingSlot f = some S →
    let v := s.slot S
    let isHeld := ∃ q, (s.hold q).state ≠ .empty ∧ (s.hold q).flow = f
    (v.pins = 0 → exec (.unpinReq p) s = .next ((s.used S).refused p rest t body .badArg)) ∧
    (v.pins = 1 → ¬ isHeld → s.noWaits →
      exec (.unpinReq p) s = .next (({ s with pinnedOrHeld := s.pinnedOrHeld - 1 }.setSlot S
        { v with ref := true, pins := 0 }).granted p rest t body (.pins 0))) ∧
    (v.pins = 1 → isHeld → s.noWaits →
      exec (.unpinReq p) s = .next ((s.setSlot S { v with ref := true, pins := 0 }).granted p rest t body (.pins 0))) ∧
    (2 ≤ v.pins →
      exec (.unpinReq p) s = .next ((s.setSlot S { v with ref := true, pins := v.pins - 1 }).granted p rest t body
        (.pins (v.pins - 1))))

/-! ## Beats, CUT and the timers -/

/-- DATA (R74 to R77): a beat that fits is taken into the assembly, which allocates a segment where the beat begins one
(R29), or is discarded; the gap timer restarts, and stops with the last byte of an assembly, while the last declared
byte ends a discard. Its bytes go to their places in the port's gather word, and each word that they fill, or that the
unit ends in, joins the port's access queue with the writes that end in it, which are outstanding until they are
reported (R74, R154; said where an access is in progress, so that none is granted). A beat on an IDLE record is stray.
A beat past the declared length takes the port to FAULT. A beat waits while its assembly has fewer than 3 free places
in its port access queue (R156). The fields of an IDLE record that have no meaning are the model's values (log entry 11). -/
def Obligations.DataBeatIsTaken : Prop :=
  ∀ (s : State) (p : PortId) (bytes : List Byte) (rest : List Message), s.quiet = true →
    s.takesIn p (.data bytes) rest → 1 ≤ bytes.length → bytes.length ≤ 16 →
    let a := s.asm p
    let n := bytes.length
    let taken := s.setUnit p ((s.unit p).afterTakeIn rest)
    (a.state = .idle →
      exec (.data p) s = .next (taken.setMgmt { s.mgmt with strayBeats := min (s.mgmt.strayBeats + 1) 4294967295 })) ∧
    (a.state = .discarding → a.taken + n < a.declared →
      exec (.data p) s = .next (taken.setAsm p { a with taken := a.taken + n, gapTimer := some 0 })) ∧
    (a.state = .discarding → a.taken + n = a.declared →
      exec (.data p) s = .next (taken.setAsm p Assembly.initial)) ∧
    (a.state = .assembling → writesIn s.mem.portQueue[p] + 3 ≤ 16 → a.taken + n ≤ a.declared →
      ∃ u, exec (.data p) s = .next u ∧ u.units = taken.units ∧
        (u.asm p).state = .assembling ∧ (u.asm p).taken = a.taken + n ∧
        (u.asm p).gapTimer = (if a.taken + n = a.declared then none else some 0) ∧
        (let new := (a.taken + n + 127) / 128 - (a.taken + 127) / 128
        (u.asm p).allocated = a.allocated + new ∧ u.pool.free = s.pool.free - new ∧
          u.pool.reserved = s.pool.reserved - new ∧ (new = 0 → u.pool = s.pool)) ∧
        (∀ q, q ≠ p → u.asm q = s.asm q) ∧
        u = { s with asms := u.asms, units := u.units, pool := u.pool, mem := u.mem, handed := u.handed } ∧
        (a.allocated = neededFor a.taken → s.gatherWhole p → s.mem.inProgress ≠ none →
          let next := s.pool.freeHead
          let held := (s.gathered p).1 ++ bytes
          let words := if a.taken + n = a.declared then (held.length + 7) / 8 else held.length / 8
          let last := s.beatWord p bytes words
          (neededFor a.taken < neededFor (a.taken + n) →
            let P := s.pool.allocate a.declared (a.allocated + 1)
            u.pool = if a.allocated = 0 then P else P.setNext a.chainLast next) ∧
          (u.asm p).chainFirst = (if a.allocated = 0 then next else a.chainFirst) ∧
          (u.asm p).chainLast = a.segAt next (a.taken + n - 1) ∧
          (u.asm p).writesOutstanding = a.writesOutstanding + writesEnding (a.taken + n) a.taken (a.taken + n) ∧
          u.mem.portQueue[p] = s.mem.portQueue[p] ++
            (List.range words).map (fun j => PortAccess.write (s.beatWord p bytes j)) ∧
          u.mem.gather[p] = (if held.length ≤ 8 * words then none
            else some { seg := last.seg, word := last.word, bytes := held.drop (8 * words), ends := last.ends }) ∧
          (∀ q : PortId, q ≠ p → u.mem.portQueue[q] = s.mem.portQueue[q] ∧ u.mem.gather[q] = s.mem.gather[q]) ∧
          u.mem = { s.mem with portQueue := u.mem.portQueue, gather := u.mem.gather } ∧
          u.handed = s.handed + words)) ∧
    (a.state = .assembling ∧ writesIn s.mem.portQueue[p] + 3 ≤ 16 ∨ a.state = .discarding → a.declared < a.taken + n →
      ∃ u, exec (.data p) s = .next u ∧ u.faulted p .overLengthBeat) ∧
    (a.state = .assembling → 16 < writesIn s.mem.portQueue[p] + 3 → exec (.data p) s = .next s)

/-- The allocation of a unit's k-th segment takes the head of the free list, and the release of a chain puts it at the
tail, in its own order (R26, R28 to R31). Each movement of segments keeps the sum of R32: an allocation, an assembly's
completion whose link joins the link wait, a link at the flow's slot with nothing parked there, a refused link, an abort,
a DROP, a TAKE's commit within the flow's segments, and a context error. -/
def Obligations.PoolListKeepsItsOrder : Prop :=
  (∀ (P : Pool) (S : Nat) (segs : List Nat) (length k : Nat), P.freeIs (S :: segs) → 1 ≤ k → k ≤ (length + 127) / 128 →
    let Q := P.allocate length k
    Q.freeIs segs ∧ Q.reserved = P.reserved - 1 ∧ Q.stranded = P.stranded ∧
      Q.link S = { next := 0, last := decide (k = (length + 127) / 128), fill := min 128 (length - 128 * (k - 1)) } ∧
      ∀ n, n ≠ S → Q.link n = P.link n) ∧
  (∀ (P : Pool) (segs chain : List Nat) (first last next : Nat), P.freeIs segs → P.chained next chain →
    chain.head? = some first → chain.getLast? = some last → (segs ++ chain).Nodup →
    let Q := P.release first last chain.length
    Q.freeIs (segs ++ chain) ∧ Q.reserved = P.reserved ∧ Q.stranded = P.stranded ∧
      ∀ n, (Q.link n).last = (P.link n).last ∧ (Q.link n).fill = (P.link n).fill) ∧
  ∀ (s : State) (S : SlotId) (p : PortId) (t : TagId) (f : FlowId),
    let a := s.asm p
    (a.state = .assembling →
      (0 < s.pool.free → (s.allocateFor p).segments = s.segments) ∧
      (∀ st, (s.abortRecord p st).segments = s.segments) ∧
      (a.allocated = a.needed → a.tag = some t → (s.tagRec p t).unit = none →
        (s.flow (s.tagRec p t).request.flow).residency = none → s.linkWait ≠ [] →
        (s.completeAssembly p).segments = s.segments)) ∧
    (s.servingSlot (s.tagRec p t).request.flow = some S → (s.slot S).parkedList = [] →
      (s.serveLink S p t).segments = s.segments) ∧
    (∀ st, (s.refuseLink p t st).segments = s.segments) ∧
    (s.serveDropHere S p t f).segments = s.segments ∧
    (∀ d c, (s.pool.commitWalk 128 d.startSeg d.startOff c).1.length ≤ (s.flow f).segCount →
      (s.commit f S d c).segments = s.segments) ∧
    (s.loseContext f).segments = s.segments

/-- CUT (R98 to R100): stray for a tag that is free, or whose request is no TAKE or PEEK, or whose END has been placed;
a TAKE or PEEK that waits in the consumer queue leaves it with an END CUT and 0 bytes, and so does one that waits in a
list of a slot or in the miss wait (nothing else waits); a streaming PEEK, or a TAKE that keeps nothing, ends with its
END behind the beats, and nothing committed; a streaming TAKE that keeps bytes commits the fewer of those it keeps and
those sent (R95, R96), READY not armed, and removes no unit of a DRAINING flow. Where the port's hold on the flow is
LAPSING, it ends with the delivery, and HOLD_LAPSED is raised behind the END (R129, R130), said where nothing is parked
at the slot. -/
def Obligations.CutEndsItsRequest : Prop :=
  ∀ (s : State) (p : PortId) (t : TagId) (kept : BitVec 16) (rest : List Message), s.quiet = true →
    s.takesIn p (.cut t kept) rest →
    let r := s.tagRec p t
    let taken := s.setUnit p ((s.unit p).afterTakeIn rest)
    (r.status ≠ .inUse ∨ (r.request.kind ≠ .take ∧ r.request.kind ≠ .peek) ∨ r.phase = .responding →
      exec (.cut p) s = .next (taken.setMgmt { s.mgmt with
        strayControls := min (s.mgmt.strayControls + 1) 4294967295 })) ∧
    (r.status = .inUse → r.request.kind = .take ∨ r.request.kind = .peek →
      (r.phase = .queuedAtPort → (s.unit p).current ≠ some t → .request p t ∉ s.missWait →
        (∀ S, .request p t ∉ (s.slot S).pendingList ∧ .request p t ∉ (s.slot S).returnList ∧
          .request p t ∉ (s.slot S).parkedList) →
        exec (.cut p) s = .next (s.setUnit p
          (({ (s.unit p).afterTakeIn rest with
            consumerQueue := (s.unit p).consumerQueue.filter (fun g => decide (g ≠ t)) }.setTag t
              { r with phase := .responding }).place (.endMsg t .cut 0 .final)))) ∧
      (r.phase = .streaming → (s.unit p).current = some t → (s.unit p).consumerQueue = [] → s.noWaits →
        (s.del p).state = .streaming → (s.del p).tag = t →
        ∀ S, s.servingSlot (s.del p).flow = some S → (s.lapses p = true → (s.slot S).parkedList = []) →
        ((s.del p).kind = .peek ∨ ((s.del p).kind = .take ∧ kept = 0 ∧ (s.unit p).readyArmed = false ∧
            (s.flow (s.del p).flow).consumer = p)) →
        ∃ u, exec (.cut p) s = .next u ∧ (u.del p).state = .idle ∧
          u.slots = (s.setSlot S { s.slot S with ref := true, delivering := false }).slots ∧
          u.unit p = s.lapseRaised p
            (({ (s.unit p).afterTakeIn rest with current := none }.setTag t { r with phase := .responding }).place
              (.endMsg t .cut (if (s.del p).kind = DelKind.peek then (s.del p).sent else 0) .final)) ∧
          s.lapsesTo u p S ∧
          (∀ q, q ≠ p → u.unit q = s.unit q ∧ u.del q = s.del q) ∧
          ((s.del p).kind = .peek → u.flows = s.flows ∧ u.lists = s.lists) ∧
          ((s.del p).kind = .take → (u.flow (s.del p).flow).dispatched = false) ∧
          u = { s with
            slots := u.slots, flows := u.flows, lists := u.lists, dels := u.dels, units := u.units, mem := u.mem
            holds := u.holds, pinnedOrHeld := u.pinnedOrHeld }) ∧
      (r.phase = .streaming → (s.unit p).current = some t → (s.unit p).consumerQueue = [] → s.noWaits →
        (s.del p).state = .streaming → (s.del p).tag = t → (s.del p).kind = .take →
        (s.unit p).readyArmed = false → (s.flow (s.del p).flow).consumer = p →
        let c := min (keptCount kept) (s.del p).sent
        (s.flow (s.del p).flow).state ≠ .draining ∨
          (s.pool.commitWalk 128 (s.del p).startSeg (s.del p).startOff c).2 ≠ none →
        1 ≤ c → ∀ S, s.servingSlot (s.del p).flow = some S → (s.lapses p = true → (s.slot S).parkedList = []) →
        ∃ u, exec (.cut p) s = .next u ∧ (u.del p).state = .idle ∧ s.commits u S (s.del p) c ∧
          u.unit p = s.lapseRaised p
            (({ (s.unit p).afterTakeIn rest with current := none }.setTag t { r with phase := .responding }).place
              (.endMsg t .cut c .final)) ∧
          s.lapsesTo u p S ∧ (∀ q, q ≠ p → u.unit q = s.unit q ∧ u.del q = s.del q) ∧
          u = { s with
            slots := u.slots, flows := u.flows, lists := u.lists, dels := u.dels, units := u.units, pool := u.pool
            mem := u.mem, holds := u.holds, pinnedOrHeld := u.pinnedOrHeld }) ∧
      (r.phase = .waitingResidency ∨ r.phase = .missWait ∨ r.phase = .parked → (s.unit p).current = some t →
        (s.unit p).consumerQueue = [] → s.linkWait = [] → (∀ w ∈ s.missWait, w = .request p t) →
        ∃ u, exec (.cut p) s = .next u ∧ u.missWait = [] ∧
          (∀ S, u.slot S = { s.slot S with
            pendingList := (s.slot S).pendingList.filter (fun w => decide (w ≠ .request p t))
            returnList := (s.slot S).returnList.filter (fun w => decide (w ≠ .request p t))
            parkedList := (s.slot S).parkedList.filter (fun w => decide (w ≠ .request p t)) }) ∧
          u.unit p = (({ (s.unit p).afterTakeIn rest with current := none }.setTag t { r with phase := .responding }).place
            (.endMsg t .cut 0 .final)) ∧
          (∀ q, q ≠ p → u.unit q = s.unit q) ∧
          u = { s with slots := u.slots, units := u.units, missWait := [] }))

/-- GAP_TIMEOUT (R38, R77, R82) of a gap timer that has reached the limit: a discard ends; an assembly is aborted with
TIMEOUT, what it allocated is released, what it had not is unreserved, and its flow's admitted counts fall; where that
leaves a DRAINING flow with no segment and no admitted unit, the flow enters CLOSED and DRAINED is raised to its
consumer (R16, R17), behind the answer where that is for the same port (the model's choice, log entry 34): its RESIDENT
slot goes FREE, and the count falls if the slot was pinned or held (the model's reading, log entry 15); a flow that is not RESIDENT is closed at the flow map alone, and a slot that fills or
spills for it goes on (R18). Below the limit, and with a stopped timer or a limit of 0, there is no timeout, so the command
changes nothing (the model's choice, log entries 2 and 5). The fields of an IDLE record that have no meaning are the
model's values (log entry 11). Nothing is parked at the flow's slot, and nothing waits. -/
def Obligations.GapTimeoutEndsTheWork : Prop :=
  ∀ (s : State) (p : PortId), s.quiet = true →
    let a := s.asm p
    let e := s.flow a.flow
    let ends := e.state = .draining ∧ e.segCount = 0 ∧ e.admittedUnits - 1 = 0
    (¬ s.gapExpired p → exec (.gapTimeout p) s = .next s) ∧
    (s.gapExpired p → a.state = .discarding →
      exec (.gapTimeout p) s = .next (s.setAsm p Assembly.initial)) ∧
    (s.gapExpired p → a.state = .assembling → ∀ t, a.tag = some t →
      (s.unit p).current ≠ some t →
      (∀ S, s.servingSlot a.flow = some S → (s.slot S).parkedList = []) →
      let answered := ((s.unit p).setTag t { s.tagRec p t with phase := .responding }).place
        (.response t .timeout .none .final)
      (¬ ends →
        ∃ u, exec (.gapTimeout p) s = .next u ∧ u.asm p = Assembly.initial ∧ u.unit p = answered ∧
          u.flow a.flow = { e with
            admittedSegs := e.admittedSegs - a.needed, admittedUnits := e.admittedUnits - 1 } ∧
          u.pool = s.poolAborting a ∧
          (∀ q, q ≠ p → u.unit q = s.unit q ∧ u.asm q = s.asm q) ∧ (∀ g, g ≠ a.flow → u.flow g = s.flow g) ∧
          u = { s with
            flows := u.flows, asms := u.asms, units := u.units, pool := u.pool, mem := u.mem, handed := u.handed }) ∧
      (ends → s.noWaits → s.holdsExclusive → ∀ S, s.servingSlot a.flow = some S →
        ∃ u, exec (.gapTimeout p) s = .next u ∧ u.asm p = Assembly.initial ∧
          (u.unit e.consumer = (if e.consumer = p then answered else s.unit e.consumer).raise (.drained a.flow)) ∧
          (p ≠ e.consumer → u.unit p = answered) ∧
          (∀ q, q ≠ p → u.asm q = s.asm q ∧ (q ≠ e.consumer → u.unit q = s.unit q)) ∧
          ((u.flow a.flow).state = .closed ∧ (u.flow a.flow).admittedUnits = 0 ∧ (u.flow a.flow).halt = none ∧
            (u.flow a.flow).ready = false ∧ (u.flow a.flow).listed = false ∧ (u.flow a.flow).dispatched = false ∧
            (u.flow a.flow).residency = none) ∧
          ((u.slot S).state = .free ∧ (u.slot S).flow = none ∧ ∀ T, T ≠ S → u.slot T = s.slot T) ∧
          (∀ q, (u.hold q).state ≠ .empty → (u.hold q).flow ≠ a.flow) ∧
          u.pinnedOrHeld = s.pinnedOrHeld - (if s.counted S then 1 else 0) ∧ u.pool = s.poolAborting a ∧
          u = { s with
            flows := u.flows, lists := u.lists, slots := u.slots, holds := u.holds, asms := u.asms, units := u.units
            pool := u.pool, mem := u.mem, handed := u.handed, pinnedOrHeld := u.pinnedOrHeld }) ∧
      (ends → s.servingSlot a.flow = none → s.holder a.flow = none →
        ∃ u, exec (.gapTimeout p) s = .next u ∧ u.asm p = Assembly.initial ∧
          (u.unit e.consumer = (if e.consumer = p then answered else s.unit e.consumer).raise (.drained a.flow)) ∧
          (p ≠ e.consumer → u.unit p = answered) ∧
          (∀ q, q ≠ p → u.asm q = s.asm q ∧ (q ≠ e.consumer → u.unit q = s.unit q)) ∧
          ((u.flow a.flow).state = .closed ∧ (u.flow a.flow).admittedUnits = 0 ∧ (u.flow a.flow).halt = none ∧
            (u.flow a.flow).ready = false ∧ (u.flow a.flow).listed = false ∧ (u.flow a.flow).dispatched = false ∧
            (u.flow a.flow).residency = e.residency) ∧
          u.pool = s.poolAborting a ∧
          u = { s with
            flows := u.flows, lists := u.lists, asms := u.asms, units := u.units, pool := u.pool, mem := u.mem
            handed := u.handed }))

/-- LEASE_EXPIRY (R129, R130) of a lease that has run out: behind a delivery of the holder from the flow the hold is
LAPSING; otherwise it ends, with HOLD_LAPSED raised to the holder. Nothing is parked and nothing waits. While the lease
runs there is no expiry, so that a renewal puts it off (R131), and a record that is not HELD has no lease: the command
then changes nothing (the model's choice, log entries 2 and 5). The fields that an EMPTY record keeps are the model's
values (log entry 11). How a LAPSING hold ends with the delivery, CutEndsItsRequest, BeatReadPlacesTheBeat and
TakeCommitsItsBytes say. -/
def Obligations.LeaseExpiryEndsTheHold : Prop :=
  ∀ (s : State) (p : PortId), s.quiet = true →
    let h := s.hold p
    (h.state ≠ .held ∨ 0 < h.lease → exec (.leaseExpiry p) s = .next s) ∧
    (h.state = .held → h.lease = 0 → (s.del p).state = .streaming ∧ (s.del p).flow = h.flow →
      exec (.leaseExpiry p) s = .next (s.setHold p { state := .lapsing, flow := h.flow, lease := 0 })) ∧
    (h.state = .held → h.lease = 0 → ¬((s.del p).state = .streaming ∧ (s.del p).flow = h.flow) → s.noWaits →
      ∀ S, s.servingSlot h.flow = some S → (s.slot S).parkedList = [] →
      exec (.leaseExpiry p) s = .next (({ s with
        pinnedOrHeld := s.pinnedOrHeld - (if (s.slot S).pins = 0 then 1 else 0) }.setHold p Hold.initial).setUnit p
          ((s.unit p).raise (.holdLapsed h.flow))))

/-! ## External memory and the cache -/

/-- FILL_COMPLETION (R21, R40, R49, R54, R55, R160), with no other request waiting: a sound record makes the slot RESIDENT
and clean with the record's fields, and the requests of the pending list are then served in list order, so that QUERY
requests are each answered with the flow as it stands; a context error strands the flow's segments, halts it with
CTXERR, frees the slot, answers the requests of the pending list CTXERR in list order, and raises HALTED to the flow's
consumer behind the answers; a record of a flow CLOSED meanwhile is discarded, its slot takes the values of a free one
(the model's choice, log entry 13), and the requests of the list, no OPEN among them, are answered CLOSED. The port of a
PUT answered so discards its beats (the record's flow and needed: the model's values, log entry 35). Of the refused lists: no link is in them, and no consumer request waits behind. -/
def Obligations.FillCompletionFillsTheSlot : Prop :=
  (∀ (s : State) (S : SlotId) (f : FlowId) (r : Req) (rs : List Req), State.serveAt S f [] s = s ∧
    ((s.slot S).state = .resident → (s.slot S).flow = some f →
      State.serveAt S f (r :: rs) s = State.serveAt S f rs (s.serveAny S r)) ∧
    (¬((s.slot S).state = .resident ∧ (s.slot S).flow = some f) →
      State.serveAt S f (r :: rs) s = State.serveAt S f rs (s.arrive r))) ∧
  ∀ (s : State) (S : SlotId) (f : FlowId) (e0 e1 e2 e3 : ErrorPattern), s.lastAccess → s.noWaits →
    s.mem.inProgress = some (.fill S f) →
    let L := (s.slot S).pendingList
    let rs := s.readRecord f #v[e0, e1, e2, e3]
    let c := Context.ofRecord (recordOfReports rs)
    let corrected := min (s.mem.corrected + rs.toList.countP (fun r => decide (r.outcome = .corrected))) 4294967295
    let mem := { s.mem with inProgress := none, corrected := corrected }
    let sound := (∀ r ∈ rs.toList, r.outcome ≠ .uncorrectable) ∧ recordSound (recordOfReports rs) = true
    ((s.flow f).state ≠ .closed → sound →
      exec (.fillCompletion e0 e1 e2 e3) s = .next (State.serveAt S f L ({ s with
        mem := mem, retryDue := true }.setSlot S { s.slot S with
          state := .resident, dirty := false, pendingList := [], context := c })).finish) ∧
    ((s.flow f).state ≠ .closed → sound → (s.slot S).flow = some f → s.queries f L →
      exec (.fillCompletion e0 e1 e2 e3) s = .next ({ s with
        mem := mem, units := s.unitsAnswering L (s.queried f c (s.slot S).pins) }.setSlot S { s.slot S with
          state := .resident, dirty := false, pendingList := [], context := c
          ref := (s.slot S).ref || !L.isEmpty })) ∧
    ((s.flow f).state = .opened → ¬ sound → s.plainRequests f L → (∀ q, (s.unit q).consumerQueue = []) →
      ∃ u, exec (.fillCompletion e0 e1 e2 e3) s = .next u ∧
        ((u.flow f).halt = some .ctxErr ∧ (u.flow f).segCount = 0 ∧ (u.flow f).residency = none ∧
          (u.flow f).ready = false ∧ (u.flow f).listed = false ∧ (u.flow f).state = .opened) ∧
        u.pool = { s.pool with stranded := s.pool.stranded + (s.flow f).segCount } ∧
        (u.slot S).state = .free ∧ (u.slot S).flow = none ∧
        u.mem = { mem with contextErrors := min (s.mem.contextErrors + 1) 4294967295 } ∧
        u.units = ({ s with units := s.unitsRefusing L .ctxErr }.raise (s.flow f).consumer (.halted f .ctxErr)).units ∧
        s.discardsFor u L ∧
        u = { s with
          flows := u.flows, lists := u.lists, slots := u.slots, asms := u.asms, units := u.units, pool := u.pool
          mem := u.mem }) ∧
    ((s.flow f).state = .closed → s.plainRequests f L → (∀ r ∈ L, s.isOpen r = false) →
      (∀ q, (s.unit q).consumerQueue = []) →
      ∃ u, exec (.fillCompletion e0 e1 e2 e3) s = .next u ∧ s.discardsFor u L ∧
        u = ({ s with mem := mem, asms := u.asms, units := s.unitsRefusing L .closed }.setSlot S Slot.initial).setFlow f
          { s.flow f with residency := none })

/-- SPILL_COMPLETION (R49, R52, R56, R58, R59, R179): the record stands in the SRAM, clean, and no other word has changed.
With no request for the outgoing flow the slot is FILLING for the incoming one, with its requests. With requests for
the outgoing flow alone, it keeps the slot, clean, and they are served in list order, so that QUERY requests are each
answered with the flow as it stands. With requests for both and no slot FREE or evictable, the incoming flow is given
the slot, and a request for the outgoing one joins the miss wait. Nothing else waits. -/
def Obligations.SpillCompletionPassesTheSlot : Prop :=
  ∀ (s : State) (S : SlotId) (x y : FlowId), s.lastAccess → s.noWaits →
    s.mem.inProgress = some (.spill S x) →
    (s.slot S).state = .spilling → (s.slot S).flow = some x → (s.slot S).incoming = some y → x ≠ y →
    let v := s.slot S
    let L := v.returnList
    let stored := s.storeRecord S x
    (∀ i, i < 4 → stored.readSram (s.recordWordAddr x i) ⟨0, 0⟩ =
      { outcome := .clean, data := recordWord v.context.record i }) ∧
    (∀ a e, (∀ i, i < 4 → a ≠ s.recordWordAddr x i) → stored.readSram a e = s.readSram a e) ∧
    (L = [] → v.pendingList ≠ [] → (s.flow y).state ≠ .closed →
      ∃ u, exec .spillCompletion s = .next u ∧
        ((u.slot S).state = .filling ∧ (u.slot S).flow = some y ∧ (u.slot S).incoming = none ∧
          (u.slot S).pendingList = v.pendingList ∧ ∀ T, T ≠ S → u.slot T = s.slot T) ∧
        u.flow x = { s.flow x with residency := none } ∧ u.flow y = { s.flow y with residency := some S } ∧
        (∀ g, g ≠ x → g ≠ y → u.flow g = s.flow g) ∧
        u = { stored with
          flows := u.flows, slots := u.slots, mem := { s.mem with inProgress := some (.fill S y) }
          units := (s.enterPhases .waitingResidency v.pendingList).units }) ∧
    (L ≠ [] → v.pendingList = [] → (s.flow x).state ≠ .closed →
      let kept := ({ stored with mem := { s.mem with inProgress := none } }.setFlow y
        { s.flow y with residency := none }).setSlot S
          { v with state := .resident, incoming := none, dirty := false, returnList := [] }
      exec .spillCompletion s = .next (State.serveAt S x L kept.dueRetry).finish ∧
      (s.queries x L → exec .spillCompletion s = .next ({ kept with
        units := s.unitsAnswering L (s.queried x v.context v.pins) }.setSlot S { kept.slot S with ref := true }))) ∧
    (∀ q g, L = [.request q g] → v.pendingList ≠ [] → (s.flow x).state ≠ .closed → (s.flow x).halt ≠ some .ctxErr →
      (s.flow y).state ≠ .closed → s.plainRequests x L → .request q g ∉ v.pendingList →
      (∀ T, (s.slot T).state ≠ .free ∧ s.evictable T = false) →
      ∃ u, exec .spillCompletion s = .next u ∧ u.missWait = [.request q g] ∧ (u.tagRec q g).phase = .missWait ∧
        ((u.slot S).state = .filling ∧ (u.slot S).flow = some y ∧ (u.slot S).pendingList = v.pendingList ∧
          (u.slot S).returnList = [] ∧ ∀ T, T ≠ S → u.slot T = s.slot T) ∧
        u.flow x = { s.flow x with residency := none } ∧ u.flow y = { s.flow y with residency := some S } ∧
        (∀ k, k ≠ x → k ≠ y → u.flow k = s.flow k) ∧
        u = { stored with
          flows := u.flows, slots := u.slots, units := u.units, missWait := u.missWait
          mem := { s.mem with inProgress := some (.fill S y) } })

/-- WORD_WRITE_COMPLETION (R37, R78, R80, R154): the word stands in the SRAM, whole, and no other byte has changed. The
writes it ends lower the outstanding writes of a live assembly; the last of a whole unit completes it, and its link at
the flow's RESIDENT slot adds the unit to the flow and answers OK. READY is not armed, nothing is parked, and no other
access waits. The link of a flow that is not resident joins the tail of the link wait where that is not empty, or where
no slot is FREE or evictable (R61). The fields of an IDLE record that have no meaning are the model's values (log entry
11). -/
def Obligations.WordWriteCompletesAndLinks : Prop :=
  ∀ (s : State) (p : PortId) (w : WordWrite), s.lastAccess →
    s.mem.inProgress = some (.wordWrite p w) →
    let a := s.asm p
    let written := ({ s with mem := { s.mem with inProgress := none } } : State).writeSram (s.segWordAddr w.seg w.word)
      w.data
    (Memory.readWord written.sram (s.segWordAddr w.seg w.word) = some w.data ∧
      ∀ b, b / 8 ≠ s.segWordAddr w.seg w.word → Memory.read written.sram b = Memory.read s.sram b) ∧
    (w.live = false → exec .wordWriteCompletion s = .next written) ∧
    (w.live = true → ¬(a.state = .assembling ∧ a.taken = a.declared ∧ a.writesOutstanding - w.ends = 0) →
      exec .wordWriteCompletion s = .next (written.setAsm p { a with writesOutstanding := a.writesOutstanding - w.ends })) ∧
    (w.live = true → a.state = .assembling → a.taken = a.declared → a.writesOutstanding - w.ends = 0 →
      ∀ t, a.tag = some t → (s.unit p).current ≠ some t → (s.tagRec p t).status = .inUse →
      (s.tagRec p t).request.flow = a.flow → (s.tagRec p t).request.kind = .put →
      (s.flow a.flow).state ≠ .closed → (s.flow a.flow).halt ≠ some .ctxErr →
      (s.unit (s.flow a.flow).consumer).readyArmed = false →
      ∀ S, s.servingSlot a.flow = some S → (s.slot S).parkedList = [] →
      let c := (s.slot S).context
      ∃ u, exec .wordWriteCompletion s = .next u ∧ u.asm p = Assembly.initial ∧
        ((u.slot S).context.unitCount = c.unitCount + 1 ∧ (u.slot S).context.unitsIn = c.unitsIn + 1 ∧
          (u.slot S).context.tailSeg = BitVec.ofNat 16 a.chainLast ∧
          (u.slot S).context.headSeg = (if c.headSeg = 0 then BitVec.ofNat 16 a.chainFirst else c.headSeg) ∧
          (u.slot S).context.cursorOff = c.cursorOff ∧ (u.slot S).context.cursorDone = c.cursorDone ∧
          (u.slot S).context.drops = c.drops ∧ (u.slot S).context.unitsOut = c.unitsOut ∧
          (u.slot S).dirty = true ∧ (u.slot S).ref = true) ∧
        ((u.flow a.flow).segCount = (s.flow a.flow).segCount + a.needed ∧
          (u.flow a.flow).admittedSegs = (s.flow a.flow).admittedSegs - a.needed ∧
          (u.flow a.flow).admittedUnits = (s.flow a.flow).admittedUnits - 1) ∧
        u.pool = (if c.tailSeg = 0 then s.pool else s.pool.setNext c.tailSeg.toNat a.chainFirst) ∧
        u.unit p = ((s.unit p).setTag t { s.tagRec p t with phase := .responding, unit := none }).place
          (.response t .ok .none .final) ∧
        u = { written with
          flows := u.flows, lists := u.lists, slots := u.slots, asms := u.asms, units := u.units, pool := u.pool }) ∧
    (w.live = true → a.state = .assembling → a.taken = a.declared → a.writesOutstanding - w.ends = 0 →
      ∀ t, a.tag = some t → (s.tagRec p t).request.flow = a.flow → (s.flow a.flow).state ≠ .closed →
      (s.flow a.flow).halt ≠ some .ctxErr → (s.flow a.flow).residency = none →
      s.linkWait ≠ [] ∨ (∀ T, (s.slot T).state ≠ .free ∧ s.evictable T = false) →
      exec .wordWriteCompletion s = .next ({ written.setAsm p Assembly.initial with
        linkWait := s.linkWait ++ [Req.request p t] }.setTagRec p t { s.tagRec p t with
          phase := .linkWait, unit := some { first := a.chainFirst, last := a.chainLast, needed := a.needed } }))

/-- BEAT_READ_COMPLETION (R92, R94, R97, R100, R102, R155, R162): an abandoned read only counts, and a delivery that waited
for it to end has its next beat read, where no other access waits; a clean read places its beat, and the next beat is
read, or waits for room in the outbound queue; the last beat of a PEEK ends the delivery with END or PART; a read with an
uncorrectable word ends the delivery with DATAERR, commits nothing and halts the flow. Where the port's hold on the flow
is LAPSING, it ends with the delivery, and HOLD_LAPSED is raised behind the END and the HALTED (R129, R130), said where
nothing is parked at the slot. Nothing else waits. -/
def Obligations.BeatReadPlacesTheBeat : Prop :=
  (∀ (s : State) (p : PortId) (r : BeatRead) (e0 e1 e2 : ErrorPattern), s.quiet = true → s.mem.noneWaits →
    s.mem.inProgress = some (.beatRead p r) → r.live = false →
    let ws := s.readBeat r [e0, e1, e2]
    let counted := { s.mem with
      inProgress := none
      corrected := min (s.mem.corrected + ws.countP (fun w => decide (w.2.outcome = .corrected))) 4294967295
      uncorrectableData := min (s.mem.uncorrectableData +
        ws.countP (fun w => decide (w.2.outcome = .uncorrectable))) 4294967295 }
    ∃ u, exec (.beatReadCompletion e0 e1 e2) s = .next u ∧ u.readFollows p (s.del p) counted (s.unit p).outbound ∧
      (∀ q, q ≠ p → u.del q = s.del q) ∧ u = { s with dels := u.dels, mem := u.mem }) ∧
  ∀ (s : State) (p : PortId) (r : BeatRead) (e0 e1 e2 : ErrorPattern), s.lastAccess → s.noWaits →
    s.mem.inProgress = some (.beatRead p r) →
    let ws := s.readBeat r [e0, e1, e2]
    let bad := ws.countP (fun w => decide (w.2.outcome = .uncorrectable))
    let counted := { s.mem with
      inProgress := none
      corrected := min (s.mem.corrected + ws.countP (fun w => decide (w.2.outcome = .corrected))) 4294967295
      uncorrectableData := min (s.mem.uncorrectableData + bad) 4294967295 }
    let d := s.del p
    (r.live = false → exec (.beatReadCompletion e0 e1 e2) s = .next (s.setMem counted)) ∧
    (r.live = true → d.state = .streaming → d.readInFlight = true → (s.unit p).current = some d.tag →
      (s.unit p).consumerQueue = [] → (s.tagRec p d.tag).request.kind = .take ∨ (s.tagRec p d.tag).request.kind = .peek →
      ∀ S, s.servingSlot d.flow = some S →
      (bad = 0 → d.sent + r.bytes.length < d.planned →
        ∃ u, exec (.beatReadCompletion e0 e1 e2) s = .next u ∧
          u.unit p = (s.unit p).place (.data (beatBytes r ws)) ∧
          u.readFollows p { d with sent := d.sent + r.bytes.length, readInFlight := false } counted
            (u.unit p).outbound ∧
          (∀ q, q ≠ p → u.unit q = s.unit q ∧ u.del q = s.del q) ∧
          u = { s with dels := u.dels, units := u.units, mem := u.mem }) ∧
      (bad = 0 → d.kind = .peek → d.sent + r.bytes.length = d.planned →
        (s.lapses p = true → (s.slot S).parkedList = []) →
        ∃ u, exec (.beatReadCompletion e0 e1 e2) s = .next u ∧ (u.del p).state = .idle ∧
          u.unit p = { s.lapseRaised p ((((s.unit p).place (.data (beatBytes r ws))).setTag d.tag
            { s.tagRec p d.tag with phase := .responding }).place (.endMsg d.tag
              (if s.pool.fills (s.pool.unitFrom 128 d.startSeg) - d.startOff ≤ d.planned then .ended else .part)
              d.planned .final)) with current := none } ∧
          s.lapsesTo u p S ∧
          u.slots = (s.setSlot S { s.slot S with ref := true, delivering := false }).slots ∧
          (∀ q, q ≠ p → u.unit q = s.unit q ∧ u.del q = s.del q) ∧
          u = { s with
            slots := u.slots, dels := u.dels, units := u.units, holds := u.holds, pinnedOrHeld := u.pinnedOrHeld
            mem := counted }) ∧
      (0 < bad → (s.flow d.flow).consumer = p → (s.lapses p = true → (s.slot S).parkedList = []) →
        ∃ u, exec (.beatReadCompletion e0 e1 e2) s = .next u ∧ (u.del p).state = .idle ∧
          u.unit p = { s.lapseRaised p ((((s.unit p).setTag d.tag { s.tagRec p d.tag with phase := .responding }).place
            (.endMsg d.tag .dataErr d.sent .final)).raise (.halted d.flow .dataErr)) with current := none } ∧
          s.lapsesTo u p S ∧
          u.slots = (s.setSlot S { s.slot S with ref := true, delivering := false }).slots ∧
          ((u.flow d.flow).halt = some .dataErr ∧ (u.flow d.flow).ready = false ∧ (u.flow d.flow).listed = false ∧
            (u.flow d.flow).dispatched = (s.flow d.flow).dispatched ∧
            (u.flow d.flow).segCount = (s.flow d.flow).segCount) ∧
          (∀ q, q ≠ p → u.unit q = s.unit q ∧ u.del q = s.del q) ∧
          u = { s with
            slots := u.slots, dels := u.dels, units := u.units, flows := u.flows, lists := u.lists, holds := u.holds
            pinnedOrHeld := u.pinnedOrHeld, mem := counted }))

/-- The commit of a TAKE (R94 to R96). Of `c` bytes from an offset of the unit's chain `before ++ seg :: after`: with
`c` reaching `into` bytes into `seg`, the segments before are released and the cursor stands there; with `c` the rest
of the unit, every segment is released. At the last beat of a TAKE the END carries planned, the context takes the
commit, the chain walked over is released to the pool (R30), and the dispatch ends; a LAPSING hold of the port on the
flow ends behind the END, with HOLD_LAPSED raised (R129, R130), said where nothing is parked. Where it removes the last
unit of a DRAINING flow with no segment and no admitted unit left, the flow enters CLOSED, and DRAINED is raised behind
those (R16, R17, R96); the count falls if the slot was pinned or held (the model's reading, log entry 15). READY is not
armed. The counter of uncorrectable data stays where it is, up to its maximum (R155). -/
def Obligations.TakeCommitsItsBytes : Prop :=
  (∀ (P : Pool) (before after : List Nat) (seg off into c next : Nat), P.chained next (before ++ seg :: after) →
    before.length < 128 → (∀ n ∈ before, (P.link n).last = false) → into < (P.link seg).fill →
    (before = [] → off + c = into → P.commitWalk 128 seg off c = ([], some (seg, into))) ∧
    (∀ first, before.head? = some first → off ≤ (P.link first).fill → c + off = P.fills before + into →
      P.commitWalk 128 first off c = (before, some (seg, into)))) ∧
  (∀ (P : Pool) (before : List Nat) (seg first off c next : Nat), P.chained next (before ++ [seg]) →
    before.length < 128 → (∀ n ∈ before, (P.link n).last = false) → (P.link seg).last = true →
    (before ++ [seg]).head? = some first → off ≤ (P.link first).fill → c + off = P.fills (before ++ [seg]) →
    P.commitWalk 128 first off c = (before ++ [seg], none)) ∧
  ∀ (s : State) (p : PortId) (r : BeatRead) (e0 e1 e2 : ErrorPattern), s.lastAccess → s.noWaits →
    s.mem.inProgress = some (.beatRead p r) → r.live = true →
    let ws := s.readBeat r [e0, e1, e2]
    let d := s.del p
    ws.countP (fun w => decide (w.2.outcome = .uncorrectable)) = 0 → d.state = .streaming → d.kind = .take →
    d.readInFlight = true → (s.unit p).current = some d.tag → (s.unit p).consumerQueue = [] →
    (s.tagRec p d.tag).request.kind = .take → (s.unit p).readyArmed = false → (s.flow d.flow).consumer = p →
    1 ≤ d.planned → d.sent + r.bytes.length = d.planned → ∀ S, s.servingSlot d.flow = some S →
    let walk := s.pool.commitWalk 128 d.startSeg d.startOff d.planned
    let ends := (s.flow d.flow).state = .draining ∧ walk.2 = none ∧ (s.flow d.flow).segCount - walk.1.length = 0 ∧
      (s.flow d.flow).admittedUnits = 0
    let told := s.lapseRaised p ((((s.unit p).place (.data (beatBytes r ws))).setTag d.tag
      { s.tagRec p d.tag with phase := .responding }).place (.endMsg d.tag
        (if s.pool.fills (s.pool.unitFrom 128 d.startSeg) - d.startOff ≤ d.planned then .ended else .part)
        d.planned .final))
    let mem := { s.mem with
      inProgress := none
      corrected := min (s.mem.corrected + ws.countP (fun w => decide (w.2.outcome = .corrected))) 4294967295
      uncorrectableData := min s.mem.uncorrectableData 4294967295 }
    (¬ ends → (s.lapses p = true → (s.slot S).parkedList = []) →
      ∃ u, exec (.beatReadCompletion e0 e1 e2) s = .next u ∧ (u.del p).state = .idle ∧
        u.unit p = { told with current := none } ∧ s.commits u S d d.planned ∧ s.lapsesTo u p S ∧
        (∀ q, q ≠ p → u.unit q = s.unit q ∧ u.del q = s.del q) ∧
        u = { s with
          slots := u.slots, dels := u.dels, units := u.units, flows := u.flows, lists := u.lists, pool := u.pool
          holds := u.holds, pinnedOrHeld := u.pinnedOrHeld, mem := mem }) ∧
    (ends → (s.slot S).parkedList = [] → s.holdsExclusive →
      ∃ u, exec (.beatReadCompletion e0 e1 e2) s = .next u ∧ (u.del p).state = .idle ∧
        u.unit p = { told.raise (.drained d.flow) with current := none } ∧
        ((u.flow d.flow).state = .closed ∧ (u.flow d.flow).segCount = 0 ∧ (u.flow d.flow).halt = none ∧
          (u.flow d.flow).ready = false ∧ (u.flow d.flow).listed = false ∧ (u.flow d.flow).dispatched = false ∧
          (u.flow d.flow).residency = none) ∧
        ((u.slot S).state = .free ∧ (u.slot S).flow = none ∧ ∀ T, T ≠ S → u.slot T = s.slot T) ∧
        (∀ q, (u.hold q).state ≠ .empty → (u.hold q).flow ≠ d.flow) ∧
        u.pinnedOrHeld = s.pinnedOrHeld - (if s.counted S then 1 else 0) ∧ u.pool = s.poolReleasing walk.1 ∧
        (∀ q, q ≠ p → u.unit q = s.unit q ∧ u.del q = s.del q) ∧
        u = { s with
          slots := u.slots, dels := u.dels, units := u.units, flows := u.flows, lists := u.lists, pool := u.pool
          holds := u.holds, pinnedOrHeld := u.pinnedOrHeld, mem := mem })

/-- The check of a word that the part wrote (R154, R155): no wrong bit is clean, one is corrected to the word as
written, two are uncorrectable. -/
def Obligations.CheckCodeCorrectsOneBit : Prop :=
  ∀ (s : State) (a : Nat) (w : Word64) (e : ErrorPattern),
    ((s.writeSram a w).readSram a ⟨0, 0⟩ = { outcome := .clean, data := w }) ∧
    (onesIn e.data + onesIn e.code = 1 → (s.writeSram a w).readSram a e = { outcome := .corrected, data := w }) ∧
    (onesIn e.data + onesIn e.code = 2 → ((s.writeSram a w).readSram a e).outcome = .uncorrectable) ∧
    (∀ b, b ≠ a → (s.writeSram a w).readSram b e = s.readSram b e)

/-- A context that is spilled and then filled comes back whole, and its record is found sound, whatever single bit of
each of its four words the SRAM presents wrongly (R154, R159, R160, R179). -/
def Obligations.SpilledContextComesBack : Prop :=
  ∀ (s : State) (S : SlotId) (f : FlowId) (es : Vector ErrorPattern 4),
    (∀ i : Fin 4, onesIn es[i].data + onesIn es[i].code ≤ 1) →
    fillSound ((s.storeRecord S f).readRecord f es) = true ∧
      Context.ofRecord (recordOfReports ((s.storeRecord S f).readRecord f es)) = (s.slot S).context

/-- A record's fields are decoded as they were encoded, its check byte matches, and the bytes no field has are 0 (R159,
R160, R179). -/
def Obligations.ContextRecordRoundTrips : Prop :=
  ∀ c : Context, Context.ofRecord c.record = c ∧ recordSound c.record = true ∧ c.record.extractLsb' 8 48 = 0 ∧
    c.record.getLsbD 175 = false ∧ c.record.extractLsb' 166 2 = 0

/-- The victim search (R50): a free slot at the hand is taken; an evictable slot with ref no is taken; an evictable slot
with ref yes loses it and is passed; any other slot is passed unchanged. Each inspection moves the hand by one, and 128
are made at most. A search that finds no victim has met no slot FREE or evictable, and leaves the state as it was. -/
def Obligations.VictimSearchInspectsFromTheHand : Prop :=
  (∀ s : State, s.search = s.inspect 128) ∧
  (∀ s t : State, s.search = (none, t) → t = s ∧ ∀ S, (s.slot S).state ≠ .free ∧ s.evictable S = false) ∧
  (∀ s : State, s.inspect 0 = (none, s)) ∧
  ∀ (s : State) (n : Nat),
    ((s.slot s.hand).state = .free → s.inspect (n + 1) = (some s.hand, { s with hand := s.hand + 1 })) ∧
    (s.evictable s.hand = true → (s.slot s.hand).ref = false →
      s.inspect (n + 1) = (some s.hand, { s with hand := s.hand + 1 })) ∧
    (s.evictable s.hand = true → (s.slot s.hand).ref = true →
      s.inspect (n + 1) = ({ s with hand := s.hand + 1 }.setSlot s.hand { s.slot s.hand with ref := false }).inspect n) ∧
    ((s.slot s.hand).state ≠ .free → s.evictable s.hand = false →
      s.inspect (n + 1) = ({ s with hand := s.hand + 1 } : State).inspect n)

/-- The arbiter (R157, R158): nothing is granted while an access is in progress; otherwise the oldest fill, then the
oldest spill, then an eligible port after the last one granted, then the management read. A read is eligible; a write
is eligible where no write to its segment that was handed earlier waits in another queue. -/
def Obligations.ArbiterGrantsInOrder : Prop :=
  ∀ m : MemController,
    (m.inProgress ≠ none → m.grant = m) ∧
    (m.inProgress = none →
      (∀ S f q, m.fillQueue = (S, f) :: q →
        m.grant = { m with fillQueue := q, inProgress := some (.fill S f) }) ∧
      (∀ S f q, m.fillQueue = [] → m.spillQueue = (S, f) :: q →
        m.grant = { m with spillQueue := q, inProgress := some (.spill S f) }) ∧
      (∀ p k, m.fillQueue = [] → m.spillQueue = [] → k < 4 → p = m.lastPort + 1 + Fin.ofNat 4 k →
        m.eligible p = true → (∀ j, j < k → m.eligible (m.lastPort + 1 + Fin.ofNat 4 j) = false) →
        (∀ w q, m.portQueue[p] = .write w :: q →
          m.grant = { m.setQueue p q with inProgress := some (.wordWrite p w), lastPort := p }) ∧
        (∀ r q, m.portQueue[p] = .read r :: q →
          m.grant = { m.setQueue p q with inProgress := some (.beatRead p r), lastPort := p })) ∧
      (∀ f, m.fillQueue = [] → m.spillQueue = [] → (∀ p, m.eligible p = false) → m.mgmtRead = some f →
        m.grant = { m with mgmtRead := none, inProgress := some (.diagnostic f) })) ∧
    (∀ p r q, m.portQueue[p] = .read r :: q → m.eligible p = true) ∧
    (∀ p w q, m.portQueue[p] = .write w :: q →
      (m.eligible p = true ↔ ∀ o : PortId, o ≠ p → ∀ v, .write v ∈ m.portQueue[o] → v.seg = w.seg → w.stamp ≤ v.stamp))

/-! ## Ready lists -/

/-- The comparison of a flow's ready, dispatched and listed fields (R111); a listing puts the flow at the tail, and a
withdrawal takes it from wherever it stands, the others keeping their order (R110); a pop is the withdrawal of the
head. A listing that takes the port's four lists from all empty to non-empty with READY armed leaves the flag no and
raises READY; any other listing, and a withdrawal, raises nothing (R117). -/
def Obligations.ListsFollowTheTable : Prop :=
  (∀ (s : State) (f : FlowId),
    ((s.flow f).ready = true → (s.flow f).dispatched = false → (s.flow f).listed = false → s.relist f = s.listFlow f) ∧
    ((s.flow f).ready = true → (s.flow f).dispatched = false → (s.flow f).listed = true → s.relist f = s) ∧
    ((s.flow f).ready = true → (s.flow f).dispatched = true → (s.flow f).listed = true →
      s.relist f = s.withdrawFlow f) ∧
    ((s.flow f).ready = false → (s.flow f).listed = true → s.relist f = s.withdrawFlow f) ∧
    ((s.flow f).ready = false → (s.flow f).listed = false → s.relist f = s) ∧
    ((s.flow f).dispatched = true → (s.flow f).listed = false → s.relist f = s)) ∧
  (∀ (s : State) (f : FlowId) (fs : List FlowId), (s.flow f).listed = false →
    s.listHolds (s.flow f).consumer (s.flow f).cls fs →
      (s.listFlow f).listHolds (s.flow f).consumer (s.flow f).cls (fs ++ [f])) ∧
  (∀ (s : State) (p : PortId) (c : ClassId) (f : FlowId) (before after : List FlowId),
    s.listHolds p c (before ++ f :: after) →
      (s.withdrawFlow f).listHolds p c (before ++ after) ∧
      ((s.withdrawFlow f).flow f).listed = false ∧ ((s.withdrawFlow f).flow f).prev = none ∧
      ((s.withdrawFlow f).flow f).next = none) ∧
  ∀ (s : State) (f : FlowId),
    let p := (s.flow f).consumer
    (s.listedFlows p = 0 → (s.unit p).readyArmed = true →
      (s.listFlow f).units = (s.setUnit p (PortUnit.raise .ready { s.unit p with readyArmed := false })).units) ∧
    (0 < s.listedFlows p ∨ (s.unit p).readyArmed = false → (s.listFlow f).units = s.units) ∧
    (s.withdrawFlow f).units = s.units
end

