-- ==== Sys2Proof/Laws/State.lean ====
section
/-! SUPPORT. One lemma for each field of State and each update of it: what an update leaves, and what reading back gives. -/

namespace Sys2Proof.Machine

/-! ## setFlow -/

@[simp] theorem State.pending_setFlow (s : State) (f : FlowId) (e : FlowEntry) : (s.setFlow f e).pending = s.pending := rfl
@[simp] theorem State.mgmt_setFlow (s : State) (f : FlowId) (e : FlowEntry) : (s.setFlow f e).mgmt = s.mgmt := rfl
@[simp] theorem State.config_setFlow (s : State) (f : FlowId) (e : FlowEntry) : (s.setFlow f e).config = s.config := rfl
@[simp] theorem State.pool_setFlow (s : State) (f : FlowId) (e : FlowEntry) : (s.setFlow f e).pool = s.pool := rfl
@[simp] theorem State.slots_setFlow (s : State) (f : FlowId) (e : FlowEntry) : (s.setFlow f e).slots = s.slots := rfl
@[simp] theorem State.hand_setFlow (s : State) (f : FlowId) (e : FlowEntry) : (s.setFlow f e).hand = s.hand := rfl
@[simp] theorem State.pinnedOrHeld_setFlow (s : State) (f : FlowId) (e : FlowEntry) : (s.setFlow f e).pinnedOrHeld = s.pinnedOrHeld := rfl
@[simp] theorem State.missWait_setFlow (s : State) (f : FlowId) (e : FlowEntry) : (s.setFlow f e).missWait = s.missWait := rfl
@[simp] theorem State.linkWait_setFlow (s : State) (f : FlowId) (e : FlowEntry) : (s.setFlow f e).linkWait = s.linkWait := rfl
@[simp] theorem State.asms_setFlow (s : State) (f : FlowId) (e : FlowEntry) : (s.setFlow f e).asms = s.asms := rfl
@[simp] theorem State.dels_setFlow (s : State) (f : FlowId) (e : FlowEntry) : (s.setFlow f e).dels = s.dels := rfl
@[simp] theorem State.holds_setFlow (s : State) (f : FlowId) (e : FlowEntry) : (s.setFlow f e).holds = s.holds := rfl
@[simp] theorem State.lists_setFlow (s : State) (f : FlowId) (e : FlowEntry) : (s.setFlow f e).lists = s.lists := rfl
@[simp] theorem State.units_setFlow (s : State) (f : FlowId) (e : FlowEntry) : (s.setFlow f e).units = s.units := rfl
@[simp] theorem State.mem_setFlow (s : State) (f : FlowId) (e : FlowEntry) : (s.setFlow f e).mem = s.mem := rfl
@[simp] theorem State.sram_setFlow (s : State) (f : FlowId) (e : FlowEntry) : (s.setFlow f e).sram = s.sram := rfl
@[simp] theorem State.damage_setFlow (s : State) (f : FlowId) (e : FlowEntry) : (s.setFlow f e).damage = s.damage := rfl
@[simp] theorem State.retryDue_setFlow (s : State) (f : FlowId) (e : FlowEntry) : (s.setFlow f e).retryDue = s.retryDue := rfl
@[simp] theorem State.handed_setFlow (s : State) (f : FlowId) (e : FlowEntry) : (s.setFlow f e).handed = s.handed := rfl
@[simp] theorem State.drawn_setFlow (s : State) (f : FlowId) (e : FlowEntry) : (s.setFlow f e).drawn = s.drawn := rfl
@[simp] theorem State.slot_setFlow (s : State) (f : FlowId) (e : FlowEntry) (T : SlotId) : (s.setFlow f e).slot T = s.slot T := rfl
@[simp] theorem State.asm_setFlow (s : State) (f : FlowId) (e : FlowEntry) (q : PortId) : (s.setFlow f e).asm q = s.asm q := rfl
@[simp] theorem State.del_setFlow (s : State) (f : FlowId) (e : FlowEntry) (q : PortId) : (s.setFlow f e).del q = s.del q := rfl
@[simp] theorem State.hold_setFlow (s : State) (f : FlowId) (e : FlowEntry) (q : PortId) : (s.setFlow f e).hold q = s.hold q := rfl
@[simp] theorem State.unit_setFlow (s : State) (f : FlowId) (e : FlowEntry) (q : PortId) : (s.setFlow f e).unit q = s.unit q := rfl
@[simp] theorem State.readyList_setFlow (s : State) (f : FlowId) (e : FlowEntry) (q : PortId) (d : ClassId) : (s.setFlow f e).readyList q d = s.readyList q d := rfl

/-! ## setSlot -/

@[simp] theorem State.pending_setSlot (s : State) (S : SlotId) (v : Slot) : (s.setSlot S v).pending = s.pending := rfl
@[simp] theorem State.mgmt_setSlot (s : State) (S : SlotId) (v : Slot) : (s.setSlot S v).mgmt = s.mgmt := rfl
@[simp] theorem State.config_setSlot (s : State) (S : SlotId) (v : Slot) : (s.setSlot S v).config = s.config := rfl
@[simp] theorem State.pool_setSlot (s : State) (S : SlotId) (v : Slot) : (s.setSlot S v).pool = s.pool := rfl
@[simp] theorem State.flows_setSlot (s : State) (S : SlotId) (v : Slot) : (s.setSlot S v).flows = s.flows := rfl
@[simp] theorem State.hand_setSlot (s : State) (S : SlotId) (v : Slot) : (s.setSlot S v).hand = s.hand := rfl
@[simp] theorem State.pinnedOrHeld_setSlot (s : State) (S : SlotId) (v : Slot) : (s.setSlot S v).pinnedOrHeld = s.pinnedOrHeld := rfl
@[simp] theorem State.missWait_setSlot (s : State) (S : SlotId) (v : Slot) : (s.setSlot S v).missWait = s.missWait := rfl
@[simp] theorem State.linkWait_setSlot (s : State) (S : SlotId) (v : Slot) : (s.setSlot S v).linkWait = s.linkWait := rfl
@[simp] theorem State.asms_setSlot (s : State) (S : SlotId) (v : Slot) : (s.setSlot S v).asms = s.asms := rfl
@[simp] theorem State.dels_setSlot (s : State) (S : SlotId) (v : Slot) : (s.setSlot S v).dels = s.dels := rfl
@[simp] theorem State.holds_setSlot (s : State) (S : SlotId) (v : Slot) : (s.setSlot S v).holds = s.holds := rfl
@[simp] theorem State.lists_setSlot (s : State) (S : SlotId) (v : Slot) : (s.setSlot S v).lists = s.lists := rfl
@[simp] theorem State.units_setSlot (s : State) (S : SlotId) (v : Slot) : (s.setSlot S v).units = s.units := rfl
@[simp] theorem State.mem_setSlot (s : State) (S : SlotId) (v : Slot) : (s.setSlot S v).mem = s.mem := rfl
@[simp] theorem State.sram_setSlot (s : State) (S : SlotId) (v : Slot) : (s.setSlot S v).sram = s.sram := rfl
@[simp] theorem State.damage_setSlot (s : State) (S : SlotId) (v : Slot) : (s.setSlot S v).damage = s.damage := rfl
@[simp] theorem State.retryDue_setSlot (s : State) (S : SlotId) (v : Slot) : (s.setSlot S v).retryDue = s.retryDue := rfl
@[simp] theorem State.handed_setSlot (s : State) (S : SlotId) (v : Slot) : (s.setSlot S v).handed = s.handed := rfl
@[simp] theorem State.drawn_setSlot (s : State) (S : SlotId) (v : Slot) : (s.setSlot S v).drawn = s.drawn := rfl
@[simp] theorem State.flow_setSlot (s : State) (S : SlotId) (v : Slot) (g : FlowId) : (s.setSlot S v).flow g = s.flow g := rfl
@[simp] theorem State.asm_setSlot (s : State) (S : SlotId) (v : Slot) (q : PortId) : (s.setSlot S v).asm q = s.asm q := rfl
@[simp] theorem State.del_setSlot (s : State) (S : SlotId) (v : Slot) (q : PortId) : (s.setSlot S v).del q = s.del q := rfl
@[simp] theorem State.hold_setSlot (s : State) (S : SlotId) (v : Slot) (q : PortId) : (s.setSlot S v).hold q = s.hold q := rfl
@[simp] theorem State.unit_setSlot (s : State) (S : SlotId) (v : Slot) (q : PortId) : (s.setSlot S v).unit q = s.unit q := rfl
@[simp] theorem State.readyList_setSlot (s : State) (S : SlotId) (v : Slot) (q : PortId) (d : ClassId) : (s.setSlot S v).readyList q d = s.readyList q d := rfl

/-! ## setAsm -/

@[simp] theorem State.pending_setAsm (s : State) (p : PortId) (v : Assembly) : (s.setAsm p v).pending = s.pending := rfl
@[simp] theorem State.mgmt_setAsm (s : State) (p : PortId) (v : Assembly) : (s.setAsm p v).mgmt = s.mgmt := rfl
@[simp] theorem State.config_setAsm (s : State) (p : PortId) (v : Assembly) : (s.setAsm p v).config = s.config := rfl
@[simp] theorem State.pool_setAsm (s : State) (p : PortId) (v : Assembly) : (s.setAsm p v).pool = s.pool := rfl
@[simp] theorem State.flows_setAsm (s : State) (p : PortId) (v : Assembly) : (s.setAsm p v).flows = s.flows := rfl
@[simp] theorem State.slots_setAsm (s : State) (p : PortId) (v : Assembly) : (s.setAsm p v).slots = s.slots := rfl
@[simp] theorem State.hand_setAsm (s : State) (p : PortId) (v : Assembly) : (s.setAsm p v).hand = s.hand := rfl
@[simp] theorem State.pinnedOrHeld_setAsm (s : State) (p : PortId) (v : Assembly) : (s.setAsm p v).pinnedOrHeld = s.pinnedOrHeld := rfl
@[simp] theorem State.missWait_setAsm (s : State) (p : PortId) (v : Assembly) : (s.setAsm p v).missWait = s.missWait := rfl
@[simp] theorem State.linkWait_setAsm (s : State) (p : PortId) (v : Assembly) : (s.setAsm p v).linkWait = s.linkWait := rfl
@[simp] theorem State.dels_setAsm (s : State) (p : PortId) (v : Assembly) : (s.setAsm p v).dels = s.dels := rfl
@[simp] theorem State.holds_setAsm (s : State) (p : PortId) (v : Assembly) : (s.setAsm p v).holds = s.holds := rfl
@[simp] theorem State.lists_setAsm (s : State) (p : PortId) (v : Assembly) : (s.setAsm p v).lists = s.lists := rfl
@[simp] theorem State.units_setAsm (s : State) (p : PortId) (v : Assembly) : (s.setAsm p v).units = s.units := rfl
@[simp] theorem State.mem_setAsm (s : State) (p : PortId) (v : Assembly) : (s.setAsm p v).mem = s.mem := rfl
@[simp] theorem State.sram_setAsm (s : State) (p : PortId) (v : Assembly) : (s.setAsm p v).sram = s.sram := rfl
@[simp] theorem State.damage_setAsm (s : State) (p : PortId) (v : Assembly) : (s.setAsm p v).damage = s.damage := rfl
@[simp] theorem State.retryDue_setAsm (s : State) (p : PortId) (v : Assembly) : (s.setAsm p v).retryDue = s.retryDue := rfl
@[simp] theorem State.handed_setAsm (s : State) (p : PortId) (v : Assembly) : (s.setAsm p v).handed = s.handed := rfl
@[simp] theorem State.drawn_setAsm (s : State) (p : PortId) (v : Assembly) : (s.setAsm p v).drawn = s.drawn := rfl
@[simp] theorem State.flow_setAsm (s : State) (p : PortId) (v : Assembly) (g : FlowId) : (s.setAsm p v).flow g = s.flow g := rfl
@[simp] theorem State.slot_setAsm (s : State) (p : PortId) (v : Assembly) (T : SlotId) : (s.setAsm p v).slot T = s.slot T := rfl
@[simp] theorem State.del_setAsm (s : State) (p : PortId) (v : Assembly) (q : PortId) : (s.setAsm p v).del q = s.del q := rfl
@[simp] theorem State.hold_setAsm (s : State) (p : PortId) (v : Assembly) (q : PortId) : (s.setAsm p v).hold q = s.hold q := rfl
@[simp] theorem State.unit_setAsm (s : State) (p : PortId) (v : Assembly) (q : PortId) : (s.setAsm p v).unit q = s.unit q := rfl
@[simp] theorem State.readyList_setAsm (s : State) (p : PortId) (v : Assembly) (q : PortId) (d : ClassId) : (s.setAsm p v).readyList q d = s.readyList q d := rfl

/-! ## setDel -/

@[simp] theorem State.pending_setDel (s : State) (p : PortId) (v : Delivery) : (s.setDel p v).pending = s.pending := rfl
@[simp] theorem State.mgmt_setDel (s : State) (p : PortId) (v : Delivery) : (s.setDel p v).mgmt = s.mgmt := rfl
@[simp] theorem State.config_setDel (s : State) (p : PortId) (v : Delivery) : (s.setDel p v).config = s.config := rfl
@[simp] theorem State.pool_setDel (s : State) (p : PortId) (v : Delivery) : (s.setDel p v).pool = s.pool := rfl
@[simp] theorem State.flows_setDel (s : State) (p : PortId) (v : Delivery) : (s.setDel p v).flows = s.flows := rfl
@[simp] theorem State.slots_setDel (s : State) (p : PortId) (v : Delivery) : (s.setDel p v).slots = s.slots := rfl
@[simp] theorem State.hand_setDel (s : State) (p : PortId) (v : Delivery) : (s.setDel p v).hand = s.hand := rfl
@[simp] theorem State.pinnedOrHeld_setDel (s : State) (p : PortId) (v : Delivery) : (s.setDel p v).pinnedOrHeld = s.pinnedOrHeld := rfl
@[simp] theorem State.missWait_setDel (s : State) (p : PortId) (v : Delivery) : (s.setDel p v).missWait = s.missWait := rfl
@[simp] theorem State.linkWait_setDel (s : State) (p : PortId) (v : Delivery) : (s.setDel p v).linkWait = s.linkWait := rfl
@[simp] theorem State.asms_setDel (s : State) (p : PortId) (v : Delivery) : (s.setDel p v).asms = s.asms := rfl
@[simp] theorem State.holds_setDel (s : State) (p : PortId) (v : Delivery) : (s.setDel p v).holds = s.holds := rfl
@[simp] theorem State.lists_setDel (s : State) (p : PortId) (v : Delivery) : (s.setDel p v).lists = s.lists := rfl
@[simp] theorem State.units_setDel (s : State) (p : PortId) (v : Delivery) : (s.setDel p v).units = s.units := rfl
@[simp] theorem State.mem_setDel (s : State) (p : PortId) (v : Delivery) : (s.setDel p v).mem = s.mem := rfl
@[simp] theorem State.sram_setDel (s : State) (p : PortId) (v : Delivery) : (s.setDel p v).sram = s.sram := rfl
@[simp] theorem State.damage_setDel (s : State) (p : PortId) (v : Delivery) : (s.setDel p v).damage = s.damage := rfl
@[simp] theorem State.retryDue_setDel (s : State) (p : PortId) (v : Delivery) : (s.setDel p v).retryDue = s.retryDue := rfl
@[simp] theorem State.handed_setDel (s : State) (p : PortId) (v : Delivery) : (s.setDel p v).handed = s.handed := rfl
@[simp] theorem State.drawn_setDel (s : State) (p : PortId) (v : Delivery) : (s.setDel p v).drawn = s.drawn := rfl
@[simp] theorem State.flow_setDel (s : State) (p : PortId) (v : Delivery) (g : FlowId) : (s.setDel p v).flow g = s.flow g := rfl
@[simp] theorem State.slot_setDel (s : State) (p : PortId) (v : Delivery) (T : SlotId) : (s.setDel p v).slot T = s.slot T := rfl
@[simp] theorem State.asm_setDel (s : State) (p : PortId) (v : Delivery) (q : PortId) : (s.setDel p v).asm q = s.asm q := rfl
@[simp] theorem State.hold_setDel (s : State) (p : PortId) (v : Delivery) (q : PortId) : (s.setDel p v).hold q = s.hold q := rfl
@[simp] theorem State.unit_setDel (s : State) (p : PortId) (v : Delivery) (q : PortId) : (s.setDel p v).unit q = s.unit q := rfl
@[simp] theorem State.readyList_setDel (s : State) (p : PortId) (v : Delivery) (q : PortId) (d : ClassId) : (s.setDel p v).readyList q d = s.readyList q d := rfl

/-! ## setHold -/

@[simp] theorem State.pending_setHold (s : State) (p : PortId) (v : Hold) : (s.setHold p v).pending = s.pending := rfl
@[simp] theorem State.mgmt_setHold (s : State) (p : PortId) (v : Hold) : (s.setHold p v).mgmt = s.mgmt := rfl
@[simp] theorem State.config_setHold (s : State) (p : PortId) (v : Hold) : (s.setHold p v).config = s.config := rfl
@[simp] theorem State.pool_setHold (s : State) (p : PortId) (v : Hold) : (s.setHold p v).pool = s.pool := rfl
@[simp] theorem State.flows_setHold (s : State) (p : PortId) (v : Hold) : (s.setHold p v).flows = s.flows := rfl
@[simp] theorem State.slots_setHold (s : State) (p : PortId) (v : Hold) : (s.setHold p v).slots = s.slots := rfl
@[simp] theorem State.hand_setHold (s : State) (p : PortId) (v : Hold) : (s.setHold p v).hand = s.hand := rfl
@[simp] theorem State.pinnedOrHeld_setHold (s : State) (p : PortId) (v : Hold) : (s.setHold p v).pinnedOrHeld = s.pinnedOrHeld := rfl
@[simp] theorem State.missWait_setHold (s : State) (p : PortId) (v : Hold) : (s.setHold p v).missWait = s.missWait := rfl
@[simp] theorem State.linkWait_setHold (s : State) (p : PortId) (v : Hold) : (s.setHold p v).linkWait = s.linkWait := rfl
@[simp] theorem State.asms_setHold (s : State) (p : PortId) (v : Hold) : (s.setHold p v).asms = s.asms := rfl
@[simp] theorem State.dels_setHold (s : State) (p : PortId) (v : Hold) : (s.setHold p v).dels = s.dels := rfl
@[simp] theorem State.lists_setHold (s : State) (p : PortId) (v : Hold) : (s.setHold p v).lists = s.lists := rfl
@[simp] theorem State.units_setHold (s : State) (p : PortId) (v : Hold) : (s.setHold p v).units = s.units := rfl
@[simp] theorem State.mem_setHold (s : State) (p : PortId) (v : Hold) : (s.setHold p v).mem = s.mem := rfl
@[simp] theorem State.sram_setHold (s : State) (p : PortId) (v : Hold) : (s.setHold p v).sram = s.sram := rfl
@[simp] theorem State.damage_setHold (s : State) (p : PortId) (v : Hold) : (s.setHold p v).damage = s.damage := rfl
@[simp] theorem State.retryDue_setHold (s : State) (p : PortId) (v : Hold) : (s.setHold p v).retryDue = s.retryDue := rfl
@[simp] theorem State.handed_setHold (s : State) (p : PortId) (v : Hold) : (s.setHold p v).handed = s.handed := rfl
@[simp] theorem State.drawn_setHold (s : State) (p : PortId) (v : Hold) : (s.setHold p v).drawn = s.drawn := rfl
@[simp] theorem State.flow_setHold (s : State) (p : PortId) (v : Hold) (g : FlowId) : (s.setHold p v).flow g = s.flow g := rfl
@[simp] theorem State.slot_setHold (s : State) (p : PortId) (v : Hold) (T : SlotId) : (s.setHold p v).slot T = s.slot T := rfl
@[simp] theorem State.asm_setHold (s : State) (p : PortId) (v : Hold) (q : PortId) : (s.setHold p v).asm q = s.asm q := rfl
@[simp] theorem State.del_setHold (s : State) (p : PortId) (v : Hold) (q : PortId) : (s.setHold p v).del q = s.del q := rfl
@[simp] theorem State.unit_setHold (s : State) (p : PortId) (v : Hold) (q : PortId) : (s.setHold p v).unit q = s.unit q := rfl
@[simp] theorem State.readyList_setHold (s : State) (p : PortId) (v : Hold) (q : PortId) (d : ClassId) : (s.setHold p v).readyList q d = s.readyList q d := rfl

/-! ## setUnit -/

@[simp] theorem State.pending_setUnit (s : State) (p : PortId) (v : PortUnit) : (s.setUnit p v).pending = s.pending := rfl
@[simp] theorem State.mgmt_setUnit (s : State) (p : PortId) (v : PortUnit) : (s.setUnit p v).mgmt = s.mgmt := rfl
@[simp] theorem State.config_setUnit (s : State) (p : PortId) (v : PortUnit) : (s.setUnit p v).config = s.config := rfl
@[simp] theorem State.pool_setUnit (s : State) (p : PortId) (v : PortUnit) : (s.setUnit p v).pool = s.pool := rfl
@[simp] theorem State.flows_setUnit (s : State) (p : PortId) (v : PortUnit) : (s.setUnit p v).flows = s.flows := rfl
@[simp] theorem State.slots_setUnit (s : State) (p : PortId) (v : PortUnit) : (s.setUnit p v).slots = s.slots := rfl
@[simp] theorem State.hand_setUnit (s : State) (p : PortId) (v : PortUnit) : (s.setUnit p v).hand = s.hand := rfl
@[simp] theorem State.pinnedOrHeld_setUnit (s : State) (p : PortId) (v : PortUnit) : (s.setUnit p v).pinnedOrHeld = s.pinnedOrHeld := rfl
@[simp] theorem State.missWait_setUnit (s : State) (p : PortId) (v : PortUnit) : (s.setUnit p v).missWait = s.missWait := rfl
@[simp] theorem State.linkWait_setUnit (s : State) (p : PortId) (v : PortUnit) : (s.setUnit p v).linkWait = s.linkWait := rfl
@[simp] theorem State.asms_setUnit (s : State) (p : PortId) (v : PortUnit) : (s.setUnit p v).asms = s.asms := rfl
@[simp] theorem State.dels_setUnit (s : State) (p : PortId) (v : PortUnit) : (s.setUnit p v).dels = s.dels := rfl
@[simp] theorem State.holds_setUnit (s : State) (p : PortId) (v : PortUnit) : (s.setUnit p v).holds = s.holds := rfl
@[simp] theorem State.lists_setUnit (s : State) (p : PortId) (v : PortUnit) : (s.setUnit p v).lists = s.lists := rfl
@[simp] theorem State.mem_setUnit (s : State) (p : PortId) (v : PortUnit) : (s.setUnit p v).mem = s.mem := rfl
@[simp] theorem State.sram_setUnit (s : State) (p : PortId) (v : PortUnit) : (s.setUnit p v).sram = s.sram := rfl
@[simp] theorem State.damage_setUnit (s : State) (p : PortId) (v : PortUnit) : (s.setUnit p v).damage = s.damage := rfl
@[simp] theorem State.retryDue_setUnit (s : State) (p : PortId) (v : PortUnit) : (s.setUnit p v).retryDue = s.retryDue := rfl
@[simp] theorem State.handed_setUnit (s : State) (p : PortId) (v : PortUnit) : (s.setUnit p v).handed = s.handed := rfl
@[simp] theorem State.drawn_setUnit (s : State) (p : PortId) (v : PortUnit) : (s.setUnit p v).drawn = s.drawn := rfl
@[simp] theorem State.flow_setUnit (s : State) (p : PortId) (v : PortUnit) (g : FlowId) : (s.setUnit p v).flow g = s.flow g := rfl
@[simp] theorem State.slot_setUnit (s : State) (p : PortId) (v : PortUnit) (T : SlotId) : (s.setUnit p v).slot T = s.slot T := rfl
@[simp] theorem State.asm_setUnit (s : State) (p : PortId) (v : PortUnit) (q : PortId) : (s.setUnit p v).asm q = s.asm q := rfl
@[simp] theorem State.del_setUnit (s : State) (p : PortId) (v : PortUnit) (q : PortId) : (s.setUnit p v).del q = s.del q := rfl
@[simp] theorem State.hold_setUnit (s : State) (p : PortId) (v : PortUnit) (q : PortId) : (s.setUnit p v).hold q = s.hold q := rfl
@[simp] theorem State.readyList_setUnit (s : State) (p : PortId) (v : PortUnit) (q : PortId) (d : ClassId) : (s.setUnit p v).readyList q d = s.readyList q d := rfl

/-! ## setReadyList -/

@[simp] theorem State.pending_setReadyList (s : State) (p : PortId) (c : ClassId) (v : ClassList) : (s.setReadyList p c v).pending = s.pending := rfl
@[simp] theorem State.mgmt_setReadyList (s : State) (p : PortId) (c : ClassId) (v : ClassList) : (s.setReadyList p c v).mgmt = s.mgmt := rfl
@[simp] theorem State.config_setReadyList (s : State) (p : PortId) (c : ClassId) (v : ClassList) : (s.setReadyList p c v).config = s.config := rfl
@[simp] theorem State.pool_setReadyList (s : State) (p : PortId) (c : ClassId) (v : ClassList) : (s.setReadyList p c v).pool = s.pool := rfl
@[simp] theorem State.flows_setReadyList (s : State) (p : PortId) (c : ClassId) (v : ClassList) : (s.setReadyList p c v).flows = s.flows := rfl
@[simp] theorem State.slots_setReadyList (s : State) (p : PortId) (c : ClassId) (v : ClassList) : (s.setReadyList p c v).slots = s.slots := rfl
@[simp] theorem State.hand_setReadyList (s : State) (p : PortId) (c : ClassId) (v : ClassList) : (s.setReadyList p c v).hand = s.hand := rfl
@[simp] theorem State.pinnedOrHeld_setReadyList (s : State) (p : PortId) (c : ClassId) (v : ClassList) : (s.setReadyList p c v).pinnedOrHeld = s.pinnedOrHeld := rfl
@[simp] theorem State.missWait_setReadyList (s : State) (p : PortId) (c : ClassId) (v : ClassList) : (s.setReadyList p c v).missWait = s.missWait := rfl
@[simp] theorem State.linkWait_setReadyList (s : State) (p : PortId) (c : ClassId) (v : ClassList) : (s.setReadyList p c v).linkWait = s.linkWait := rfl
@[simp] theorem State.asms_setReadyList (s : State) (p : PortId) (c : ClassId) (v : ClassList) : (s.setReadyList p c v).asms = s.asms := rfl
@[simp] theorem State.dels_setReadyList (s : State) (p : PortId) (c : ClassId) (v : ClassList) : (s.setReadyList p c v).dels = s.dels := rfl
@[simp] theorem State.holds_setReadyList (s : State) (p : PortId) (c : ClassId) (v : ClassList) : (s.setReadyList p c v).holds = s.holds := rfl
@[simp] theorem State.units_setReadyList (s : State) (p : PortId) (c : ClassId) (v : ClassList) : (s.setReadyList p c v).units = s.units := rfl
@[simp] theorem State.mem_setReadyList (s : State) (p : PortId) (c : ClassId) (v : ClassList) : (s.setReadyList p c v).mem = s.mem := rfl
@[simp] theorem State.sram_setReadyList (s : State) (p : PortId) (c : ClassId) (v : ClassList) : (s.setReadyList p c v).sram = s.sram := rfl
@[simp] theorem State.damage_setReadyList (s : State) (p : PortId) (c : ClassId) (v : ClassList) : (s.setReadyList p c v).damage = s.damage := rfl
@[simp] theorem State.retryDue_setReadyList (s : State) (p : PortId) (c : ClassId) (v : ClassList) : (s.setReadyList p c v).retryDue = s.retryDue := rfl
@[simp] theorem State.handed_setReadyList (s : State) (p : PortId) (c : ClassId) (v : ClassList) : (s.setReadyList p c v).handed = s.handed := rfl
@[simp] theorem State.drawn_setReadyList (s : State) (p : PortId) (c : ClassId) (v : ClassList) : (s.setReadyList p c v).drawn = s.drawn := rfl
@[simp] theorem State.flow_setReadyList (s : State) (p : PortId) (c : ClassId) (v : ClassList) (g : FlowId) : (s.setReadyList p c v).flow g = s.flow g := rfl
@[simp] theorem State.slot_setReadyList (s : State) (p : PortId) (c : ClassId) (v : ClassList) (T : SlotId) : (s.setReadyList p c v).slot T = s.slot T := rfl
@[simp] theorem State.asm_setReadyList (s : State) (p : PortId) (c : ClassId) (v : ClassList) (q : PortId) : (s.setReadyList p c v).asm q = s.asm q := rfl
@[simp] theorem State.del_setReadyList (s : State) (p : PortId) (c : ClassId) (v : ClassList) (q : PortId) : (s.setReadyList p c v).del q = s.del q := rfl
@[simp] theorem State.hold_setReadyList (s : State) (p : PortId) (c : ClassId) (v : ClassList) (q : PortId) : (s.setReadyList p c v).hold q = s.hold q := rfl
@[simp] theorem State.unit_setReadyList (s : State) (p : PortId) (c : ClassId) (v : ClassList) (q : PortId) : (s.setReadyList p c v).unit q = s.unit q := rfl

/-! ## setPool -/

@[simp] theorem State.pending_setPool (s : State) (v : Pool) : (s.setPool v).pending = s.pending := rfl
@[simp] theorem State.mgmt_setPool (s : State) (v : Pool) : (s.setPool v).mgmt = s.mgmt := rfl
@[simp] theorem State.config_setPool (s : State) (v : Pool) : (s.setPool v).config = s.config := rfl
@[simp] theorem State.flows_setPool (s : State) (v : Pool) : (s.setPool v).flows = s.flows := rfl
@[simp] theorem State.slots_setPool (s : State) (v : Pool) : (s.setPool v).slots = s.slots := rfl
@[simp] theorem State.hand_setPool (s : State) (v : Pool) : (s.setPool v).hand = s.hand := rfl
@[simp] theorem State.pinnedOrHeld_setPool (s : State) (v : Pool) : (s.setPool v).pinnedOrHeld = s.pinnedOrHeld := rfl
@[simp] theorem State.missWait_setPool (s : State) (v : Pool) : (s.setPool v).missWait = s.missWait := rfl
@[simp] theorem State.linkWait_setPool (s : State) (v : Pool) : (s.setPool v).linkWait = s.linkWait := rfl
@[simp] theorem State.asms_setPool (s : State) (v : Pool) : (s.setPool v).asms = s.asms := rfl
@[simp] theorem State.dels_setPool (s : State) (v : Pool) : (s.setPool v).dels = s.dels := rfl
@[simp] theorem State.holds_setPool (s : State) (v : Pool) : (s.setPool v).holds = s.holds := rfl
@[simp] theorem State.lists_setPool (s : State) (v : Pool) : (s.setPool v).lists = s.lists := rfl
@[simp] theorem State.units_setPool (s : State) (v : Pool) : (s.setPool v).units = s.units := rfl
@[simp] theorem State.mem_setPool (s : State) (v : Pool) : (s.setPool v).mem = s.mem := rfl
@[simp] theorem State.sram_setPool (s : State) (v : Pool) : (s.setPool v).sram = s.sram := rfl
@[simp] theorem State.damage_setPool (s : State) (v : Pool) : (s.setPool v).damage = s.damage := rfl
@[simp] theorem State.retryDue_setPool (s : State) (v : Pool) : (s.setPool v).retryDue = s.retryDue := rfl
@[simp] theorem State.handed_setPool (s : State) (v : Pool) : (s.setPool v).handed = s.handed := rfl
@[simp] theorem State.drawn_setPool (s : State) (v : Pool) : (s.setPool v).drawn = s.drawn := rfl
@[simp] theorem State.flow_setPool (s : State) (v : Pool) (g : FlowId) : (s.setPool v).flow g = s.flow g := rfl
@[simp] theorem State.slot_setPool (s : State) (v : Pool) (T : SlotId) : (s.setPool v).slot T = s.slot T := rfl
@[simp] theorem State.asm_setPool (s : State) (v : Pool) (q : PortId) : (s.setPool v).asm q = s.asm q := rfl
@[simp] theorem State.del_setPool (s : State) (v : Pool) (q : PortId) : (s.setPool v).del q = s.del q := rfl
@[simp] theorem State.hold_setPool (s : State) (v : Pool) (q : PortId) : (s.setPool v).hold q = s.hold q := rfl
@[simp] theorem State.unit_setPool (s : State) (v : Pool) (q : PortId) : (s.setPool v).unit q = s.unit q := rfl
@[simp] theorem State.readyList_setPool (s : State) (v : Pool) (q : PortId) (d : ClassId) : (s.setPool v).readyList q d = s.readyList q d := rfl
@[simp] theorem State.pool_setPool (s : State) (v : Pool) : (s.setPool v).pool = v := rfl
@[simp] theorem State.setPool_setPool (s : State) (v w : Pool) : (s.setPool v).setPool w = s.setPool w := rfl
@[simp] theorem State.setPool_self (s : State) : s.setPool s.pool = s := rfl

/-! ## setMem -/

@[simp] theorem State.pending_setMem (s : State) (v : MemController) : (s.setMem v).pending = s.pending := rfl
@[simp] theorem State.mgmt_setMem (s : State) (v : MemController) : (s.setMem v).mgmt = s.mgmt := rfl
@[simp] theorem State.config_setMem (s : State) (v : MemController) : (s.setMem v).config = s.config := rfl
@[simp] theorem State.pool_setMem (s : State) (v : MemController) : (s.setMem v).pool = s.pool := rfl
@[simp] theorem State.flows_setMem (s : State) (v : MemController) : (s.setMem v).flows = s.flows := rfl
@[simp] theorem State.slots_setMem (s : State) (v : MemController) : (s.setMem v).slots = s.slots := rfl
@[simp] theorem State.hand_setMem (s : State) (v : MemController) : (s.setMem v).hand = s.hand := rfl
@[simp] theorem State.pinnedOrHeld_setMem (s : State) (v : MemController) : (s.setMem v).pinnedOrHeld = s.pinnedOrHeld := rfl
@[simp] theorem State.missWait_setMem (s : State) (v : MemController) : (s.setMem v).missWait = s.missWait := rfl
@[simp] theorem State.linkWait_setMem (s : State) (v : MemController) : (s.setMem v).linkWait = s.linkWait := rfl
@[simp] theorem State.asms_setMem (s : State) (v : MemController) : (s.setMem v).asms = s.asms := rfl
@[simp] theorem State.dels_setMem (s : State) (v : MemController) : (s.setMem v).dels = s.dels := rfl
@[simp] theorem State.holds_setMem (s : State) (v : MemController) : (s.setMem v).holds = s.holds := rfl
@[simp] theorem State.lists_setMem (s : State) (v : MemController) : (s.setMem v).lists = s.lists := rfl
@[simp] theorem State.units_setMem (s : State) (v : MemController) : (s.setMem v).units = s.units := rfl
@[simp] theorem State.sram_setMem (s : State) (v : MemController) : (s.setMem v).sram = s.sram := rfl
@[simp] theorem State.damage_setMem (s : State) (v : MemController) : (s.setMem v).damage = s.damage := rfl
@[simp] theorem State.retryDue_setMem (s : State) (v : MemController) : (s.setMem v).retryDue = s.retryDue := rfl
@[simp] theorem State.handed_setMem (s : State) (v : MemController) : (s.setMem v).handed = s.handed := rfl
@[simp] theorem State.drawn_setMem (s : State) (v : MemController) : (s.setMem v).drawn = s.drawn := rfl
@[simp] theorem State.flow_setMem (s : State) (v : MemController) (g : FlowId) : (s.setMem v).flow g = s.flow g := rfl
@[simp] theorem State.slot_setMem (s : State) (v : MemController) (T : SlotId) : (s.setMem v).slot T = s.slot T := rfl
@[simp] theorem State.asm_setMem (s : State) (v : MemController) (q : PortId) : (s.setMem v).asm q = s.asm q := rfl
@[simp] theorem State.del_setMem (s : State) (v : MemController) (q : PortId) : (s.setMem v).del q = s.del q := rfl
@[simp] theorem State.hold_setMem (s : State) (v : MemController) (q : PortId) : (s.setMem v).hold q = s.hold q := rfl
@[simp] theorem State.unit_setMem (s : State) (v : MemController) (q : PortId) : (s.setMem v).unit q = s.unit q := rfl
@[simp] theorem State.readyList_setMem (s : State) (v : MemController) (q : PortId) (d : ClassId) : (s.setMem v).readyList q d = s.readyList q d := rfl
@[simp] theorem State.mem_setMem (s : State) (v : MemController) : (s.setMem v).mem = v := rfl
@[simp] theorem State.setMem_setMem (s : State) (v w : MemController) : (s.setMem v).setMem w = s.setMem w := rfl
@[simp] theorem State.setMem_self (s : State) : s.setMem s.mem = s := rfl

/-! ## setMgmt -/

@[simp] theorem State.pending_setMgmt (s : State) (v : Management) : (s.setMgmt v).pending = s.pending := rfl
@[simp] theorem State.config_setMgmt (s : State) (v : Management) : (s.setMgmt v).config = s.config := rfl
@[simp] theorem State.pool_setMgmt (s : State) (v : Management) : (s.setMgmt v).pool = s.pool := rfl
@[simp] theorem State.flows_setMgmt (s : State) (v : Management) : (s.setMgmt v).flows = s.flows := rfl
@[simp] theorem State.slots_setMgmt (s : State) (v : Management) : (s.setMgmt v).slots = s.slots := rfl
@[simp] theorem State.hand_setMgmt (s : State) (v : Management) : (s.setMgmt v).hand = s.hand := rfl
@[simp] theorem State.pinnedOrHeld_setMgmt (s : State) (v : Management) : (s.setMgmt v).pinnedOrHeld = s.pinnedOrHeld := rfl
@[simp] theorem State.missWait_setMgmt (s : State) (v : Management) : (s.setMgmt v).missWait = s.missWait := rfl
@[simp] theorem State.linkWait_setMgmt (s : State) (v : Management) : (s.setMgmt v).linkWait = s.linkWait := rfl
@[simp] theorem State.asms_setMgmt (s : State) (v : Management) : (s.setMgmt v).asms = s.asms := rfl
@[simp] theorem State.dels_setMgmt (s : State) (v : Management) : (s.setMgmt v).dels = s.dels := rfl
@[simp] theorem State.holds_setMgmt (s : State) (v : Management) : (s.setMgmt v).holds = s.holds := rfl
@[simp] theorem State.lists_setMgmt (s : State) (v : Management) : (s.setMgmt v).lists = s.lists := rfl
@[simp] theorem State.units_setMgmt (s : State) (v : Management) : (s.setMgmt v).units = s.units := rfl
@[simp] theorem State.mem_setMgmt (s : State) (v : Management) : (s.setMgmt v).mem = s.mem := rfl
@[simp] theorem State.sram_setMgmt (s : State) (v : Management) : (s.setMgmt v).sram = s.sram := rfl
@[simp] theorem State.damage_setMgmt (s : State) (v : Management) : (s.setMgmt v).damage = s.damage := rfl
@[simp] theorem State.retryDue_setMgmt (s : State) (v : Management) : (s.setMgmt v).retryDue = s.retryDue := rfl
@[simp] theorem State.handed_setMgmt (s : State) (v : Management) : (s.setMgmt v).handed = s.handed := rfl
@[simp] theorem State.drawn_setMgmt (s : State) (v : Management) : (s.setMgmt v).drawn = s.drawn := rfl
@[simp] theorem State.flow_setMgmt (s : State) (v : Management) (g : FlowId) : (s.setMgmt v).flow g = s.flow g := rfl
@[simp] theorem State.slot_setMgmt (s : State) (v : Management) (T : SlotId) : (s.setMgmt v).slot T = s.slot T := rfl
@[simp] theorem State.asm_setMgmt (s : State) (v : Management) (q : PortId) : (s.setMgmt v).asm q = s.asm q := rfl
@[simp] theorem State.del_setMgmt (s : State) (v : Management) (q : PortId) : (s.setMgmt v).del q = s.del q := rfl
@[simp] theorem State.hold_setMgmt (s : State) (v : Management) (q : PortId) : (s.setMgmt v).hold q = s.hold q := rfl
@[simp] theorem State.unit_setMgmt (s : State) (v : Management) (q : PortId) : (s.setMgmt v).unit q = s.unit q := rfl
@[simp] theorem State.readyList_setMgmt (s : State) (v : Management) (q : PortId) (d : ClassId) : (s.setMgmt v).readyList q d = s.readyList q d := rfl
@[simp] theorem State.mgmt_setMgmt (s : State) (v : Management) : (s.setMgmt v).mgmt = v := rfl
@[simp] theorem State.setMgmt_setMgmt (s : State) (v w : Management) : (s.setMgmt v).setMgmt w = s.setMgmt w := rfl
@[simp] theorem State.setMgmt_self (s : State) : s.setMgmt s.mgmt = s := rfl

/-! ## dueRetry -/

@[simp] theorem State.pending_dueRetry (s : State) : s.dueRetry.pending = s.pending := rfl
@[simp] theorem State.mgmt_dueRetry (s : State) : s.dueRetry.mgmt = s.mgmt := rfl
@[simp] theorem State.config_dueRetry (s : State) : s.dueRetry.config = s.config := rfl
@[simp] theorem State.pool_dueRetry (s : State) : s.dueRetry.pool = s.pool := rfl
@[simp] theorem State.flows_dueRetry (s : State) : s.dueRetry.flows = s.flows := rfl
@[simp] theorem State.slots_dueRetry (s : State) : s.dueRetry.slots = s.slots := rfl
@[simp] theorem State.hand_dueRetry (s : State) : s.dueRetry.hand = s.hand := rfl
@[simp] theorem State.pinnedOrHeld_dueRetry (s : State) : s.dueRetry.pinnedOrHeld = s.pinnedOrHeld := rfl
@[simp] theorem State.missWait_dueRetry (s : State) : s.dueRetry.missWait = s.missWait := rfl
@[simp] theorem State.linkWait_dueRetry (s : State) : s.dueRetry.linkWait = s.linkWait := rfl
@[simp] theorem State.asms_dueRetry (s : State) : s.dueRetry.asms = s.asms := rfl
@[simp] theorem State.dels_dueRetry (s : State) : s.dueRetry.dels = s.dels := rfl
@[simp] theorem State.holds_dueRetry (s : State) : s.dueRetry.holds = s.holds := rfl
@[simp] theorem State.lists_dueRetry (s : State) : s.dueRetry.lists = s.lists := rfl
@[simp] theorem State.units_dueRetry (s : State) : s.dueRetry.units = s.units := rfl
@[simp] theorem State.mem_dueRetry (s : State) : s.dueRetry.mem = s.mem := rfl
@[simp] theorem State.sram_dueRetry (s : State) : s.dueRetry.sram = s.sram := rfl
@[simp] theorem State.damage_dueRetry (s : State) : s.dueRetry.damage = s.damage := rfl
@[simp] theorem State.handed_dueRetry (s : State) : s.dueRetry.handed = s.handed := rfl
@[simp] theorem State.drawn_dueRetry (s : State) : s.dueRetry.drawn = s.drawn := rfl
@[simp] theorem State.flow_dueRetry (s : State) (g : FlowId) : s.dueRetry.flow g = s.flow g := rfl
@[simp] theorem State.slot_dueRetry (s : State) (T : SlotId) : s.dueRetry.slot T = s.slot T := rfl
@[simp] theorem State.asm_dueRetry (s : State) (q : PortId) : s.dueRetry.asm q = s.asm q := rfl
@[simp] theorem State.del_dueRetry (s : State) (q : PortId) : s.dueRetry.del q = s.del q := rfl
@[simp] theorem State.hold_dueRetry (s : State) (q : PortId) : s.dueRetry.hold q = s.hold q := rfl
@[simp] theorem State.unit_dueRetry (s : State) (q : PortId) : s.dueRetry.unit q = s.unit q := rfl
@[simp] theorem State.readyList_dueRetry (s : State) (q : PortId) (d : ClassId) : s.dueRetry.readyList q d = s.readyList q d := rfl
@[simp] theorem State.retryDue_dueRetry (s : State) : s.dueRetry.retryDue = true := rfl

/-! ## Reading slots back -/

@[simp] theorem State.slot_setSlot_self (s : State) (i : SlotId) (v : Slot) : (s.setSlot i v).slot i = v := by
  simp [State.setSlot, State.slot]
theorem State.slot_setSlot_ne (s : State) {i j : SlotId} (v : Slot) (h : j ≠ i) : (s.setSlot i v).slot j = s.slot j := by
  have : (i : Nat) ≠ j := fun e => h (Fin.ext e.symm)
  simp [State.setSlot, State.slot, Vector.getElem_set_ne, this]
theorem State.slot_setSlot (s : State) (i j : SlotId) (v : Slot) :
    (s.setSlot i v).slot j = if j = i then v else s.slot j := by
  split
  · next h => subst h; simp
  · next h => exact State.slot_setSlot_ne s v h
@[simp] theorem State.setSlot_setSlot (s : State) (i : SlotId) (v w : Slot) : (s.setSlot i v).setSlot i w = s.setSlot i w := by
  simp [State.setSlot]
@[simp] theorem State.setSlot_slot (s : State) (i : SlotId) : s.setSlot i (s.slot i) = s := by
  simp [State.setSlot, State.slot]

/-! ## Reading asms back -/

@[simp] theorem State.asm_setAsm_self (s : State) (i : PortId) (v : Assembly) : (s.setAsm i v).asm i = v := by
  simp [State.setAsm, State.asm]
theorem State.asm_setAsm_ne (s : State) {i j : PortId} (v : Assembly) (h : j ≠ i) : (s.setAsm i v).asm j = s.asm j := by
  have : (i : Nat) ≠ j := fun e => h (Fin.ext e.symm)
  simp [State.setAsm, State.asm, Vector.getElem_set_ne, this]
theorem State.asm_setAsm (s : State) (i j : PortId) (v : Assembly) :
    (s.setAsm i v).asm j = if j = i then v else s.asm j := by
  split
  · next h => subst h; simp
  · next h => exact State.asm_setAsm_ne s v h
@[simp] theorem State.setAsm_setAsm (s : State) (i : PortId) (v w : Assembly) : (s.setAsm i v).setAsm i w = s.setAsm i w := by
  simp [State.setAsm]
@[simp] theorem State.setAsm_asm (s : State) (i : PortId) : s.setAsm i (s.asm i) = s := by
  simp [State.setAsm, State.asm]

/-! ## Reading dels back -/

@[simp] theorem State.del_setDel_self (s : State) (i : PortId) (v : Delivery) : (s.setDel i v).del i = v := by
  simp [State.setDel, State.del]
theorem State.del_setDel_ne (s : State) {i j : PortId} (v : Delivery) (h : j ≠ i) : (s.setDel i v).del j = s.del j := by
  have : (i : Nat) ≠ j := fun e => h (Fin.ext e.symm)
  simp [State.setDel, State.del, Vector.getElem_set_ne, this]
theorem State.del_setDel (s : State) (i j : PortId) (v : Delivery) :
    (s.setDel i v).del j = if j = i then v else s.del j := by
  split
  · next h => subst h; simp
  · next h => exact State.del_setDel_ne s v h
@[simp] theorem State.setDel_setDel (s : State) (i : PortId) (v w : Delivery) : (s.setDel i v).setDel i w = s.setDel i w := by
  simp [State.setDel]
@[simp] theorem State.setDel_del (s : State) (i : PortId) : s.setDel i (s.del i) = s := by
  simp [State.setDel, State.del]

/-! ## Reading holds back -/

@[simp] theorem State.hold_setHold_self (s : State) (i : PortId) (v : Hold) : (s.setHold i v).hold i = v := by
  simp [State.setHold, State.hold]
theorem State.hold_setHold_ne (s : State) {i j : PortId} (v : Hold) (h : j ≠ i) : (s.setHold i v).hold j = s.hold j := by
  have : (i : Nat) ≠ j := fun e => h (Fin.ext e.symm)
  simp [State.setHold, State.hold, Vector.getElem_set_ne, this]
theorem State.hold_setHold (s : State) (i j : PortId) (v : Hold) :
    (s.setHold i v).hold j = if j = i then v else s.hold j := by
  split
  · next h => subst h; simp
  · next h => exact State.hold_setHold_ne s v h
@[simp] theorem State.setHold_setHold (s : State) (i : PortId) (v w : Hold) : (s.setHold i v).setHold i w = s.setHold i w := by
  simp [State.setHold]
@[simp] theorem State.setHold_hold (s : State) (i : PortId) : s.setHold i (s.hold i) = s := by
  simp [State.setHold, State.hold]

/-! ## Reading units back -/

@[simp] theorem State.unit_setUnit_self (s : State) (i : PortId) (v : PortUnit) : (s.setUnit i v).unit i = v := by
  simp [State.setUnit, State.unit]
theorem State.unit_setUnit_ne (s : State) {i j : PortId} (v : PortUnit) (h : j ≠ i) : (s.setUnit i v).unit j = s.unit j := by
  have : (i : Nat) ≠ j := fun e => h (Fin.ext e.symm)
  simp [State.setUnit, State.unit, Vector.getElem_set_ne, this]
theorem State.unit_setUnit (s : State) (i j : PortId) (v : PortUnit) :
    (s.setUnit i v).unit j = if j = i then v else s.unit j := by
  split
  · next h => subst h; simp
  · next h => exact State.unit_setUnit_ne s v h
@[simp] theorem State.setUnit_setUnit (s : State) (i : PortId) (v w : PortUnit) : (s.setUnit i v).setUnit i w = s.setUnit i w := by
  simp [State.setUnit]
@[simp] theorem State.setUnit_unit (s : State) (i : PortId) : s.setUnit i (s.unit i) = s := by
  simp [State.setUnit, State.unit]

end Sys2Proof.Machine
end

