-- ==== Sys2Proof/Laws/Tables.lean ====
section
/-! SUPPORT. The tables and the SRAM: what a read gives after a write, and that every operation keeps the canonical form. -/

namespace Sys2Proof.Machine

/-! ## Tables: reading back -/

theorem Table.find?_insert {α : Type} (t : List (Nat × α)) (i : Nat) (x : α) (j : Nat) :
    Table.find? (Table.insert t i x) j = if j = i then some x else Table.find? t j := by
  induction t with
  | nil => simp [Table.insert, Table.find?]
  | cons e t ih =>
    obtain ⟨k, v⟩ := e
    unfold Table.insert
    split
    · simp [Table.find?]
    · split
      · next h => subst h; by_cases hj : j = i <;> simp [Table.find?, hj]
      · next h1 h2 =>
        by_cases hk : j = k
        · have : j ≠ i := fun e => h2 (e.symm.trans hk)
          simp [Table.find?, hk, show k ≠ i from fun e => h2 e.symm]
        · simp [Table.find?, hk, ih]

theorem Table.find?_erase {α : Type} (t : List (Nat × α)) (i j : Nat) :
    Table.find? (Table.erase t i) j = if j = i then none else Table.find? t j := by
  induction t with
  | nil => simp [Table.erase, Table.find?]
  | cons e t ih =>
    obtain ⟨k, v⟩ := e
    unfold Table.erase
    split
    · next h => subst h; rw [ih]; by_cases hj : j = i <;> simp [Table.find?, hj]
    · next h =>
      by_cases hk : j = k
      · simp [Table.find?, hk, show k ≠ i from fun e => h e.symm]
      · simp [Table.find?, hk, ih]

theorem Table.get_put {α : Type} [DecidableEq α] (d : α) (t : List (Nat × α)) (i : Nat) (x : α) (j : Nat) :
    Table.get d (Table.put d t i x) j = if j = i then x else Table.get d t j := by
  unfold Table.put Table.get
  split
  · next h => rw [Table.find?_erase]; by_cases hj : j = i <;> simp [hj, h]
  · rw [Table.find?_insert]; by_cases hj : j = i <;> simp [hj]

@[simp] theorem Table.get_put_self {α : Type} [DecidableEq α] (d : α) (t : List (Nat × α)) (i : Nat) (x : α) :
    Table.get d (Table.put d t i x) i = x := by simp [Table.get_put]

/-! ## Tables: the canonical form -/

/-- A table whose keys all lie above a bound, or has no bound. -/
theorem Table.risingFrom_cons {α : Type} (lo : Option Nat) (k : Nat) (v : α) (t : List (Nat × α)) :
    Table.risingFrom lo ((k, v) :: t) = true ↔ (∀ b, lo = some b → b < k) ∧ Table.risingFrom (some k) t = true := by
  cases lo <;> simp [Table.risingFrom]

theorem Table.risingFrom_weaken {α : Type} {lo lo' : Option Nat} {t : List (Nat × α)}
    (h : Table.risingFrom lo t = true) (hl : ∀ b, lo' = some b → ∃ c, lo = some c ∧ b ≤ c) :
    Table.risingFrom lo' t = true := by
  cases t with
  | nil => cases lo' <;> rfl
  | cons e t =>
    obtain ⟨k, v⟩ := e
    rw [Table.risingFrom_cons] at h ⊢
    refine ⟨fun b hb => ?_, h.2⟩
    obtain ⟨c, hc, hbc⟩ := hl b hb
    exact Nat.lt_of_le_of_lt hbc (h.1 c hc)

theorem Table.risingFrom_insert {α : Type} (t : List (Nat × α)) (i : Nat) (x : α) (lo : Option Nat)
    (hlo : ∀ b, lo = some b → b < i) (h : Table.risingFrom lo t = true) :
    Table.risingFrom lo (Table.insert t i x) = true := by
  induction t generalizing lo with
  | nil => simpa [Table.insert, Table.risingFrom_cons, Table.risingFrom] using hlo
  | cons e t ih =>
    obtain ⟨k, v⟩ := e
    rw [Table.risingFrom_cons] at h
    unfold Table.insert
    split
    · next hik => simp only [Table.risingFrom_cons]; exact ⟨hlo, fun b hb => by simp at hb; omega, h.2⟩
    · split
      · next hik => subst hik; rw [Table.risingFrom_cons]; exact ⟨hlo, h.2⟩
      · next h1 h2 =>
        rw [Table.risingFrom_cons]
        exact ⟨h.1, ih (some k) (fun b hb => by simp at hb; omega) h.2⟩

theorem Table.risingFrom_erase {α : Type} (t : List (Nat × α)) (i : Nat) (lo : Option Nat)
    (h : Table.risingFrom lo t = true) : Table.risingFrom lo (Table.erase t i) = true := by
  induction t generalizing lo with
  | nil => simpa [Table.erase] using h
  | cons e t ih =>
    obtain ⟨k, v⟩ := e
    rw [Table.risingFrom_cons] at h
    unfold Table.erase
    split
    · exact ih lo (Table.risingFrom_weaken h.2 (fun b hb => ⟨k, rfl, Nat.le_of_lt (h.1 b hb)⟩))
    · rw [Table.risingFrom_cons]; exact ⟨h.1, ih (some k) h.2⟩

theorem Table.mem_insert {α : Type} {t : List (Nat × α)} {i : Nat} {x : α} {e : Nat × α}
    (h : e ∈ Table.insert t i x) : e = (i, x) ∨ e ∈ t := by
  induction t with
  | nil => simpa [Table.insert] using h
  | cons e' t ih =>
    obtain ⟨k, v⟩ := e'
    unfold Table.insert at h
    split at h
    · simpa using h
    · split at h
      · simp only [List.mem_cons] at h ⊢
        exact h.imp id (fun m => Or.inr m)
      · simp only [List.mem_cons] at h ⊢
        rcases h with h | h
        · exact Or.inr (Or.inl h)
        · exact (ih h).imp id Or.inr

theorem Table.mem_of_mem_erase {α : Type} {t : List (Nat × α)} {i : Nat} {e : Nat × α}
    (h : e ∈ Table.erase t i) : e ∈ t := by
  induction t with
  | nil => simp [Table.erase] at h
  | cons e' t ih =>
    obtain ⟨k, v⟩ := e'
    unfold Table.erase at h
    split at h
    · exact List.mem_cons_of_mem _ (ih h)
    · simp only [List.mem_cons] at h ⊢
      exact h.imp id ih

/-- Giving a table a value keeps its canonical form. -/
theorem Table.wf_put {α : Type} [DecidableEq α] (d : Nat → α) (t : List (Nat × α)) (i : Nat) (x : α)
    (h : Table.wf d t = true) : Table.wf d (Table.put (d i) t i x) = true := by
  simp only [Table.wf, Bool.and_eq_true, List.all_eq_true, decide_eq_true_eq] at h ⊢
  unfold Table.put
  split
  · exact ⟨Table.risingFrom_erase t i none h.1, fun e he => h.2 e (Table.mem_of_mem_erase he)⟩
  · next hx =>
    refine ⟨Table.risingFrom_insert t i x none (by simp) h.1, fun e he => ?_⟩
    rcases Table.mem_insert he with rfl | he
    · exact hx
    · exact h.2 e he

/-! ## SRAM bytes -/

/-- The SRAM's canonical form is kept by the write of a byte. -/
theorem Memory.wf_write (m : List Host.Cell) (a : Nat) (b : Byte) (h : Memory.wf m = true) :
    Memory.wf (Memory.write m a b) = true := Table.risingFrom_insert m a b none (by simp) h

/-- The SRAM's canonical form is kept when a byte is forgotten. -/
theorem Memory.wf_forget (m : List Host.Cell) (a : Nat) (h : Memory.wf m = true) :
    Memory.wf (Memory.forget m a) = true := Table.risingFrom_erase m a none h

theorem Memory.wf_foldl (f : List Host.Cell → Nat → List Host.Cell)
    (hf : ∀ m i, Memory.wf m = true → Memory.wf (f m i) = true) (l : List Nat) (m : List Host.Cell)
    (h : Memory.wf m = true) : Memory.wf (l.foldl f m) = true := by
  induction l generalizing m with
  | nil => exact h
  | cons i l ih => exact ih _ (hf m i h)

/-- The SRAM's canonical form is kept by the write of a word. -/
theorem Memory.wf_writeWord (m : List Host.Cell) (a : Nat) (w : Word64) (h : Memory.wf m = true) :
    Memory.wf (Memory.writeWord m a w) = true :=
  Memory.wf_foldl _ (fun m i => Memory.wf_write m (8 * a + i) (wordByte w i)) _ m h

/-- The SRAM's canonical form is kept when a word is forgotten. -/
theorem Memory.wf_forgetWord (m : List Host.Cell) (a : Nat) (h : Memory.wf m = true) :
    Memory.wf (Memory.forgetWord m a) = true :=
  Memory.wf_foldl _ (fun m i => Memory.wf_forget m (8 * a + i)) _ m h

/-- What a byte reads as after the write of a byte. -/
theorem Memory.read_write (m : List Host.Cell) (a : Nat) (b : Byte) (j : Nat) :
    Memory.read (Memory.write m a b) j = if j = a then some b else Memory.read m j := Table.find?_insert m a b j

/-- What a byte reads as after a byte is forgotten. -/
theorem Memory.read_forget (m : List Host.Cell) (a j : Nat) :
    Memory.read (Memory.forget m a) j = if j = a then none else Memory.read m j := Table.find?_erase m a j

theorem Memory.read_writes (g : Nat → Byte) (a n : Nat) (m : List Host.Cell) (j : Nat) :
    Memory.read ((List.range n).foldl (fun m i => Memory.write m (a + i) (g i)) m) j =
      if a ≤ j ∧ j < a + n then some (g (j - a)) else Memory.read m j := by
  induction n with
  | zero =>
    have : ¬(a ≤ j ∧ j < a + 0) := by omega
    rw [if_neg this]; rfl
  | succ n ih =>
    rw [List.range_succ, List.foldl_append]
    simp only [List.foldl_cons, List.foldl_nil, Memory.read_write, ih]
    by_cases h : j = a + n
    · subst h; simp
    · by_cases h2 : a ≤ j ∧ j < a + n
      · rw [if_neg h, if_pos h2, if_pos (by omega)]
      · rw [if_neg h, if_neg h2, if_neg (by omega)]

/-- What a byte reads as after the write of a word. -/
theorem Memory.read_writeWord (m : List Host.Cell) (a : Nat) (w : Word64) (j : Nat) :
    Memory.read (Memory.writeWord m a w) j =
      if 8 * a ≤ j ∧ j < 8 * a + 8 then some (wordByte w (j - 8 * a)) else Memory.read m j :=
  Memory.read_writes (wordByte w) (8 * a) 8 m j

/-! ## The flow map -/

theorem State.flow_setFlow (s : State) (f g : FlowId) (e : FlowEntry) :
    (s.setFlow f e).flow g = if g = f then e else s.flow g := by
  simp only [State.setFlow, State.flow, Table.get_put, Fin.ext_iff]

@[simp] theorem State.flow_setFlow_self (s : State) (f : FlowId) (e : FlowEntry) : (s.setFlow f e).flow f = e := by
  simp [State.flow_setFlow]

theorem State.flow_setFlow_ne (s : State) {f g : FlowId} (e : FlowEntry) (h : g ≠ f) :
    (s.setFlow f e).flow g = s.flow g := by simp [State.flow_setFlow, h]

/-! ## Ready lists and tags -/

theorem State.readyList_setReadyList (s : State) (p q : PortId) (c d : ClassId) (v : ClassList) :
    (s.setReadyList p c v).readyList q d = if q = p ∧ d = c then v else s.readyList q d := by
  simp only [State.setReadyList, State.readyList, Fin.getElem_fin, Vector.getElem_set]
  by_cases hq : q = p
  · subst hq
    by_cases hd : d = c
    · subst hd; simp
    · have : (c : Nat) ≠ d := fun e => hd (Fin.ext e.symm)
      simp [hd, this]
  · have : (p : Nat) ≠ q := fun e => hq (Fin.ext e.symm)
    simp [hq, this]

theorem PortUnit.tag_setTag (u : PortUnit) (t r : TagId) (v : TagRecord) :
    (u.setTag t v).tag r = if r = t then v else u.tag r := by
  simp only [PortUnit.setTag, PortUnit.tag, Fin.getElem_fin, Vector.getElem_set]
  by_cases h : r = t
  · subst h; simp
  · have : (t : Nat) ≠ r := fun e => h (Fin.ext e.symm)
    simp [h, this]

@[simp] theorem PortUnit.tag_setTag_self (u : PortUnit) (t : TagId) (v : TagRecord) : (u.setTag t v).tag t = v := by
  simp [PortUnit.tag_setTag]

@[simp] theorem PortUnit.setTag_setTag (u : PortUnit) (t : TagId) (v w : TagRecord) :
    (u.setTag t v).setTag t w = u.setTag t w := by simp [PortUnit.setTag]

end Sys2Proof.Machine
end

