-- ==== Sys2Proof/Laws/Works.lean ====
section
/-! SUPPORT. What the operations of an event can do: the small changes they are made of, and that each operation is made of these. A property that every small change keeps is kept by every operation. -/

namespace Sys2Proof.Machine

/-! ## The small changes -/

/-- A pool that has the link table's canonical form if another has it, over the same sweep. -/
def Pool.Kept (P Q : Pool) : Prop :=
  Q.swept = P.swept ∧
    (Table.wf (sweptEntry P.swept) P.links = true → Table.wf (sweptEntry P.swept) Q.links = true)

/-- The reservations and the assembly records agree (R36). -/
def State.pooled (s : State) : Prop := s.reservedWhole ∧ s.assembliesWhole

/-- A record that is neither ADMITTING nor ASSEMBLING. -/
def Assembly.idles (a : Assembly) : Prop := a.state ≠ .admitting ∧ a.state ≠ .assembling

/-- One small change of an event that leaves the port's inbound side, its state and the device state as they are. -/
inductive Work : State → State → Prop
  | flow (s f e) : Work s (s.setFlow f e)
  | slot (s S v) : Work s (s.setSlot S v)
  | asm (s : State) (p : PortId) (v : Assembly) (P : Pool) (h : s.pool.Kept P)
      (hw : s.pooled → ((s.setPool P).setAsm p v).pooled) (hi : (s.asm p).idles → v.idles) :
      Work s ((s.setPool P).setAsm p v)
  | del (s p v) : Work s (s.setDel p v)
  | holdNew (s : State) (p : PortId) (v : Hold)
      (h : v.state ≠ .empty → ∀ q, (s.hold q).state ≠ .empty → (s.hold q).flow ≠ v.flow) : Work s (s.setHold p v)
  | holdSame (s : State) (p : PortId) (v : Hold)
      (h : v.state ≠ .empty → (s.hold p).state ≠ .empty ∧ v.flow = (s.hold p).flow) : Work s (s.setHold p v)
  | list (s p c v) : Work s (s.setReadyList p c v)
  | unit (s : State) (p : PortId) (u : PortUnit) (h1 : u.state = (s.unit p).state)
      (h2 : u.lastFault = (s.unit p).lastFault) (h3 : u.inbound = (s.unit p).inbound)
      (h4 : u.inboundCredits = (s.unit p).inboundCredits)
      (h5 : (s.unit p).state ≠ .up → u.outbound = (s.unit p).outbound ∨ u.outbound = []) : Work s (s.setUnit p u)
  | pool (s : State) (P : Pool) (h : s.pool.Kept P) (hr : P.reserved = s.pool.reserved) (hf : s.pool.free ≤ P.free) :
      Work s (s.setPool P)
  | mem (s m) : Work s (s.setMem m)
  | gathered (s : State) (m n) : Work s { s with mem := m, handed := n }
  | mgmt (s : State) (m : Management) (h : m.device = s.mgmt.device) : Work s (s.setMgmt m)
  | retry (s : State) (b) : Work s { s with retryDue := b }
  | hand (s : State) (S) : Work s { s with hand := S }
  | count (s : State) (n) (h : n ≤ s.pinnedOrHeld ∨ n ≤ 48) : Work s { s with pinnedOrHeld := n }
  | miss (s : State) (q) (h : q.length ≤ s.missWait.length ∨ q.length ≤ 16) : Work s { s with missWait := q }
  | link (s : State) (q) : Work s { s with linkWait := q }
  | sram (s a w) : Work s (s.writeSram a w)

/-! ## The reservations -/

/-- A state with the same records in the same device state, as much reserved and no less free. -/
theorem State.pooled_of_same {s t : State} (h : s.pooled) (ha : t.asms = s.asms)
    (hd : t.mgmt.device = s.mgmt.device) (hr : t.pool.reserved = s.pool.reserved) (hf : s.pool.free ≤ t.pool.free) :
    t.pooled := by
  have e : ∀ p, t.asm p = s.asm p := fun p => by unfold State.asm; rw [ha]
  refine ⟨⟨?_, by rw [hr]; exact Nat.le_trans h.1.2 hf⟩, fun p => ?_⟩
  · simp only [e, hr]; exact h.1.1
  · rw [e, hd]; exact h.2 p

/-- The sum over the records when one of them changes. -/
theorem State.reservations_setAsm (s : State) (p : PortId) (v : Assembly) :
    (allPorts.map (fun q => ((s.setAsm p v).asm q).reservation)).sum + (s.asm p).reservation =
      (allPorts.map (fun q => (s.asm q).reservation)).sum + v.reservation := by
  fin_cases p <;> simp [allPorts, State.asm_setAsm] <;> omega

/-- A record and the pool change together: what the pool reserves follows what the record holds. -/
theorem State.pooled_setAsm {s : State} {p : PortId} {v : Assembly} {P : Pool} (h : s.pooled)
    (hr : P.reserved + (s.asm p).reservation = s.pool.reserved + v.reservation) (hf : P.reserved ≤ P.free)
    (hv : v.whole s.mgmt.device) : ((s.setPool P).setAsm p v).pooled := by
  have e := State.reservations_setAsm (s.setPool P) p v
  have e0 := h.1.1
  refine ⟨⟨?_, hf⟩, fun q => ?_⟩
  · simp only [State.pool_setAsm, State.pool_setPool, State.asm_setPool] at e ⊢
    omega
  · rw [State.asm_setAsm]
    split
    · exact hv
    · exact h.2 q

theorem Assembly.idles_initial : Assembly.initial.idles := ⟨by decide, by decide⟩

/-- Any number of small changes, one after another. -/
def Works : State → State → Prop := Relation.ReflTransGen Work

theorem Works.refl (s : State) : Works s s := Relation.ReflTransGen.refl

theorem Works.trans {s t u : State} (h : Works s t) (k : Works t u) : Works s u := Relation.ReflTransGen.trans h k

theorem Works.tail {s t u : State} (h : Works s t) (k : Work t u) : Works s u := Relation.ReflTransGen.tail h k

/-- What every small change keeps, any number of them keep. -/
theorem Works.keeps {s t : State} (P : State → Prop) (step : ∀ a b, Work a b → P a → P b) (h : Works s t) (hs : P s) :
    P t := by
  induction h with
  | refl => exact hs
  | tail _ k ih => exact step _ _ k ih

variable {s t : State}

theorem Works.setFlow {f e} (h : Works s t) : Works s (t.setFlow f e) := h.tail (.flow _ _ _)
theorem Works.setSlot {S v} (h : Works s t) : Works s (t.setSlot S v) := h.tail (.slot _ _ _)
/-- A record changes and still holds as much of the reserved count. -/
theorem Works.setAsm {p} {v : Assembly} (h : Works s t)
    (hr : (t.asm p).whole t.mgmt.device → v.reservation = (t.asm p).reservation ∧ v.whole t.mgmt.device)
    (hi : (t.asm p).idles → v.idles) : Works s (t.setAsm p v) :=
  h.tail (.asm t p v t.pool ⟨rfl, id⟩
    (fun w => State.pooled_setAsm w (by rw [(hr (w.2 p)).1]) w.1.2 (hr (w.2 p)).2) hi)
/-- A record changes in its gap timer and its count of writes. -/
theorem Works.setAsmAside {p} {v : Assembly} (h : Works s t)
    (hv : v = { t.asm p with gapTimer := v.gapTimer, writesOutstanding := v.writesOutstanding }) :
    Works s (t.setAsm p v) := by
  rw [hv]; exact h.setAsm (fun w => ⟨rfl, w⟩) id
/-- A record that is neither before nor after a change an assembly. -/
theorem Works.setAsmIdle {p} {v : Assembly} (h : Works s t) (h0 : (t.asm p).state ≠ .assembling) (hv : v.idles) :
    Works s (t.setAsm p v) :=
  h.setAsm (fun _ => ⟨by simp [Assembly.reservation, h0, hv.2], by simp [Assembly.whole, hv.1, hv.2]⟩) (fun _ => hv)
theorem Works.setDel {p v} (h : Works s t) : Works s (t.setDel p v) := h.tail (.del _ _ _)
theorem Works.setReadyList {p c v} (h : Works s t) : Works s (t.setReadyList p c v) := h.tail (.list _ _ _ _)
theorem Works.setMem {m} (h : Works s t) : Works s (t.setMem m) := h.tail (.mem _ _)
theorem Works.dueRetry (h : Works s t) : Works s t.dueRetry := h.tail (.retry _ _)
theorem Works.clearHold {p} (h : Works s t) : Works s (t.setHold p Hold.initial) :=
  h.tail (.holdSame _ _ _ (fun k => absurd rfl k))
theorem Works.linkWaitIs {q} (h : Works s t) : Works s { t with linkWait := q } := h.tail (.link _ _)
theorem Works.countFalls (h : Works s t) : Works s { t with pinnedOrHeld := t.pinnedOrHeld - 1 } :=
  h.tail (.count _ _ (Or.inl (Nat.sub_le _ _)))
theorem Works.writeSram {a w} (h : Works s t) : Works s (t.writeSram a w) := h.tail (.sram _ _ _)

theorem Works.foldl {α : Type} (f : State → α → State) (hf : ∀ {u : State} (x : α), Works s u → Works s (f u x))
    (l : List α) (h : Works s t) : Works s (l.foldl f t) := by
  induction l generalizing t with
  | nil => exact h
  | cons x l ih => exact ih (hf x h)

theorem Works.ite {c : Prop} [Decidable c] {a b : State} (ha : Works s a) (hb : Works s b) :
    Works s (if c then a else b) := by split <;> assumption

/-! ## Pools -/

theorem Pool.Kept.refl (P : Pool) : P.Kept P := ⟨rfl, id⟩

theorem Pool.Kept.trans {P Q R : Pool} (h : P.Kept Q) (k : Q.Kept R) : P.Kept R := by
  refine ⟨k.1.trans h.1, fun w => ?_⟩
  have := k.2 (by rw [h.1]; exact h.2 w)
  rwa [h.1] at this

theorem Pool.Kept.scalars {P Q : Pool} (Q' : Pool) (h : P.Kept Q) (h1 : Q'.swept = Q.swept) (h2 : Q'.links = Q.links) :
    P.Kept Q' := by
  refine ⟨h1.trans h.1, fun w => ?_⟩
  rw [h2]; exact h.2 w

theorem Pool.kept_setLink (P : Pool) (n : Nat) (e : LinkEntry) : P.Kept (P.setLink n e) :=
  ⟨rfl, fun w => Table.wf_put (sweptEntry P.swept) P.links n e w⟩

theorem Pool.kept_setNext (P : Pool) (n k : Nat) : P.Kept (P.setNext n k) := P.kept_setLink _ _

theorem Pool.kept_join (P : Pool) (a b : Nat) : P.Kept (P.join a b) := by
  unfold Pool.join; split
  · exact .refl P
  · exact P.kept_setNext _ _

theorem Pool.kept_release (P : Pool) (a b n : Nat) : P.Kept (P.release a b n) := by
  unfold Pool.release; split
  · exact .refl P
  · dsimp only
    refine Pool.Kept.scalars (Q := if (P.setNext b 0).freeHead = 0 then { P.setNext b 0 with freeHead := a }
      else (P.setNext b 0).setNext (P.setNext b 0).freeTail a) _ ?_ rfl rfl
    split
    · exact .scalars _ (P.kept_setNext _ _) rfl rfl
    · exact (P.kept_setNext _ _).trans (Pool.kept_setNext _ _ _)

theorem Pool.kept_allocate (P : Pool) (len k : Nat) : P.Kept (P.allocate len k) := by
  unfold Pool.allocate; dsimp only
  refine Pool.Kept.trans (Pool.Kept.scalars _ (Pool.Kept.refl P) ?_ ?_) (Pool.kept_setLink _ _ _)
  · dsimp only; split <;> rfl
  · dsimp only; split <;> rfl

theorem Works.setPool {P : Pool} (h : Works s t) (k : t.pool.Kept P) (hr : P.reserved = t.pool.reserved)
    (hf : t.pool.free ≤ P.free) : Works s (t.setPool P) := h.tail (.pool _ _ k hr hf)

/-- A pool whose link table is the same. -/
theorem Works.poolScalars {P : Pool} (h : Works s t) (h1 : P.swept = t.pool.swept) (h2 : P.links = t.pool.links)
    (hr : P.reserved = t.pool.reserved) (hf : P.free = t.pool.free) :
    Works s (t.setPool P) := h.setPool (.scalars _ (.refl _) h1 h2) hr (Nat.le_of_eq hf.symm)

/-! ## Port units: the outbound side keeps the inbound side -/

/-- A port unit with the same state, last fault, inbound buffer and inbound credits. -/
def PortUnit.SameInbound (u v : PortUnit) : Prop :=
  v.state = u.state ∧ v.lastFault = u.lastFault ∧ v.inbound = u.inbound ∧ v.inboundCredits = u.inboundCredits

theorem PortUnit.SameInbound.refl (u : PortUnit) : u.SameInbound u := ⟨rfl, rfl, rfl, rfl⟩

theorem PortUnit.SameInbound.trans {u v w : PortUnit} (h : u.SameInbound v) (k : v.SameInbound w) : u.SameInbound w :=
  ⟨k.1.trans h.1, k.2.1.trans h.2.1, k.2.2.1.trans h.2.2.1, k.2.2.2.trans h.2.2.2⟩

theorem PortUnit.sameInbound_placeOne {u v : PortUnit} (h : u.placeOneNotice = some v) : u.SameInbound v := by
  unfold PortUnit.placeOneNotice at h
  split at h
  · simp only [Option.some.injEq] at h; subst h; exact ⟨rfl, rfl, rfl, rfl⟩
  · split at h
    · simp only [Option.some.injEq] at h; subst h; exact ⟨rfl, rfl, rfl, rfl⟩
    · split at h
      · simp at h
      · simp only [Option.some.injEq] at h; subst h; exact ⟨rfl, rfl, rfl, rfl⟩

theorem PortUnit.sameInbound_placeNotices (n : Nat) (u : PortUnit) : u.SameInbound (u.placeNotices n) := by
  induction n generalizing u with
  | zero => exact .refl u
  | succ n ih =>
    unfold PortUnit.placeNotices
    split
    · split
      · next h => exact (PortUnit.sameInbound_placeOne h).trans (ih _)
      · exact .refl u
    · exact .refl u

theorem PortUnit.sameInbound_noticesPlaced (u : PortUnit) : u.SameInbound u.noticesPlaced :=
  PortUnit.sameInbound_placeNotices _ u

theorem PortUnit.sameInbound_displaced (u : PortUnit) : u.SameInbound u.displaced := by
  unfold PortUnit.displaced; split <;> exact ⟨rfl, rfl, rfl, rfl⟩

theorem PortUnit.sameInbound_place (m : OutMsg) (u : PortUnit) : u.SameInbound (u.place m) := by
  unfold PortUnit.place
  split
  · exact .refl u
  · split
    · exact ⟨rfl, rfl, rfl, rfl⟩
    · exact (u.sameInbound_displaced.trans ⟨rfl, rfl, rfl, rfl⟩).trans (PortUnit.sameInbound_noticesPlaced _)

theorem PortUnit.sameInbound_raise (n : Notice) (u : PortUnit) : u.SameInbound (u.raise n) := by
  unfold PortUnit.raise
  split
  · exact .refl u
  · split
    · exact PortUnit.SameInbound.trans ⟨rfl, rfl, rfl, rfl⟩ (PortUnit.sameInbound_noticesPlaced _)
    · exact PortUnit.SameInbound.trans ⟨rfl, rfl, rfl, rfl⟩ (PortUnit.sameInbound_noticesPlaced _)
    · split
      · exact PortUnit.SameInbound.trans ⟨rfl, rfl, rfl, rfl⟩ (PortUnit.sameInbound_noticesPlaced _)
      · exact PortUnit.SameInbound.trans ⟨rfl, rfl, rfl, rfl⟩ (PortUnit.sameInbound_noticesPlaced _)

theorem PortUnit.sameInbound_currentEnded (u : PortUnit) (r : TagId) : u.SameInbound (u.currentEnded r) := by
  unfold PortUnit.currentEnded; split <;> exact ⟨rfl, rfl, rfl, rfl⟩

/-- A port unit with the same inbound side, to whose outbound queue nothing has come unless the port is UP. -/
def PortUnit.Kept (u v : PortUnit) : Prop :=
  u.SameInbound v ∧ (u.state ≠ .up → v.outbound = u.outbound ∨ v.outbound = [])

theorem PortUnit.Kept.trans {u v w : PortUnit} (h : u.Kept v) (k : v.Kept w) : u.Kept w := by
  refine ⟨h.1.trans k.1, fun hu => ?_⟩
  have hv : v.state ≠ .up := by rw [h.1.1]; exact hu
  rcases k.2 hv with e | e
  · rw [e]; exact h.2 hu
  · exact Or.inr e

theorem PortUnit.kept_place (m : OutMsg) (u : PortUnit) : u.Kept (u.place m) :=
  ⟨PortUnit.sameInbound_place m u, fun hu => by unfold PortUnit.place; rw [if_pos hu]; exact Or.inl rfl⟩

theorem PortUnit.kept_raise (n : Notice) (u : PortUnit) : u.Kept (u.raise n) :=
  ⟨PortUnit.sameInbound_raise n u, fun hu => by unfold PortUnit.raise; rw [if_pos hu]; exact Or.inl rfl⟩

theorem PortUnit.kept_currentEnded (u : PortUnit) (r : TagId) : u.Kept (u.currentEnded r) :=
  ⟨PortUnit.sameInbound_currentEnded u r, fun _ => by unfold PortUnit.currentEnded; split <;> exact Or.inl rfl⟩

theorem PortUnit.kept_cleared (u : PortUnit) : u.Kept u.cleared := ⟨⟨rfl, rfl, rfl, rfl⟩, fun _ => Or.inr rfl⟩

theorem Works.setUnit {p} {u : PortUnit} (h : Works s t) (k : (t.unit p).Kept u) : Works s (t.setUnit p u) :=
  h.tail (.unit _ _ _ k.1.1 k.1.2.1 k.1.2.2.1 k.1.2.2.2 k.2)

/-! ## Phases, answers, notices -/

theorem Works.setTagRec {p r v} (h : Works s t) : Works s (t.setTagRec p r v) := h.setUnit ⟨⟨rfl, rfl, rfl, rfl⟩, fun _ => .inl rfl⟩
theorem Works.setPhase {p r ph} (h : Works s t) : Works s (t.setPhase p r ph) := h.setTagRec
theorem Works.enterPhase {ph r} (h : Works s t) : Works s (t.enterPhase ph r) := by
  cases r
  · exact h.setPhase
  · exact h
theorem Works.enterPhases {ph rs} (h : Works s t) : Works s (t.enterPhases ph rs) :=
  h.foldl _ (fun _ k => k.enterPhase) rs
theorem Works.place {p m} (h : Works s t) : Works s (t.place p m) := h.setUnit (PortUnit.kept_place _ _)
theorem Works.raise {p n} (h : Works s t) : Works s (t.raise p n) := h.setUnit (PortUnit.kept_raise _ _)
theorem Works.answered {p r m} (h : Works s t) : Works s (t.answered p r m) :=
  Works.setUnit h (PortUnit.Kept.trans
    (v := ((t.unit p).setTag r { (t.unit p).tag r with phase := .responding }).currentEnded r)
    (PortUnit.Kept.trans (v := (t.unit p).setTag r { (t.unit p).tag r with phase := .responding })
      ⟨⟨rfl, rfl, rfl, rfl⟩, fun _ => .inl rfl⟩ (PortUnit.kept_currentEnded _ _))
    (PortUnit.kept_place _ _))
theorem Works.respond {p r st res} (h : Works s t) : Works s (t.respond p r st res) := h.answered
theorem Works.respondEnd {p r st n} (h : Works s t) : Works s (t.respondEnd p r st n) := h.answered
theorem Works.refuse {p r st} (h : Works s t) : Works s (t.refuse p r st) := by
  unfold State.refuse; exact .ite h.respondEnd h.respond
theorem Works.setMgmt {m : Management} (h : Works s t) (k : m.device = t.mgmt.device) : Works s (t.setMgmt m) :=
  h.tail (.mgmt _ _ k)
theorem Works.commandDone {r ws} (h : Works s t) : Works s (t.commandDone r ws) := h.setMgmt rfl
theorem Works.discardBeats {p n} (h : Works s t) : Works s (t.discardBeats p n) := by
  unfold State.discardBeats; split
  · exact h
  · next h0 => exact .ite (h.setAsmIdle h0 Assembly.idles_initial) (h.setAsmIdle h0 ⟨by simp, by simp⟩)
theorem Works.refusePut {p r st} (h : Works s t) : Works s (t.refusePut p r st) := h.refuse.discardBeats
theorem Works.answerReq {st r} (h : Works s t) : Works s (t.answerReq st r) := by
  cases r
  · unfold State.answerReq; exact .ite h.refusePut h.refuse
  · exact h.commandDone
theorem Works.answerLink {p r st} (h : Works s t) : Works s (t.answerLink p r st) := by
  unfold State.answerLink; dsimp only
  exact .ite (.ite h.setTagRec h.setTagRec) h.setTagRec.respond
theorem Works.armReady {p} (h : Works s t) : Works s (t.armReady p) := by
  unfold State.armReady
  exact .ite (Works.raise (Works.setUnit h ⟨⟨rfl, rfl, rfl, rfl⟩, fun _ => .inl rfl⟩)) (Works.setUnit h ⟨⟨rfl, rfl, rfl, rfl⟩, fun _ => .inl rfl⟩)
theorem Works.listsFilled {p} (h : Works s t) : Works s (t.listsFilled p) := by
  unfold State.listsFilled; exact .ite (Works.raise (Works.setUnit h ⟨⟨rfl, rfl, rfl, rfl⟩, fun _ => .inl rfl⟩)) h

/-! ## The pool -/

theorem Works.rearm (h : Works s t) : Works s t.rearm := by
  unfold State.rearm; exact .ite (Works.poolScalars h rfl rfl rfl rfl) h
theorem Pool.join_counts (P : Pool) (a b : Nat) : (P.join a b).reserved = P.reserved ∧ (P.join a b).free = P.free := by
  unfold Pool.join; split <;> exact ⟨rfl, rfl⟩
theorem Pool.release_counts (P : Pool) (a b n : Nat) :
    (P.release a b n).reserved = P.reserved ∧ (P.release a b n).free = P.free + n := by
  unfold Pool.release; split
  · next h => exact ⟨rfl, by rw [h]; rfl⟩
  · dsimp only; split <;> exact ⟨rfl, rfl⟩
theorem Works.release {a b n} (h : Works s t) : Works s (t.release a b n) := by
  unfold State.release
  exact .ite h (h.setPool (Pool.kept_release _ _ _ _) (Pool.release_counts _ _ _ _).1
    (by rw [(Pool.release_counts _ _ _ _).2]; exact Nat.le_add_right _ _)).rearm
theorem Works.releaseSegs {l} (h : Works s t) : Works s (t.releaseSegs l) := h.release
theorem Works.warnPoolLow (h : Works s t) : Works s t.warnPoolLow := by
  unfold State.warnPoolLow
  exact .ite (Works.foldl _ (fun _ k => .ite k.raise k) _ (Works.poolScalars h rfl rfl rfl rfl)) h
/-- A reservation past its count in the pool. -/
theorem Works.reserve {f n} (h : Works s (t.setPool { t.pool with reserved := t.pool.reserved + n })) :
    Works s (t.reserve f n) :=
  Works.warnPoolLow (Works.setFlow h)
theorem Works.unadmit {f n} (h : Works s t) : Works s (t.unadmit f n) := h.setFlow

/-! ## Ready lists -/

theorem Works.listFlow {f} (h : Works s t) : Works s (t.listFlow f) := by
  unfold State.listFlow
  extract_lets e l before s1 s2 s3
  have h1 : Works s s1 := h.setFlow
  have h2 : Works s s2 := by
    simp only [s2]; split
    · exact h1
    · exact h1.setFlow
  have h3 : Works s s3 := h2.setReadyList
  exact .ite h3.listsFilled h3
theorem Works.withdrawFlow {f} (h : Works s t) : Works s (t.withdrawFlow f) := by
  unfold State.withdrawFlow
  extract_lets e l s1 s2 s3
  have h1 : Works s s1 := by
    simp only [s1]; split
    · exact h
    · exact h.setFlow
  have h2 : Works s s2 := by
    simp only [s2]; split
    · exact h1
    · exact h1.setFlow
  have h3 : Works s s3 := h2.setReadyList
  exact h3.setFlow
theorem Works.relist {f} (h : Works s t) : Works s (t.relist f) := by
  unfold State.relist
  exact .ite (.ite h h.listFlow) (.ite h.withdrawFlow h)
theorem Works.setReady {f b} (h : Works s t) : Works s (t.setReady f b) := h.setFlow.relist
theorem Works.reevaluate {f S} (h : Works s t) : Works s (t.reevaluate f S) := h.setReady
theorem Works.undispatch {f} (h : Works s t) : Works s (t.undispatch f) := h.setFlow.relist
theorem Works.undispatchAndReevaluate {f S} (h : Works s t) : Works s (t.undispatchAndReevaluate f S) :=
  h.setFlow.reevaluate
theorem Works.foundEmpty {f} (h : Works s t) : Works s (t.foundEmpty f) := h.setFlow.setReady

/-! ## Closing -/

theorem Works.freeSlot {S} (h : Works s t) : Works s (t.freeSlot S) := h.setSlot.dueRetry
theorem Works.setResidency {f r} (h : Works s t) : Works s (t.setResidency f r) := h.setFlow
theorem Works.dropHold {f} (h : Works s t) : Works s (t.dropHold f) := by
  unfold State.dropHold; split
  · exact h.clearHold
  · exact h
theorem Works.closeSlot {f} (h : Works s t) : Works s (t.closeSlot f) := by
  unfold State.closeSlot; split
  · exact h.dropHold
  · dsimp only
    refine Works.foldl _ (fun _ k => k.answerReq) _ ?_
    split
    · exact h.countFalls.dropHold.freeSlot.setResidency
    · exact h.dropHold.freeSlot.setResidency
theorem Works.enterClosed {f} (h : Works s t) : Works s (t.enterClosed f) := h.setFlow.relist.closeSlot
theorem Works.drainTest {f} (h : Works s t) : Works s (t.drainTest f) := by
  unfold State.drainTest; exact .ite h.enterClosed.raise h

/-! ## Services -/

theorem Works.startService {S p r} (h : Works s t) : Works s (t.startService S p r) := h.setSlot.setPhase
theorem Works.park {S p r} (h : Works s t) : Works s (t.park S p r) := h.setSlot.setPhase
theorem Works.parkOrHeld {S p r} (h : Works s t) : Works s (t.parkOrHeld S p r) := by
  unfold State.parkOrHeld; exact .ite h.park h.refuse
theorem Works.serveOpen {S p r} (h : Works s t) : Works s (t.serveOpen S p r) := by
  unfold State.serveOpen; exact .ite h.startService.refuse h.setSlot.setFlow.respond
theorem Works.serveCloseHere {S p r f} (h : Works s t) : Works s (t.serveCloseHere S p r f) := by
  unfold State.serveCloseHere; dsimp only; split
  · exact .ite h.respond.enterClosed h.setFlow.respond.reevaluate
  · exact h.respond
  · exact h.refuse
theorem Works.serveQueryHere {S p r f} (h : Works s t) : Works s (t.serveQueryHere S p r f) := h.respond
theorem State.admission_fits {S : SlotId} {p : PortId} {f : FlowId} {n : Nat}
    (h : t.admissionRefusal S p f n = none) : n ≤ t.pool.free - t.pool.reserved := by
  unfold State.admissionRefusal State.poolRefusal at h
  dsimp only at h
  split at h; · simp at h
  split at h; · simp at h
  split at h; · simp at h
  split at h; · simp at h
  split at h; · simp at h
  split at h; · simp at h
  omega
theorem Works.servePut {S p r f} (h : Works s t) : Works s (t.servePut S p r f) := by
  unfold State.servePut; dsimp only; split
  · next ha =>
    split
    · exact h.refusePut
    · next hn =>
      have hfit := State.admission_fits hn
      refine Works.reserve (h.tail (.asm t p _ { t.pool with reserved := t.pool.reserved + (t.asm p).needed }
        ⟨rfl, id⟩ (fun w => State.pooled_setAsm w ?_ ?_ ?_) ?_))
      · simp [Assembly.reservation, ha]
      · have := w.1.2
        dsimp only
        omega
      · have := w.2 p
        have g1 := this.1 (Or.inl ha)
        have g2 := this.2.1 ha
        refine ⟨fun _ => g1, fun k => by simp at k, fun _ => ⟨?_, ?_⟩⟩
        · change (t.asm p).taken ≤ _
          rw [g2]; exact Nat.zero_le _
        · change 0 = neededFor (t.asm p).taken
          rw [g2]; rfl
      · simp [Assembly.idles, ha]
  · exact h
theorem Works.startDelivery {S p r f k} (h : Works s t) : Works s (t.startDelivery S p r f k) :=
  h.setDel.setSlot.setPhase.place
theorem Works.serveTakeHere {S p r f k} (h : Works s t) : Works s (t.serveTakeHere S p r f k) := by
  unfold State.serveTakeHere; dsimp only
  refine .ite h.refuse (.ite h.refuse (.ite ?_ h.startDelivery))
  cases k
  · exact h.refuse.foundEmpty
  · exact h.refuse
theorem Works.serveDropHere {S p r f} (h : Works s t) : Works s (t.serveDropHere S p r f) := by
  unfold State.serveDropHere; dsimp only
  exact .ite h.refuse (.ite h.refuse.foundEmpty h.respond.setSlot.setFlow.releaseSegs.undispatchAndReevaluate.drainTest)

/-- No port's record names a flow that has no holder. -/
theorem State.no_holder {f : FlowId} (h : (t.holder f).isSome = false) (q : PortId) (hq : (t.hold q).state ≠ .empty) :
    (t.hold q).flow ≠ f := by
  have hn : t.holder f = none := by simpa using h
  have := (List.find?_eq_none.mp hn) q (by fin_cases q <;> simp [allPorts])
  simpa [hq] using this

theorem Works.grantHold {S p r f} (h : Works s t) (hf : (t.holder f).isSome = false)
    (hc : ¬((t.slot S).pins = 0 ∧ 48 ≤ t.pinnedOrHeld)) : Works s (t.grantHold S p r f) := by
  unfold State.grantHold; dsimp only
  split
  · next hp =>
    have h1 : Works s { t with pinnedOrHeld := t.pinnedOrHeld + 1 } :=
      h.tail (.count _ _ (Or.inr (by have : ¬48 ≤ t.pinnedOrHeld := fun k => hc ⟨hp, k⟩; omega)))
    exact Works.respond (h1.tail (.holdNew _ _ _ (fun _ q hq => State.no_holder (t := t) hf q hq)))
  · exact Works.respond (h.tail (.holdNew _ _ _ (fun _ q hq => State.no_holder hf q hq)))
theorem Works.serveHoldHere {S p r f} (h : Works s t) : Works s (t.serveHoldHere S p r f) := by
  unfold State.serveHoldHere; dsimp only
  split
  · next hh =>
    exact Works.respond (h.tail (.holdSame _ _ _ (fun _ => ⟨by simp [hh.1], rfl⟩)))
  · split
    · exact h.respond
    · split
      · exact h.parkOrHeld
      · next hf =>
        split
        · exact h.parkOrHeld
        · split
          · exact h.respond
          · next hc => exact h.grantHold (by simpa using hf) hc
theorem Works.servePinHere {S p r} (h : Works s t) : Works s (t.servePinHere S p r) := by
  unfold State.servePinHere; dsimp only
  split
  · exact h.respond
  · split
    · exact h.respond
    · next hc =>
      split
      · exact h.setSlot.respond
      · next hn =>
        have hlt : t.pinnedOrHeld + 1 ≤ 48 := by
          simp only [State.counted, Bool.or_eq_true, decide_eq_true_eq, not_or] at hn
          have h0 : (t.slot S).pins = 0 := by omega
          have h1 : t.slotHeld S = false := by simpa using hn.2
          simp only [h0, h1, true_and, Bool.not_false] at hc
          omega
        exact Works.respond (Works.setSlot (h.tail (.count _ _ (Or.inr hlt))))
theorem Works.serveUnpinHere {S p r} (h : Works s t) : Works s (t.serveUnpinHere S p r) := by
  unfold State.serveUnpinHere; dsimp only
  refine .ite h.respond ?_
  split <;> (split <;> first | exact h.countFalls.setSlot.respond.dueRetry | exact h.countFalls.setSlot.respond |
    exact h.setSlot.respond.dueRetry | exact h.setSlot.respond)
theorem Works.serveClearHalt {S f} (h : Works s t) : Works s (t.serveClearHalt S f) := by
  unfold State.serveClearHalt; dsimp only
  exact .ite h.setSlot.setFlow.undispatchAndReevaluate.commandDone h.setSlot.commandDone
theorem Works.unlessHeld {S p r f b} (h : Works s t) (k : Works s b) : Works s (t.unlessHeld S p r f b) := by
  unfold State.unlessHeld; exact .ite h.parkOrHeld k
theorem Works.serveRequest {S p r} (h : Works s t) : Works s (t.serveRequest S p r) := by
  unfold State.serveRequest; dsimp only
  have h' := h.startService (S := S) (p := p) (r := r)
  split
  · exact h.serveOpen
  · exact h'.unlessHeld h'.serveCloseHere
  · exact h'.serveQueryHere
  · exact h'.servePut
  · exact h'.unlessHeld h'.serveTakeHere
  · exact h'.unlessHeld h'.serveTakeHere
  · exact h'.unlessHeld h'.serveDropHere
  · exact h'.serveHoldHere
  · exact h'.servePinHere
  · exact h'.serveUnpinHere
  all_goals exact h
theorem Works.serve {S r} (h : Works s t) : Works s (t.serve S r) := by
  cases r
  · exact h.serveRequest
  · exact h.serveClearHalt
theorem Works.serveParked {S f ks rs} (h : Works s t) : Works s (State.serveParked S f ks rs t) := by
  induction rs generalizing t ks with
  | nil => exact h
  | cons r rs ih =>
    unfold State.serveParked; dsimp only
    have h' : Works s ((t.setParked S (ks ++ rs)).serve S r) := Works.serve h.setSlot
    exact .ite (.ite (ih h') (ih h'.setSlot)) h'
theorem Works.parkedPass {f} (h : Works s t) : Works s (t.parkedPass f) := by
  unfold State.parkedPass; split
  · exact h
  · exact .ite h (.ite h.serveParked.dueRetry h.serveParked)
theorem Works.endHold {p n} (h : Works s t) : Works s (t.endHold p n) := by
  unfold State.endHold; dsimp only
  refine Works.dueRetry (Works.parkedPass ?_)
  have h' : ∀ o : Option SlotId, Works s (match o with
      | some S => if ((t.setHold p Hold.initial).slot S).pins = 0 then
          { t.setHold p Hold.initial with pinnedOrHeld := (t.setHold p Hold.initial).pinnedOrHeld - 1 }
        else t.setHold p Hold.initial
      | none => t.setHold p Hold.initial) := by
    intro o
    cases o
    · exact h.clearHold
    · exact .ite h.clearHold.countFalls h.clearHold
  cases n
  · exact h' _
  · exact (h' _).raise
theorem Works.lapse {p f} (h : Works s t) : Works s (t.lapse p f) := by
  unfold State.lapse; exact .ite h.endHold h
theorem Works.admittedFell {f} (h : Works s t) : Works s (t.admittedFell f) := by
  unfold State.admittedFell; exact .ite h.parkedPass h
theorem Works.serveLink {S p r} (h : Works s t) : Works s (t.serveLink S p r) := by
  unfold State.serveLink; dsimp only; split
  · exact h
  · exact (h.setPool (Pool.kept_join _ _ _) (Pool.join_counts _ _ _).1 (Nat.le_of_eq (Pool.join_counts _ _ _).2.symm)).setSlot.setFlow.answerLink.reevaluate.admittedFell
theorem Works.refuseLink {p r st} (h : Works s t) : Works s (t.refuseLink p r st) := by
  unfold State.refuseLink; dsimp only; split
  · exact h
  · exact h.release.unadmit.answerLink
theorem Works.serveAny {S r} (h : Works s t) : Works s (t.serveAny S r) := by
  unfold State.serveAny; split
  · cases r
    · exact h.serveLink
    · exact h
  · exact h.serve
theorem Works.turnAway {st r} (h : Works s t) : Works s (t.turnAway st r) := by
  unfold State.turnAway; split
  · cases r
    · exact h.refuseLink.drainTest
    · exact h
  · exact h.answerReq

/-! ## The cache -/

theorem Works.inspect (n : Nat) (h : Works s t) : Works s (t.inspect n).2 := by
  induction n generalizing t with
  | zero => exact h
  | succ n ih =>
    unfold State.inspect; dsimp only
    have h' : Works s { t with hand := t.hand + 1 } := h.tail (.hand _ _)
    split
    · exact h'
    · split
      · split
        · exact ih h'.setSlot
        · exact h'
      · exact ih h'
theorem Works.search (h : Works s t) : Works s t.search.2 := h.inspect 128
theorem Works.joinMiss {r} (h : Works s t) : Works s (t.joinMiss r) := by
  unfold State.joinMiss; split
  · exact h.answerReq
  · next hl => exact Works.enterPhase (h.tail (.miss _ _ (Or.inr (by simp; omega))))
theorem Works.placeHead {f S rs} (h : Works s t) : Works s (t.placeHead f S rs).1 := by
  unfold State.placeHead; dsimp only
  split
  · split
    · exact h.freeSlot.setResidency
    · exact h.setSlot.setResidency.setMem.enterPhases
  · have h' : Works s ((t.splitAtOpen rs).1.foldl (fun s r => s.turnAway .closed r) t) :=
      h.foldl _ (fun _ k => k.turnAway) _
    split
    · exact h'.serveOpen.dueRetry
    · exact h'.freeSlot.setResidency
theorem Works.victimHead {V f rs} (h : Works s t) : Works s (t.victimHead V f rs).1 := by
  unfold State.victimHead; dsimp only; split
  · split
    · exact h.setSlot.setResidency.setMem.enterPhases
    · exact h.setResidency.placeHead
  · exact h.placeHead
theorem Works.takeFor {V r} (h : Works s t) : Works s (t.takeFor V r) := h.victimHead
theorem Works.joinLinkWait {r} (h : Works s t) : Works s (t.joinLinkWait r) := h.linkWaitIs.enterPhase
theorem Works.searchFor {r w} (h : Works s t) (hw : ∀ {u}, Works s u → Works s (w u)) :
    Works s (t.searchFor r w) := by
  unfold State.searchFor
  have h' := h.search
  split
  · next hs => rw [hs] at h'; exact h'.takeFor
  · next hs => rw [hs] at h'; exact hw h'
theorem Works.reach {r} (h : Works s t) : Works s (t.reach r) := by
  unfold State.reach
  exact .ite (.ite (h.searchFor (fun k => k.joinLinkWait)) h.joinLinkWait)
    (.ite (h.searchFor (fun k => k.joinMiss)) h.joinMiss)
theorem Works.arrive {r} (h : Works s t) : Works s (t.arrive r) := by
  unfold State.arrive; split
  · exact h.turnAway
  · dsimp only; split
    · exact h.reach
    · split
      · exact h.serveAny
      · exact h.setSlot.enterPhase
      · exact .ite h.setSlot.enterPhase h.setSlot.enterPhase
      · exact h.reach
theorem Works.serveAt {S f rs} (h : Works s t) : Works s (State.serveAt S f rs t) := by
  induction rs generalizing t with
  | nil => exact h
  | cons r rs ih => exact ih (.ite h.serveAny h.arrive)
theorem Works.placeFlow {f S rs} (h : Works s t) : Works s (t.placeFlow f S rs) := h.placeHead.serveAt
theorem Works.takeVictim {V f rs} (h : Works s t) : Works s (t.takeVictim V f rs) := h.victimHead.serveAt
theorem Works.headOfWaits {r u} (h : Works s t) (k : t.headOfWaits = some (r, u)) : Works s u := by
  unfold State.headOfWaits at k
  split at k
  · simp only [Option.some.injEq, Prod.mk.injEq] at k; rw [← k.2]; exact h.linkWaitIs
  · next rs _ hm =>
    simp only [Option.some.injEq, Prod.mk.injEq] at k
    rw [← k.2]; exact h.tail (.miss _ _ (Or.inl (by simp [hm])))
  · simp at k
theorem Works.retry (n : Nat) (h : Works s t) : Works s (State.retry n t) := by
  induction n generalizing t with
  | zero => exact h
  | succ n ih =>
    unfold State.retry; split
    · exact h
    · next hq =>
      split
      · exact ih (h.headOfWaits hq).arrive
      · have h' := h.search
        split
        · next hs => rw [hs] at h'; exact h'
        · next hs =>
          rw [hs] at h'
          split
          · exact h'
          · next hq' => exact ih (h'.headOfWaits hq').takeFor
theorem Works.retryWaits (h : Works s t) : Works s t.retryWaits :=
  Works.retry _ (h.tail (.retry _ false))
theorem Works.arriveAll {rs} (h : Works s t) : Works s (t.arriveAll rs) := h.foldl _ (fun _ k => k.arrive) rs
theorem Works.loseContext {f} (h : Works s t) : Works s (t.loseContext f) :=
  Works.setReady (Works.setFlow (Works.poolScalars h rfl rfl rfl rfl))
theorem Works.contextErrorAnswer {r} (h : Works s t) : Works s (t.contextErrorAnswer r) := by
  unfold State.contextErrorAnswer; split
  · cases r
    · exact h.refuseLink
    · exact h
  · exact h.answerReq
theorem Works.contextError {S f} (h : Works s t) : Works s (t.contextError S f) :=
  (h.setMem.freeSlot.loseContext.foldl _ (fun _ k => k.contextErrorAnswer) _).raise.drainTest
theorem Works.countCorrected {rs} (h : Works s t) : Works s (t.countCorrected rs) := h.setMem
theorem Works.fillDone {S f rs} (h : Works s t) : Works s (t.fillDone S f rs) := by
  unfold State.fillDone; dsimp only
  exact .ite h.countCorrected.dueRetry.freeSlot.setResidency.arriveAll
    (.ite h.countCorrected.dueRetry.setSlot.serveAt h.countCorrected.dueRetry.contextError)
theorem Works.storeRecord {S f} (h : Works s t) : Works s (t.storeRecord S f) :=
  h.foldl _ (fun _ k => k.writeSram) _
theorem Works.keepOutgoing {S x} (h : Works s t) : Works s (t.keepOutgoing S x) := h.setSlot.serveAt
theorem Works.giveToIncoming {S y} (h : Works s t) : Works s (t.giveToIncoming S y) := h.setSlot.placeFlow
theorem Works.spillDone {S x} (h : Works s t) : Works s (t.spillDone S x) := by
  unfold State.spillDone; dsimp only
  have h' := (h.storeRecord (S := S) (f := x)).dueRetry
  split
  · exact h'
  · refine .ite h'.setResidency.setSlot.arriveAll.giveToIncoming (.ite h'.setResidency.giveToIncoming
      (.ite h'.setResidency.keepOutgoing ?_))
    have hs := h'.search
    split
    · next e => rw [e] at hs; exact hs.setSlot.keepOutgoing.setSlot.takeVictim
    · next e => rw [e] at hs; exact hs.setResidency.giveToIncoming.arriveAll

/-! ## The memory controller -/

theorem Works.flushGather {p b} (h : Works s t) : Works s (t.flushGather p b) := by
  unfold State.flushGather; split
  · exact h
  · exact h.tail (.gathered _ _ _)
theorem Works.gatherByte {p seg off b e f} (h : Works s t) : Works s (t.gatherByte p seg off b e f) := by
  unfold State.gatherByte; dsimp only
  exact .ite h.setMem.flushGather h.setMem
theorem Works.abandonWrites {p} (h : Works s t) : Works s (t.abandonWrites p) := h.flushGather.setMem
theorem Works.abandonRead {p} (h : Works s t) : Works s (t.abandonRead p) := h.setMem
theorem Works.issueRead {p} (h : Works s t) : Works s (t.issueRead p) := h.setDel.setMem
theorem Works.issueReads (h : Works s t) : Works s t.issueReads := h.foldl _ (fun _ k => .ite k.issueRead k) _
theorem Works.accessEnded (h : Works s t) : Works s t.accessEnded := h.setMem

/-! ## Assemblies -/

/-- The pool after an abort, past the re-arm test (R38). -/
def Pool.aborted (P : Pool) (a : Assembly) : Pool :=
  let P := P.release a.chainFirst a.chainLast a.allocated
  { P with reserved := P.reserved - (a.needed - a.allocated) }
/-- The record's end may come before the rest of its abort. -/
theorem State.abort_order (t : State) (p : PortId) (a v : Assembly) :
    ((t.abortPool a).abandonWrites p).setAsm p v =
      ((((t.setPool (t.pool.aborted a)).setAsm p v).rearm.unadmit a.flow a.needed).abandonWrites p) := by
  have e1 : ∀ (u : State), u.rearm.setAsm p v = (u.setAsm p v).rearm := fun u => by
    unfold State.rearm
    by_cases h : (!u.pool.lowArmed && u.poolRearmed) = true
    · rw [if_pos h, if_pos (c := (!(u.setAsm p v).pool.lowArmed && (u.setAsm p v).poolRearmed) = true) h]; rfl
    · rw [if_neg h, if_neg (c := (!(u.setAsm p v).pool.lowArmed && (u.setAsm p v).poolRearmed) = true) h]
  have e2 : ∀ (u : State) (f : FlowId) (n : Nat), (u.unadmit f n).setAsm p v = (u.setAsm p v).unadmit f n :=
    fun _ _ _ => rfl
  have e3 : ∀ (u : State), (u.abandonWrites p).setAsm p v = (u.setAsm p v).abandonWrites p := fun u => by
    unfold State.abandonWrites State.flushGather
    dsimp only [State.mem_setAsm]
    cases u.mem.gather[p] <;> rfl
  rw [e3]
  unfold State.abortPool
  rw [e2, e1]
  rfl
theorem Works.abortRecord {p st} (h : Works s t) (ha : (t.asm p).state = .assembling) :
    Works s (t.abortRecord p st) := by
  have h' : Works s (((t.abortPool (t.asm p)).abandonWrites p).setAsm p Assembly.initial) := by
    rw [State.abort_order]
    refine Works.abandonWrites (Works.unadmit (Works.rearm (h.tail
      (.asm t p _ _ (.scalars _ (Pool.kept_release _ _ _ _) rfl rfl) (fun w => State.pooled_setAsm w ?_ ?_ ?_) ?_))))
    · have k := w.1.1
      have := State.reservations_setAsm t p Assembly.initial
      have hi : Assembly.initial.reservation = 0 := rfl
      have hq : (t.asm p).reservation = (t.asm p).needed - (t.asm p).allocated := by simp [Assembly.reservation, ha]
      simp only [Pool.aborted, Pool.release_counts]
      omega
    · have := w.1.2
      simp only [Pool.aborted, Pool.release_counts]
      omega
    · simp [Assembly.whole, Assembly.initial]
    · simp [Assembly.idles, ha]
  unfold State.abortRecord; dsimp only
  refine Works.drainTest ?_
  split
  · exact h'.respond
  · exact h'
theorem Works.abort {p st} (h : Works s t) (ha : (t.asm p).state = .assembling) : Works s (t.abort p st) :=
  (h.abortRecord ha).admittedFell
theorem Works.endAssemblyWork {p} (h : Works s t) : Works s (t.endAssemblyWork p) := by
  unfold State.endAssemblyWork; split
  · next ha => exact h.abort ha
  · next ha => exact h.setAsmIdle (by simp [ha]) Assembly.idles_initial
  all_goals exact h
theorem Work.idles {a b : State} {p : PortId} (h : Work a b) (k : (a.asm p).idles) : (b.asm p).idles := by
  cases h
  case asm q v P _ _ hi =>
    rw [State.asm_setAsm]
    split
    · next e => subst e; exact hi k
    · exact k
  all_goals exact k
/-- No small change begins an assembly. -/
theorem Works.idles {p} (h : Works s t) (k : (s.asm p).idles) : (t.asm p).idles :=
  h.keeps (fun u => (u.asm p).idles) (fun _ _ w => w.idles) k
/-- The record of a port whose current work a new PUT has ended is not ASSEMBLING (R69). -/
theorem State.not_assembling_endAssemblyWork (t : State) (p : PortId) :
    ((t.endAssemblyWork p).asm p).state ≠ .assembling := by
  unfold State.endAssemblyWork; split
  · unfold State.abort State.abortRecord; dsimp only
    refine (Works.idles (Works.admittedFell (Works.drainTest ?_)) (s := ((t.abortPool (t.asm p)).abandonWrites p).setAsm p
      Assembly.initial) (by rw [State.asm_setAsm_self]; exact Assembly.idles_initial)).2
    split
    · exact (Works.refl _).respond
    · exact .refl _
  · rw [State.asm_setAsm_self]; exact Assembly.idles_initial.2
  · next h => rw [h]; simp
  · next h => rw [h]; simp
theorem Works.completeAssembly {p} (h : Works s t) : Works s (t.completeAssembly p) := by
  unfold State.completeAssembly; dsimp only; split
  · exact h
  · split
    · next hc =>
      refine Works.arrive (Works.setAsm h.setTagRec (fun w => ?_) ?_)
      · change (t.asm p).whole t.mgmt.device at w
        change Assembly.initial.reservation = (t.asm p).reservation ∧ Assembly.initial.whole t.mgmt.device
        have hw := w.2.2 hc.1
        have hn := (w.1 (Or.inr hc.1)).2
        refine ⟨?_, by simp [Assembly.whole, Assembly.initial]⟩
        have : Assembly.initial.reservation = 0 := rfl
        have hq : (t.asm p).reservation = (t.asm p).needed - (t.asm p).allocated := by
          simp [Assembly.reservation, hc.1]
        rw [this, hq, hw.2, hn, hc.2.1]; omega
      · change (t.asm p).idles → _
        simp [Assembly.idles, hc.1]
    · exact h
/-- A byte at the start of a segment allocates it, and is taken in the same step. -/
theorem Works.allocateFor {p} {w : Nat} (h : Works s t) (ha : (t.asm p).state = .assembling)
    (hl : (t.asm p).taken < (t.asm p).declared) (hm : (t.asm p).taken % 128 = 0) :
    Works s (t.allocateFor p |>.setAsm p { (t.allocateFor p).asm p with
      taken := (t.asm p).taken + 1, writesOutstanding := w }) := by
  unfold State.allocateFor; dsimp only
  rw [State.asm_setAsm_self, State.setAsm_setAsm]
  have hk : ∀ P : Pool, P.reserved = t.pool.reserved - 1 → P.free = t.pool.free - 1 → t.pool.Kept P →
      ∀ v : Assembly, v.state = .assembling → v.needed = (t.asm p).needed → v.declared = (t.asm p).declared →
        v.taken = (t.asm p).taken + 1 → v.allocated = (t.asm p).allocated + 1 →
        Works s ((t.setPool P).setAsm p v) := by
    intro P hr hf hk v h1 h2 h3 h4 h5
    refine h.tail (.asm t p v P hk (fun w => State.pooled_setAsm w ?_ ?_ ?_) (by simp [Assembly.idles, ha]))
    · have ⟨g1, _, g3⟩ := w.2 p
      have g1 := (g1 (Or.inr ha)).2
      have g3 := g3 ha
      have hs := State.reservations_setAsm t p Assembly.initial
      have hi : Assembly.initial.reservation = 0 := rfl
      have k := w.1.1
      have hq : (t.asm p).reservation = (t.asm p).needed - (t.asm p).allocated := by simp [Assembly.reservation, ha]
      have hv : v.reservation = (t.asm p).needed - ((t.asm p).allocated + 1) := by
        simp [Assembly.reservation, h1, h2, h5]
      simp only [neededFor] at g1 g3
      rw [hi, ← k] at hs
      rw [hr, hv]
      omega
    · have := w.1.2; omega
    · have ⟨g1, _, g3⟩ := w.2 p
      have g1 := g1 (Or.inr ha)
      have g3 := g3 ha
      simp only [neededFor] at g1 g3
      simp only [Assembly.whole, h1, h2, h3, h4, h5, neededFor]
      simp only [reduceCtorEq, false_or, forall_const, false_imp_iff, true_and]
      refine ⟨g1, ?_, ?_⟩ <;> omega
  refine hk _ ?_ ?_ ?_ _ ha rfl rfl rfl rfl
  · split
    · unfold Pool.allocate; dsimp only; split <;> rfl
    · unfold Pool.allocate; dsimp only; split <;> rfl
  · split
    · unfold Pool.allocate; dsimp only; split <;> rfl
    · unfold Pool.allocate; dsimp only; split <;> rfl
  · split
    · exact Pool.kept_allocate _ _ _
    · exact (Pool.kept_allocate _ _ _).trans (Pool.kept_setNext _ _ _)
@[simp] theorem State.asms_gatherByte {p seg off b e f} : (t.gatherByte p seg off b e f).asms = t.asms := by
  unfold State.gatherByte; dsimp only; split
  · unfold State.flushGather; split <;> rfl
  · rfl
theorem Works.takeBytes {p bs} (h : Works s t) (ha : (t.asm p).state = .assembling)
    (hl : (t.asm p).taken + bs.length ≤ (t.asm p).declared) : Works s (State.takeBytes p bs t) := by
  induction bs generalizing t with
  | nil => exact h
  | cons b bs ih =>
    simp only [List.length_cons] at hl
    unfold State.takeBytes; dsimp only
    split
    · next hm =>
      refine ih (h.allocateFor ha (by omega) hm).gatherByte ?_ ?_
      · simp only [State.asm, State.asms_gatherByte]
        simp [State.allocateFor, State.setAsm, ha]
      · simp only [State.asm, State.asms_gatherByte]
        simp [State.allocateFor, State.setAsm]
        have : t.asms[(p : Nat)] = t.asm p := rfl
        rw [this]; omega
    · next hm =>
      have h' := h.setAsm (p := p) (v := { t.asm p with taken := (t.asm p).taken + 1, writesOutstanding :=
        (t.asm p).writesOutstanding + (if (bs.isEmpty || decide (((t.asm p).taken + 1) % 128 = 0)) = true then 1 else 0) })
        (fun w => ⟨by simp [Assembly.reservation], w.1, fun k => absurd k (by simp [ha]), fun k => by
          have g := w.2.2 k
          simp only [neededFor] at g ⊢
          constructor
          · omega
          · rw [g.2]; omega⟩) (fun k => absurd ha k.2)
      refine ih h'.gatherByte ?_ ?_
      · simp only [State.asm, State.asms_gatherByte]
        simp [State.setAsm]; exact ha
      · simp only [State.asm, State.asms_gatherByte]
        simp [State.setAsm]
        have : t.asms[(p : Nat)] = t.asm p := rfl
        rw [this]; omega
theorem Works.acceptBeat {p bs} (h : Works s t) (ha : (t.asm p).state = .assembling)
    (hl : (t.asm p).taken + bs.length ≤ (t.asm p).declared) : Works s (t.acceptBeat p bs) :=
  ((h.takeBytes ha hl).setAsmAside rfl).completeAssembly
theorem Works.discardBeat {p n} (h : Works s t) (ha : (t.asm p).state = .discarding) :
    Works s (t.discardBeat p n) := by
  unfold State.discardBeat; dsimp only
  exact .ite (h.setAsmIdle (by simp [ha]) Assembly.idles_initial) (h.setAsmIdle (by simp [ha]) ⟨by simp [ha], by simp [ha]⟩)
theorem Works.strayBeat (h : Works s t) : Works s t.strayBeat := h.setMgmt rfl
theorem Works.wordWritten {p w} (h : Works s t) : Works s (t.wordWritten p w) := by
  unfold State.wordWritten; dsimp only
  exact .ite (Works.setAsmAside h.writeSram rfl).completeAssembly h.writeSram

/-! ## Deliveries -/

theorem Works.commit {f S d c} (h : Works s t) : Works s (t.commit f S d c) := by
  unfold State.commit; dsimp only
  exact .ite h h.setSlot.setFlow.releaseSegs
theorem Works.endDelivery {p S} (h : Works s t) : Works s (t.endDelivery p S) := h.setDel.setSlot.dueRetry
theorem Works.finishTake {p S st c} (h : Works s t) : Works s (t.finishTake p S st c) := by
  unfold State.finishTake; dsimp only
  have h' : Works s _ := (h.endDelivery (p := p) (S := S)).respondEnd (p := p) (r := (t.del p).tag) (st := st) (n := c)
  split
  · exact h'.setSlot.commit.undispatchAndReevaluate.lapse.drainTest
  · exact h'.setSlot.commit.undispatchAndReevaluate.lapse
theorem Works.finishPeek {p S st n} (h : Works s t) : Works s (t.finishPeek p S st n) :=
  h.endDelivery.respondEnd.setSlot.lapse
theorem Works.completeDelivery {p S} (h : Works s t) : Works s (t.completeDelivery p S) := by
  unfold State.completeDelivery; dsimp only; split
  · exact h.finishTake
  · exact h.finishPeek
theorem Works.dataError {p S} (h : Works s t) : Works s (t.dataError p S) :=
  h.endDelivery.respondEnd.setSlot.setFlow.raise.setReady.lapse
theorem Works.placeBeat {p S bs} (h : Works s t) : Works s (t.placeBeat p S bs) := by
  unfold State.placeBeat; dsimp only
  exact .ite h.place.setDel.completeDelivery h.place.setDel
theorem Works.beatReported {p r ws} (h : Works s t) : Works s (t.beatReported p r ws) := by
  unfold State.beatReported; dsimp only; split
  · exact .ite h.countCorrected.setMem.placeBeat h.countCorrected.setMem.dataError
  · exact h.countCorrected.setMem
theorem Works.purgeSlot {S k} (h : Works s t) : Works s (t.purgeSlot S k) := by
  unfold State.purgeSlot; dsimp only; exact .ite h.setSlot.dueRetry h.setSlot
theorem Works.purge {k} (h : Works s t) : Works s (t.purge k) := by
  unfold State.purge; dsimp only
  have h' : Works s (allSlots.foldl (fun s S => s.purgeSlot S k) t) := h.foldl _ (fun _ k => k.purgeSlot) _
  split
  · exact Works.dueRetry (h'.tail (.miss _ _ (Or.inl (List.length_filter_le _ _))))
  · exact h'
theorem Works.cutUnserved {p r} (h : Works s t) : Works s (t.cutUnserved p r) :=
  Works.respondEnd (Works.purge (Works.setUnit h ⟨⟨rfl, rfl, rfl, rfl⟩, fun _ => .inl rfl⟩))
theorem Works.cutStreaming {p k} (h : Works s t) : Works s (t.cutStreaming p k) := by
  unfold State.cutStreaming; dsimp only; split
  · exact h
  · split
    · exact h.abandonRead.finishTake
    · exact h.abandonRead.finishPeek
theorem Works.strayControl (h : Works s t) : Works s t.strayControl := h.setMgmt rfl
theorem Works.cutTag {p r k} (h : Works s t) : Works s (t.cutTag p r k) := by
  unfold State.cutTag; dsimp only; split
  · split
    iterate 4 exact h.cutUnserved
    · exact h.cutStreaming
    all_goals exact h.strayControl
  · exact h.strayControl

/-! ## The end of an event -/

theorem Works.handOn {p} (h : Works s t) : Works s (t.handOn p) := by
  unfold State.handOn; split
  · exact h
  · exact Works.arrive (Works.setUnit h ⟨⟨rfl, rfl, rfl, rfl⟩, fun _ => .inl rfl⟩)
theorem Works.settle (n : Nat) (h : Works s t) : Works s (State.settle n t) := by
  induction n generalizing t with
  | zero => exact h
  | succ n ih =>
    unfold State.settle; split
    · exact ih h.handOn
    · split
      · exact ih h.retryWaits
      · exact h
theorem Works.finish (h : Works s t) : Works s t.finish := (h.settle _).issueReads.setMem

/-! ## Teardown, past its first order -/

theorem Works.teardownAssembly {p} (h : Works s t) : Works s (t.teardownAssembly p) := by
  unfold State.teardownAssembly; split
  · next ha => exact h.abortRecord ha
  · next ha => exact h.setAsmIdle (by simp [ha]) Assembly.idles_initial
  · next ha => exact h.setAsmIdle (by simp [ha]) Assembly.idles_initial
  · exact h
theorem Works.teardownDelivery {p} (h : Works s t) : Works s (t.teardownDelivery p) := by
  unfold State.teardownDelivery; dsimp only
  have h' : Works s (t.setUnit p { t.unit p with consumerQueue := [], current := none }) :=
    h.setUnit ⟨⟨rfl, rfl, rfl, rfl⟩, fun _ => .inl rfl⟩
  split
  · split
    · exact h'.abandonRead.endDelivery
    · exact h'.abandonRead.setDel
  · exact h'
theorem Works.teardownCache {p} (h : Works s t) : Works s (t.teardownCache p) := h.purge
theorem Works.teardownHold {p} (h : Works s t) : Works s (t.teardownHold p) := by
  unfold State.teardownHold; exact .ite h h.endHold
theorem Works.teardownRelist {p} (h : Works s t) : Works s (t.teardownRelist p) :=
  h.foldl _ (fun _ k => k.undispatch) _

/-- A teardown is the first order, and then small changes. -/
theorem State.works_teardown (t : State) (p : PortId) (st : PortState) :
    Works (t.setUnit p ((t.unit p).leftUp st)) (t.teardown p st) := by
  unfold State.teardown; dsimp only
  have h := Works.refl (t.setUnit p ((t.unit p).leftUp st))
  have h4 := h.teardownAssembly (p := p) |>.teardownDelivery (p := p) |>.teardownCache (p := p)
    |>.teardownHold (p := p)
  split
  · exact Works.setUnit h4.admittedFell.teardownRelist (PortUnit.kept_cleared _)
  · exact Works.setUnit h4.teardownRelist (PortUnit.kept_cleared _)

end Sys2Proof.Machine
end

