-- ==== Sys2Proof/Laws/Events.lean ====
section
/-! SUPPORT. What a command can do: small changes, and the few changes of the link side and of the whole part. Every command answers a next state that these reach. -/

namespace Sys2Proof.Machine

/-- Whether a command can write the configuration (R165): POWER_ON and WRITE_FRAME do. -/
def mayConfigure : Instr → Bool
  | .powerOn => true
  | .writeFrame _ _ => true
  | _ => false

/-- One change that a command can make; `w` says that the command may write the configuration. -/
inductive Event : Bool → State → State → Prop
  | work {w : Bool} {s t : State} (h : Work s t) : Event w s t
  | taken {w : Bool} (s : State) (p : PortId) (h : (s.unit p).inbound ≠ []) : Event w s (s.popInbound p)
  | faulted {w : Bool} (s : State) (p : PortId) (v : LastFault) :
      Event w s (s.setUnit p { s.unit p with lastFault := v })
  | left {w : Bool} (s : State) (p : PortId) (u : PortUnit) (h : u.state ≠ .up) : Event w s (s.setUnit p u)
  | up {w : Bool} (s : State) (p : PortId) (u : PortUnit) (h : u.inbound = [] ∧ u.inboundCredits = 32) :
      Event w s (s.setUnit p u)
  | arrived {w : Bool} (s : State) (p : PortId) (m : Message) (h : (s.unit p).inboundCredits ≠ 0) :
      Event w s (s.setUnit p { s.unit p with
        inboundCredits := (s.unit p).inboundCredits - 1, inbound := (s.unit p).inbound ++ [m] })
  | admits {w : Bool} (s : State) (p : PortId) (v : Assembly) (hd : s.mgmt.device = .running)
      (ha : (s.asm p).state ≠ .assembling)
      (hv : v.state = .admitting ∧ v.needed = neededFor v.declared ∧ v.taken = 0) : Event w s (s.setAsm p v)
  | configured (s : State) (c : Configuration) (h : s.mgmt.device = .config) : Event true s { s with config := c }
  | initializing {w : Bool} (s : State) (h : s.mgmt.device = .config) (v : s.config.failingTest = none) :
      Event w s (s.setMgmt { s.mgmt with device := .initializing })
  | swept {w : Bool} (s : State) (h : s.mgmt.device = .initializing) : Event w s s.sweepEnd
  | reset (s : State) : Event true s s.volatileReset
  | restarted {w : Bool} (s : State) (m : Management) (h : m.device = .config) :
      Event w s { s.volatileReset with config := s.config, mgmt := m }
  | drew {w : Bool} (s : State) : Event w s { s with drawn := s.drawn + 1 }
  | ticked {w : Bool} (s : State) : Event w s s.tick

/-- Any number of these changes, one after another. -/
def Events (w : Bool) : State → State → Prop := Relation.ReflTransGen (Event w)

variable {w : Bool}

theorem Events.refl (s : State) : Events w s s := Relation.ReflTransGen.refl

theorem Events.trans {s t u : State} (h : Events w s t) (k : Events w t u) : Events w s u := Relation.ReflTransGen.trans h k

theorem Events.tail {s t u : State} (h : Events w s t) (k : Event w t u) : Events w s u := Relation.ReflTransGen.tail h k

theorem Works.events {s t : State} (h : Works s t) : Events w s t := by
  induction h with
  | refl => exact .refl s
  | tail _ k ih => exact ih.tail (.work k)

theorem Event.any {s t : State} (h : Event w s t) : Event true s t := by
  cases h
  · exact .work ‹_›
  · exact .taken _ _ ‹_›
  · exact .faulted _ _ _
  · exact .left _ _ _ ‹_›
  · exact .up _ _ _ ‹_›
  · exact .arrived _ _ _ ‹_›
  · exact .admits _ _ _ ‹_› ‹_› ‹_›
  · exact .configured _ _ ‹_›
  · exact .initializing _ ‹_› ‹_›
  · exact .swept _ ‹_›
  · exact .reset _
  · exact .restarted _ _ ‹_›
  · exact .drew _
  · exact .ticked _

theorem Events.any {s t : State} (h : Events w s t) : Events true s t := by
  induction h with
  | refl => exact .refl s
  | tail _ k ih => exact ih.tail k.any

/-- What every change keeps, a command keeps. -/
theorem Events.keeps {s t : State} (P : State → Prop) (step : ∀ a b, Event w a b → P a → P b) (h : Events w s t)
    (hs : P s) : P t := by
  induction h with
  | refl => exact hs
  | tail _ k ih => exact step _ _ k ih

variable {s t : State}

theorem Events.works {u : State} (h : Events w s t) (k : Works t u) : Events w s u := h.trans k.events

theorem Events.teardown {p st} (h : Events w s t) (hst : st ≠ .up) : Events w s (t.teardown p st) :=
  (h.tail (.left _ _ _ (by simpa [PortUnit.leftUp] using hst))).works (t.works_teardown p st)

theorem Events.violation {p v} (h : Events w s t) : Events w s (t.violation p v) :=
  Events.teardown (h.tail (.faulted _ _ _)) (by simp)

theorem Events.finish (h : Events w s t) : Events w s t.finish := h.works (Works.refl _).finish

theorem Events.popInbound {p} (h : Events w s t) (k : (t.unit p).inbound ≠ []) : Events w s (t.popInbound p) :=
  h.tail (.taken _ _ k)

/-- A port that takes in messages has one. -/
theorem State.inbound_of_nextMessage {p : PortId} {m : Message} (h : s.nextMessage p = some m) :
    (s.unit p).inbound ≠ [] := by
  unfold State.nextMessage at h
  split at h
  · intro e; simp [e] at h
  · simp at h

theorem Events.takeInRequest {p r q own} (h : Events w s t) (k : (t.unit p).inbound ≠ [])
    (ho : ∀ {u}, u.mgmt.device = .running → (q.kind = .put → (u.asm p).state ≠ .assembling) → Events w s u →
      Events w s (own u)) : Events w s (t.takeInRequest p r q own) := by
  unfold State.takeInRequest
  extract_lets s1 isPut s2 s3 s4
  have h1 : Events w s s1 := h.popInbound k
  have h2 : Events w s s2 := by
    simp only [s2]; split
    · exact h1.works (Works.refl _).endAssemblyWork
    · exact h1
  have h3 : Events w s s3 := by
    simp only [s3]; unfold State.answerBusyOrphan
    exact h2.works (Works.refl _).setTagRec.place
  have h4 : Events w s s4 := by
    simp only [s4]; unfold State.useTag
    exact h2.works (Works.refl _).setTagRec
  have ha : q.kind = .put → (s4.asm p).state ≠ .assembling := by
    intro hq
    have hp : isPut = true := by simp [isPut, hq]
    change (s2.asm p).state ≠ _
    simp only [s2, if_pos hp]
    exact State.not_assembling_endAssemblyWork s1 p
  split
  · exact h1.violation
  · split
    · split
      · exact h3.works (Works.refl _).discardBeats
      · exact h3
    · split
      · split
        · exact h4.works (Works.refl _).refusePut
        · exact h4.works (Works.refl _).refuse
      · next hd => exact ho (by simpa using hd) ha h4

theorem State.events_takeIn {p k own}
    (ho : ∀ r q {u}, u.mgmt.device = .running → (k = .put → (u.asm p).state ≠ .assembling) → Events w u (own u r q)) (h : s.takeIn p k own = .next t) :
    Events w s t := by
  unfold State.takeIn at h
  split at h
  · next hm =>
    dsimp only at h
    split at h
    · next hk =>
      simp only [State.concluded, Host.Outcome.next.injEq] at h
      subst h
      exact Events.finish ((Events.refl s).takeInRequest (State.inbound_of_nextMessage hm)
        (fun hd ha hu => hu.trans (ho _ _ hd (fun e => ha (hk.1.trans e)))))
    · simp only [Host.Outcome.next.injEq] at h; subst h; exact .refl s
  · simp only [Host.Outcome.next.injEq] at h; subst h; exact .refl s

theorem State.works_checked {p r st go} (h : ∀ {u}, Works u (go u)) : Works t (t.checked p r st go) := by
  unfold State.checked; split
  · exact (Works.refl t).refuse
  · exact h

theorem State.works_queueConsumer {p r} : Works t (t.queueConsumer p r) :=
  Works.setUnit (Works.refl t).setPhase ⟨⟨rfl, rfl, rfl, rfl⟩, fun _ => .inl rfl⟩

theorem State.works_spiClear : Works t t.spiClear := (Works.refl t).setMgmt rfl

theorem State.works_refuseFrame {r} : Works t (t.refuseFrame r) := Works.setMgmt (Works.refl t) rfl

theorem State.works_accept {c} : Works t (t.accept c) := Works.setMgmt (Works.refl t) rfl

theorem State.works_command {c act} (h : ∀ {u}, Works u (act u)) : Works t (t.command c act) := by
  unfold State.command; dsimp only
  split
  · exact State.works_spiClear.trans State.works_refuseFrame
  · exact (State.works_spiClear.trans State.works_accept).trans h

theorem PortUnit.sameInbound_tagDeparted (u : PortUnit) (m : OutMsg) : u.SameInbound (u.tagDeparted m) := by
  unfold PortUnit.tagDeparted
  split
  · exact ⟨rfl, rfl, rfl, rfl⟩
  · exact ⟨rfl, rfl, rfl, rfl⟩
  · split <;> exact ⟨rfl, rfl, rfl, rfl⟩
  · split <;> exact ⟨rfl, rfl, rfl, rfl⟩
  all_goals exact .refl u

theorem State.works_nextGo {p r} : Works t (t.nextGo p r) := by
  unfold State.nextGo; split
  · exact (Works.refl t).setFlow.relist.respond
  · exact Works.setUnit (Works.refl t).respond ⟨⟨rfl, rfl, rfl, rfl⟩, fun _ => .inl rfl⟩

theorem State.events_putGo {p r q} (hd : t.mgmt.device = .running) (ha : (t.asm p).state ≠ .assembling) :
    Events w t (t.putGo p r q) :=
  Events.works ((Events.refl t).tail (.admits t p _ hd ha ⟨rfl, rfl, rfl⟩)) (Works.refl _).arrive

theorem State.works_closeGo {p r f} : Works t (t.closeGo p r f) := by
  unfold State.closeGo; exact .ite (Works.refl t).respond.enterClosed (Works.refl t).arrive

theorem State.works_releaseGo {p r f} : Works t (t.releaseGo p r f) := by
  unfold State.releaseGo; exact .ite (Works.refl t).respond.endHold (Works.refl t).respond

theorem State.events_portReset {arg} : Events w t (t.command .portReset (State.portResetAct arg)) := by
  unfold State.command; dsimp only
  split
  · exact (State.works_spiClear.trans State.works_refuseFrame).events
  · have h0 : Events w t (t.spiClear.accept .portReset) :=
      (State.works_spiClear.trans State.works_accept).events
    unfold State.portResetAct; dsimp only
    split
    · split
      · exact (h0.teardown (by simp)).works (Works.refl _).commandDone
      · exact Events.works (h0.tail (.left _ _ _ (by simp))) (Works.refl _).commandDone
      · exact h0.works (Works.refl _).commandDone
    · exact h0.works (Works.refl _).commandDone

/-- An outcome that is a next state which these changes reach. -/
def Answers (w : Bool) (s : State) (o : Step) : Prop := ∃ t, o = .next t ∧ Events w s t

theorem Answers.next {u : State} (h : Events w s u) : Answers w s (.next u) := ⟨u, rfl, h⟩

theorem Answers.concluded {u : State} (h : Events w s u) : Answers w s u.concluded := ⟨u.finish, rfl, h.finish⟩

theorem State.answers_takeIn_of {p k own}
    (ho : ∀ r q {u}, u.mgmt.device = .running → (k = .put → (u.asm p).state ≠ .assembling) → Events w u (own u r q)) :
    Answers w s (s.takeIn p k own) := by
  have : ∃ t, s.takeIn p k own = .next t := by
    unfold State.takeIn; split
    · dsimp only; split <;> exact ⟨_, rfl⟩
    · exact ⟨_, rfl⟩
  obtain ⟨t, ht⟩ := this
  exact ⟨t, ht, State.events_takeIn ho ht⟩

theorem State.answers_takeIn {p k own} (ho : ∀ r q {u}, Works u (own u r q)) : Answers w s (s.takeIn p k own) :=
  State.answers_takeIn_of (fun r q {_} _ _ => (ho r q).events)

theorem answers_execPowerOn : Answers true s (execPowerOn s) := by
  unfold execPowerOn
  exact Answers.next ((Events.refl s).tail (.reset s))

theorem answers_execLinkUp {p} : Answers w s (execLinkUp p s) := by
  unfold execLinkUp; split
  · exact Answers.next (((Events.refl s).tail (.up _ _ _ ⟨rfl, rfl⟩)).works (Works.refl _).armReady)
  · exact Answers.next (Events.refl s)

theorem answers_execLinkLoss {p} : Answers w s (execLinkLoss p s) := by
  unfold execLinkLoss; split
  · exact Answers.concluded ((Events.refl s).teardown (by simp))
  · exact Answers.next ((Events.refl s).tail (.left _ _ _ (by simp)))
  · exact Answers.next (Events.refl s)

theorem answers_execFrameArrival {p f} : Answers w s (execFrameArrival p f s) := by
  unfold execFrameArrival; dsimp only; split
  · exact Answers.next (Events.refl s)
  · split
    · exact Answers.concluded (Events.refl s).violation
    · split
      · exact Answers.concluded (Events.refl s).violation
      · next hc => exact Answers.next ((Events.refl s).tail (.arrived _ _ _ hc))

theorem answers_execOpen {p} : Answers w s (execOpen p s) := by
  unfold execOpen
  exact State.answers_takeIn (fun r q {_} => State.works_checked (fun {_} => (Works.refl _).arrive))

theorem answers_execClose {p} : Answers w s (execClose p s) := by
  unfold execClose
  exact State.answers_takeIn (fun r q {_} => State.works_checked (fun {_} => State.works_closeGo))

theorem answers_execQuery {p} : Answers w s (execQuery p s) := by
  unfold execQuery
  exact State.answers_takeIn (fun r q {_} => State.works_checked (fun {_} => (Works.refl _).arrive))

theorem answers_execPut {p} : Answers w s (execPut p s) := by
  unfold execPut
  refine State.answers_takeIn_of (fun r q {u} hd ha => ?_)
  split
  · exact (Works.refl u).refusePut.events
  · exact State.events_putGo hd (ha rfl)

theorem answers_execTake {p} : Answers w s (execTake p s) := by
  unfold execTake
  exact State.answers_takeIn (fun r q {_} => State.works_checked (fun {_} => State.works_queueConsumer))

theorem answers_execPeek {p} : Answers w s (execPeek p s) := by
  unfold execPeek
  exact State.answers_takeIn (fun r q {_} => State.works_checked (fun {_} => State.works_queueConsumer))

theorem answers_execDrop {p} : Answers w s (execDrop p s) := by
  unfold execDrop
  exact State.answers_takeIn (fun r q {_} => State.works_checked (fun {_} => State.works_queueConsumer))

theorem answers_execNext {p} : Answers w s (execNext p s) := by
  unfold execNext
  exact State.answers_takeIn (fun r q {_} => State.works_nextGo)

theorem answers_execHold {p} : Answers w s (execHold p s) := by
  unfold execHold
  exact State.answers_takeIn (fun r q {_} => State.works_checked (fun {_} => (Works.refl _).arrive))

theorem answers_execRelease {p} : Answers w s (execRelease p s) := by
  unfold execRelease
  exact State.answers_takeIn (fun r q {_} => State.works_releaseGo)

theorem answers_execPin {p} : Answers w s (execPin p s) := by
  unfold execPin
  exact State.answers_takeIn (fun r q {_} => State.works_checked (fun {_} => (Works.refl _).arrive))

theorem answers_execUnpin {p} : Answers w s (execUnpin p s) := by
  unfold execUnpin
  exact State.answers_takeIn (fun r q {_} => State.works_checked (fun {_} => (Works.refl _).arrive))

theorem answers_execUndefinedRequestCode {p} : Answers w s (execUndefinedRequestCode p s) := by
  unfold execUndefinedRequestCode
  exact State.answers_takeIn (fun r q {_} => (Works.refl _).refuse)

theorem answers_execData {p} : Answers w s (execData p s) := by
  unfold execData; split
  · next hm =>
    have h1 : Events w s (s.popInbound p) := (Events.refl s).popInbound (State.inbound_of_nextMessage hm)
    split
    · exact Answers.next (Events.refl s)
    · refine Answers.concluded ?_
      unfold State.beatTaken; dsimp only
      split
      · split
        · next ha hl => exact h1.works ((Works.refl _).acceptBeat ha hl)
        · next ha _ => exact (h1.works ((Works.refl _).abort ha)).violation
      · split
        · next ha _ => exact h1.works ((Works.refl _).discardBeat ha)
        · next ha _ =>
          exact (h1.works ((Works.refl _).setAsmIdle (by rw [ha]; simp) Assembly.idles_initial)).violation
      · exact h1.works (Works.refl _).strayBeat
      · exact h1
  · exact Answers.next (Events.refl s)

theorem answers_execCut {p} : Answers w s (execCut p s) := by
  unfold execCut; split
  · next hm =>
    exact Answers.concluded
      (((Events.refl s).popInbound (State.inbound_of_nextMessage hm)).works (Works.refl _).cutTag)
  · exact Answers.next (Events.refl s)

theorem answers_execArm {p} : Answers w s (execArm p s) := by
  unfold execArm; split
  · next hm =>
    exact Answers.next
      (((Events.refl s).popInbound (State.inbound_of_nextMessage hm)).works (Works.refl _).armReady)
  · exact Answers.next (Events.refl s)

theorem answers_execCredit {p} : Answers w s (execCredit p s) := by
  unfold execCredit; split
  · next hm =>
    have h1 : Events w s (s.popInbound p) := (Events.refl s).popInbound (State.inbound_of_nextMessage hm)
    dsimp only; split
    · exact Answers.concluded h1.violation
    · exact Answers.next (h1.works (Works.setUnit (Works.refl _) ⟨⟨rfl, rfl, rfl, rfl⟩, fun _ => .inl rfl⟩))
  · exact Answers.next (Events.refl s)

theorem answers_execDeparture {p} : Answers w s (execDeparture p s) := by
  unfold execDeparture; dsimp only; split
  · exact Answers.next (Events.refl s)
  · split
    · next hup =>
      refine Answers.concluded <| Works.events <| Works.setUnit (Works.refl s) ⟨?_, fun h => absurd hup.1 h⟩
      refine PortUnit.SameInbound.trans (PortUnit.SameInbound.trans ?_
        (PortUnit.sameInbound_tagDeparted _ _)) (PortUnit.sameInbound_noticesPlaced _)
      exact ⟨rfl, rfl, rfl, rfl⟩
    · exact Answers.next (Events.refl s)

theorem answers_execFillCompletion {e0 e1 e2 e3} : Answers w s (execFillCompletion e0 e1 e2 e3 s) := by
  unfold execFillCompletion; split
  · exact Answers.concluded <| Works.events <| (Works.refl s).accessEnded.fillDone
  · exact Answers.next (Events.refl s)

theorem answers_execSpillCompletion : Answers w s (execSpillCompletion s) := by
  unfold execSpillCompletion; split
  · exact Answers.concluded <| Works.events <| (Works.refl s).accessEnded.spillDone
  · exact Answers.next (Events.refl s)

theorem answers_execWordWriteCompletion : Answers w s (execWordWriteCompletion s) := by
  unfold execWordWriteCompletion; split
  · exact Answers.concluded <| Works.events <| (Works.refl s).accessEnded.wordWritten
  · exact Answers.next (Events.refl s)

theorem answers_execBeatReadCompletion {e0 e1 e2} : Answers w s (execBeatReadCompletion e0 e1 e2 s) := by
  unfold execBeatReadCompletion; split
  · exact Answers.concluded <| Works.events <| (Works.refl s).accessEnded.beatReported
  · exact Answers.next (Events.refl s)

theorem answers_execDiagnosticReadCompletion {e0 e1 e2 e3} : Answers w s (execDiagnosticReadCompletion e0 e1 e2 e3 s) := by
  unfold execDiagnosticReadCompletion; split
  · exact Answers.concluded <| Works.events <| (Works.refl s).accessEnded.countCorrected.commandDone
  · exact Answers.next (Events.refl s)

theorem answers_execGapTimeout {p} : Answers w s (execGapTimeout p s) := by
  unfold execGapTimeout; split
  · split
    · next ha => exact Answers.concluded <| Works.events <| (Works.refl s).abort ha
    · next ha =>
      exact Answers.next ((Works.refl s).setAsmIdle (by rw [ha]; simp) Assembly.idles_initial).events
    all_goals exact Answers.next (Events.refl s)
  · exact Answers.next (Events.refl s)

theorem answers_execLeaseExpiry {p} : Answers w s (execLeaseExpiry p s) := by
  unfold execLeaseExpiry; dsimp only; split
  · next hh =>
    split
    · have hh : (s.hold p).state = .held ∧ (s.hold p).lease = 0 := by simpa [State.leaseDue] using hh
      exact Answers.next ((Events.refl s).tail (.work (.holdSame _ _ _ (fun _ => ⟨by simp [hh.1], rfl⟩))))
    · exact Answers.concluded <| Works.events <| (Works.refl s).endHold
  · exact Answers.next (Events.refl s)

theorem answers_execWriteFrame {a v} : Answers true s (execWriteFrame a v s) := by
  unfold execWriteFrame; dsimp only
  have h1 : Events true s s.spiClear := State.works_spiClear.events
  split
  · exact Answers.next (h1.works (Works.setMgmt (Works.refl _) rfl))
  · split
    · next hd => exact Answers.next (h1.tail (.configured _ _ hd))
    · exact Answers.next (h1.works (Works.setMgmt (Works.refl _) rfl))

theorem answers_execUndefinedCommandByte {b a v} : Answers w s (execUndefinedCommandByte b a v s) := by
  unfold execUndefinedCommandByte; split
  · exact Answers.next (Works.events (t := s.readFrame a) (Works.setMgmt (Works.refl s) rfl))
  split
  · exact Answers.next (Events.refl s)
  · exact Answers.next (State.works_spiClear.events.works (Works.setMgmt (Works.refl _) rfl))

theorem answers_execInit : Answers w s (execInit s) := by
  unfold execInit
  refine Answers.next ?_
  unfold State.command; dsimp only
  have h1 : Events w s s.spiClear := State.works_spiClear.events
  split
  · exact h1.works (Works.setMgmt (Works.refl _) rfl)
  · have h2 : Events w s (s.spiClear.accept .init) := h1.works (Works.setMgmt (Works.refl _) rfl)
    unfold State.initAct
    split
    · next hd =>
      split
      · exact h2.works (Works.refl _).commandDone
      · exact h2.tail (.initializing _ hd (by assumption))
    · exact h2.works (Works.refl _).commandDone

theorem answers_execInitSweepCompletion : Answers w s (execInitSweepCompletion s) := by
  unfold execInitSweepCompletion; split
  · next hd => exact Answers.next ((Events.refl s).tail (.swept _ hd))
  · exact Answers.next (Events.refl s)

theorem answers_execRestart : Answers w s (execRestart s) := by
  unfold execRestart
  exact Answers.next ((Events.refl s).tail (.restarted s _ rfl))

theorem answers_execPortReset {arg} : Answers w s (execPortReset arg s) := by
  unfold execPortReset
  exact Answers.concluded State.events_portReset

theorem answers_execClearHalt {arg} : Answers w s (execClearHalt arg s) := by
  unfold execClearHalt
  refine Answers.concluded <| Works.events <| (State.works_command (fun {u} => ?_))
  unfold State.clearHaltAct
  split
  · exact (Works.refl u).commandDone
  · split
    · exact (Works.refl u).arrive
    · exact (Works.refl u).commandDone

theorem answers_execReadFlow {arg} : Answers w s (execReadFlow arg s) := by
  unfold execReadFlow
  refine Answers.next (State.works_command (fun {u} => ?_)).events
  unfold State.readFlowAct; split <;> exact (Works.refl u).commandDone

theorem answers_execReadContext {arg} : Answers w s (execReadContext arg s) := by
  unfold execReadContext
  refine Answers.concluded <| Works.events <| (State.works_command (fun {u} => ?_))
  unfold State.readContextAct
  split
  · exact (Works.refl u).commandDone
  · split
    · exact (Works.refl u).setMem
    · exact (Works.refl u).commandDone

theorem answers_execReadSlot {arg} : Answers w s (execReadSlot arg s) := by
  unfold execReadSlot
  refine Answers.next ?_
  unfold State.command; dsimp only
  have h1 : Events w s s.spiClear := State.works_spiClear.events
  split
  · exact h1.works (Works.setMgmt (Works.refl _) rfl)
  · have h2 : Events w s (s.spiClear.accept .readSlot) := h1.works (Works.setMgmt (Works.refl _) rfl)
    unfold State.readSlotAct; dsimp only
    split
    · split
      · exact h2.works (Works.refl _).commandDone
      · exact (h2.tail (.drew _)).works (Works.refl _).commandDone
    · exact h2.works (Works.refl _).commandDone

theorem answers_execClearCounters : Answers w s (execClearCounters s) := by
  unfold execClearCounters
  refine Answers.next (State.works_command (fun {u} => ?_)).events
  exact Works.commandDone (Works.setMgmt (Works.refl u).setMem rfl)

theorem answers_execReturnSent {p} : Answers w s (execReturnSent p s) := by
  unfold execReturnSent; dsimp only; split
  · exact Answers.next (Events.refl s)
  · exact Answers.next (Works.events (Works.setUnit (Works.refl s) ⟨⟨rfl, rfl, rfl, rfl⟩, fun _ => .inl rfl⟩))

/-- Every command answers a next state, which these changes reach. -/
theorem exec_events (c : Instr) (s : State) : ∃ t, exec c s = .next t ∧ Events (mayConfigure c) s t := by
  cases c
  · exact answers_execPowerOn
  · exact answers_execLinkUp
  · exact answers_execLinkLoss
  · exact answers_execFrameArrival
  · exact answers_execOpen
  · exact answers_execClose
  · exact answers_execQuery
  · exact answers_execPut
  · exact answers_execTake
  · exact answers_execPeek
  · exact answers_execDrop
  · exact answers_execNext
  · exact answers_execHold
  · exact answers_execRelease
  · exact answers_execPin
  · exact answers_execUnpin
  · exact answers_execUndefinedRequestCode
  · exact answers_execData
  · exact answers_execCut
  · exact answers_execArm
  · exact answers_execCredit
  · exact answers_execDeparture
  · exact answers_execFillCompletion
  · exact answers_execSpillCompletion
  · exact answers_execWordWriteCompletion
  · exact answers_execBeatReadCompletion
  · exact answers_execDiagnosticReadCompletion
  · exact answers_execGapTimeout
  · exact answers_execLeaseExpiry
  · exact answers_execWriteFrame
  · exact answers_execUndefinedCommandByte (v := 0)
  · exact answers_execInit
  · exact answers_execInitSweepCompletion
  · exact answers_execRestart
  · exact answers_execPortReset
  · exact answers_execClearHalt
  · exact answers_execReadFlow
  · exact answers_execReadContext
  · exact answers_execReadSlot
  · exact answers_execClearCounters
  · exact answers_execReturnSent

theorem answers_idle : Answers w s s.idle := by
  unfold State.idle; split
  · exact answers_execGapTimeout
  · split
    · exact answers_execLeaseExpiry
    · exact Answers.next ((Events.refl s).tail (.ticked s))

/-- A command that answers a next state answers one these changes reach. -/
theorem events_of_exec {c : Instr} {s t : State} (h : exec c s = .next t) : Events (mayConfigure c) s t := by
  obtain ⟨u, hu, e⟩ := exec_events c s
  rw [h] at hu
  cases hu
  exact e

/-- A step is these changes, past the queue. -/
theorem events_of_step {s t : State} (h : step s = .next t) :
    Events true { s with pending := s.pending.tail } t := by
  unfold step at h
  split at h
  · next hp =>
    obtain ⟨u, hu, e⟩ := answers_idle (w := true) (s := s)
    rw [h] at hu
    cases hu
    have : ({ s with pending := s.pending.tail } : State) = s := by rw [hp]; simp only [List.tail_nil]; rw [← hp]
    rw [this]
    exact e
  · next c rest hp =>
    have := (events_of_exec h).any
    simpa [hp] using this

end Sys2Proof.Machine
end

