-- ==== Sys2Proof/Laws/Quiet.lean ====
section
/-! SUPPORT. The end of an event in a quiet state: what `finish` does when no hand-on, no beat read and no grant is due. -/

namespace Sys2Proof.Machine

/-! ## What a state's quiet rests on -/

/-- A port unit that hands nothing on and whose queue holds as many beats as another's. -/
def PortUnit.SameQuiet (u v : PortUnit) : Prop :=
  v.consumerQueue = u.consumerQueue ∧ v.current = u.current ∧ beatsIn v.outbound = beatsIn u.outbound

theorem PortUnit.SameQuiet.refl (u : PortUnit) : u.SameQuiet u := ⟨rfl, rfl, rfl⟩

theorem PortUnit.SameQuiet.trans {u v w : PortUnit} (h : u.SameQuiet v) (k : v.SameQuiet w) : u.SameQuiet w :=
  ⟨k.1.trans h.1, k.2.1.trans h.2.1, k.2.2.trans h.2.2⟩

/-- A message that is not a DATA beat. -/
def OutMsg.NotBeat : OutMsg → Prop
  | .data _ => False
  | _ => True

theorem beatsIn_append (q : List OutMsg) (m : OutMsg) (h : m.NotBeat) : beatsIn (q ++ [m]) = beatsIn q := by
  cases m <;> simp_all [beatsIn, OutMsg.NotBeat]

theorem beatsIn_lastNotice {q r : List OutMsg} {n : Notice} {o : Bool} (h : lastNotice q = some (n, o, r)) :
    beatsIn r = beatsIn q := by
  induction q generalizing n o r with
  | nil => simp [lastNotice] at h
  | cons m q ih =>
    unfold lastNotice at h
    split at h
    · next n' o' q' hq =>
      simp only [Option.some.injEq, Prod.mk.injEq] at h
      obtain ⟨rfl, rfl, rfl⟩ := h
      have := ih hq
      simp only [beatsIn, List.countP_cons] at this ⊢
      omega
    · split at h
      · simp only [Option.some.injEq, Prod.mk.injEq] at h
        obtain ⟨rfl, rfl, rfl⟩ := h
        simp [beatsIn]
      · simp at h

theorem PortUnit.sameQuiet_placeOne {u v : PortUnit} (h : u.placeOneNotice = some v) : u.SameQuiet v := by
  unfold PortUnit.placeOneNotice at h
  split at h
  · simp only [Option.some.injEq] at h; subst h; exact ⟨rfl, rfl, beatsIn_append _ _ trivial⟩
  · split at h
    · simp only [Option.some.injEq] at h; subst h; exact ⟨rfl, rfl, beatsIn_append _ _ trivial⟩
    · split at h
      · simp at h
      · simp only [Option.some.injEq] at h; subst h; exact ⟨rfl, rfl, beatsIn_append _ _ trivial⟩

theorem PortUnit.sameQuiet_placeNotices (n : Nat) (u : PortUnit) : u.SameQuiet (u.placeNotices n) := by
  induction n generalizing u with
  | zero => exact .refl u
  | succ n ih =>
    unfold PortUnit.placeNotices
    split
    · split
      · next h => exact (PortUnit.sameQuiet_placeOne h).trans (ih _)
      · exact .refl u
    · exact .refl u

theorem PortUnit.sameQuiet_noticesPlaced (u : PortUnit) : u.SameQuiet u.noticesPlaced :=
  PortUnit.sameQuiet_placeNotices _ u

theorem PortUnit.sameQuiet_displaced (u : PortUnit) : u.SameQuiet u.displaced := by
  unfold PortUnit.displaced
  split
  · exact .refl u
  · next h => exact ⟨rfl, rfl, beatsIn_lastNotice h⟩
  · next h => exact ⟨rfl, rfl, beatsIn_lastNotice h⟩
  · next h => exact ⟨rfl, rfl, beatsIn_lastNotice h⟩

/-- The placing of a message that is no beat. -/
theorem PortUnit.sameQuiet_place (m : OutMsg) (h : m.NotBeat) (u : PortUnit) : u.SameQuiet (u.place m) := by
  unfold PortUnit.place
  split
  · exact .refl u
  · split
    · exact ⟨rfl, rfl, beatsIn_append _ _ h⟩
    · refine PortUnit.SameQuiet.trans (u.sameQuiet_displaced.trans ?_) (PortUnit.sameQuiet_noticesPlaced _)
      exact ⟨rfl, rfl, beatsIn_append _ _ h⟩

/-- The raising of a notice. -/
theorem PortUnit.sameQuiet_raise (n : Notice) (u : PortUnit) : u.SameQuiet (u.raise n) := by
  unfold PortUnit.raise
  split
  · exact .refl u
  · split
    · exact PortUnit.SameQuiet.trans ⟨rfl, rfl, rfl⟩ (PortUnit.sameQuiet_noticesPlaced _)
    · exact PortUnit.SameQuiet.trans ⟨rfl, rfl, rfl⟩ (PortUnit.sameQuiet_noticesPlaced _)
    · split
      · exact PortUnit.SameQuiet.trans ⟨rfl, rfl, rfl⟩ (PortUnit.sameQuiet_noticesPlaced _)
      · exact PortUnit.SameQuiet.trans ⟨rfl, rfl, rfl⟩ (PortUnit.sameQuiet_noticesPlaced _)

/-! ## Quiet states -/

/-- What quiet rests on, as propositions. -/
theorem State.quiet_iff (s : State) : s.quiet = true ↔
    s.retryDue = false ∧ (∀ p, s.handOnDue p = false ∧ s.readDue p = false) ∧ s.mem.grant = s.mem ∧
      (s.mem.inProgress.isSome = true ∨ (s.mem.fillQueue = [] ∧ s.mem.spillQueue = [] ∧
        (∀ p : PortId, s.mem.portQueue[p] = []) ∧ s.mem.mgmtRead = none)) := by
  have hp : ∀ P : PortId → Bool, allPorts.all P = true ↔ ∀ p, P p = true := by
    intro P
    simp only [allPorts, List.all_cons, List.all_nil, Bool.and_true, Bool.and_eq_true]
    constructor
    · rintro ⟨h0, h1, h2, h3⟩ p
      match p with
      | 0 => exact h0
      | 1 => exact h1
      | 2 => exact h2
      | 3 => exact h3
    · intro h; exact ⟨h 0, h 1, h 2, h 3⟩
  unfold State.quiet
  simp only [Bool.and_eq_true, Bool.not_eq_true', Bool.or_eq_true, hp, List.isEmpty_iff, Option.isNone_iff_eq_none]
  constructor
  · rintro ⟨⟨h1, h2⟩, h3⟩
    refine ⟨h1, h2, ?_, ?_⟩
    · unfold MemController.grant
      rcases h3 with h3 | ⟨⟨⟨h3, h4⟩, h5⟩, h6⟩
      · rw [if_pos h3]
      · split
        · rfl
        · rw [h3, h4]
          have : ∀ l : List PortId, l.find? s.mem.eligible = none := by
            intro l
            rw [List.find?_eq_none]
            intro p _
            have := h5 p
            unfold MemController.eligible
            rw [this]
            simp
          simp only [this, h6]
    · rcases h3 with h3 | ⟨⟨⟨h3, h4⟩, h5⟩, h6⟩
      · exact .inl h3
      · exact .inr ⟨h3, h4, h5, h6⟩
  · rintro ⟨h1, h2, _, h3⟩
    refine ⟨⟨h1, h2⟩, ?_⟩
    rcases h3 with h3 | ⟨h3, h4, h5, h6⟩
    · exact .inl h3
    · exact .inr ⟨⟨⟨h3, h4⟩, h5⟩, h6⟩

theorem State.settle_quiet (n : Nat) (s : State) (h : ∀ p, s.handOnDue p = false) (k : s.retryDue = false) :
    State.settle n s = s := by
  cases n with
  | zero => rfl
  | succ n =>
    unfold State.settle
    have : allPorts.find? s.handOnDue = none := by
      rw [List.find?_eq_none]; intro p _; simp [h p]
    simp [this, k]

theorem State.issueReads_quiet (s : State) (h : ∀ p, s.readDue p = false) : s.issueReads = s := by
  simp [State.issueReads, allPorts, h]

/-- The end of an event leaves a quiet state as it is. -/
theorem State.finish_of_quiet {s : State} (h : s.quiet = true) : s.finish = s := by
  obtain ⟨h1, h2, h3, _⟩ := s.quiet_iff.1 h
  unfold State.finish
  rw [State.settle_quiet _ _ (fun p => (h2 p).1) h1]
  dsimp only
  rw [State.issueReads_quiet _ (fun p => (h2 p).2), h3]
  rfl

/-- The end of an event that has met an event of R62, when nothing waits. -/
theorem State.finish_of_retry {s : State} (h : ({ s with retryDue := false } : State).quiet = true)
    (hm : s.missWait = []) (hl : s.linkWait = []) : s.finish = { s with retryDue := false } := by
  by_cases k : s.retryDue = false
  · have : ({ s with retryDue := false } : State) = s := by rw [← k]
    rw [this] at h ⊢
    exact State.finish_of_quiet h
  · obtain ⟨h1, h2, h3, _⟩ := State.quiet_iff _ |>.1 h
    have hf : ∀ p, s.handOnDue p = false := fun p => (h2 p).1
    have hr : s.retryWaits = { s with retryDue := false } := by
      unfold State.retryWaits
      rw [hm, hl]
      rfl
    unfold State.finish
    have h4 : State.settle (4 * s.waiting + 4) s = { s with retryDue := false } := by
      show State.settle ((4 * s.waiting + 3) + 1) s = _
      unfold State.settle
      have : allPorts.find? s.handOnDue = none := by
        rw [List.find?_eq_none]; intro p _; simp [hf p]
      have k' : s.retryDue = true := by simpa using k
      simp only [this, k', if_true, hr]
      exact State.settle_quiet _ _ (fun p => (h2 p).1) rfl
    rw [h4]
    dsimp only
    rw [State.issueReads_quiet _ (fun p => (h2 p).2), h3]
    rfl

/-- Two states with the same deliveries and accesses, and port units that agree on hand-ons and beats, are quiet
together. -/
theorem State.quiet_congr {s t : State} (hr : t.retryDue = s.retryDue) (hd : t.dels = s.dels) (hm : t.mem = s.mem)
    (hu : ∀ p, (s.unit p).SameQuiet (t.unit p)) : t.quiet = s.quiet := by
  have h1 : ∀ p, t.handOnDue p = s.handOnDue p := by
    intro p; unfold State.handOnDue; rw [(hu p).1, (hu p).2.1]
  have h2 : ∀ p, t.readDue p = s.readDue p := by
    intro p
    have : t.del p = s.del p := by unfold State.del; rw [hd]
    unfold State.readDue State.readOutstanding
    rw [this, (hu p).2.2, hm]
  unfold State.quiet
  rw [hr, hm]
  simp only [h1, h2]

/-- A change of one port unit that leaves its hand-ons and beats as they are. -/
theorem State.sameQuiet_setUnit {s : State} {p : PortId} {u : PortUnit} (h : (s.unit p).SameQuiet u) (q : PortId) :
    (s.unit q).SameQuiet ((s.setUnit p u).unit q) := by
  by_cases e : q = p
  · subst e; rw [State.unit_setUnit_self]; exact h
  · rw [State.unit_setUnit_ne _ _ e]; exact .refl _

end Sys2Proof.Machine
end

