-- ==== Sys2Proof/Laws/Management.lean ====
section
/-! SUPPORT. A command frame at the management port: refused while a command is in flight, and what its acceptance leaves. -/

namespace Sys2Proof.Machine

variable {s : State}

/-- A command frame that meets a command in flight. -/
theorem State.command_refused (h : s.mgmt.command = .inFlight) (c : MgmtCommand) (act : State → State) :
    s.command c act = s.setMgmt (s.mgmt.refusedNow .inFlight) := by
  have e : s.spiClear.mgmt.command = .inFlight := h
  unfold State.command
  dsimp only
  rw [if_pos e]
  rfl

/-- A command frame that is accepted. -/
theorem State.command_accepted (h : s.mgmt.command ≠ .inFlight) (c : MgmtCommand) (act : State → State) :
    s.command c act = act (s.setMgmt (s.mgmt.acceptedNow c)) := by
  have e : s.spiClear.mgmt.command ≠ .inFlight := h
  unfold State.command
  dsimp only
  rw [if_neg e]
  rfl

/-- A result of the command in flight. -/
theorem State.commandDone_accepted (c : MgmtCommand) (r : MgmtResult) (ws : Vector Word32 16) :
    (s.setMgmt (s.mgmt.acceptedNow c)).commandDone r ws = s.setMgmt (s.mgmt.answeredNow c r ws) := rfl

/-- The result words 4 to 11 of READ_SLOT are the slot's record, four bytes to a word (R180). -/
theorem State.slotWords_context (S : SlotId) (i : Fin 8) :
    (s.slotWords S)[4 + i.val]'(by omega) = recordResultWord (s.slotRecord S) i.val := by
  match i with
  | 0 => rfl
  | 1 => rfl
  | 2 => rfl
  | 3 => rfl
  | 4 => rfl
  | 5 => rfl
  | 6 => rfl
  | 7 => rfl

/-- The management unit is no part of a state's quiet. -/
theorem State.quiet_setMgmt (m : Management) : (s.setMgmt m).quiet = s.quiet :=
  State.quiet_congr rfl rfl rfl (fun _ => .refl _)

/-- The end of an event that has changed the management unit alone. -/
theorem State.finish_setMgmt (h : s.quiet = true) (m : Management) : (s.setMgmt m).finish = s.setMgmt m :=
  State.finish_of_quiet (by rw [State.quiet_setMgmt, h])

/-- The end of an event that has changed the memory controller alone, when no beat read is due after it. -/
theorem State.finish_setMem (h : s.quiet = true) (m : MemController) (k : ∀ p, (s.setMem m).readDue p = false) :
    (s.setMem m).finish = s.setMem m.grant := by
  obtain ⟨h1, h2, _, _⟩ := s.quiet_iff.1 h
  have e : State.settle (4 * (s.setMem m).waiting + 4) (s.setMem m) = s.setMem m :=
    State.settle_quiet _ _ (fun p => (h2 p).1) h1
  unfold State.finish
  rw [e]
  dsimp only
  rw [State.issueReads_quiet _ k]
  rfl

end Sys2Proof.Machine
end

