-- ==== Sys2Proof/Laws/PerInstr.lean ====
section
/-! SUPPORT. What each row's command is as data, per constructor: an event of its row, or a frame that has a row of its own. -/

namespace Sys2Proof.Laws.FrameOfCommand

/-- A command is an event of its row; or it is an UNDEFINED_COMMAND_BYTE whose byte is that of another row, which is no
event at all (R164, R180). -/
def Statement (i : Instr) : Prop :=
  i.wellFormed = true ∨
    ∃ cmd addr value, i = .undefinedCommandByte cmd addr value ∧ rowedCommandByte cmd = true

theorem powerOn : Statement .powerOn := Or.inl rfl
theorem linkUp (p : PortId) : Statement (.linkUp p) := Or.inl rfl
theorem linkLoss (p : PortId) : Statement (.linkLoss p) := Or.inl rfl
theorem frameArrival (p : PortId) (f : LinkFrame) : Statement (.frameArrival p f) := Or.inl rfl
theorem openReq (p : PortId) : Statement (.openReq p) := Or.inl rfl
theorem closeReq (p : PortId) : Statement (.closeReq p) := Or.inl rfl
theorem queryReq (p : PortId) : Statement (.queryReq p) := Or.inl rfl
theorem putReq (p : PortId) : Statement (.putReq p) := Or.inl rfl
theorem takeReq (p : PortId) : Statement (.takeReq p) := Or.inl rfl
theorem peekReq (p : PortId) : Statement (.peekReq p) := Or.inl rfl
theorem dropReq (p : PortId) : Statement (.dropReq p) := Or.inl rfl
theorem nextReq (p : PortId) : Statement (.nextReq p) := Or.inl rfl
theorem holdReq (p : PortId) : Statement (.holdReq p) := Or.inl rfl
theorem releaseReq (p : PortId) : Statement (.releaseReq p) := Or.inl rfl
theorem pinReq (p : PortId) : Statement (.pinReq p) := Or.inl rfl
theorem unpinReq (p : PortId) : Statement (.unpinReq p) := Or.inl rfl
theorem undefinedRequestCode (p : PortId) : Statement (.undefinedRequestCode p) := Or.inl rfl
theorem data (p : PortId) : Statement (.data p) := Or.inl rfl
theorem cut (p : PortId) : Statement (.cut p) := Or.inl rfl
theorem arm (p : PortId) : Statement (.arm p) := Or.inl rfl
theorem credit (p : PortId) : Statement (.credit p) := Or.inl rfl
theorem departure (p : PortId) : Statement (.departure p) := Or.inl rfl
theorem fillCompletion (e0 e1 e2 e3 : ErrorPattern) : Statement (.fillCompletion e0 e1 e2 e3) := Or.inl rfl
theorem spillCompletion : Statement .spillCompletion := Or.inl rfl
theorem wordWriteCompletion : Statement .wordWriteCompletion := Or.inl rfl
theorem beatReadCompletion (e0 e1 e2 : ErrorPattern) : Statement (.beatReadCompletion e0 e1 e2) := Or.inl rfl
theorem diagnosticReadCompletion (e0 e1 e2 e3 : ErrorPattern) : Statement (.diagnosticReadCompletion e0 e1 e2 e3) := Or.inl rfl
theorem gapTimeout (p : PortId) : Statement (.gapTimeout p) := Or.inl rfl
theorem leaseExpiry (p : PortId) : Statement (.leaseExpiry p) := Or.inl rfl
theorem writeFrame (addr : BitVec 16) (value : Word32) : Statement (.writeFrame addr value) := Or.inl rfl
theorem undefinedCommandByte (cmd : Byte) (addr : BitVec 16) (value : Word32) : Statement (.undefinedCommandByte cmd addr value) := by
  cases h : rowedCommandByte cmd
  · exact Or.inl (by simp [Instr.wellFormed, h])
  · exact Or.inr ⟨cmd, addr, value, rfl, h⟩
theorem init : Statement .init := Or.inl rfl
theorem initSweepCompletion : Statement .initSweepCompletion := Or.inl rfl
theorem restart : Statement .restart := Or.inl rfl
theorem portReset (arg : BitVec 16) : Statement (.portReset arg) := Or.inl rfl
theorem clearHalt (arg : BitVec 16) : Statement (.clearHalt arg) := Or.inl rfl
theorem readFlow (arg : BitVec 16) : Statement (.readFlow arg) := Or.inl rfl
theorem readContext (arg : BitVec 16) : Statement (.readContext arg) := Or.inl rfl
theorem readSlot (arg : BitVec 16) : Statement (.readSlot arg) := Or.inl rfl
theorem clearCounters : Statement .clearCounters := Or.inl rfl
theorem returnSent (p : PortId) : Statement (.returnSent p) := Or.inl rfl

end Sys2Proof.Laws.FrameOfCommand
end

