-- ==== Sys2Proof/Laws/Segments.lean ====
section
/-! SUPPORT. The sum of R32: what each part of State gives it, and that the answers, notices and ready lists of an event leave it. -/

namespace Sys2Proof.Machine

/-! ## The sum by parts -/

/-- A sum over all numbers, one of whose terms changes. -/
theorem sum_changed {n : Nat} {g h : Fin n → Nat} (i : Fin n) (hne : ∀ j, j ≠ i → h j = g j) :
    ((List.finRange n).map h).sum + g i = ((List.finRange n).map g).sum + h i := by
  have e : ∑ j ∈ Finset.univ.erase i, h j = ∑ j ∈ Finset.univ.erase i, g j :=
    Finset.sum_congr rfl (fun j hj => hne j (Finset.ne_of_mem_erase hj))
  have eh := Finset.add_sum_erase _ h (Finset.mem_univ i)
  have eg := Finset.add_sum_erase _ g (Finset.mem_univ i)
  rw [← Fin.sum_univ_def, ← Fin.sum_univ_def]
  omega

/-- The same over the ports. -/
theorem sum_ports_changed {g h : PortId → Nat} (p : PortId) (hne : ∀ q, q ≠ p → h q = g q) :
    (allPorts.map h).sum + g p = (allPorts.map g).sum + h p := sum_changed (n := 4) p hne

theorem State.segments_setFlow (s : State) (f : FlowId) (e : FlowEntry) :
    (s.setFlow f e).segments + (s.flow f).segCount = s.segments + e.segCount := by
  have h : ((List.finRange 4096).map (fun g => ((s.setFlow f e).flow g).segCount)).sum + (s.flow f).segCount =
      ((List.finRange 4096).map (fun g => (s.flow g).segCount)).sum + ((s.setFlow f e).flow f).segCount :=
    sum_changed (h := fun g => ((s.setFlow f e).flow g).segCount) (g := fun g => (s.flow g).segCount) f
      (fun g hg => by rw [State.flow_setFlow_ne s e hg])
  rw [State.flow_setFlow_self] at h
  unfold State.segments
  simp only [State.pool_setFlow, State.asm_setFlow]
  change _ + (allPorts.map (fun p => ((List.finRange 8).map (fun t => (s.tagRec p t).segments)).sum)).sum + _ = _
  omega

theorem State.segments_setAsm (s : State) (p : PortId) (v : Assembly) :
    (s.setAsm p v).segments + (s.asm p).segments = s.segments + v.segments := by
  have := sum_ports_changed (g := fun q => (s.asm q).segments) (h := fun q => ((s.setAsm p v).asm q).segments) p
    (fun q hq => by rw [State.asm_setAsm, if_neg hq])
  rw [State.asm_setAsm_self] at this
  unfold State.segments
  simp only [State.pool_setAsm, State.flow_setAsm]
  change _ + (allPorts.map (fun p => ((List.finRange 8).map (fun t => (s.tagRec p t).segments)).sum)).sum + _ = _
  omega

theorem State.segments_setTagRec (s : State) (p : PortId) (t : TagId) (r : TagRecord) :
    (s.setTagRec p t r).segments + (s.tagRec p t).segments = s.segments + r.segments := by
  have hp := sum_ports_changed (g := fun q => ((List.finRange 8).map (fun t => (s.tagRec q t).segments)).sum)
    (h := fun q => ((List.finRange 8).map (fun g => ((s.setTagRec p t r).tagRec q g).segments)).sum) p
    (fun q hq => by simp only [State.tagRec, State.setTagRec, State.unit_setUnit, if_neg hq])
  have ht : ((List.finRange 8).map (fun g => ((s.setTagRec p t r).tagRec p g).segments)).sum + (s.tagRec p t).segments =
      ((List.finRange 8).map (fun g => (s.tagRec p g).segments)).sum + ((s.setTagRec p t r).tagRec p t).segments :=
    sum_changed (h := fun g => ((s.setTagRec p t r).tagRec p g).segments) (g := fun g => (s.tagRec p g).segments) t (fun g hg => by
      simp only [State.tagRec, State.setTagRec, State.unit_setUnit, if_true]
      rw [PortUnit.tag_setTag, if_neg hg])
  have e : (s.setTagRec p t r).tagRec p t = r := by
    simp only [State.tagRec, State.setTagRec, State.unit_setUnit, if_true, PortUnit.tag_setTag_self]
  rw [e] at ht
  unfold State.segments
  change s.pool.free + s.pool.stranded + ((List.finRange 4096).map (fun f => (s.flow f).segCount)).sum +
    (allPorts.map (fun p => (s.asm p).segments)).sum + _ + _ = _
  omega

theorem State.segments_setPool (s : State) (P : Pool) :
    (s.setPool P).segments + (s.pool.free + s.pool.stranded) = s.segments + (P.free + P.stranded) := by
  unfold State.segments
  change P.free + P.stranded + ((List.finRange 4096).map (fun f => (s.flow f).segCount)).sum +
    (allPorts.map (fun p => (s.asm p).segments)).sum +
    (allPorts.map (fun p => ((List.finRange 8).map (fun t => (s.tagRec p t).segments)).sum)).sum + _ = _
  omega

/-- A state whose parts have the same segments has the same sum. -/
theorem State.segments_congr {s t : State} (hp : t.pool = s.pool) (hf : t.flows = s.flows) (ha : t.asms = s.asms)
    (hu : ∀ p r, ((t.unit p).tag r).unit = ((s.unit p).tag r).unit) : t.segments = s.segments := by
  have h1 : ∀ f, t.flow f = s.flow f := fun f => by unfold State.flow; rw [hf]
  have h2 : ∀ p, t.asm p = s.asm p := fun p => by unfold State.asm; rw [ha]
  have h3 : ∀ p r, (t.tagRec p r).segments = (s.tagRec p r).segments := fun p r => by
    unfold TagRecord.segments State.tagRec; rw [hu]
  unfold State.segments
  simp only [hp, h1, h2, h3]

/-! ## What leaves the sum -/

@[simp] theorem State.segments_setSlot (s : State) (S : SlotId) (v : Slot) : (s.setSlot S v).segments = s.segments :=
  State.segments_congr rfl rfl rfl (fun _ _ => rfl)
@[simp] theorem State.segments_setDel (s : State) (p : PortId) (v : Delivery) : (s.setDel p v).segments = s.segments :=
  State.segments_congr rfl rfl rfl (fun _ _ => rfl)
@[simp] theorem State.segments_setHold (s : State) (p : PortId) (v : Hold) : (s.setHold p v).segments = s.segments :=
  State.segments_congr rfl rfl rfl (fun _ _ => rfl)
@[simp] theorem State.segments_setMem (s : State) (m : MemController) : (s.setMem m).segments = s.segments :=
  State.segments_congr rfl rfl rfl (fun _ _ => rfl)
@[simp] theorem State.segments_setMgmt (s : State) (m : Management) : (s.setMgmt m).segments = s.segments :=
  State.segments_congr rfl rfl rfl (fun _ _ => rfl)
@[simp] theorem State.segments_setReadyList (s : State) (p : PortId) (c : ClassId) (l : ClassList) :
    (s.setReadyList p c l).segments = s.segments :=
  State.segments_congr rfl rfl rfl (fun _ _ => rfl)
@[simp] theorem State.segments_dueRetry (s : State) : s.dueRetry.segments = s.segments :=
  State.segments_congr rfl rfl rfl (fun _ _ => rfl)
@[simp] theorem State.segments_pinnedOrHeld (s : State) (n : Nat) : { s with pinnedOrHeld := n }.segments = s.segments :=
  State.segments_congr rfl rfl rfl (fun _ _ => rfl)
@[simp] theorem State.segments_linkWait (s : State) (q : List Req) : { s with linkWait := q }.segments = s.segments :=
  State.segments_congr rfl rfl rfl (fun _ _ => rfl)

theorem State.segments_setFlow_same {s : State} {f : FlowId} {e : FlowEntry} (h : e.segCount = (s.flow f).segCount := by rfl) :
    (s.setFlow f e).segments = s.segments := by
  have := s.segments_setFlow f e
  omega

theorem State.segments_setPool_same {s : State} {P : Pool} (hf : P.free = s.pool.free := by rfl)
    (hs : P.stranded = s.pool.stranded := by rfl) : (s.setPool P).segments = s.segments := by
  have := s.segments_setPool P
  omega

theorem State.segments_setUnit {s : State} {p : PortId} {u : PortUnit}
    (h : ∀ t, (u.tag t).unit = ((s.unit p).tag t).unit) : (s.setUnit p u).segments = s.segments := by
  refine State.segments_congr rfl rfl rfl (fun q r => ?_)
  rw [State.unit_setUnit]
  split
  · next e => subst e; exact h r
  · rfl

theorem PortUnit.tags_placeOneNotice {u v : PortUnit} (h : u.placeOneNotice = some v) : v.tags = u.tags := by
  unfold PortUnit.placeOneNotice at h
  split at h
  · cases h; rfl
  · split at h
    · cases h; rfl
    · split at h
      · cases h
      · cases h; rfl

@[simp] theorem PortUnit.tags_placeNotices (n : Nat) (u : PortUnit) : (u.placeNotices n).tags = u.tags := by
  induction n generalizing u with
  | zero => rfl
  | succ n ih =>
    unfold PortUnit.placeNotices
    split
    · split
      · next h => rw [ih, PortUnit.tags_placeOneNotice h]
      · rfl
    · rfl

@[simp] theorem PortUnit.tags_noticesPlaced (u : PortUnit) : u.noticesPlaced.tags = u.tags := PortUnit.tags_placeNotices _ u

@[simp] theorem PortUnit.tags_displaced (u : PortUnit) : u.displaced.tags = u.tags := by
  unfold PortUnit.displaced; split <;> rfl

@[simp] theorem PortUnit.tags_place (m : OutMsg) (u : PortUnit) : (u.place m).tags = u.tags := by
  unfold PortUnit.place
  split
  · rfl
  · split
    · rfl
    · rw [PortUnit.tags_noticesPlaced]; exact PortUnit.tags_displaced u

@[simp] theorem PortUnit.tags_raise (n : Notice) (u : PortUnit) : (u.raise n).tags = u.tags := by
  unfold PortUnit.raise
  split
  · rfl
  · split
    · rw [PortUnit.tags_noticesPlaced]
    · rw [PortUnit.tags_noticesPlaced]
    · split <;> rw [PortUnit.tags_noticesPlaced]

@[simp] theorem State.segments_raise (s : State) (p : PortId) (n : Notice) : (s.raise p n).segments = s.segments :=
  State.segments_setUnit (fun t => by unfold PortUnit.tag; rw [PortUnit.tags_raise])

theorem State.segments_answered (s : State) (p : PortId) (t : TagId) (m : OutMsg) :
    (s.answered p t m).segments = s.segments := by
  unfold State.answered
  refine State.segments_setUnit (fun g => ?_)
  have e : ∀ u : PortUnit, (u.currentEnded t).tags = u.tags := fun u => by unfold PortUnit.currentEnded; split <;> rfl
  unfold PortUnit.tag
  rw [PortUnit.tags_place, e]
  change (((s.unit p).setTag t _).tag g).unit = _
  rw [PortUnit.tag_setTag]
  split
  · next h => subst h; rfl
  · rfl

@[simp] theorem State.segments_respond (s : State) (p : PortId) (t : TagId) (st : Status) (res : Result) :
    (s.respond p t st res).segments = s.segments := s.segments_answered p t _
@[simp] theorem State.segments_respondEnd (s : State) (p : PortId) (t : TagId) (st : Status) (n : Nat) :
    (s.respondEnd p t st n).segments = s.segments := s.segments_answered p t _

@[simp] theorem State.segments_refuse (s : State) (p : PortId) (t : TagId) (st : Status) :
    (s.refuse p t st).segments = s.segments := by
  unfold State.refuse; split <;> simp

@[simp] theorem State.segments_discardBeats (s : State) (p : PortId) (n : Nat) :
    (s.discardBeats p n).segments = s.segments := by
  unfold State.discardBeats
  split
  · rfl
  · next h =>
    have e : ∀ v : Assembly, v.state ≠ .assembling → (s.setAsm p v).segments = s.segments := fun v hv => by
      have := s.segments_setAsm p v
      simp only [Assembly.segments, if_neg h, if_neg hv] at this
      omega
    split
    · exact e _ (by decide)
    · exact e _ (by simp)

@[simp] theorem State.segments_refusePut (s : State) (p : PortId) (t : TagId) (st : Status) :
    (s.refusePut p t st).segments = s.segments := by unfold State.refusePut; simp

@[simp] theorem State.segments_commandDone (s : State) (r : MgmtResult) (ws : Vector Word32 16) :
    (s.commandDone r ws).segments = s.segments := s.segments_setMgmt _

@[simp] theorem State.segments_answerReq (s : State) (st : Status) (r : Req) :
    (s.answerReq st r).segments = s.segments := by
  cases r with
  | request p t => unfold State.answerReq; dsimp only; split <;> simp
  | clearHalt f => exact s.segments_commandDone _ _

@[simp] theorem State.segments_listsFilled (s : State) (p : PortId) : (s.listsFilled p).segments = s.segments := by
  unfold State.listsFilled; split
  · rw [State.segments_raise]; exact State.segments_setUnit (fun _ => rfl)
  · rfl

@[simp] theorem State.segments_listFlow (s : State) (f : FlowId) : (s.listFlow f).segments = s.segments := by
  unfold State.listFlow; dsimp only
  refine (apply_ite State.segments _ _ _).trans ?_
  rw [State.segments_listsFilled, ite_self, State.segments_setReadyList]
  generalize (s.readyList (s.flow f).consumer (s.flow f).cls).tail = a
  cases a
  · exact State.segments_setFlow_same
  · exact Eq.trans State.segments_setFlow_same State.segments_setFlow_same

@[simp] theorem State.segments_withdrawFlow (s : State) (f : FlowId) : (s.withdrawFlow f).segments = s.segments := by
  unfold State.withdrawFlow; dsimp only
  refine Eq.trans State.segments_setFlow_same ?_
  rw [State.segments_setReadyList]
  generalize (s.flow f).prev = a, (s.flow f).next = b
  cases a <;> cases b
  · rfl
  · exact State.segments_setFlow_same
  · exact State.segments_setFlow_same
  · exact Eq.trans State.segments_setFlow_same State.segments_setFlow_same

@[simp] theorem State.segments_relist (s : State) (f : FlowId) : (s.relist f).segments = s.segments := by
  unfold State.relist; dsimp only
  repeat' split
  all_goals simp

@[simp] theorem State.segments_setReady (s : State) (f : FlowId) (b : Bool) : (s.setReady f b).segments = s.segments := by
  unfold State.setReady; rw [State.segments_relist]; exact State.segments_setFlow_same

@[simp] theorem State.segments_reevaluate (s : State) (f : FlowId) (S : SlotId) :
    (s.reevaluate f S).segments = s.segments := s.segments_setReady f _

@[simp] theorem State.segments_undispatchAndReevaluate (s : State) (f : FlowId) (S : SlotId) :
    (s.undispatchAndReevaluate f S).segments = s.segments := by
  unfold State.undispatchAndReevaluate; rw [State.segments_reevaluate]; exact State.segments_setFlow_same

@[simp] theorem State.segments_foundEmpty (s : State) (f : FlowId) : (s.foundEmpty f).segments = s.segments := by
  unfold State.foundEmpty; rw [State.segments_setReady]; exact State.segments_setFlow_same

@[simp] theorem State.segments_dropHold (s : State) (f : FlowId) : (s.dropHold f).segments = s.segments := by
  unfold State.dropHold; split <;> simp

@[simp] theorem State.segments_foldl_answerReq (st : Status) (rs : List Req) (s : State) :
    (rs.foldl (fun s r => s.answerReq st r) s).segments = s.segments := by
  induction rs generalizing s with
  | nil => rfl
  | cons r rs ih => rw [List.foldl_cons, ih, State.segments_answerReq]

@[simp] theorem State.segments_freeSlot (s : State) (S : SlotId) : (s.freeSlot S).segments = s.segments := by
  unfold State.freeSlot; rw [State.segments_dueRetry, State.segments_setSlot]

@[simp] theorem State.segments_setResidency (s : State) (f : FlowId) (r : Option SlotId) :
    (s.setResidency f r).segments = s.segments := State.segments_setFlow_same

@[simp] theorem State.segments_closeSlot (s : State) (f : FlowId) : (s.closeSlot f).segments = s.segments := by
  unfold State.closeSlot; dsimp only
  split
  · exact s.segments_dropHold f
  · rw [State.segments_foldl_answerReq, State.segments_setResidency, State.segments_freeSlot, State.segments_dropHold]
    split
    · exact s.segments_pinnedOrHeld _
    · rfl

@[simp] theorem State.segments_enterClosed (s : State) (f : FlowId) : (s.enterClosed f).segments = s.segments := by
  unfold State.enterClosed; dsimp only
  rw [State.segments_closeSlot, State.segments_relist]; exact State.segments_setFlow_same

@[simp] theorem State.segments_drainTest (s : State) (f : FlowId) : (s.drainTest f).segments = s.segments := by
  unfold State.drainTest; split <;> simp

@[simp] theorem State.segments_unadmit (s : State) (f : FlowId) (n : Nat) : (s.unadmit f n).segments = s.segments :=
  State.segments_setFlow_same

@[simp] theorem State.segments_rearm (s : State) : s.rearm.segments = s.segments := by
  unfold State.rearm
  split
  · exact State.segments_setPool_same
  · rfl

@[simp] theorem State.segments_abandonWrites (s : State) (p : PortId) : (s.abandonWrites p).segments = s.segments := by
  unfold State.abandonWrites; dsimp only
  rw [State.segments_setMem]
  unfold State.flushGather
  split
  · rfl
  · exact State.segments_congr rfl rfl rfl (fun _ _ => rfl)

/-! ## The release of a chain -/

/-- A release gives the pool the segments of its chain (R30). -/
theorem State.segments_setPool_release (s : State) (a b n : Nat) :
    (s.setPool (s.pool.release a b n)).segments = s.segments + n := by
  have h := s.segments_setPool (s.pool.release a b n)
  have e : (s.pool.release a b n).free = s.pool.free + n ∧ (s.pool.release a b n).stranded = s.pool.stranded := by
    unfold Pool.release
    split
    · next h => subst h; exact ⟨rfl, rfl⟩
    · dsimp only; split <;> exact ⟨rfl, rfl⟩
  omega

@[simp] theorem State.segments_release (s : State) (a b n : Nat) : (s.release a b n).segments = s.segments + n := by
  unfold State.release
  split
  · next h => subst h; rfl
  · rw [State.segments_rearm, State.segments_setPool_release]

@[simp] theorem State.segments_releaseSegs (s : State) (segs : List Nat) :
    (s.releaseSegs segs).segments = s.segments + segs.length := s.segments_release _ _ _

/-- An abort gives the pool what the assembly has allocated (R38). -/
theorem State.segments_abortPool (s : State) (a : Assembly) : (s.abortPool a).segments = s.segments + a.allocated := by
  unfold State.abortPool; dsimp only
  rw [State.segments_unadmit, State.segments_rearm, State.segments_setPool_same, State.segments_setPool_release]

/-- The answer of a link takes the finished unit from the tag record (R80, R81). -/
theorem State.segments_answerLink {s : State} {p : PortId} {t : TagId} {st : Status} {u : FinishedUnit}
    (h : (s.tagRec p t).unit = some u) : (s.answerLink p t st).segments + u.needed = s.segments := by
  have e : ∀ r : TagRecord, r.unit = none → (s.setTagRec p t r).segments + u.needed = s.segments := fun r hr => by
    have := s.segments_setTagRec p t r
    simp only [TagRecord.segments, h, hr] at this
    omega
  unfold State.answerLink; dsimp only
  split
  · split <;> exact e _ rfl
  · rw [State.segments_respond]; exact e _ rfl

end Sys2Proof.Machine
end

