-- ==== Sys2Proof/Laws/Sram.lean ====
section
/-! SUPPORT. Words of the SRAM: what a word reads as after it is written, and what an error of each weight gives. -/

namespace Sys2Proof.Machine

/-- Bit `i` of bytes shifted in one after another. -/
theorem shiftedIn_getLsbD (l : List Byte) (acc : Word64) (i : Nat) (hi : i < 64) :
  (l.foldl (fun (w : Word64) (b : Byte) => (w <<< 8) ||| b.setWidth 64) acc).getLsbD i =
   if h : i < 8 * l.length then (l[l.length - 1 - i / 8]'(by omega)).getLsbD (i % 8) else acc.getLsbD (i - 8 * l.length) := by
  induction l generalizing acc with
  | nil => simp
  | cons b l ih =>
    rw [List.foldl_cons, ih]
    simp only [List.length_cons]
    by_cases h : i < 8 * l.length
    · have h2 : i < 8 * (l.length + 1) := by omega
      rw [dif_pos h, dif_pos h2]
      rw [List.getElem_cons, dif_neg (by omega)]
      congr 2
      omega
    · rw [dif_neg h]
      by_cases h2 : i < 8 * (l.length + 1)
      · rw [dif_pos h2]
        rw [List.getElem_cons, dif_pos (by omega)]
        have h4 : i - 8 * l.length = i % 8 := by omega
        have h5 : i % 8 < 64 := by omega
        simp [h4, h5, show i % 8 < 8 by omega]
      · rw [dif_neg h2]
        have : i - 8 * l.length < 64 := by omega
        have h7 : ¬ (i - 8 * l.length < 8) := by omega
        simp [this, h7]
        rw [BitVec.getLsbD_of_ge b _ (by omega)]; simp; congr 1

/-- The eight bytes of a word make up the word. -/
theorem wordOfBytes_bytes (w : Word64) : wordOfBytes ((List.range 8).map (wordByte w)) = w := by
  apply BitVec.eq_of_getLsbD_eq
  intro i hi
  have hl : ((List.range 8).map (wordByte w)).length = 8 := by simp
  unfold wordOfBytes
  rw [hl, Nat.sub_self, List.replicate_zero, List.append_nil, shiftedIn_getLsbD _ _ _ hi, dif_pos (by simpa using hi)]
  simp only [List.getElem_map, List.getElem_range, wordByte, hl, BitVec.getLsbD_extractLsb']
  have h1 : i % 8 < 8 := by omega
  have h2 : 8 * (7 - (8 - 1 - i / 8)) + i % 8 = i := by omega
  simp [h1, h2]

theorem Memory.readWord_writeWord_self (m : List Host.Cell) (a : Nat) (w : Word64) :
    Memory.readWord (Memory.writeWord m a w) a = some w := by
  have h : ∀ i, i < 8 → Memory.read (Memory.writeWord m a w) (8 * a + i) = some (wordByte w i) := by
    intro i hi
    rw [Memory.read_writeWord, if_pos (by omega)]
    congr 2; omega
  have : (List.range 8).mapM (fun i => Memory.read (Memory.writeWord m a w) (8 * a + i)) =
      some ((List.range 8).map (wordByte w)) := by
    have h0 := h 0 (by omega)
    rw [Nat.add_zero] at h0
    simp [List.range, List.range.loop, List.mapM_cons, h, h0]
  unfold Memory.readWord
  rw [this, Option.map_some, wordOfBytes_bytes]

theorem Memory.readWord_writeWord_ne (m : List Host.Cell) {a b : Nat} (w : Word64) (hab : b ≠ a) :
    Memory.readWord (Memory.writeWord m a w) b = Memory.readWord m b := by
  have h : ∀ i, i < 8 → Memory.read (Memory.writeWord m a w) (8 * b + i) = Memory.read m (8 * b + i) := by
    intro i hi
    rw [Memory.read_writeWord, if_neg (by omega)]
  have hm : ∀ l : List Nat, (∀ i ∈ l, i < 8) →
      l.mapM (fun i => Memory.read (Memory.writeWord m a w) (8 * b + i)) =
        l.mapM (fun i => Memory.read m (8 * b + i)) := by
    intro l hl
    induction l with
    | nil => rfl
    | cons i l ih =>
      rw [List.mapM_cons, List.mapM_cons, h i (hl i (by simp)), ih (fun j hj => hl j (by simp [hj]))]
  unfold Memory.readWord
  rw [hm (List.range 8) (fun i hi => List.mem_range.mp hi)]

/-- A word written is read back through its check (R154, R155). -/
theorem State.readSram_writeSram_self (s : State) (a : Nat) (w : Word64) (e : ErrorPattern) :
    (s.writeSram a w).readSram a e = checkWord w e := by
  simp [State.readSram, State.writeSram, Memory.readWord_writeWord_self]

/-- A word that is not the one written reads as before. -/
theorem State.readSram_writeSram_ne (s : State) {a b : Nat} (w : Word64) (e : ErrorPattern) (h : b ≠ a) :
    (s.writeSram a w).readSram b e = s.readSram b e := by
  unfold State.readSram State.writeSram
  simp only [Memory.readWord_writeWord_ne _ _ h, Table.get, Table.find?_erase, h, if_false]

end Sys2Proof.Machine
end

