-- ==== Sys2Proof/Laws/TakeIn.lean ====
section
/-! SUPPORT. The take-in of a request that passes the generic checks: the state its own checks meet, and what an answer leaves. -/

namespace Sys2Proof.Machine

variable {s : State} {p : PortId} {t : TagId} {body : BitVec 64} {rest : List Message} {k : ReqKind} {r : Request}

/-- A port's head message, in the words of R140. -/
theorem State.nextMessage_of_takesIn {m : Message} (h : s.takesIn p m rest) : s.nextMessage p = some m := by
  unfold State.nextMessage
  rw [if_pos ⟨h.1, h.2.1⟩, h.2.2]
  rfl

/-- The head message leaves the buffer. -/
theorem State.popInbound_of_takesIn {m : Message} (h : s.takesIn p m rest) :
    s.popInbound p = s.setUnit p ((s.unit p).afterTakeIn rest) := by
  have e := h.2.2
  unfold State.popInbound PortUnit.creditFreed PortUnit.afterTakeIn
  dsimp only
  rw [e]
  split <;> rfl

theorem PortUnit.tag_afterTakeIn (u : PortUnit) : (u.afterTakeIn rest).tag t = u.tag t := rfl

/-- The state that a request's own checks meet. -/
theorem State.useTag_popInbound (h : s.takesRequest p t body rest k) (ph : Phase) :
    (s.popInbound p).useTag p t r ph = s.takenIn p rest t r ph := by
  rw [State.popInbound_of_takesIn h.1]
  unfold State.useTag State.takenIn State.setTagRec
  rw [State.unit_setUnit_self, State.setUnit_setUnit]
  rfl

@[simp] theorem State.tagRec_takenIn (ph : Phase) : (s.takenIn p rest t r ph).tagRec p t = .using r ph := by
  simp [State.takenIn, State.tagRec]

/-- A request other than a PUT, past the generic checks. -/
theorem State.takeIn_request {own : State → TagId → Request → State} (h : s.takesRequest p t body rest k)
    (hk : k ≠ .put) : s.takeIn p k own =
      .next (own (s.takenIn p rest t (Request.ofBody body) .taken) t (Request.ofBody body)).finish := by
  have hp : decide ((Request.ofBody body).kind = .put) = false := by rw [h.2.1]; simpa using hk
  have htag : (s.popInbound p).tagRec p t = s.tagRec p t := by
    rw [State.popInbound_of_takesIn h.1]
    simp [State.tagRec, PortUnit.tag_afterTakeIn]
  have hdev : ∀ u ph, ((s.popInbound p).useTag p t u ph).mgmt.device = .running := by
    intro u ph; rw [State.useTag_popInbound h]; exact h.2.2.2.2
  unfold State.takeIn
  rw [State.nextMessage_of_takesIn h.1]
  dsimp only
  rw [if_pos ⟨h.2.1, fun c => hk c.1⟩]
  unfold State.takeInRequest State.concluded
  simp only [hp, htag]
  rw [if_neg (by simp [TagRecord.taken, h.2.2.1])]
  simp only [Bool.false_eq_true, if_false]
  rw [if_neg (by rw [htag, h.2.2.1]; simp)]
  rw [if_neg (by rw [hdev]; simp)]
  rw [State.useTag_popInbound h]

theorem PortUnit.currentEnded_of_ne {u : PortUnit} (h : u.current ≠ some t) : u.currentEnded t = u := by
  unfold PortUnit.currentEnded
  rw [if_neg (fun c => h c.1)]

/-- The final response of a request that has been taken in, whatever its phase. -/
theorem State.answered_takenIn (ph : Phase) (m : OutMsg) (h : (s.unit p).current ≠ some t) :
    (s.takenIn p rest t r ph).answered p t m = s.takenAndPlaced p rest t r .responding m := by
  unfold State.answered State.takenIn State.takenAndPlaced
  rw [State.unit_setUnit_self, State.setUnit_setUnit]
  dsimp only
  rw [PortUnit.currentEnded_of_ne (by exact h)]
  congr 2
  simp [PortUnit.setTag, PortUnit.tag, TagRecord.using]

theorem State.respond_takenIn (ph : Phase) (st : Status) (res : Result) (h : (s.unit p).current ≠ some t) :
    (s.takenIn p rest t r ph).respond p t st res =
      s.takenAndPlaced p rest t r .responding (.response t st res .final) := State.answered_takenIn ph _ h

/-- The refusal of a request that has been taken in. -/
theorem State.refuse_takenIn (ph : Phase) (st : Status) (h : (s.unit p).current ≠ some t) :
    (s.takenIn p rest t r ph).refuse p t st = s.takenAndPlaced p rest t r .responding (refusal r.kind t st) := by
  unfold State.refuse
  rw [State.tagRec_takenIn]
  unfold State.respondEnd State.respond
  rw [State.answered_takenIn ph _ h, State.answered_takenIn ph _ h]
  cases hr : r.kind <;> simp [TagRecord.using, ReqKind.endsByEnd, refusal, hr]

/-- A state in which a port has taken a request in and placed an answer of it is quiet with the state before. -/
theorem State.quiet_takenAndPlaced (ph : Phase) (m : OutMsg) (hm : m.NotBeat) :
    (s.takenAndPlaced p rest t r ph m).quiet = s.quiet := by
  refine State.quiet_congr rfl rfl rfl (fun q => State.sameQuiet_setUnit ?_ q)
  exact PortUnit.SameQuiet.trans ⟨rfl, rfl, rfl⟩ (PortUnit.sameQuiet_place m hm _)

theorem refusal_notBeat (k : ReqKind) (st : Status) : (refusal k t st).NotBeat := by cases k <;> trivial

/-- The end of an event that has answered a request and nothing more. -/
theorem State.finish_takenAndPlaced (hq : s.quiet = true) (ph : Phase) (m : OutMsg) (hm : m.NotBeat) :
    (s.takenAndPlaced p rest t r ph m).finish = s.takenAndPlaced p rest t r ph m :=
  State.finish_of_quiet (by rw [State.quiet_takenAndPlaced ph m hm, hq])

end Sys2Proof.Machine
end

