-- ==== Sys2Proof/Tests/Slice0.lean ====
section
/-! SUPPORT. Tests of single commands on small states, and for each statement with hypotheses states that meet them, each clause at a boundary of its range. -/

namespace Sys2Proof.Tests

open Sys2Proof.Machine

set_option Elab.async false
set_option maxRecDepth 100000

/-! ## The check of a command -/

theorem test_wellFormed_undefined_bytes :
    Instr.wellFormed (.undefinedCommandByte 0x00 0 0) = true ∧ Instr.wellFormed (.undefinedCommandByte 0x01 0 0) = true ∧
      Instr.wellFormed (.undefinedCommandByte 0x0F 0 0) = true ∧
      Instr.wellFormed (.undefinedCommandByte 0x18 0 0) = true := by decide

theorem test_illFormed_rowed_bytes :
    Instr.wellFormed (.undefinedCommandByte 0x02 0 0) = false ∧ Instr.wellFormed (.undefinedCommandByte 0x10 0 0) = false ∧
      Instr.wellFormed (.undefinedCommandByte 0x17 0 0) = false := by decide

/-! ## The command a frame spells (R180), its first byte in the low place -/

theorem test_frame_write : decodeTableWord 56 0x78563412110002 = some (.writeFrame 0x0011 0x12345678) := by decide

theorem test_frame_commands :
    decodeTableWord 56 0x10 = some .init ∧ decodeTableWord 56 0x11 = some .restart ∧
      decodeTableWord 56 0x030012 = some (.portReset 3) ∧ decodeTableWord 56 0xFF0F13 = some (.clearHalt 0x0FFF) ∧
      decodeTableWord 56 0x050014 = some (.readFlow 5) ∧ decodeTableWord 56 0x050015 = some (.readContext 5) ∧
      decodeTableWord 56 0x3F0016 = some (.readSlot 63) ∧ decodeTableWord 56 0x17 = some .clearCounters := by decide

theorem test_frame_without_a_row :
    decodeTableWord 56 0x100001 = some (.undefinedCommandByte 0x01 0x0010 0) ∧
      decodeTableWord 56 0x18 = some (.undefinedCommandByte 0x18 0 0) ∧ decodeTableWord 8 0x10 = none := by decide

/-! ## Small states -/

/-- A port unit that is UP, with inbound and outbound credits. -/
def upUnit : PortUnit := { PortUnit.initial with state := .up, inboundCredits := 32, outboundCredits := 4 }

/-- A part that is RUNNING with every port UP, in the ADMIN role and with POOL_LOW enabled, and no flow open. -/
def base : State :=
  { State.reset with
    mgmt :=
      { Management.initial with device := .running, command := .done, lastCommand := some .init, result := some .ok }
    config := { Configuration.powerOn with adminRole := Vector.replicate 4 true, poolNotice := Vector.replicate 4 true }
    pool := { Pool.initial with swept := 8192, freeHead := 1, freeTail := 8192, free := 8192, lowArmed := true }
    units := Vector.replicate 4 upUnit }

/-- A message stands alone in a port's inbound buffer. -/
def told (s : State) (p : PortId) (m : Message) : State :=
  s.setUnit p { s.unit p with inbound := [m], inboundCredits := 31 }

/-- A REQUEST body from its fields (Table 11-2). -/
def bodyOf (code flags : Byte) (f a : BitVec 16) (b producers : Byte) : BitVec 64 := code ++ flags ++ f ++ a ++ b ++ producers

/-- A context with one unit, in segment 1, and every port a producer. -/
def oneUnit : Context :=
  { Context.blank with producers := 15, readyThreshold := 1, unitCount := 1, headSeg := 1, tailSeg := 1 }

/-- Flow 5, consumed by port 0, RESIDENT in slot 2 with one unit of 100 bytes in segment 1, handed to its consumer. -/
def served : State :=
  ({ base with pool := { base.pool with links := [(1, { next := 0, last := true, fill := 100 })], freeHead := 2, free := 8191 } }.setFlow 5
    { FlowEntry.initial with
      state := .opened, ready := true, dispatched := true, residency := some 2, segCount := 1 }).setSlot 2
    { Slot.initial with state := .resident, flow := some 5, context := oneUnit }

/-- Flow 5 RESIDENT in slot 2 with no unit, and an entry and a slot changed as given. -/
def drained (e : FlowEntry → FlowEntry) (v : Slot → Slot) : State :=
  (base.setFlow 5 (e { FlowEntry.initial with state := .opened, residency := some 2 })).setSlot 2
    (v { Slot.initial with state := .resident, flow := some 5, context := { oneUnit with unitCount := 0, headSeg := 0, tailSeg := 0 } })

/-- Flow 5 as it is CLOSED, halted with CTXERR, or halted with DATAERR. -/
def closedFlow : State := drained (fun _ => FlowEntry.initial) (fun _ => Slot.initial)
def lostFlow : State := drained (fun e => { e with halt := some .ctxErr, residency := none }) (fun _ => Slot.initial)
def haltedFlow : State := served.setFlow 5 { served.flow 5 with halt := some .dataErr, ready := false }

/-- The flow is OPEN with no unit; the flow is DRAINING with a unit admitted. -/
def idleFlow : State := drained id id
def drainingFlow : State := drained (fun e => { e with state := .draining, admittedUnits := 1 }) id

/-- Port `p` holds flow 5. -/
def heldBy (s : State) (p : PortId) : State := s.setHold p { state := .held, flow := 5, lease := 9 }

/-- Port `p` holds flow 5 with a lease that has run out. -/
def lapsedBy (s : State) (p : PortId) : State := s.setHold p { state := .held, flow := 5, lease := 0 }

/-- A memory access in progress. -/
def accessing (s : State) (a : Access) : State := { s with mem := { s.mem with inProgress := some a } }

/-! ## One command at a time -/

/-- The state after a command, and `State.reset` after a command that does not answer one. -/
def after (c : Instr) (s : State) : State :=
  match exec c s with
  | .next t => t
  | _ => State.reset

theorem test_powerOn : (after .powerOn base).mgmt.device = .config ∧ ((after .powerOn base).unit 3).state = .down := by decide

theorem test_linkUp : ((after (.linkUp 1) State.reset).unit 1).state = .up ∧
    ((after (.linkUp 1) State.reset).unit 1).inboundCredits = 32 := by decide

theorem test_linkLoss : ((after (.linkLoss 1) base).unit 1).state = .down := by decide

theorem test_frameArrival_request :
    ((after (.frameArrival 0 (.whole 0x10 0x03 [0x04, 0x01, 0x0F, 0xFF, 0x01, 0x2C, 0x00, 0x00])) base).unit 0).inbound =
      [.request 3 0x04010FFF012C0000] := by decide

theorem test_request_fields : (Request.ofBody 0x011F0ABC123456F7).kind = .openFlow ∧ (Request.ofBody 0x011F0ABC123456F7).flow = 0xABC ∧
    (Request.ofBody 0x011F0ABC123456F7).wait = true ∧ (Request.ofBody 0x011F0ABC123456F7).cls = 3 ∧
    (Request.ofBody 0x011F0ABC123456F7).consumer = 3 ∧ (Request.ofBody 0x011F0ABC123456F7).argA = 0x1234 ∧
    (Request.ofBody 0x011F0ABC123456F7).argB = 0x56 ∧ (Request.ofBody 0x011F0ABC123456F7).producers = 7 := by decide

theorem test_open : let t := after (.openReq 0) (told base 0 (.request 3 (bodyOf 1 0 5 0 1 15)))
    (t.flow 5).state = .opened ∧ (t.slot 0).flow = some 5 ∧ (t.tagRec 0 3).phase = .responding := by decide

theorem test_close : let t := after (.closeReq 0) (told served 0 (.request 3 (bodyOf 2 0 5 0 0 0)))
    (t.flow 5).state = .draining ∧ (t.unit 0).outbound = [.response 3 .ok (.state .draining) .final] := by decide

theorem test_close_raises_ready : let t := after (.closeReq 0) (told (drained (fun e => { e with segCount := 1 })
      (fun v => { v with context := { oneUnit with readyThreshold := 2 } }) |>.setUnit 0 { upUnit with readyArmed := true }) 0
        (.request 3 (bodyOf 2 0 5 0 0 0)))
    (t.unit 0).outbound = [.response 3 .ok (.state .draining) .final, .notice .ready false] ∧ (t.flow 5).listed = true := by
  decide

theorem test_query : (((after (.queryReq 1) (told served 1 (.request 3 (bodyOf 3 0 5 0 0 0)))).unit 1).outbound =
    [.response 3 .ok (.query .opened none none 1 1 0 0 0 0) .final]) := by decide

theorem test_put : let t := after (.putReq 1) (told served 1 (.request 3 (bodyOf 4 0 5 129 0 0)))
    (t.asm 1).state = .assembling ∧ (t.asm 1).needed = 2 ∧ t.pool.reserved = 2 ∧ (t.flow 5).admittedSegs = 2 := by decide

theorem test_put_truncates : let t := after (.putReq 1) (told (served.setAsm 1 { Assembly.initial with
      state := .assembling, tag := some 4, flow := 5, declared := 300, taken := 16, needed := 3, allocated := 1, chainFirst := 9
      chainLast := 9, gapTimer := some 7 }) 1 (.request 3 (bodyOf 4 0 5 128 0 0)))
    (t.unit 1).outbound = [.response 4 .badLen .none .final] ∧ (t.asm 1).tag = some 3 ∧ (t.asm 1).needed = 1 := by decide

theorem test_take : let t := after (.takeReq 0) (told served 0 (.request 3 (bodyOf 5 0 5 0 0 0)))
    (t.del 0).state = .streaming ∧ (t.del 0).planned = 100 ∧
      (t.unit 0).outbound = [.response 3 .ok (.header 5 100 0 100) .header] := by decide

theorem test_take_reads_the_first_beat :
    (after (.takeReq 0) (told served 0 (.request 3 (bodyOf 5 0 5 3 0 0)))).mem.inProgress =
      some (.beatRead 0 { bytes := [(1, 0), (1, 1), (1, 2)], live := true }) := by decide

theorem test_peek : ((after (.peekReq 0) (told served 0 (.request 3 (bodyOf 6 0 5 40 0 0)))).del 0).planned = 40 := by decide

theorem test_drop : let t := after (.dropReq 0) (told served 0 (.request 3 (bodyOf 7 0 5 0 0 0)))
    (t.slot 2).context.unitCount = 0 ∧ t.pool.free = 8192 ∧ (t.flow 5).segCount = 0 := by decide

theorem test_next_empty : ((after (.nextReq 0) (told base 0 (.request 3 (bodyOf 8 0 0 0 0 0)))).unit 0).readyArmed = true := by decide

theorem test_hold : let t := after (.holdReq 1) (told served 1 (.request 3 (bodyOf 9 0 5 7 0 0)))
    t.hold 1 = { state := .held, flow := 5, lease := 7 } ∧ t.pinnedOrHeld = 1 := by decide

theorem test_release : ((after (.releaseReq 1) (told (heldBy served 1) 1 (.request 3 (bodyOf 10 0 5 0 0 0)))).hold 1).state = .empty := by
  decide

theorem test_pin : ((after (.pinReq 0) (told served 0 (.request 3 (bodyOf 11 0 5 0 0 0)))).slot 2).pins = 1 := by decide

theorem test_unpin_none : ((after (.unpinReq 0) (told served 0 (.request 3 (bodyOf 12 0 5 0 0 0)))).unit 0).outbound =
    [.response 3 .badArg .none .final] := by decide

theorem test_undefinedRequestCode :
    ((after (.undefinedRequestCode 0) (told base 0 (.request 3 (bodyOf 13 0 5 0 0 0)))).unit 0).outbound =
      [.response 3 .badArg .none .final] := by decide

theorem test_data_stray : (after (.data 0) (told base 0 (.data [1, 2]))).mgmt.strayBeats = 1 := by decide

theorem test_cut_stray : (after (.cut 0) (told base 0 (.cut 3 0))).mgmt.strayControls = 1 := by decide

theorem test_arm : ((after (.arm 0) (told base 0 .arm)).unit 0).readyArmed = true := by decide

theorem test_credit : ((after (.credit 0) (told base 0 (.credit 251))).unit 0).outboundCredits = 255 ∧
    ((after (.credit 0) (told base 0 (.credit 252))).unit 0).lastFault = .creditOverflow := by decide

theorem test_departure_frame :
    ((after (.departure 0) (base.setUnit 0 { upUnit with outbound := [.endMsg 5 .part 0x1234 .final] })).unit 0).linkOut =
      [0xB0, 0x05, 0x02, 0x00, 0x12, 0x34] := by decide

theorem test_returnSent : ((after (.returnSent 1) (after (.linkUp 1) State.reset)).unit 1).linkOut = [0xD0, 0x00, 0x20] := by decide

theorem test_leaseExpiry : ((after (.leaseExpiry 1) (lapsedBy served 1)).unit 1).outbound = [.notice (.holdLapsed 5) false] ∧
    (after (.leaseExpiry 1) (heldBy served 1)).hold 1 = { state := .held, flow := 5, lease := 9 } := by decide

theorem test_gapTimeout : ((after (.gapTimeout 1)
    (base.setAsm 1 { Assembly.initial with state := .discarding, declared := 9, gapTimer := some 200 })).asm 1).state = .idle ∧
    ((after (.gapTimeout 1)
      (base.setAsm 1 { Assembly.initial with state := .discarding, declared := 9, gapTimer := some 199 })).asm 1).state =
        .discarding := by decide

theorem test_wordWrite : (after .wordWriteCompletion (accessing base (.wordWrite 0
    { seg := 1, word := 0, data := 0x0102030405060708, ends := 0, live := false, stamp := 0 }))).sram =
      [(0, 1), (1, 2), (2, 3), (3, 4), (4, 5), (5, 6), (6, 7), (7, 8)] := by decide

theorem test_crc : crc8 0 = 0x27 := by decide

theorem test_writeFrame : (after (.writeFrame 0x0011 0xFFFFFFFF) State.reset).readWord 0x0011 = 0x007FFFFF ∧
    (after (.writeFrame 0x0011 1) base).mgmt.refused = some .notConfig := by decide

theorem test_init : (after .init State.reset).mgmt.device = .initializing ∧
    (after .init (after (.writeFrame 0x0010 1023) State.reset)).mgmt.resultWords[0] = 1 := by decide

theorem test_sweep : (after .initSweepCompletion (after .init State.reset)).pool.free = 8192 := by decide

theorem test_restart : (after .restart base).readWord 0x0000 = 0x00001118 := by decide

theorem test_portReset : ((after (.portReset 3) base).unit 3).state = .down := by decide

theorem test_clearHalt : ((after (.clearHalt 5) haltedFlow).flow 5).halt = none := by decide

theorem test_readFlow : (after (.readFlow 5) served).mgmt.resultWords[0] = 0x00020A01 := by decide

theorem test_readSlot : (after (.readSlot 2) served).mgmt.resultWords[0] = 0x00050002 := by decide

/-! ## States that meet the hypotheses of the statements -/

theorem witness_StepRunsTheFrontCommand : ({ base with pending := [.init, .restart] } : State).pending = .init :: [.restart] := by decide

theorem witness_EmptyQueueIsOneMicrosecond :
    (let s := lapsedBy (base.setAsm 3 { Assembly.initial with gapTimer := some 200 }) 0;
      s.pending = [] ∧ s.gapExpired 3 ∧ ∀ q, q < 3 → ¬ s.gapExpired q) ∧
    (let s := lapsedBy (base.setAsm 0 { Assembly.initial with gapTimer := some 199 }) 1;
      s.pending = [] ∧ (∀ q, ¬ s.gapExpired q) ∧ s.leaseExpired 1 ∧ ∀ q, q < 1 → ¬ s.leaseExpired q) ∧
    (heldBy base 1).pending = [] ∧ ∀ q, ¬ (heldBy base 1).gapExpired q ∧ ¬ (heldBy base 1).leaseExpired q := by
  have h : ∀ (s : State) q, s.gapDue q = true ↔ s.gapExpired q := by
    intro s q
    simp only [State.gapDue, State.gapExpired, Bool.and_eq_true, decide_eq_true_eq, Option.any_eq_true]
  simp only [← h, State.leaseExpired]; decide

theorem witness_ConfigurationIsKept : exec (.linkLoss 0) State.reset = .next State.reset ∧ (Instr.linkLoss 0) ≠ .powerOn ∧
    (State.reset.mgmt.device = .config → ∀ a v, Instr.linkLoss 0 ≠ .writeFrame a v) :=
  ⟨rfl, by decide, fun _ _ _ h => by cases h⟩

theorem witness_StepKeepsCanonicalForm : served.canonical ∧ step served = .next served.tick :=
  ⟨by unfold State.canonical; decide, rfl⟩

theorem witness_StepKeepsInboundCredits : (told base 3 .arm).creditsWhole ∧ step (told base 3 .arm) = .next (told base 3 .arm).tick :=
  ⟨by unfold State.creditsWhole; decide, rfl⟩

/-- Port 1 assembles a unit of flow 5 of 3 segments, of which one is allocated and two are reserved; port 2 is admitting one. -/
def reserving : State :=
  ({ base with pool := { base.pool with free := 8191, reserved := 2 } }.setAsm 1 { Assembly.initial with
    state := .assembling, tag := some 4, flow := 5, declared := 300, taken := 128, needed := 3, allocated := 1
    chainFirst := 1, chainLast := 1 }).setAsm 2 { Assembly.initial with
      state := .admitting, tag := some 4, flow := 5, declared := 128, needed := 1 }

/-- A slot with a flow is the one its flow names, shown of the slots that have one. -/
theorem namesWhole_of {s : State} (h : ∀ S, (s.slot S).flow = none ∨ ((s.slot S).flow = some 5 ∧ (s.flow 5).residency = some S)) :
    s.namesWhole := by
  intro S f hf
  rcases h S with e | ⟨e, r⟩ <;> rw [e] at hf
  · cases hf
  · cases hf; exact r

theorem witness_StepKeepsCacheBounds :
    (let s : State := { base with pinnedOrHeld := 48, missWait := List.replicate 16 (.request 1 2) };
      s.pinsBounded ∧ s.missBounded ∧ step s = .next s.tick) ∧
    (reserving.reservedWhole ∧ reserving.assembliesWhole ∧ step reserving = .next reserving.tick) ∧
    (∀ s ∈ [drained id (fun v => { v with pins := 0 }), { drained id (fun v => { v with pins := 255 }) with pinnedOrHeld := 1 },
        { heldBy served 1 with pinnedOrHeld := 1 }],
      s.countWhole ∧ s.namesWhole ∧ s.holdsExclusive ∧ s.servingSlot 5 = some 2) ∧
    (((heldBy served 1).hold 1).state ≠ .empty ∧ ((heldBy served 1).hold 1).flow = 5 ∧
      ((heldBy served 1).slot 2).parkedList = []) := by
  refine ⟨⟨by unfold State.pinsBounded; decide, by unfold State.missBounded; decide, rfl⟩,
    ⟨by unfold State.reservedWhole; decide, by unfold State.assembliesWhole Assembly.whole; decide, rfl⟩, ?_, by decide⟩
  intro s hs
  refine ⟨?_, namesWhole_of ?_, ?_, ?_⟩ <;> revert s
  · unfold State.countWhole
    decide +kernel
  · decide +kernel
  · unfold State.holdsExclusive
    decide +kernel
  · decide +kernel

theorem witness_StepKeepsHoldsExclusive :
    let s := (heldBy base 0).setHold 3 { state := .lapsing, flow := 6, lease := 0 }
    s.holdsExclusive ∧ step s = .next s.tick :=
  ⟨by unfold State.holdsExclusive; decide, rfl⟩

theorem validConfiguration : ∀ k, 1 ≤ k → k ≤ 6 → base.config.test k := by
  intro k h1 h6
  have h : k = 1 ∨ k = 2 ∨ k = 3 ∨ k = 4 ∨ k = 5 ∨ k = 6 := by omega
  have a : base.config.nSeg.toNat = 8192 := rfl
  have b : base.config.memSize.toNat = 262144 := rfl
  have c : base.config.segBase.toNat = 0 := rfl
  have d : base.config.ctxBase.toNat = 131072 := rfl
  rcases h with h | h | h | h | h | h <;> subst h <;> simp only [Configuration.test, a, b, c, d] <;>
    first | (intro w; omega) | decide

theorem witness_StepKeepsValidConfiguration : base.configuredWell ∧ step base = .next base.tick :=
  ⟨fun _ => validConfiguration, rfl⟩

theorem witness_PowerOnAndRestartValues :
    (∀ w ∈ base.wordsBeingWritten, 0 / 8 ≠ w) ∧
    (∀ w ∈ (accessing base (.spill 3 0)).wordsBeingWritten, (8 * 131072 - 1) / 8 ≠ w) ∧
    (∀ w ∈ (accessing base (.spill 3 0)).wordsBeingWritten, (8 * 131076) / 8 ≠ w) := by decide

theorem witness_InitTestsTheConfiguration :
    ({ base with mgmt := { base.mgmt with command := .inFlight } } : State).mgmt.command = .inFlight ∧
    (State.reset.mgmt.command ≠ .inFlight ∧ State.reset.mgmt.device = .config ∧
      ¬({ Configuration.powerOn with nSeg := 1023 } : Configuration).test 1) ∧
    ¬({ Configuration.powerOn with floors := #v[0, 32, 64, 63] } : Configuration).test 6 ∧
    (∀ k, 1 ≤ k → k ≤ 6 → base.config.test k) ∧
    (base.mgmt.command ≠ .inFlight ∧ base.mgmt.device ≠ .config) :=
  ⟨by decide, ⟨by decide, by decide, by simp only [Configuration.test]; decide⟩,
    by simp only [Configuration.test]; decide, validConfiguration, by decide⟩

theorem witness_SweepEndValues :
    let s : State := { base with
      mgmt := { base.mgmt with device := .initializing }, config := { base.config with nSeg := 1 } }
    s.mgmt.device = .initializing ∧ 1 ≤ s.config.nSeg.toNat := by decide

theorem witness_WriteFrameStoresOrIsRefused :
    (configurationBits 0x0010 = some 0xFFFF ∧ configurationBits 0x001A = some 0xFF ∧ State.reset.mgmt.device = .config) ∧
    base.mgmt.device ≠ .config ∧ configurationBits 0x000F = none ∧ configurationBits 0x001B = none := by decide

theorem witness_RefusedFramesChangeNothing :
    (∀ n ∈ [0x00, 0x03, 0x0F, 0x18, 0xFF], let cmd : Byte := BitVec.ofNat 8 n
      cmd ≠ 0x01 ∧ cmd ≠ 0x02 ∧ ¬(0x10 ≤ cmd.toNat ∧ cmd.toNat ≤ 0x17)) ∧
    (let s : State := { base with mgmt := { base.mgmt with command := .inFlight } };
      s.quiet = true ∧ s.mgmt.command = .inFlight) := by decide

theorem witness_PortResetOfADownPort :
    (base.quiet = true ∧ base.mgmt.command ≠ .inFlight ∧ 3 < (4 : BitVec 16).toNat) ∧
    (State.reset.quiet = true ∧ (3 : PortId).val = (3 : BitVec 16).toNat ∧ (State.reset.unit 3).state = .down) ∧
    ((State.reset.setUnit 0 { PortUnit.initial with state := .fault }).quiet = true ∧
      ((State.reset.setUnit 0 { PortUnit.initial with state := .fault }).unit 0).state = .fault) := by decide

theorem witness_ReadFlowAndReadSlotReport : base.mgmt.command ≠ .inFlight ∧ 63 < (64 : BitVec 16).toNat ∧
    (63 : SlotId).val = (63 : BitVec 16).toNat ∧ 4095 < (4096 : BitVec 16).toNat ∧
    (4095 : FlowId).val = (4095 : BitVec 16).toNat ∧ (served.slot 2).state = .resident := by decide

theorem witness_ReadContextReportsTheRecord :
    ((accessing base (.diagnostic 4095)).lastAccess ∧
      (accessing base (.diagnostic 4095)).mem.inProgress = some (.diagnostic 4095)) ∧
    (State.reset.quiet = true ∧ State.reset.mgmt.command ≠ .inFlight ∧ State.reset.mgmt.device ≠ .running) ∧
    (base.quiet = true ∧ base.mgmt.command ≠ .inFlight ∧ base.mgmt.device = .running ∧ base.mem.inProgress = none) ∧
    ((accessing base (.fill 3 4)).quiet = true ∧ (accessing base (.fill 3 4)).mem.inProgress ≠ none) := by
  unfold State.lastAccess; decide

theorem witness_ClearCountersKeepsStranded : base.mgmt.command ≠ .inFlight := by decide

theorem witness_ClearHaltEndsADataError :
    (State.reset.quiet = true ∧ State.reset.mgmt.command ≠ .inFlight ∧ State.reset.mgmt.device ≠ .running) ∧
    (∀ s ∈ [closedFlow, lostFlow, served, haltedFlow], s.quiet = true ∧ s.mgmt.command ≠ .inFlight ∧
      s.mgmt.device = .running) ∧
    (closedFlow.flow 5).state = .closed ∧
    ((lostFlow.flow 5).state ≠ .closed ∧ (lostFlow.flow 5).halt = some .ctxErr) ∧
    ((served.flow 5).state ≠ .closed ∧ served.servingSlot 5 = some 2 ∧ (served.flow 5).halt = none) ∧
    ((haltedFlow.flow 5).state ≠ .closed ∧ haltedFlow.servingSlot 5 = some 2 ∧ (haltedFlow.flow 5).halt = some .dataErr ∧
      (haltedFlow.flow 5).listed = false ∧
      readyCondition { haltedFlow.flow 5 with halt := none } (haltedFlow.slot 2).context = true) ∧
    (let s := drained (fun e => { e with halt := some .dataErr }) id;
      s.quiet = true ∧ s.servingSlot 5 = some 2 ∧ (s.flow 5).halt = some .dataErr ∧ (s.flow 5).listed = false ∧
        readyCondition { s.flow 5 with halt := none } (s.slot 2).context = false) := by decide

/-- A part that is RUNNING, with flow 5 listed for port 0, which is DOWN. -/
def listedDown : State :=
  (base.setUnit 0 PortUnit.initial).setReadyList 0 0 { head := some 5, tail := some 5, length := 1 }

theorem witness_LinkUpBringsADownPortUp :
    ((State.reset.unit 2).state = .down ∧ State.reset.listedFlows 2 = 0) ∧
    ((listedDown.unit 0).state = .down ∧ 0 < listedDown.listedFlows 0 ∧ (listedDown.unit 0).outbound = [] ∧
      (listedDown.unit 0).noticeQueue = [] ∧ (listedDown.unit 0).readyWaiting = none ∧
      (listedDown.unit 0).poolLowWaiting = none ∧ (listedDown.unit 0).overflow = false) ∧
    (base.unit 2).state ≠ .down := by decide

theorem witness_LinkLossTakesThePortDown :
    ((base.unit 1).state = .up ∧ base.quiet = true ∧ base.mgmt.command ≠ .inFlight ∧ base.noWaits ∧ (base.asm 1).state ≠ .assembling ∧
      (base.hold 1).state = .empty) ∧
    ((base.setUnit 1 { upUnit with state := .fault }).unit 1).state = .fault ∧ (State.reset.unit 1).state = .down := by
  unfold State.noWaits; decide

/-- Port 1's flows: 3 is listed, and 6 and 4095 are ready and dispatched, in the class of flow 3. -/
def dispatchedFlows : State :=
  ((((base.setFlow 3 { FlowEntry.initial with state := .opened, consumer := 1, ready := true, listed := true }).setFlow 6
    { FlowEntry.initial with state := .opened, consumer := 1, ready := true, dispatched := true }).setFlow 4095
      { FlowEntry.initial with state := .opened, consumer := 1, ready := true, dispatched := true }).setReadyList 1 0
        { head := some 3, tail := some 3, length := 1 })

theorem dispatchedFlows_flow (f : FlowId) (h3 : f ≠ 3) (h6 : f ≠ 6) (h4095 : f ≠ 4095) :
    dispatchedFlows.flow f = FlowEntry.initial := by
  unfold dispatchedFlows
  rw [State.flow_setReadyList, State.flow_setFlow_ne _ _ h4095, State.flow_setFlow_ne _ _ h6, State.flow_setFlow_ne _ _ h3]
  rfl

theorem witness_TeardownClearsThePort_relisted :
    dispatchedFlows.canonical ∧ dispatchedFlows.listsWhole 1 ∧ dispatchedFlows.listHolds 1 0 [3] ∧
    (∀ f, (dispatchedFlows.flow f).consumer = 1 → (dispatchedFlows.flow f).dispatched = true →
      (dispatchedFlows.flow f).listed = false) ∧
    ([6, 4095] : List FlowId).Pairwise (fun f g => f < g) ∧
    ∀ f, f ∈ ([6, 4095] : List FlowId) ↔ ((dispatchedFlows.flow f).consumer = 1 ∧ (dispatchedFlows.flow f).cls = 0 ∧
      (dispatchedFlows.flow f).dispatched = true ∧ (dispatchedFlows.flow f).ready = true) := by
  have holds : dispatchedFlows.listHolds 1 0 [3] := by unfold State.listHolds; decide +kernel
  have none : ∀ c, c ≠ 0 → dispatchedFlows.listHolds 1 c [] := by unfold State.listHolds; decide +kernel
  have cases : ∀ (P : FlowId → Prop), P 3 → P 6 → P 4095 →
      (∀ f, f ≠ 3 → f ≠ 6 → f ≠ 4095 → P f) → ∀ f, P f := by
    intro P a b c h f
    by_cases e : f = 3
    · exact e ▸ a
    by_cases e' : f = 6
    · exact e' ▸ b
    by_cases e'' : f = 4095
    · exact e'' ▸ c
    exact h f e e' e''
  refine ⟨by unfold State.canonical; decide +kernel, fun c => ?_, holds, ?_, by decide, ?_⟩
  · by_cases h : c = 0
    · exact ⟨[3], h ▸ holds⟩
    · exact ⟨[], none c h⟩
  · refine cases _ (by decide +kernel) (by decide +kernel) (by decide +kernel) fun f a b c => ?_
    rw [dispatchedFlows_flow f a b c]; decide
  · refine cases _ (by decide +kernel) (by decide +kernel) (by decide +kernel) fun f a b c => ?_
    rw [dispatchedFlows_flow f a b c]
    simp [b, c, FlowEntry.initial]

theorem witness_TeardownClearsThePort :
    (let s := base.setUnit 1 { upUnit with tags := upUnit.tags.set 4 { TagRecord.initial with
      status := .inUse, unit := some { first := 1, last := 1, needed := 1 } } };
    (s.canonical ∧ PortState.fault ≠ .up ∧ (s.asm 1).state ≠ .assembling ∧ (s.hold 1).state = .empty) ∧
      (s.tagRec 1 3).unit = none ∧ (s.tagRec 1 4).unit = some { first := 1, last := 1, needed := 1 }) ∧
    (let s := heldBy (idleFlow.setAsm 1 (reserving.asm 1)) 1;
      (s.canonical ∧ (s.asm 1).state = .assembling ∧ (s.asm 1).flow = 5 ∧ (s.hold 1).state ≠ .empty ∧ (s.hold 1).flow = 5) ∧
        (s.flow 5).state ≠ .draining ∧ s.servingSlot 5 = some 2 ∧ ∀ S, s.servingSlot 5 = some S → (s.slot S).parkedList = []) := by
  unfold State.canonical; decide +kernel

theorem witness_FrameArrivalFillsTheBuffer :
    let f : LinkFrame := .whole 0x40 0 []
    ((base.unit 0).state = .up ∧ frameMessage f = some .arm ∧ 0 < (base.unit 0).inboundCredits) ∧
    (((base.setUnit 0 { upUnit with inboundCredits := 0 }).unit 0).inboundCredits = 0) ∧
    frameMessage .corrupt = none ∧ frameMessage (.whole 0x20 0 (List.replicate 17 0)) = none ∧
    (State.reset.unit 0).state ≠ .up := by decide

theorem witness_FramesAreIdentifiedByKindAndLength :
    (1 ≤ (List.replicate 16 (0 : Byte)).length ∧ (List.replicate 16 (0 : Byte)).length ≤ 16) ∧
    (1 ≤ [(0 : Byte)].length ∧ [(0 : Byte)].length ≤ 16) ∧
    ((base.unit 0).state = .up ∧ frameMessage (.whole 0x90 0 []) = none) := by decide

/-- Port 1 is UP with one message in its outbound queue. -/
def sending (m : OutMsg) (r : TagRecord) (credits : Nat) : State :=
  base.setUnit 1 { upUnit with outbound := [m], outboundCredits := credits, tags := upUnit.tags.set 6 r }

theorem witness_LinkSendsFrames :
    (∀ n ∈ [1, 32], let u := (base.setUnit 1 { upUnit with returning := n, returnOwed := 32 }).unit 1
      1 ≤ u.returning ∧ u.returning ≤ 32 ∧ u.returnOwed ≤ 32) ∧ (base.unit 1).returning = 0 ∧
    (∀ m ∈ [.response 6 .ok .none .final, .endMsg 6 .ended 1 .final, .response 6 .busy .none .busyAnswer,
        .response 6 .ok (.header 5 1 0 1) .header, .notice .ready false, .data [1]],
      ∀ r ∈ [TagRecord.initial, { TagRecord.initial with unit := some { first := 1, last := 1, needed := 1 } }],
      let s := sending m r 1
      s.quiet = true ∧ (s.unit 1).outbound = m :: [] ∧ (s.unit 1).readyWaiting = none ∧
        (s.unit 1).poolLowWaiting = none ∧ (s.unit 1).noticeQueue = [] ∧ (s.unit 1).state = .up ∧
        0 < (s.unit 1).outboundCredits ∧ (s.del 1).state = .idle) ∧
    ((sending (.data [1]) TagRecord.initial 0).unit 1).outboundCredits = 0 := by decide

/-- Port 1's delivery waits, with 48 beats in its outbound queue and 16 of its 20 bytes sent. -/
def waitingForRoom : State :=
  (base.setUnit 1 { upUnit with outbound := List.replicate 48 (.data [1]) }).setDel 1 { Delivery.initial with
    state := .streaming, planned := 20, sent := 16, startSeg := 1, readSeg := 1, readOff := 16 }

theorem witness_LinkSendsFrames_reads :
    waitingForRoom.quiet = true ∧ (waitingForRoom.unit 1).outbound = .data [1] :: List.replicate 47 (.data [1]) ∧
      (waitingForRoom.unit 1).state = .up ∧ 0 < (waitingForRoom.unit 1).outboundCredits ∧
      waitingForRoom.mem.mayRead 1 (waitingForRoom.del 1) (List.replicate 47 (.data [1])) ∧
      ¬ waitingForRoom.mem.mayRead 1 (waitingForRoom.del 1) (List.replicate 48 (.data [1])) := by
  refine ⟨by decide, by decide, by decide, by decide, ⟨by decide, by decide, by decide, by decide, ?_, ?_⟩, fun h => ?_⟩
  · exact fun r h => nomatch (show PortAccess.read r ∈ [] from h)
  · exact fun r h => nomatch h
  · exact absurd h.2.2.2.1 (by decide)

theorem witness_CreditAddsOutboundCredits :
    (∀ n ∈ [0, 251, 252], (told base 0 (.credit (BitVec.ofNat 8 n))).takesIn 0 (.credit (BitVec.ofNat 8 n)) []) ∧
    ((told base 0 (.credit 251)).unit 0).outboundCredits + (251 : BitVec 8).toNat ≤ 255 ∧
    255 < ((told base 0 (.credit 252)).unit 0).outboundCredits + (252 : BitVec 8).toNat := by
  unfold State.takesIn; decide

theorem witness_ArmRaisesReadyOrArms :
    ((base.setAsm 0 { Assembly.initial with state := .admitting }).asm 0).state = .admitting ∧
    ((told base 0 .arm).takesIn 0 .arm [] ∧ (told base 0 .arm).listedFlows 0 = 0) ∧
    (let s := (told base 0 .arm).setReadyList 0 3 { head := some 5, tail := some 5, length := 1 };
      s.takesIn 0 .arm [] ∧ 0 < s.listedFlows 0) := by
  unfold State.takesIn; decide

/-- A full outbound queue whose last notice is as given, and `n` flow-bearing notices that wait. -/
def fullQueue (n : Nat) (last : Notice) : PortUnit :=
  { upUnit with
    outbound := List.replicate 62 (.data [1]) ++ [.notice last true, .data [2]]
    noticeQueue := List.replicate n (.drained 6, false) }

theorem witness_WaitingNoticesArePlacedInOrder :
    (∀ o ∈ [true, false], let u : PortUnit := { upUnit with
      readyWaiting := some true, poolLowWaiting := some false, noticeQueue := [(.drained 5, true)], overflow := o
      outbound := List.replicate 61 (.data [1]) }
      u.outbound.length + u.noticeQueue.length + 2 ≤ 64) ∧ PortUnit.initial.state ≠ .up ∧
    (∀ n ∈ [7, 8], (fullQueue n .ready).state = .up ∧ 64 ≤ (fullQueue n .ready).outbound.length ∧
      (Notice.drained 5).flowBearing = true) ∧ (fullQueue 7 .ready).flowBearing < 8 ∧ 8 ≤ (fullQueue 8 .ready).flowBearing ∧
    (∀ n ∈ [7, 8], let u := { upUnit with outbound := List.replicate n (OutMsg.notice (.drained 5) false) ++ List.replicate 55 (OutMsg.data [1]) }
      u.state = .up ∧ u.outbound.length < 64 ∧ u.readyWaiting = none ∧ u.poolLowWaiting = none ∧ u.noticeQueue = [] ∧
        u.flowBearing = n ∧ Notice.ready.flowBearing = false) ∧
    (∀ last ∈ [Notice.ready, .poolLow, .holdLapsed 5],
      (fullQueue 0 last).outbound = List.replicate 62 (.data [1]) ++ .notice last true :: [.data [2]] ∧
        (fullQueue 0 last).outbound.length = 64) ∧ (∀ k b, OutMsg.notice k b ∉ [OutMsg.data [2]]) ∧
    (Notice.holdLapsed 5).flowBearing = true := by
  refine ⟨by decide, by decide, by decide, by decide, by decide, by decide, by decide, by simp, by decide⟩

/-- A REQUEST body at the head of port 0's buffer, its tag record as given. -/
def asked (s : State) (t : TagId) (body : BitVec 64) (r : TagRecord) : State :=
  (told s 0 (.request t body)).setTagRec 0 t r

theorem witness_TagReuseIsAViolation :
    ∀ r ∈ [{ TagRecord.initial with status := .inUse }, { TagRecord.initial with status := .orphaned, busyAnswer := true }],
      let s := asked base 7 (bodyOf 4 0 5 9 0 0) r
      s.takesIn 0 (.request 7 (bodyOf 4 0 5 9 0 0)) [] ∧
        ((s.tagRec 0 7).status = .inUse ∨ ((s.tagRec 0 7).status = .orphaned ∧ (s.tagRec 0 7).busyAnswer = true)) := by
  unfold State.takesIn; decide

theorem witness_GenericChecksRefuse :
    (∀ c ∈ [4, 5, 9], let b := bodyOf (BitVec.ofNat 8 c) 0 5 9 0 0
      let s := asked base 0 b { TagRecord.initial with
        status := .orphaned, unit := some { first := 1, last := 1, needed := 1 } }
      s.quiet = true ∧ s.takesIn 0 (.request 0 b) [] ∧ (s.unit 0).current ≠ some 0 ∧ (s.asm 0).state ≠ .assembling ∧
        (s.tagRec 0 0).status = .orphaned ∧ (s.tagRec 0 0).busyAnswer = false) ∧
    (∀ s0 ∈ [State.reset.setUnit 0 upUnit, base], ∀ c ∈ [0, 4, 13], let b := bodyOf (BitVec.ofNat 8 c) 0 5 9 0 0
      let s := told s0 0 (.request 7 b)
      s.quiet = true ∧ s.takesIn 0 (.request 7 b) [] ∧ (s.unit 0).current ≠ some 7 ∧ (s.asm 0).state ≠ .assembling ∧
        (s.tagRec 0 7).status = .free) ∧
    State.reset.mgmt.device ≠ .running ∧ base.mgmt.device = .running ∧
    (Request.ofBody (bodyOf 0 0 5 9 0 0)).kind = .undefined ∧ (Request.ofBody (bodyOf 13 0 5 9 0 0)).kind = .undefined := by
  unfold State.takesIn; decide

/-- The hypotheses that the statements about requests share, of a state in which port `p` is told a REQUEST on tag 3
(which changes its port unit alone): it is quiet, and it takes the request in. -/
def takes (s0 : State) (p : PortId) (b : BitVec 64) (k : ReqKind) : Bool :=
  let s := told s0 p (.request 3 b)
  s.quiet && (decide ((s.unit p).state = .up) && decide ((s.asm p).state ≠ .admitting) &&
    decide ((s.unit p).inbound = [.request 3 b])) && decide ((Request.ofBody b).kind = k) &&
    decide ((s.tagRec p 3).status = .free) && decide ((s.unit p).current ≠ some 3) && decide (s.mgmt.device = .running)

theorem takes_iff (s0 : State) (p : PortId) (b : BitVec 64) (k : ReqKind) : takes s0 p b k = true ↔
    (told s0 p (.request 3 b)).quiet = true ∧ (told s0 p (.request 3 b)).takesRequest p 3 b [] k := by
  simp only [takes, State.takesRequest, State.takesIn, Bool.and_eq_true, decide_eq_true_eq, and_assoc]

/-- Port `p` is not in the ADMIN role. -/
def plain (s : State) : State := { s with config := { s.config with adminRole := Vector.replicate 4 false } }

theorem witness_OpenIsCheckedAndServed :
    (∀ s0 ∈ [plain base, base, served, drained (fun _ => { FlowEntry.initial with admittedUnits := 1 }) (fun _ => Slot.initial)],
      takes s0 0 (bodyOf 1 0 5 0 1 15) .openFlow = true) ∧
    (plain base).config.adminRole[0] = false ∧ base.config.adminRole[0] = true ∧
    (∀ x ∈ [(1, 0), (0, 15)], let c := bodyOf 1 0 5 0 (BitVec.ofNat 8 x.1) (BitVec.ofNat 8 x.2)
      takes base 0 c .openFlow = true ∧
      ((Request.ofBody c).producers = 0 ∨ (Request.ofBody c).argB = 0)) ∧
    ((Request.ofBody (bodyOf 1 0 5 0 1 15)).producers ≠ 0 ∧ (Request.ofBody (bodyOf 1 0 5 0 1 15)).argB ≠ 0) ∧ (served.flow 5).state ≠ .closed ∧
    (drained (fun _ => { FlowEntry.initial with admittedUnits := 1 }) id).flow 5 =
      { FlowEntry.initial with admittedUnits := 1 } ∧
    ((base.flow 5).state = .closed ∧ (base.flow 5).admittedUnits = 0 ∧ (base.flow 5).residency = none ∧ base.noWaits ∧
      (base.slot base.hand).state = .free) := by
  unfold State.noWaits; and_intros <;> decide +kernel

theorem witness_CloseDrainsOrCloses :
    (∀ s0 ∈ [plain served, closedFlow, drainingFlow, served, idleFlow, lostFlow],
      takes s0 0 (bodyOf 2 0 5 0 0 0) .closeFlow = true) ∧
    ((plain served).config.adminRole[0] = false ∧ base.config.adminRole[0] = true) ∧ (closedFlow.flow 5).state = .closed ∧
    (∀ s0 ∈ [drainingFlow, served, idleFlow], (s0.flow 5).state ≠ .closed ∧ (s0.flow 5).halt ≠ some .ctxErr ∧
      s0.servingSlot 5 = some 2 ∧ s0.heldAgainst 5 0 = false) ∧
    (drainingFlow.flow 5).state = .draining ∧
    ((served.flow 5).state = .opened ∧ ¬((served.flow 5).segCount = 0 ∧ (served.flow 5).admittedUnits = 0)) ∧
    ((idleFlow.flow 5).state = .opened ∧ (idleFlow.flow 5).segCount = 0 ∧ (idleFlow.flow 5).admittedUnits = 0 ∧
      idleFlow.noWaits ∧ (idleFlow.slot 2).parkedList = [] ∧ idleFlow.holdsExclusive) ∧
    ((lostFlow.flow 5).state ≠ .closed ∧ (lostFlow.flow 5).halt = some .ctxErr ∧ (lostFlow.flow 5).residency = none ∧
      (lostFlow.flow 5).listed = false ∧ lostFlow.holder 5 = none) ∧
    (∀ w ∈ [0, 1], takes (heldBy served 1) 0 (bodyOf 2 (BitVec.ofNat 8 w) 5 0 0 0) .closeFlow = true ∧
      (Request.ofBody (bodyOf 2 (BitVec.ofNat 8 w) 5 0 0 0)).wait = decide (w = 1)) ∧
    ((heldBy served 1).servingSlot 5 = some 2 ∧ (heldBy served 1).heldAgainst 5 0 = true) := by
  unfold State.noWaits State.holdsExclusive; and_intros <;> decide +kernel

/-- Flow 5 is OPEN and not resident, with the clock hand at slot 2, which is as given. -/
def absent (v : Slot) : State :=
  { (base.setFlow 5 { FlowEntry.initial with state := .opened }).setSlot 2 v with hand := 2 }

/-- A slot RESIDENT with flow 6, and every slot FILLING. -/
def evictableSlot (dirty : Bool) : Slot := { Slot.initial with state := .resident, flow := some 6, context := oneUnit, dirty := dirty }
def busySlots : State := { absent Slot.initial with slots := Vector.replicate 64 { Slot.initial with state := .filling, flow := some 6 } }

theorem witness_QueryReportsTheFlow :
    (∀ s0 ∈ [closedFlow, lostFlow, served, absent Slot.initial, absent (evictableSlot true), absent (evictableSlot false),
        busySlots, { absent Slot.initial with missWait := List.replicate 15 (.request 1 2) },
        { absent Slot.initial with missWait := List.replicate 16 (.request 1 2) }],
      takes s0 2 (bodyOf 3 0 5 0 0 0) .query = true) ∧
    (closedFlow.flow 5).state = .closed ∧ ((lostFlow.flow 5).state ≠ .closed ∧ (lostFlow.flow 5).halt = some .ctxErr) ∧
    ((served.flow 5).state ≠ .closed ∧ (served.flow 5).halt ≠ some .ctxErr ∧ served.servingSlot 5 = some 2) ∧
    (((absent Slot.initial).flow 5).state ≠ .closed ∧ ((absent Slot.initial).flow 5).halt ≠ some .ctxErr ∧
      ((absent Slot.initial).flow 5).residency = none ∧ (absent Slot.initial).noWaits ∧
      ((absent Slot.initial).slot 2).state = .free) ∧
    (∀ d ∈ [true, false], let s0 := absent (evictableSlot d)
      s0.noWaits ∧ s0.evictable s0.hand = true ∧ (s0.slot s0.hand).ref = false ∧ (s0.slot s0.hand).flow = some 6 ∧
        (s0.slot s0.hand).dirty = d) ∧
    (busySlots.noWaits ∧ ∀ T, (busySlots.slot T).state ≠ .free ∧ busySlots.evictable T = false) ∧
    ¬ ({ absent Slot.initial with missWait := List.replicate 15 (.request 1 2) } : State).noWaits := by
  unfold State.noWaits; and_intros <;> decide +kernel

/-- No port is a producer; the quota is one; a HOLD is parked; the pool has two segments. -/
def noProducer : State := drained id (fun v => { v with context := { v.context with producers := 0 } })
def quotaOne : State := drained id (fun v => { v with context := { v.context with quota := 1 } })
def holdParkedAt : State :=
  (drained id (fun v => { v with parkedList := [.request 3 6] })).setTagRec 3 6
    { TagRecord.initial with
      status := .inUse, phase := .parked, request := { Request.blank with kind := .hold, flow := 5, wait := true, argA := 4 } }
def poolOfTwo : State := { idleFlow with pool := { base.pool with free := 2, freeHead := 8191 } }

theorem witness_PutIsRefusedInOrder :
    (∀ n ∈ [0, 1, 16384, 16385], ∀ s0 ∈ [closedFlow, lostFlow, drainingFlow], let b := bodyOf 4 0 5 (BitVec.ofNat 16 n) 0 0
      takes s0 1 b .put = true ∧
        ((told s0 1 (.request 3 b)).asm 1).state ≠ .assembling ∧ (told s0 1 (.request 3 b)).holdsExclusive) ∧
    (∀ s0 ∈ [haltedFlow, noProducer, heldBy served 0, holdParkedAt, quotaOne, poolOfTwo], let b := bodyOf 4 0 5 384 0 0
      takes s0 1 b .put = true ∧
        ((told s0 1 (.request 3 b)).asm 1).state ≠ .assembling ∧ (told s0 1 (.request 3 b)).holdsExclusive ∧
        (s0.flow 5).state = .opened ∧ s0.servingSlot 5 = some 2) ∧
    ((Request.ofBody (bodyOf 4 0 5 0 0 0)).argA.toNat < 1 ∧ 16384 < (Request.ofBody (bodyOf 4 0 5 16385 0 0)).argA.toNat) ∧
    (closedFlow.flow 5).state = .closed ∧ ((lostFlow.flow 5).state ≠ .closed ∧ (lostFlow.flow 5).halt = some .ctxErr) ∧
    ((drainingFlow.flow 5).state = .draining ∧ drainingFlow.servingSlot 5 = some 2) ∧ (haltedFlow.flow 5).halt = some .dataErr ∧
    ((noProducer.flow 5).halt = none ∧ (noProducer.slot 2).context.producers.getLsbD 1 = false) ∧
    (((heldBy served 0).slot 2).context.producers.getLsbD 1 = true ∧ (heldBy served 0).putBlocked 5 2 1) ∧
    ((holdParkedAt.slot 2).context.producers.getLsbD 1 = true ∧ holdParkedAt.putBlocked 5 2 1) ∧
    (¬ quotaOne.putBlocked 5 2 1 ∧ quotaOne.overQuota 5 2 3) ∧
    (¬ poolOfTwo.putBlocked 5 2 1 ∧ ¬ poolOfTwo.overQuota 5 2 3 ∧
      poolOfTwo.pool.free - poolOfTwo.pool.reserved < 3 + poolOfTwo.config.floors[0].toNat) := by
  unfold State.putBlocked State.overQuota State.holdsExclusive; and_intros <;> decide +kernel

/-- Port 1 assembles 300 bytes for flow 5, whose only admitted unit it is, with bytes taken as given, and port 3 is as in
`s0`. -/
def truncating (s0 : State) (taken : Nat) : State :=
  (s0.setFlow 5 { s0.flow 5 with admittedUnits := 1, admittedSegs := 3 }).setAsm 1 { Assembly.initial with
    state := .assembling, tag := some 4, flow := 5, declared := 300, taken := taken, needed := 3
    allocated := (taken + 127) / 128, chainFirst := 1, chainLast := 1, gapTimer := some 7 }

theorem witness_PutIsRefusedInOrder_truncates :
    let b := bodyOf 4 0 5 9 0 0
    (∀ s0 ∈ [truncating idleFlow 300, truncating idleFlow 299, truncating holdParkedAt 0], let s := told s0 1 (.request 3 b)
      ((s.unit 1).state = .up ∧ (s.asm 1).state ≠ .admitting ∧ (s.unit 1).inbound = [.request 3 b]) ∧
        (Request.ofBody b).kind = .put ∧ (s.asm 1).state = .assembling ∧
        (s.tagRec 1 3).status = .free ∧ (s.asm 1).tag = some 4 ∧ (s.unit 1).current ≠ some 4) ∧
    ((truncating idleFlow 300).asm 1).taken = ((truncating idleFlow 300).asm 1).declared ∧
    (((truncating idleFlow 299).asm 1).taken < ((truncating idleFlow 299).asm 1).declared ∧
      ((truncating idleFlow 299).flow 5).state ≠ .draining ∧
      ∀ S, (truncating idleFlow 299).servingSlot 5 = some S → ((truncating idleFlow 299).slot S).parkedList = []) ∧
    (let s := truncating holdParkedAt 0;
      (s.asm 1).taken < (s.asm 1).declared ∧ (s.flow 5).admittedUnits ≤ 1 ∧ (s.flow 5).state ≠ .draining ∧
        s.servingSlot 5 = some 2 ∧ (s.slot 2).parkedList = [.request 3 6] ∧ (s.tagRec 3 6).request.kind = .hold ∧
        (s.tagRec 3 6).request.flow = 5 ∧ (s.tagRec 3 6).unit = none ∧ (s.hold 3).state = .empty ∧
        (∀ o, (s.hold o).state ≠ .empty → (s.hold o).flow ≠ 5) ∧ s.pinnedOrHeld < 48) := by
  intro b; and_intros <;> decide +kernel

theorem witness_PutIsAdmitted :
    (∀ n ∈ [1, 16384], let b := bodyOf 4 0 5 (BitVec.ofNat 16 n) 0 0
      takes served 1 b .put = true ∧
        ((told served 1 (.request 3 b)).asm 1).state ≠ .assembling ∧ 1 ≤ (Request.ofBody b).argA.toNat ∧
        (Request.ofBody b).argA.toNat ≤ 16384 ∧
        ((Request.ofBody b).argA.toNat + 127) / 128 + served.config.floors[0].toNat ≤
          served.pool.free - served.pool.reserved) ∧
    ((served.flow 5).state = .opened ∧ (served.flow 5).halt = none ∧ served.servingSlot 5 = some 2 ∧
      (served.slot 2).context.producers.getLsbD 1 = true ∧ ¬ served.putBlocked 5 2 1 ∧ ¬ served.overQuota 5 2 128) ∧
    ¬(served.pool.lowArmed = true ∧ served.pool.free - (served.pool.reserved + 1) < served.config.warning.toNat) ∧
    (let s : State := { served with pool := { served.pool with free := 256 } };
      1 + s.config.floors[0].toNat ≤ s.pool.free - s.pool.reserved ∧
        s.pool.lowArmed = true ∧ s.pool.free - (s.pool.reserved + 1) < s.config.warning.toNat) := by
  unfold State.putBlocked State.overQuota; and_intros <;> decide +kernel

theorem witness_TakeInChecksComeInOrder :
    (∀ c ∈ [((0x0B : Byte), ReqKind.pin), (0x0C, .unpin)], let b := bodyOf c.1 0 5 0 0 0
      ∀ s0 ∈ [plain served, closedFlow, lostFlow],
        takes s0 0 b c.2 = true) ∧
    (∀ c ∈ [(bodyOf 5 0 5 16385 0 0, ReqKind.take), (bodyOf 5 0 5 16384 0 0, .take), (bodyOf 6 0 5 0 0 0, .peek),
        (bodyOf 6 0 5 4097 0 0, .peek), (bodyOf 6 0 5 4096 0 0, .peek), (bodyOf 6 0 5 1 0 0, .peek), (bodyOf 7 0 5 0 0 0, .drop)],
      ∀ s0 ∈ [closedFlow, lostFlow, served],
        takes s0 1 c.1 c.2 = true) ∧
    (closedFlow.flow 5).state = .closed ∧ ((lostFlow.flow 5).state ≠ .closed ∧ (lostFlow.flow 5).halt = some .ctxErr) ∧
    ((served.flow 5).state ≠ .closed ∧ (served.flow 5).halt ≠ some .ctxErr ∧ (served.flow 5).consumer ≠ 1 ∧
      (served.flow 5).consumer = 0) ∧
    (let s0 := served.setUnit 0 { upUnit with current := some 4 };
      takes s0 0 (bodyOf 7 0 5 0 0 0) .drop = true ∧ (s0.unit 0).current ≠ none) ∧
    (∀ w ∈ [0, 1], ∀ c ∈ [(5, ReqKind.take), (6, .peek), (7, .drop)],
      let b := bodyOf (BitVec.ofNat 8 c.1) (BitVec.ofNat 8 w) 5 1 0 0
      takes (heldBy served 1) 0 b c.2 = true ∧ (Request.ofBody b).wait = decide (w = 1)) ∧
    (((heldBy served 1).unit 0).current = none ∧ ((heldBy served 1).unit 0).consumerQueue = [] ∧
      (heldBy served 1).servingSlot 5 = some 2 ∧ (heldBy served 1).heldAgainst 5 0 = true) := by
  and_intros <;> decide +kernel

theorem witness_DeliveryBegins_bytes :
    let P : Pool := { Pool.initial with links := [(1, { next := 2, last := false, fill := 128 })] }
    127 < (P.link 1).fill ∧ (0 < (P.link 1).fill - 127 ∧ (P.link 1).fill - 127 ≤ 16) := by decide

theorem witness_DeliveryBegins :
    (∀ c ∈ [(bodyOf 5 0 5 0 0 0, DelKind.take), (bodyOf 5 0 5 16384 0 0, .take), (bodyOf 6 0 5 1 0 0, .peek),
        (bodyOf 6 0 5 4096 0 0, .peek)], let s := told served 0 (.request 3 c.1)
      takes served 0 c.1 c.2.request = true ∧
        (c.2 = .take → (Request.ofBody c.1).argA.toNat ≤ 16384) ∧
        (c.2 = .peek → 1 ≤ (Request.ofBody c.1).argA.toNat ∧ (Request.ofBody c.1).argA.toNat ≤ 4096) ∧
        (s.flow 5).state ≠ .closed ∧ (s.flow 5).halt = none ∧ (s.flow 5).consumer = 0 ∧ s.heldAgainst 5 0 = false ∧
        (s.unit 0).current = none ∧ (s.unit 0).consumerQueue = [] ∧ s.servingSlot 5 = some 2 ∧
        1 ≤ (s.slot 2).context.unitCount.toNat) := by
  decide +kernel

theorem witness_DropRemovesUnits :
    (∀ n ∈ [0, 1, 255], ∀ s0 ∈ [served, idleFlow, served.setFlow 5 { served.flow 5 with state := .draining }],
      let b := bodyOf 7 0 5 0 (BitVec.ofNat 8 n) 0
      let s := told s0 0 (.request 3 b)
      takes s0 0 b .drop = true ∧ (s.flow 5).state ≠ .closed ∧ (s.flow 5).halt ≠ some .ctxErr ∧
        (s.flow 5).consumer = 0 ∧ s.heldAgainst 5 0 = false ∧ (s.unit 0).current = none ∧
        (s.unit 0).consumerQueue = [] ∧ (s.unit 0).readyArmed = false ∧ s.servingSlot 5 = some 2) ∧
    1 ≤ (served.slot 2).context.unitCount.toNat ∧ (idleFlow.slot 2).context.unitCount.toNat = 0 ∧
    (served.flow 5).state = .opened ∧
    (let s := served.setFlow 5 { served.flow 5 with state := .draining };
      ((s.flow 5).state = .draining ∧
        (s.flow 5).segCount - (s.pool.unitsFrom (s.flow 5).segCount 1 (s.slot 2).context.headSeg.toNat).length = 0 ∧
        (s.flow 5).admittedUnits = 0) ∧ s.noWaits ∧ (s.slot 2).parkedList = [] ∧ s.holdsExclusive) := by
  unfold State.noWaits State.holdsExclusive; and_intros <;> decide +kernel

theorem witness_NextPopsTheFirstList :
    (base.setAsm 0 { Assembly.initial with state := .admitting }).asm 0 = { Assembly.initial with state := .admitting } ∧
    (takes base 0 (bodyOf 8 0 0 0 0 0) .next = true ∧
      ∀ c, ((told base 0 (.request 3 (bodyOf 8 0 0 0 0 0))).readyList 0 c).head = none) ∧
    (let s := (base.setReadyList 0 3 { head := some 5, tail := some 5, length := 1 }).setFlow 5
        { FlowEntry.initial with state := .opened, ready := true, listed := true, cls := 3 };
      takes s 0 (bodyOf 8 0 0 0 0 0) .next = true ∧ (∀ d, d < 3 → (s.readyList 0 d).head = none) ∧
        s.listHolds 0 3 [5]) := by
  unfold State.listHolds; and_intros <;> decide +kernel

theorem witness_HoldIsGrantedInOrder :
    (∀ s0 ∈ [closedFlow, lostFlow, served, heldBy served 1, heldBy served 0,
        base.setHold 1 { state := .lapsing, flow := 6, lease := 0 }, { served with pinnedOrHeld := 48 },
        { served with pinnedOrHeld := 47 }],
      ∀ x ∈ [(0, 0), (0, 1), (1, 65535)], let c := bodyOf 9 (BitVec.ofNat 8 x.1) 5 (BitVec.ofNat 16 x.2) 0 0
       
        takes s0 1 c .hold = true) ∧
    (Request.ofBody (bodyOf 9 0 5 0 0 0)).argA = 0 ∧ (Request.ofBody (bodyOf 9 0 5 1 0 0)).argA ≠ 0 ∧
    (Request.ofBody (bodyOf 9 0 5 1 0 0)).wait = false ∧ (Request.ofBody (bodyOf 9 1 5 65535 0 0)).wait = true ∧
    (closedFlow.flow 5).state = .closed ∧ ((lostFlow.flow 5).state ≠ .closed ∧ (lostFlow.flow 5).halt = some .ctxErr) ∧
    ((served.flow 5).state ≠ .closed ∧ (served.flow 5).halt ≠ some .ctxErr ∧ served.servingSlot 5 = some 2) ∧
    ((served.setHold 1 { state := .lapsing, flow := 6, lease := 0 }).hold 1).flow ≠ 5 ∧
    (((heldBy served 1).hold 1).state = .held ∧ ((heldBy served 1).hold 1).flow = 5 ∧
      (heldBy served 1).servingSlot 5 = some 2) ∧
    (((heldBy served 0).hold 1).state = .empty ∧ ((heldBy served 0).hold 0).state ≠ .empty ∧
      ((heldBy served 0).hold 0).flow = 5) ∧
    ((served.hold 1).state = .empty ∧ ¬((∃ q, (served.hold q).state ≠ .empty ∧ (served.hold q).flow = 5) ∨
      0 < (served.flow 5).admittedUnits) ∧ (served.slot 2).pins = 0) := by
  and_intros <;> decide +kernel

theorem witness_ReleaseEndsTheHold :
    (∀ s0 ∈ [served, served.setHold 1 { state := .lapsing, flow := 5, lease := 0 }, heldBy idleFlow 1,
        { heldBy holdParkedAt 1 with pinnedOrHeld := 1 }, { heldBy holdParkedAt 1 with pinnedOrHeld := 48 }],
      takes s0 1 (bodyOf 10 0 5 0 0 0) .release = true) ∧
    ¬((served.hold 1).state = .held ∧ (served.hold 1).flow = 5) ∧
    ¬(((served.setHold 1 { state := .lapsing, flow := 5, lease := 0 }).hold 1).state = .held) ∧
    (let s := heldBy idleFlow 1;
      (s.hold 1).state = .held ∧ (s.hold 1).flow = 5 ∧ s.noWaits ∧ s.servingSlot 5 = some 2 ∧ (s.slot 2).parkedList = []) ∧
    (let s : State := { heldBy holdParkedAt 1 with pinnedOrHeld := 48 };
      (s.hold 1).state = .held ∧ (s.hold 1).flow = 5 ∧ s.noWaits ∧ s.servingSlot 5 = some 2 ∧
        (s.slot 2).parkedList = [.request 3 6] ∧ (s.tagRec 3 6).request.kind = .hold ∧ (s.tagRec 3 6).request.flow = 5 ∧
        (s.tagRec 3 6).unit = none ∧ (s.hold 3).state = .empty ∧ s.holdsExclusive ∧ (s.flow 5).admittedUnits = 0 ∧
        1 ≤ s.pinnedOrHeld ∧ s.pinnedOrHeld ≤ 48) := by
  unfold State.noWaits State.holdsExclusive; and_intros <;> decide +kernel

/-- Flow 5's slot has pins, and the count is as given. -/
def pinned (pins count : Nat) : State := { drained id (fun v => { v with pins := pins }) with pinnedOrHeld := count }

theorem witness_PinCountsAtTheSlot :
    (∀ s0 ∈ [pinned 255 1, pinned 0 48, pinned 0 47, heldBy (pinned 0 48) 3, pinned 1 1, pinned 254 1],
      takes s0 0 (bodyOf 11 0 5 0 0 0) .pin = true ∧
        s0.config.adminRole[0] = true ∧ (s0.flow 5).state ≠ .closed ∧ (s0.flow 5).halt ≠ some .ctxErr ∧
        s0.servingSlot 5 = some 2) ∧
    (¬ ∃ q, ((pinned 0 48).hold q).state ≠ .empty ∧ ((pinned 0 48).hold q).flow = 5) ∧
    (∃ q, ((heldBy (pinned 0 48) 3).hold q).state ≠ .empty ∧ ((heldBy (pinned 0 48) 3).hold q).flow = 5) ∧
    ((pinned 255 1).slot 2).pins = 255 ∧ ((pinned 254 1).slot 2).pins = 254 ∧ ((pinned 0 48).slot 2).pins = 0 := by
  and_intros <;> decide +kernel

theorem witness_UnpinCountsAtTheSlot :
    (∀ s0 ∈ [pinned 0 0, pinned 1 1, heldBy (pinned 1 1) 3, pinned 2 1, pinned 255 1],
      takes s0 0 (bodyOf 12 0 5 0 0 0) .unpin = true ∧
        s0.config.adminRole[0] = true ∧ (s0.flow 5).state ≠ .closed ∧ (s0.flow 5).halt ≠ some .ctxErr ∧
        s0.servingSlot 5 = some 2 ∧ s0.noWaits) ∧
    (¬ ∃ q, ((pinned 1 1).hold q).state ≠ .empty ∧ ((pinned 1 1).hold q).flow = 5) ∧
    (∃ q, ((heldBy (pinned 1 1) 3).hold q).state ≠ .empty ∧ ((heldBy (pinned 1 1) 3).hold q).flow = 5) ∧
    (let r : Req := .request 1 0;
      (∀ s ∈ [{ busySlots with linkWait := [r] }, { closedFlow with linkWait := [], missWait := [r] }],
        s.headOfWaits = some (r, { s with linkWait := [], missWait := [] })) ∧
      (lostFlow.flow (lostFlow.reqFlow (.clearHalt 5))).halt = some .ctxErr ∧
      (closedFlow.flow (closedFlow.reqFlow (.clearHalt 5))).state = .closed ∧ closedFlow.isOpen (.clearHalt 5) = false ∧
      (served.flow (served.reqFlow (.clearHalt 5))).residency ≠ none) ∧
    (let s : State := { busySlots with missWait := [.clearHalt 5] };
      s.linkWait = [] ∧ s.missWait = .clearHalt 5 :: [] ∧ s.headOfWaits = some (.clearHalt 5, { s with missWait := [] }) ∧
        (s.flow 5).residency = none ∧ (s.flow 5).state ≠ .closed ∧ (s.flow 5).halt ≠ some .ctxErr) ∧
    (let s : State := { absent Slot.initial with missWait := [.clearHalt 5] };
      s.search = (some 2, { s with hand := 3 }) ∧
        ({ s with hand := 3 } : State).headOfWaits = some (.clearHalt 5, { s with hand := 3, missWait := [] })) := by
  unfold State.noWaits; and_intros <;> decide +kernel

/-- Port 1 assembles a unit of flow 5, or discards, with bytes taken as given. -/
def assembling (st : AsmState) (declared taken : Nat) : State :=
  idleFlow.setAsm 1 { Assembly.initial with
    state := st, tag := some 4, flow := 5, declared := declared, taken := taken, needed := (declared + 127) / 128
    allocated := (taken + 127) / 128, chainFirst := 1, chainLast := 1, gapTimer := some 200 }

/-- Port 1's access queue holds `n` word writes, and an access is in progress. -/
def queued (s : State) (n : Nat) : State :=
  accessing { s with mem := s.mem.setQueue 1 (List.replicate n (.write
    { seg := 1, word := 0, data := 0, ends := 0, live := true, stamp := 0 })) } (.diagnostic 0)

theorem gatherWhole_iff (s : State) (p : PortId) :
    s.gatherWhole p ↔ (match s.mem.gather[p] with
      | none => decide ((s.asm p).taken % 8 = 0)
      | some g => decide (g.bytes ≠ [] ∧ g.bytes.length = (s.asm p).taken % 8 ∧ g.seg = (s.asm p).chainLast ∧
          g.word = (s.asm p).taken % 128 / 8)) = true := by
  unfold State.gatherWhole
  cases s.mem.gather[p] <;> simp only [decide_eq_true_eq]

theorem witness_DataBeatIsTaken :
    (∀ n ∈ [1, 16], ∀ s0 ∈ [base, assembling .discarding 33 16, assembling .discarding 17 16, assembling .assembling 300 120,
        queued (assembling .assembling 300 120) 13, queued (assembling .assembling 300 120) 14],
      let bs : List Byte := List.replicate n 7
      (told s0 1 (.data bs)).quiet = true ∧ (told s0 1 (.data bs)).takesIn 1 (.data bs) [] ∧ 1 ≤ bs.length ∧
        bs.length ≤ 16) ∧
    (base.asm 1).state = .idle ∧
    (((assembling .discarding 33 16).asm 1).taken + 16 < ((assembling .discarding 33 16).asm 1).declared) ∧
    (((assembling .discarding 17 16).asm 1).taken + 1 = ((assembling .discarding 17 16).asm 1).declared) ∧
    (writesIn (queued (assembling .assembling 300 120) 13).mem.portQueue[1] + 3 ≤ 16 ∧
      ((assembling .assembling 300 120).asm 1).taken + 16 < ((assembling .assembling 300 120).asm 1).declared) ∧
    (((assembling .discarding 17 16).asm 1).declared < ((assembling .discarding 17 16).asm 1).taken + 16) ∧
    16 < writesIn (queued (assembling .assembling 300 120) 14).mem.portQueue[1] + 3 ∧
    (let s0 := queued (assembling .assembling 136 120) 13;
      let s1 : State := { s0 with mem := s0.mem.setGather 1 (some { seg := 1, word := 15, bytes := [1, 2, 3], ends := 1 }) };
      let s2 := s1.setAsm 1 { s1.asm 1 with taken := 123 };
      (∀ s ∈ [s0, s2], (s.asm 1).state = .assembling ∧ (s.asm 1).allocated = neededFor (s.asm 1).taken ∧
        s.gatherWhole 1 ∧ s.mem.inProgress ≠ none) ∧
      (s0.asm 1).taken + 16 = (s0.asm 1).declared ∧ neededFor (s0.asm 1).taken < neededFor ((s0.asm 1).taken + 16) ∧
      (s2.asm 1).taken + 1 < (s2.asm 1).declared) := by
  unfold State.takesIn; and_intros <;> try decide +kernel
  simp only [gatherWhole_iff]
  decide +kernel

theorem witness_PoolListKeepsItsOrder :
    let P : Pool := { Pool.initial with
      links := [(1, { next := 2, last := false, fill := 0 }), (3, { next := 4, last := false, fill := 128 })]
      freeHead := 1, freeTail := 2, free := 2, reserved := 1 }
    P.freeIs [1, 2] ∧ (1 ≤ 128 ∧ 128 ≤ (16384 + 127) / 128) ∧ P.chained 0 [3, 4] ∧
      [3, 4].head? = some 3 ∧ [3, 4].getLast? = some 4 ∧ ([1, 2] ++ [3, 4]).Nodup := by
  refine ⟨⟨⟨by decide, by decide, by decide, by decide⟩, by decide, by decide, by decide, by decide⟩, by decide,
    ⟨by decide, by decide, by decide, by decide⟩, by decide, by decide, by decide⟩

/-- A TAKE or PEEK of port 0 on flow 5, in a phase. -/
def consuming (k : ReqKind) (ph : Phase) : TagRecord :=
  { TagRecord.initial with status := .inUse, phase := ph, request := { Request.blank with kind := k, flow := 5 } }

/-- Port 0's delivery from flow 5 streams: 16 bytes sent, the next read in progress. -/
def streaming (k : DelKind) (planned : Nat) : State :=
  accessing ((served.setDel 0 { Delivery.initial with
    state := .streaming, kind := k, tag := 4, flow := 5, planned := planned, startSeg := 1, readSeg := 1, readOff := 32, sent := 16
    readInFlight := true }).setUnit 0 { upUnit with
      current := some 4, tags := upUnit.tags.set 4 (consuming k.request .streaming) })
    (.beatRead 0 { bytes := (List.range 16).map (fun i => (1, 16 + i)), live := true })

theorem witness_PoolListKeepsItsOrder_segments :
    (∀ s ∈ [assembling .assembling 256 0, assembling .assembling 256 128], (s.asm 1).state = .assembling ∧ 0 < s.pool.free) ∧
    (let s0 := assembling .assembling 256 256;
      let s : State := { (s0.setFlow 5 { s0.flow 5 with residency := none }).setTagRec 1 4
        { TagRecord.initial with status := .inUse, request := { Request.blank with kind := .put, flow := 5 } } with
          linkWait := [.request 3 6] };
      (s.asm 1).state = .assembling ∧ (s.asm 1).allocated = (s.asm 1).needed ∧ (s.asm 1).tag = some 4 ∧
        (s.tagRec 1 4).unit = none ∧ (s.flow (s.tagRec 1 4).request.flow).residency = none ∧ s.linkWait ≠ []) ∧
    (let s := idleFlow.setTagRec 1 4
        { TagRecord.initial with
          status := .inUse, request := { Request.blank with kind := .put, flow := 5 }
          unit := some { first := 1, last := 1, needed := 1 } };
      s.servingSlot (s.tagRec 1 4).request.flow = some 2 ∧ (s.slot 2).parkedList = []) ∧
    (let s := streaming .take 100;
      ∀ c ∈ [0, 16, 128], (s.pool.commitWalk 128 (s.del 0).startSeg (s.del 0).startOff c).1.length ≤ (s.flow 5).segCount) := by
  and_intros <;> decide +kernel

/-- Port 0's hold on flow 5 is LAPSING. -/
def lapsing (s : State) : State := s.setHold 0 { state := .lapsing, flow := 5, lease := 0 }

theorem witness_CutEndsItsRequest :
    let waiting := base.setUnit 0 { upUnit with
      current := some 1, consumerQueue := [4, 7], tags := upUnit.tags.set 4 (consuming .peek .queuedAtPort) }
    (∀ k ∈ [0, 65535], ∀ s0 ∈ [base, waiting, streaming .peek 100, streaming .take 100],
      let m := Message.cut 4 (BitVec.ofNat 16 k)
      (told s0 0 m).quiet = true ∧ (told s0 0 m).takesIn 0 m []) ∧
    (base.tagRec 0 4).status ≠ .inUse ∧
    ((waiting.tagRec 0 4).status = .inUse ∧ (waiting.tagRec 0 4).request.kind = .peek ∧
      (waiting.tagRec 0 4).phase = .queuedAtPort ∧ (waiting.unit 0).current ≠ some 4 ∧
      .request 0 4 ∉ waiting.missWait ∧ ∀ S, .request 0 4 ∉ (waiting.slot S).pendingList ∧
        .request 0 4 ∉ (waiting.slot S).returnList ∧ .request 0 4 ∉ (waiting.slot S).parkedList) ∧
    (∀ k ∈ [DelKind.take, .peek], ((streaming k 100).tagRec 0 4).status = .inUse ∧
      ((streaming k 100).tagRec 0 4).phase = .streaming ∧ ((streaming k 100).unit 0).current = some 4 ∧
      ((streaming k 100).unit 0).consumerQueue = [] ∧ (streaming k 100).noWaits ∧ ((streaming k 100).del 0).tag = 4 ∧
      (streaming k 100).servingSlot 5 = some 2 ∧ ((streaming k 100).slot 2).parkedList = [] ∧
      (streaming k 100).lapses 0 = false ∧ (lapsing (streaming k 100)).lapses 0 = true ∧
      ((streaming k 100).unit 0).readyArmed = false ∧ ((streaming k 100).flow 5).consumer = 0) ∧
    (((streaming .take 100).flow 5).state = .opened ∧ 1 ≤ min (keptCount 1) ((streaming .take 100).del 0).sent ∧
      1 ≤ min (keptCount 65535) ((streaming .take 100).del 0).sent) ∧
    (∀ ph ∈ [Phase.waitingResidency, .missWait, .parked],
      let s : State := { base.setUnit 0 { upUnit with current := some 4, tags := upUnit.tags.set 4 (consuming .take ph) } with
        missWait := if ph = .missWait then [.request 0 4] else [] }
      (told s 0 (.cut 4 7)).quiet = true ∧ (s.tagRec 0 4).phase = ph ∧ (s.unit 0).current = some 4 ∧
        (s.unit 0).consumerQueue = [] ∧ s.linkWait = [] ∧ ∀ w ∈ s.missWait, w = .request 0 4) := by
  unfold State.takesIn State.noWaits; intro waiting; and_intros <;> decide +kernel

/-- Port 1's assembly holds the last admitted unit of flow 5, which is DRAINING with no segment. -/
def lastAdmitted : State :=
  (drainingFlow.setAsm 1 ((assembling .assembling 300 16).asm 1))

theorem witness_GapTimeoutEndsTheWork :
    (∀ n ∈ [none, some 199], let s := base.setAsm 1 { Assembly.initial with state := .discarding, declared := 9, gapTimer := n }
      s.quiet = true ∧ s.gapDue 1 = false) ∧
    (∀ s0 ∈ [assembling .discarding 17 16, assembling .assembling 300 16, lastAdmitted],
      s0.quiet = true ∧ s0.config.gapTimeout ≠ 0 ∧ (s0.asm 1).gapTimer = some 200 ∧ 10 * s0.config.gapTimeout.toNat ≤ 200) ∧
    (∀ s0 ∈ [assembling .assembling 300 16, lastAdmitted], (s0.asm 1).tag = some 4 ∧ (s0.unit 1).current ≠ some 4 ∧
      s0.servingSlot 5 = some 2 ∧ ∀ S, s0.servingSlot 5 = some S → (s0.slot S).parkedList = []) ∧
    ¬(((assembling .assembling 300 16).flow 5).state = .draining) ∧
    ((lastAdmitted.flow 5).state = .draining ∧ (lastAdmitted.flow 5).segCount = 0 ∧
      (lastAdmitted.flow 5).admittedUnits - 1 = 0 ∧ lastAdmitted.noWaits ∧ lastAdmitted.holdsExclusive) ∧
    (∀ s0 ∈ [lastAdmitted.setSlot 2 { Slot.initial with state := .filling, flow := some 5 },
        lastAdmitted.setFlow 5 { lastAdmitted.flow 5 with residency := none }],
      s0.quiet = true ∧ s0.asm 1 = lastAdmitted.asm 1 ∧ (s0.flow 5).state = .draining ∧ (s0.flow 5).segCount = 0 ∧
        (s0.flow 5).admittedUnits - 1 = 0 ∧ s0.servingSlot 5 = none ∧ s0.holder 5 = none) := by
  unfold State.noWaits State.holdsExclusive; and_intros <;> decide +kernel

theorem witness_LeaseExpiryEndsTheHold :
    (base.quiet = true ∧ (base.hold 0).state ≠ .held) ∧
    ((heldBy served 0).quiet = true ∧ 0 < ((heldBy served 0).hold 0).lease) ∧
    ((lapsedBy (streaming .take 100) 0).quiet = true ∧ ((lapsedBy (streaming .take 100) 0).hold 0).state = .held ∧
      ((lapsedBy (streaming .take 100) 0).hold 0).lease = 0 ∧
      ((lapsedBy (streaming .take 100) 0).del 0).state = .streaming ∧ ((lapsedBy (streaming .take 100) 0).del 0).flow = 5) ∧
    ((lapsedBy served 0).quiet = true ∧ ¬((lapsedBy served 0).del 0).state = .streaming ∧ (lapsedBy served 0).noWaits ∧
      (lapsedBy served 0).servingSlot 5 = some 2 ∧ ((lapsedBy served 0).slot 2).parkedList = []) := by
  unfold State.noWaits; and_intros <;> decide +kernel

/-- Slot 2 fills for flow 5, whose record the SRAM holds as given. -/
def filling (e : FlowEntry) (stored : Option Context) : State :=
  let s := (base.setFlow 5 { e with residency := some 2 }).setSlot 2
    { Slot.initial with state := .filling, flow := some 5, context := stored.getD Context.blank }
  accessing (if stored.isSome then s.storeRecord 2 5 else s) (.fill 2 5)

/-- The error pattern of no wrong bit, and of two. -/
def noError : ErrorPattern := { data := 0, code := 0 }
def twoErrors : ErrorPattern := { data := 1, code := 1 }

/-- Two ports' requests of a kind for flow 5, as the pending list of slot 2. -/
def waiting (s : State) (k : ReqKind) : State :=
  (((s.setTagRec 1 4 (consuming k .waitingResidency)).setTagRec 2 0 (consuming k .waitingResidency)).setSlot 2
    { s.slot 2 with pendingList := [.request 1 4, .request 2 0] }).setAsm 1 { Assembly.initial with
      state := .admitting, tag := some 4 } |>.setAsm 2 { Assembly.initial with state := .admitting, tag := some 0 }

theorem plainRequests_iff (s : State) (f : FlowId) (rs : List Req) :
    s.plainRequests f rs ↔ rs.all (fun r => match r with
      | .request q g => decide ((s.tagRec q g).request.flow = f ∧ (s.tagRec q g).unit = none ∧
          ((s.tagRec q g).request.kind = .put → (s.asm q).state = .admitting ∧ (s.asm q).tag = some g))
      | .clearHalt _ => false) = true := by
  simp only [State.plainRequests, List.all_eq_true]
  exact forall₂_congr fun r _ => by cases r <;> simp only [decide_eq_true_eq, Bool.false_eq_true]

theorem queries_iff (s : State) (f : FlowId) (rs : List Req) :
    s.queries f rs ↔ s.plainRequests f rs ∧ rs.all (fun r => match r with
      | .request q g => decide ((s.tagRec q g).request.kind = .query)
      | .clearHalt _ => false) = true := by
  simp only [State.queries, List.all_eq_true]
  exact and_congr_right fun _ => forall₂_congr fun r _ => by cases r <;> simp

theorem witness_FillCompletionFillsTheSlot :
    (∀ s0 ∈ [filling { FlowEntry.initial with state := .opened, segCount := 3 } (some oneUnit), filling FlowEntry.initial none],
      s0.lastAccess ∧ s0.noWaits ∧ s0.mem.inProgress = some (.fill 2 5) ∧ (s0.slot 2).pendingList = []) ∧
    (let s0 := filling { FlowEntry.initial with state := .opened, segCount := 3 } (some oneUnit);
      (s0.flow 5).state = .opened ∧
      (let rs := s0.readRecord 5 #v[noError, noError, noError, noError];
        (∀ r ∈ rs.toList, r.outcome ≠ .uncorrectable) ∧ recordSound (recordOfReports rs) = true) ∧
      (let rs := s0.readRecord 5 #v[noError, noError, noError, twoErrors];
        ¬((∀ r ∈ rs.toList, r.outcome ≠ .uncorrectable) ∧ recordSound (recordOfReports rs) = true))) ∧
    ((filling FlowEntry.initial none).flow 5).state = .closed ∧
    (∀ k ∈ [ReqKind.query, .put, .pin],
      ∀ s0 ∈ [filling { FlowEntry.initial with state := .opened, segCount := 3 } (some oneUnit), filling FlowEntry.initial none],
      let s := waiting s0 k
      s.lastAccess ∧ s.noWaits ∧ s.mem.inProgress = some (.fill 2 5) ∧ (s.slot 2).flow = some 5 ∧
        s.plainRequests 5 (s.slot 2).pendingList ∧ (∀ r ∈ (s.slot 2).pendingList, s.isOpen r = false) ∧
        ∀ q, (s.unit q).consumerQueue = []) ∧
    (let s := waiting (filling { FlowEntry.initial with state := .opened, segCount := 3 } (some oneUnit)) .query;
      s.queries 5 (s.slot 2).pendingList) := by
  simp only [queries_iff, plainRequests_iff]; unfold State.lastAccess State.noWaits; and_intros <;> decide +kernel

/-- Slot 2 spills flow 5 for flow 6, with a pending list and a return list. -/
def spilling (pend ret : List Req) : State :=
  accessing (((base.setFlow 5 { FlowEntry.initial with state := .opened, residency := some 2 }).setFlow 6
    { FlowEntry.initial with state := .opened, residency := some 2 }).setSlot 2
      { Slot.initial with
        state := .spilling, flow := some 5, incoming := some 6, context := oneUnit, dirty := true, pendingList := pend
        returnList := ret } |>.setTagRec 1 4 (consuming .query .waitingResidency)) (.spill 2 5)

theorem witness_SpillCompletionPassesTheSlot :
    ∀ s0 ∈ [spilling [.request 0 1] [], spilling [] [.request 1 4]],
      s0.lastAccess ∧ s0.noWaits ∧ s0.mem.inProgress = some (.spill 2 5) ∧ (s0.slot 2).state = .spilling ∧
        (s0.slot 2).flow = some 5 ∧ (s0.slot 2).incoming = some 6 ∧ (s0.flow 6).state ≠ .closed ∧
        (s0.flow 5).state ≠ .closed ∧ (s0.tagRec 1 4).request.kind = .query ∧ (s0.tagRec 1 4).request.flow = 5 ∧
        (s0.tagRec 1 4).unit = none ∧ s0.queries 5 [.request 1 4] := by
  simp only [queries_iff, plainRequests_iff]; unfold State.lastAccess State.noWaits; decide +kernel

theorem witness_SpillCompletionPassesTheSlot_both :
    let s1 := spilling [.request 0 1] [.request 1 4]
    let s0 : State := { s1 with slots := (Vector.replicate 64 { Slot.initial with state := .filling, flow := some 7 }).set 2 (s1.slot 2) }
    s0.lastAccess ∧ s0.noWaits ∧ s0.mem.inProgress = some (.spill 2 5) ∧ (s0.slot 2).state = .spilling ∧
      (s0.slot 2).flow = some 5 ∧ (s0.slot 2).incoming = some 6 ∧ (s0.flow 6).state ≠ .closed ∧ (s0.flow 5).state ≠ .closed ∧
      (s0.flow 5).halt ≠ some .ctxErr ∧ (s0.slot 2).returnList = [.request 1 4] ∧
      Req.request 1 4 ∉ (s0.slot 2).pendingList ∧ s0.plainRequests 5 [.request 1 4] ∧
      ∀ T, (s0.slot T).state ≠ .free ∧ s0.evictable T = false := by
  simp only [plainRequests_iff]; unfold State.lastAccess State.noWaits; decide +kernel

/-- A word write of port 1's assembly is in progress: `ends` writes end with it. -/
def writing (live : Bool) (outstanding : Nat) : State :=
  let s := assembling .assembling 128 128
  accessing ((s.setAsm 1 { s.asm 1 with writesOutstanding := outstanding, gapTimer := none }).setTagRec 1 4 (consuming .put .inService))
    (.wordWrite 1 { seg := 1, word := 15, data := 0xAB, ends := 1, live := live, stamp := 0 })

theorem witness_WordWriteCompletesAndLinks :
    (∀ s0 ∈ [writing false 1, writing true 2, writing true 1], s0.lastAccess) ∧
    ¬(((writing true 2).asm 1).writesOutstanding - 1 = 0) ∧
    (let s0 := writing true 1;
      (s0.asm 1).state = .assembling ∧ (s0.asm 1).taken = (s0.asm 1).declared ∧ (s0.asm 1).writesOutstanding - 1 = 0 ∧
      (s0.asm 1).tag = some 4 ∧ (s0.unit 1).current ≠ some 4 ∧ (s0.tagRec 1 4).status = .inUse ∧
      (s0.tagRec 1 4).request.flow = (s0.asm 1).flow ∧ (s0.tagRec 1 4).request.kind = .put ∧
      (s0.flow 5).state ≠ .closed ∧ (s0.flow 5).halt ≠ some .ctxErr ∧
      (s0.unit (s0.flow 5).consumer).readyArmed = false ∧ s0.servingSlot 5 = some 2 ∧ (s0.slot 2).parkedList = []) ∧
    (∀ s0 ∈ [{ (writing true 1).setFlow 5 { FlowEntry.initial with state := .opened } with linkWait := [.request 3 6] },
        { (writing true 1).setFlow 5 { FlowEntry.initial with state := .opened } with slots := busySlots.slots }],
      s0.lastAccess ∧ s0.mem.inProgress = (writing true 1).mem.inProgress ∧ (s0.asm 1).taken = (s0.asm 1).declared ∧
        (s0.asm 1).writesOutstanding - 1 = 0 ∧ (s0.asm 1).tag = some 4 ∧ (s0.tagRec 1 4).request.flow = (s0.asm 1).flow ∧
        (s0.flow 5).state ≠ .closed ∧ (s0.flow 5).halt ≠ some .ctxErr ∧ (s0.flow 5).residency = none ∧
        (s0.linkWait ≠ [] ∨ ∀ T, (s0.slot T).state ≠ .free ∧ s0.evictable T = false)) := by
  unfold State.lastAccess; and_intros <;> decide +kernel

/-- The words that the streaming delivery reads are in the SRAM. -/
def stored (s : State) : State := (s.writeSram (s.segWordAddr 1 2) 1).writeSram (s.segWordAddr 1 3) 2

theorem witness_BeatReadPlacesTheBeat :
    let r : BeatRead := { bytes := (List.range 16).map (fun i => (1, 16 + i)), live := true }
    (∀ s0 ∈ [stored (streaming .peek 33), stored (streaming .peek 32), lapsing (stored (streaming .peek 32))], s0.lastAccess ∧ s0.noWaits ∧
      s0.mem.inProgress = some (.beatRead 0 r) ∧ (s0.del 0).state = .streaming ∧ (s0.del 0).readInFlight = true ∧
      (s0.unit 0).current = some (s0.del 0).tag ∧ (s0.unit 0).consumerQueue = [] ∧
      (s0.tagRec 0 4).request.kind = .peek ∧ s0.servingSlot 5 = some 2 ∧ (s0.slot 2).parkedList = [] ∧
      (s0.readBeat r [noError, noError, noError]).countP (fun w => decide (w.2.outcome = .uncorrectable)) = 0 ∧
      0 < (s0.readBeat r [noError, twoErrors, noError]).countP (fun w => decide (w.2.outcome = .uncorrectable)) ∧
      (s0.flow 5).consumer = 0) ∧
    ((streaming .peek 33).del 0).sent + r.bytes.length < ((streaming .peek 33).del 0).planned ∧
    ((streaming .peek 32).del 0).sent + r.bytes.length = ((streaming .peek 32).del 0).planned ∧
    (lapsing (stored (streaming .peek 32))).lapses 0 = true ∧
    (let s0 := accessing base (.beatRead 0 { r with live := false }); s0.lastAccess ∧ s0.noWaits) ∧
    (let s0 := accessing (streaming .take 33) (.beatRead 0 { r with live := false });
      let s1 := s0.setDel 0 { s0.del 0 with readInFlight := false };
      (s1.quiet = true ∧ s1.mem.noneWaits ∧ s1.mem.inProgress = some (.beatRead 0 { r with live := false })) ∧
        (s1.del 0).state = .streaming ∧ (s1.del 0).sent < (s1.del 0).planned ∧ beatsIn (s1.unit 0).outbound < 48) := by
  unfold State.lastAccess State.noWaits MemController.noneWaits; intro r; and_intros <;> decide +kernel

/-- The delivery's last beat takes the last unit, of 32 bytes, of flow 5, which is DRAINING, behind a LAPSING hold. -/
def lastUnit : State :=
  let s := lapsing (stored (streaming .take 32))
  (s.setFlow 5 { s.flow 5 with state := .draining }).setPool (s.pool.setLink 1 { next := 0, last := true, fill := 32 })

theorem witness_TakeCommitsItsBytes :
    let P : Pool := { Pool.initial with links := [(1, { next := 2, last := false, fill := 128 }), (2, { next := 9, last := true, fill := 40 })] }
    (P.chained 9 [1, 2] ∧ (P.link 1).last = false ∧ (P.link 2).last = true ∧ 39 < (P.link 2).fill ∧
      (5 : Nat) ≤ (P.link 1).fill ∧ 162 + 5 = P.fills [1] + 39 ∧ 163 + 5 = P.fills [1, 2] ∧ 5 + 0 = 5) ∧
    (∀ s0 ∈ [stored (streaming .take 32), lapsing (stored (streaming .take 32)), lastUnit], 
      let r : BeatRead := { bytes := (List.range 16).map (fun i => (1, 16 + i)), live := true };
      s0.lastAccess ∧ s0.noWaits ∧ s0.mem.inProgress = some (.beatRead 0 r) ∧
      (s0.readBeat r [noError, noError, noError]).countP (fun w => decide (w.2.outcome = .uncorrectable)) = 0 ∧
      (s0.del 0).state = .streaming ∧ (s0.del 0).kind = .take ∧ (s0.del 0).readInFlight = true ∧
      (s0.unit 0).current = some (s0.del 0).tag ∧ (s0.unit 0).consumerQueue = [] ∧ (s0.tagRec 0 4).request.kind = .take ∧
      (s0.unit 0).readyArmed = false ∧ (s0.flow 5).consumer = 0 ∧
      1 ≤ (s0.del 0).planned ∧ (s0.del 0).sent + r.bytes.length = (s0.del 0).planned ∧
      s0.servingSlot 5 = some 2 ∧ (s0.slot 2).parkedList = []) ∧
    ((stored (streaming .take 32)).flow 5).state = .opened ∧ (lapsing (stored (streaming .take 32))).lapses 0 = true ∧
    (let walk := lastUnit.pool.commitWalk 128 (lastUnit.del 0).startSeg (lastUnit.del 0).startOff (lastUnit.del 0).planned;
      (lastUnit.flow 5).state = .draining ∧ walk.2 = none ∧ (lastUnit.flow 5).segCount - walk.1.length = 0 ∧
        (lastUnit.flow 5).admittedUnits = 0 ∧ lastUnit.lapses 0 = true ∧ lastUnit.holdsExclusive) := by
  refine ⟨⟨⟨by decide, by decide, by decide, by decide⟩, ?_⟩, ?_⟩
  · and_intros <;> decide
  · unfold State.lastAccess State.noWaits State.holdsExclusive; and_intros <;> decide +kernel

theorem witness_CheckCodeCorrectsOneBit :
    onesIn (0x8000000000000000 : Word64) + onesIn (0 : Byte) = 1 ∧ onesIn (0 : Word64) + onesIn (0x01 : Byte) = 1 ∧
      onesIn (0x8000000000000000 : Word64) + onesIn (0x01 : Byte) = 2 := by decide +kernel

theorem witness_SpilledContextComesBack :
    ∀ i : Fin 4, onesIn (#v[noError, { data := 1, code := 0 }, { data := 0, code := 0x80 }, noError] : Vector ErrorPattern 4)[i].data +
      onesIn (#v[noError, { data := 1, code := 0 }, { data := 0, code := 0x80 }, noError] : Vector ErrorPattern 4)[i].code ≤ 1 := by
  decide +kernel

theorem witness_VictimSearchInspectsFromTheHand :
    (base.slot base.hand).state = .free ∧
    (let s0 : State := { served with hand := 2 };
      s0.evictable s0.hand = true ∧ (s0.slot s0.hand).ref = false ∧
      (let s1 := s0.setSlot 2 { s0.slot 2 with ref := true }; s1.evictable s1.hand = true ∧ (s1.slot s1.hand).ref = true) ∧
      (let s1 := s0.setSlot 2 { s0.slot 2 with pins := 1 }; (s1.slot s1.hand).state ≠ .free ∧ s1.evictable s1.hand = false)) ∧
    (let s0 : State := { base with slots := Vector.replicate 64 { Slot.initial with state := .resident, pins := 1 } };
      s0.search = (none, s0)) := by
  and_intros <;> decide +kernel

theorem witness_ArbiterGrantsInOrder :
    let w : Nat → WordWrite := fun n => { seg := 7, word := 0, data := 0, ends := 0, live := true, stamp := n }
    let r : PortAccess := .read { bytes := [(1, 0)], live := true }
    let m : MemController := { MemController.initial with portQueue := #v[[.write (w 5)], [.write (w 3)], [r], []] }
    ({ m with inProgress := some (.diagnostic 0) } : MemController).inProgress ≠ none ∧ m.inProgress = none ∧
      ({ m with fillQueue := [(1, 2)] } : MemController).fillQueue = (1, 2) :: [] ∧
      ({ m with spillQueue := [(1, 2)] } : MemController).spillQueue = (1, 2) :: [] ∧
      (m.fillQueue = [] ∧ m.spillQueue = [] ∧ (1 : PortId) = m.lastPort + 1 + Fin.ofNat 4 1 ∧ m.eligible 1 = true ∧
        ∀ j, j < 1 → m.eligible (m.lastPort + 1 + Fin.ofNat 4 j) = false) ∧
      m.portQueue[1] = .write (w 3) :: [] ∧ m.portQueue[2] = r :: [] ∧
      (∀ p, ({ MemController.initial with mgmtRead := some 9 } : MemController).eligible p = false) := by
  intro w r m; and_intros <;> decide +kernel

theorem witness_ListsFollowTheTable :
    let three := ((base.setFlow 5 { FlowEntry.initial with listed := true, next := some 6 }).setFlow 6
      { FlowEntry.initial with listed := true, prev := some 5, next := some 4095 }).setFlow 4095
        { FlowEntry.initial with listed := true, prev := some 6 }
    (∀ r ∈ [true, false], ∀ d ∈ [true, false], ∀ l ∈ [true, false],
      ((base.setFlow 5 { FlowEntry.initial with ready := r, dispatched := d, listed := l }).flow 5).ready = r) ∧
    ((base.flow 5).listed = false ∧ base.listHolds 0 0 []) ∧
    (base.listedFlows 0 = 0 ∧ ((base.setUnit 0 { upUnit with readyArmed := true }).unit 0).readyArmed = true ∧
      (base.unit 0).readyArmed = false ∧ 0 < listedDown.listedFlows 0) ∧
    (three.setReadyList 0 0 { head := some 5, tail := some 4095, length := 3 }).listHolds 0 0 ([5] ++ 6 :: [4095]) := by
  unfold State.listHolds; intro three; and_intros <;> decide +kernel

/-! ## The memory controller's completions and the rest of the management port -/

/-- A fill of flow 5 is in progress; its record is a sound one. -/
def soundFill : State := filling { FlowEntry.initial with state := .opened, segCount := 3 } (some oneUnit)

theorem test_fillCompletion : let t := after (.fillCompletion noError noError noError noError) soundFill
    (t.slot 2).state = .resident ∧ (t.slot 2).context = oneUnit := by decide +kernel

theorem test_fillCompletion_contextError : let t := after (.fillCompletion noError noError noError twoErrors) soundFill
    (t.flow 5).halt = some .ctxErr ∧ t.pool.stranded = 3 ∧ (t.slot 2).state = .free := by decide +kernel

theorem test_spillCompletion : let t := after .spillCompletion (spilling [.request 0 1] [])
    (t.slot 2).state = .filling ∧ (t.slot 2).flow = some 6 ∧ (t.flow 5).residency = none := by decide +kernel

theorem test_beatReadCompletion :
    ((after (.beatReadCompletion noError noError noError) (stored (streaming .peek 33))).unit 0).outbound =
      [.data [0, 0, 0, 0, 0, 0, 0, 1, 0, 0, 0, 0, 0, 0, 0, 2]] := by decide +kernel

theorem test_readContext : (after (.readContext 5) base).mem.inProgress = some (.diagnostic 5) := by decide +kernel

theorem test_diagnosticReadCompletion :
    let t := after (.diagnosticReadCompletion noError noError noError noError)
      (accessing soundFill (.diagnostic 5))
    t.mgmt.result = some .ok ∧ t.mgmt.resultWords[0] = 0x0F010000 ∧ t.mgmt.resultWords[8] = 0x100 := by decide +kernel

theorem test_clearCounters : (after .clearCounters { base with mgmt := { base.mgmt with strayBeats := 9 } }).mgmt.strayBeats = 0 := by
  decide +kernel

theorem test_readFrame : (after (.undefinedCommandByte 0x01 0x0010 0) base).mgmt.spiOut = 8192 ∧
    (after (.undefinedCommandByte 0x01 0x0001 7) base) = base := by decide +kernel

theorem test_undefinedCommandByte : (after (.undefinedCommandByte 0x18 0 0) base).mgmt.refused = some .undefined := by
  decide +kernel

end Sys2Proof.Tests
end

/-! SUPPORT. The victim search of R50: what each inspection does, how many inspections a slot can escape, and the search's settled statement. -/

namespace Sys2Proof.Machine

/-! ## What one inspection changes -/

/-- The clock hand moves to the next slot, from 63 to 0 (R50). -/
def State.advanceHand (s : State) : State := { s with hand := s.hand + 1 }

/-- The slot at the hand loses its ref (R50). -/
def State.clearRefAtHand (s : State) : State := s.setSlot s.hand { s.slot s.hand with ref := false }

/-- A slot a victim search can take, at once or when it comes back without ref: FREE, or evictable (R50). -/
def State.candidate (s : State) (S : SlotId) : Prop := (s.slot S).state = .free ∨ s.evictable S = true

theorem State.not_candidate_iff {s : State} {S : SlotId} :
    ¬ s.candidate S ↔ (s.slot S).state ≠ .free ∧ s.evictable S = false := by
  simp [State.candidate]

/-- A resident slot is not FREE, so the cases of R50 exclude each other. -/
theorem State.not_free_of_evictable {s : State} {S : SlotId} (h : s.evictable S = true) :
    (s.slot S).state ≠ .free := by
  intro hfree
  simp [State.evictable, hfree] at h

@[simp] theorem State.slot_advanceHand (s : State) (S : SlotId) : s.advanceHand.slot S = s.slot S := rfl
@[simp] theorem State.hand_advanceHand (s : State) : s.advanceHand.hand = s.hand + 1 := rfl
@[simp] theorem State.candidate_advanceHand (s : State) (S : SlotId) :
    s.advanceHand.candidate S ↔ s.candidate S := Iff.rfl
@[simp] theorem State.hand_clearRefAtHand (s : State) : s.clearRefAtHand.hand = s.hand := rfl

theorem State.slot_clearRefAtHand (s : State) (S : SlotId) :
    s.clearRefAtHand.slot S = if S = s.hand then { s.slot S with ref := false } else s.slot S := by
  unfold State.clearRefAtHand
  rw [State.slot_setSlot]
  split
  · next h => rw [h]
  · rfl

/-- No condition of R47 reads ref. -/
theorem State.evictable_clearRefAtHand (s : State) (S : SlotId) : s.clearRefAtHand.evictable S = s.evictable S := by
  have hholder (f : FlowId) : s.clearRefAtHand.holder f = s.holder f := rfl
  simp only [State.evictable, State.slotHeld, State.slot_clearRefAtHand, hholder]
  split <;> rfl

@[simp] theorem State.candidate_clearRefAtHand (s : State) (S : SlotId) :
    s.clearRefAtHand.candidate S ↔ s.candidate S := by
  have hstate : (s.clearRefAtHand.slot S).state = (s.slot S).state := by
    rw [State.slot_clearRefAtHand]; split <;> rfl
  simp only [State.candidate, hstate, State.evictable_clearRefAtHand]

/-! ## One inspection, case by case -/

theorem State.inspect_of_free {s : State} (n : Nat) (hfree : (s.slot s.hand).state = .free) :
    s.inspect (n + 1) = (some s.hand, s.advanceHand) := by
  simp [State.inspect, State.advanceHand, hfree]

theorem State.inspect_of_evictable_unused {s : State} (n : Nat) (hev : s.evictable s.hand = true)
    (href : (s.slot s.hand).ref = false) : s.inspect (n + 1) = (some s.hand, s.advanceHand) := by
  simp [State.inspect, State.advanceHand, State.not_free_of_evictable hev, hev, href]

theorem State.inspect_of_evictable_used {s : State} (n : Nat) (hev : s.evictable s.hand = true)
    (href : (s.slot s.hand).ref = true) : s.inspect (n + 1) = s.clearRefAtHand.advanceHand.inspect n := by
  have horder : ({ s with hand := s.hand + 1 } : State).setSlot s.hand { s.slot s.hand with ref := false } =
      s.clearRefAtHand.advanceHand := rfl
  simp [State.inspect, State.not_free_of_evictable hev, hev, href, horder]

theorem State.inspect_of_not_candidate {s : State} (n : Nat) (h : ¬ s.candidate s.hand) :
    s.inspect (n + 1) = s.advanceHand.inspect n := by
  obtain ⟨hfree, hev⟩ := State.not_candidate_iff.1 h
  simp [State.inspect, State.advanceHand, hfree, hev]

/-- The outcomes of an inspection: the slot at the hand is taken, is passed without its ref, or is passed unchanged. -/
theorem State.inspect_succ_cases (s : State) (n : Nat) :
    s.inspect (n + 1) = (some s.hand, s.advanceHand) ∨
    ((s.slot s.hand).ref = true ∧ s.inspect (n + 1) = s.clearRefAtHand.advanceHand.inspect n) ∨
    (¬ s.candidate s.hand ∧ s.inspect (n + 1) = s.advanceHand.inspect n) := by
  by_cases hcand : s.candidate s.hand
  · obtain hfree | hev := hcand
    · exact .inl (State.inspect_of_free n hfree)
    · cases href : (s.slot s.hand).ref with
      | false => exact .inl (State.inspect_of_evictable_unused n hev href)
      | true => exact .inr (.inl ⟨rfl, State.inspect_of_evictable_used n hev href⟩)
  · exact .inr (.inr ⟨hcand, State.inspect_of_not_candidate n hcand⟩)

/-! ## A search meets every candidate -/

/-- How many inspections at most come before the one that takes a candidate: the distance from the hand, and one more
turn of the hand where the slot's ref has to be cleared first. -/
def State.inspectionsBefore (s : State) (S : SlotId) : Nat :=
  (S - s.hand).val + if (s.slot S).ref then 64 else 0

theorem State.inspectionsBefore_lt (s : State) (S : SlotId) : s.inspectionsBefore S < 128 := by
  unfold State.inspectionsBefore
  split <;> omega

theorem State.inspectionsBefore_advanceHand (s : State) {S : SlotId} (h : S ≠ s.hand) :
    s.advanceHand.inspectionsBefore S < s.inspectionsBefore S := by
  have hdist : (S - (s.hand + 1)).val < (S - s.hand).val := by
    have hne : S.val ≠ s.hand.val := fun e => h (Fin.ext e)
    simp only [Fin.sub_def, Fin.add_def]
    omega
  exact Nat.add_lt_add_right hdist _

/-- The slot at the hand goes to the far end of the turn, but owes one turn less; every other slot comes nearer. -/
theorem State.inspectionsBefore_clearRefAtHand (s : State) (S : SlotId) (href : (s.slot s.hand).ref = true) :
    s.clearRefAtHand.advanceHand.inspectionsBefore S < s.inspectionsBefore S := by
  by_cases h : S = s.hand
  · subst h
    simp [State.inspectionsBefore, State.slot_clearRefAtHand, href]
  · have hsame : s.clearRefAtHand.advanceHand.inspectionsBefore S = s.advanceHand.inspectionsBefore S := by
      unfold State.inspectionsBefore
      rw [State.slot_advanceHand, State.slot_clearRefAtHand, if_neg h]
      rfl
    rw [hsame]
    exact s.inspectionsBefore_advanceHand h

theorem State.inspect_finds_candidate (n : Nat) {s : State} {S : SlotId} (hcand : s.candidate S)
    (hn : s.inspectionsBefore S < n) : (s.inspect n).1 ≠ none := by
  induction n generalizing s with
  | zero => omega
  | succ n ih =>
    obtain htake | ⟨href, hpass⟩ | ⟨hhand, hpass⟩ := s.inspect_succ_cases n
    · simp [htake]
    · have hless := s.inspectionsBefore_clearRefAtHand S href
      rw [hpass]
      exact ih (by simpa using hcand) (by omega)
    · have hless := s.inspectionsBefore_advanceHand (S := S) (fun e => hhand (e ▸ hcand))
      rw [hpass]
      exact ih hcand (by omega)

/-! ## A search that finds no victim -/

theorem State.not_candidate_of_search_none {s : State} (h : s.search.1 = none) (S : SlotId) : ¬ s.candidate S :=
  fun hcand => State.inspect_finds_candidate 128 hcand (s.inspectionsBefore_lt S) h

theorem State.inspect_of_no_candidate (n : Nat) {s : State} (h : ∀ S, ¬ s.candidate S) :
    s.inspect n = (none, { s with hand := s.hand + Fin.ofNat 64 n }) := by
  induction n generalizing s with
  | zero => simp [State.inspect]
  | succ n ih =>
    have hhand : s.hand + 1 + Fin.ofNat 64 n = s.hand + Fin.ofNat 64 (n + 1) := by
      apply Fin.ext
      simp only [Fin.add_def, Fin.ofNat]
      omega
    calc s.inspect (n + 1) = s.advanceHand.inspect n := State.inspect_of_not_candidate n (h _)
      _ = (none, { s with hand := s.hand + 1 + Fin.ofNat 64 n }) := ih h
      _ = (none, { s with hand := s.hand + Fin.ofNat 64 (n + 1) }) := by rw [hhand]

/-- 128 inspections are two whole turns of the hand. -/
theorem State.search_of_no_candidate {s : State} (h : ∀ S, ¬ s.candidate S) : s.search = (none, s) := by
  have hturns : s.hand + Fin.ofNat 64 128 = s.hand := add_zero s.hand
  calc s.search = (none, { s with hand := s.hand + Fin.ofNat 64 128 }) := State.inspect_of_no_candidate 128 h
    _ = (none, s) := by rw [hturns]

/-- Settles O58: the inspections by their equations, the search without a victim by the count of the inspections that
a candidate can escape. -/
theorem victimSearchInspectsFromTheHand : Obligations.VictimSearchInspectsFromTheHand := by
  unfold Obligations.VictimSearchInspectsFromTheHand
  refine ⟨fun s => rfl, fun s t hnone => ?_, fun s => rfl, fun s n => ⟨?_, ?_, ?_, ?_⟩⟩
  · have hblocked := State.not_candidate_of_search_none (s := s) (by rw [hnone])
    have hkept : (none, s) = (none, t) := (State.search_of_no_candidate hblocked).symm.trans hnone
    exact ⟨(congrArg Prod.snd hkept).symm, fun S => State.not_candidate_iff.1 (hblocked S)⟩
  · exact State.inspect_of_free n
  · exact State.inspect_of_evictable_unused n
  · exact State.inspect_of_evictable_used n
  · exact fun hfree hev => State.inspect_of_not_candidate n (State.not_candidate_iff.2 ⟨hfree, hev⟩)

end Sys2Proof.Machine

/-! SUPPORT. The ready lists: what a listing and a withdrawal write, the lists that they leave, the comparison of R111,
and the settled statements about listing, withdrawal, NEXT and ARM. -/

namespace Sys2Proof.Machine

/-! ## The links between the flows of a list -/

/-- The next field of a flow, if one is named, is written (R110). -/
def State.linkNext (s : State) (o n : Option FlowId) : State :=
  match o with
  | none => s
  | some g => s.setFlow g { s.flow g with next := n }

/-- The prev field of a flow, if one is named, is written (R110). -/
def State.linkPrev (s : State) (o n : Option FlowId) : State :=
  match o with
  | none => s
  | some g => s.setFlow g { s.flow g with prev := n }

theorem State.flow_linkNext (s : State) (o n : Option FlowId) (g : FlowId) :
    (s.linkNext o n).flow g = { s.flow g with next := if o = some g then n else (s.flow g).next } := by
  cases o with
  | none => simp [State.linkNext]
  | some l =>
    by_cases h : g = l
    · subst h; simp [State.linkNext]
    · simp [State.linkNext, State.flow_setFlow_ne _ _ h, Ne.symm h]

theorem State.flow_linkPrev (s : State) (o n : Option FlowId) (g : FlowId) :
    (s.linkPrev o n).flow g = { s.flow g with prev := if o = some g then n else (s.flow g).prev } := by
  cases o with
  | none => simp [State.linkPrev]
  | some l =>
    by_cases h : g = l
    · subst h; simp [State.linkPrev]
    · simp [State.linkPrev, State.flow_setFlow_ne _ _ h, Ne.symm h]

@[simp] theorem State.units_linkNext (s : State) (o n : Option FlowId) : (s.linkNext o n).units = s.units := by
  cases o <;> rfl
@[simp] theorem State.readyList_linkNext (s : State) (o n : Option FlowId) (q : PortId) (d : ClassId) :
    (s.linkNext o n).readyList q d = s.readyList q d := by cases o <;> rfl
@[simp] theorem State.readyList_linkPrev (s : State) (o n : Option FlowId) (q : PortId) (d : ClassId) :
    (s.linkPrev o n).readyList q d = s.readyList q d := by cases o <;> rfl

/-- A state that differs from another in the flow map and the ready lists alone. -/
def State.InLists (s t : State) : Prop := t = { s with flows := t.flows, lists := t.lists }

theorem State.InLists.trans {s t u : State} (h : s.InLists t) (k : t.InLists u) : s.InLists u := by
  unfold State.InLists at *
  rw [k, h]

theorem State.inLists_linkNext (s : State) (o n : Option FlowId) : s.InLists (s.linkNext o n) := by
  cases o <;> rfl
theorem State.inLists_linkPrev (s : State) (o n : Option FlowId) : s.InLists (s.linkPrev o n) := by
  cases o <;> rfl
theorem State.linkNext_setUnit (s : State) (o n : Option FlowId) (p : PortId) (u : PortUnit) :
    (s.setUnit p u).linkNext o n = (s.linkNext o n).setUnit p u := by cases o <;> rfl
theorem State.linkPrev_setUnit (s : State) (o n : Option FlowId) (p : PortId) (u : PortUnit) :
    (s.setUnit p u).linkPrev o n = (s.linkPrev o n).setUnit p u := by cases o <;> rfl

/-! ## What a listing writes -/

/-- A listing but for the READY that it may raise: the flow is put at the tail of its list (R110). -/
def State.putAtTail (s : State) (f : FlowId) : State :=
  let e := s.flow f
  let l := s.readyList e.consumer e.cls
  ((s.setFlow f { e with prev := l.tail, next := none, listed := true }).linkNext l.tail (some f)).setReadyList
    e.consumer e.cls { head := if l.tail.isNone then some f else l.head, tail := some f, length := l.length + 1 }

theorem State.listFlow_eq (s : State) (f : FlowId) :
    s.listFlow f = if s.listedFlows (s.flow f).consumer = 0 then (s.putAtTail f).listsFilled (s.flow f).consumer
      else s.putAtTail f := rfl

@[simp] theorem State.units_putAtTail (s : State) (f : FlowId) : (s.putAtTail f).units = s.units := by
  simp [State.putAtTail]

@[simp] theorem State.flow_listsFilled (s : State) (p : PortId) (g : FlowId) :
    (s.listsFilled p).flow g = s.flow g := by unfold State.listsFilled; split <;> rfl

@[simp] theorem State.readyList_listsFilled (s : State) (p q : PortId) (d : ClassId) :
    (s.listsFilled p).readyList q d = s.readyList q d := by unfold State.listsFilled; split <;> rfl

theorem State.flow_listFlow_self (s : State) (f : FlowId)
    (h : (s.readyList (s.flow f).consumer (s.flow f).cls).tail ≠ some f) :
    (s.listFlow f).flow f = { s.flow f with
      prev := (s.readyList (s.flow f).consumer (s.flow f).cls).tail, next := none, listed := true } := by
  rw [State.listFlow_eq, apply_ite (State.flow · f), State.flow_listsFilled, ite_self]
  simp [State.putAtTail, State.flow_linkNext, h]

theorem State.flow_listFlow_ne (s : State) {f g : FlowId} (h : g ≠ f) :
    (s.listFlow f).flow g = { s.flow g with
      next := if (s.readyList (s.flow f).consumer (s.flow f).cls).tail = some g then some f
        else (s.flow g).next } := by
  rw [State.listFlow_eq, apply_ite (State.flow · g), State.flow_listsFilled, ite_self]
  simp [State.putAtTail, State.flow_linkNext, State.flow_setFlow_ne _ _ h]

theorem State.readyList_listFlow_self (s : State) (f : FlowId) :
    (s.listFlow f).readyList (s.flow f).consumer (s.flow f).cls =
      let l := s.readyList (s.flow f).consumer (s.flow f).cls
      { head := if l.tail.isNone then some f else l.head, tail := some f, length := l.length + 1 } := by
  rw [State.listFlow_eq, apply_ite (State.readyList · _ _), State.readyList_listsFilled, ite_self]
  simp [State.putAtTail, State.readyList_setReadyList]

/-- A listing into lists that were all empty raises READY where the flag is yes (R117). -/
theorem State.units_listFlow (s : State) (f : FlowId) :
    (s.listFlow f).units =
      if s.listedFlows (s.flow f).consumer = 0 ∧ (s.unit (s.flow f).consumer).readyArmed = true then
        (s.setUnit (s.flow f).consumer
          (PortUnit.raise .ready { s.unit (s.flow f).consumer with readyArmed := false })).units
      else s.units := by
  have hunit : (s.putAtTail f).unit (s.flow f).consumer = s.unit (s.flow f).consumer := by simp [State.unit]
  rw [State.listFlow_eq]
  unfold State.listsFilled State.raise
  rw [hunit, State.unit_setUnit_self, State.setUnit_setUnit]
  by_cases hempty : s.listedFlows (s.flow f).consumer = 0
  · by_cases harmed : (s.unit (s.flow f).consumer).readyArmed = true
    · simp [hempty, harmed, State.setUnit]
    · simp [hempty, harmed]
  · simp [hempty]

/-! ## What a withdrawal writes -/

theorem State.withdrawFlow_eq (s : State) (f : FlowId) :
    s.withdrawFlow f =
      let e := s.flow f
      let l := s.readyList e.consumer e.cls
      let t := ((s.linkNext e.prev e.next).linkPrev e.next e.prev).setReadyList e.consumer e.cls
        { head := if e.prev.isNone then e.next else l.head, tail := if e.next.isNone then e.prev else l.tail,
          length := l.length - 1 }
      t.setFlow f { t.flow f with prev := none, next := none, listed := false } := rfl

theorem State.flow_withdrawFlow_self (s : State) (f : FlowId) :
    (s.withdrawFlow f).flow f = { s.flow f with prev := none, next := none, listed := false } := by
  simp [State.withdrawFlow_eq, State.flow_linkNext, State.flow_linkPrev]

theorem State.flow_withdrawFlow_ne (s : State) {f g : FlowId} (h : g ≠ f) :
    (s.withdrawFlow f).flow g = { s.flow g with
      next := if (s.flow f).prev = some g then (s.flow f).next else (s.flow g).next
      prev := if (s.flow f).next = some g then (s.flow f).prev else (s.flow g).prev } := by
  simp [State.withdrawFlow_eq, State.flow_linkNext, State.flow_linkPrev, State.flow_setFlow_ne _ _ h]

theorem State.readyList_withdrawFlow (s : State) (f : FlowId) (q : PortId) (d : ClassId) :
    (s.withdrawFlow f).readyList q d =
      if q = (s.flow f).consumer ∧ d = (s.flow f).cls then
        { head := if (s.flow f).prev.isNone then (s.flow f).next else (s.readyList q d).head
          tail := if (s.flow f).next.isNone then (s.flow f).prev else (s.readyList q d).tail
          length := (s.readyList q d).length - 1 }
      else s.readyList q d := by
  simp only [State.withdrawFlow_eq, State.readyList_setFlow, State.readyList_setReadyList,
    State.readyList_linkPrev, State.readyList_linkNext]
  split
  · next h => rw [h.1, h.2]
  · rfl

theorem State.inLists_withdrawFlow (s : State) (f : FlowId) : s.InLists (s.withdrawFlow f) :=
  ((s.inLists_linkNext _ _).trans (State.inLists_linkPrev _ _ _)).trans rfl

@[simp] theorem State.units_withdrawFlow (s : State) (f : FlowId) : (s.withdrawFlow f).units = s.units := by
  rw [s.inLists_withdrawFlow f]

/-- A withdrawal does not read the port units. -/
theorem State.withdrawFlow_setUnit (s : State) (f : FlowId) (p : PortId) (u : PortUnit) :
    (s.setUnit p u).withdrawFlow f = (s.withdrawFlow f).setUnit p u := by
  simp only [State.withdrawFlow_eq, State.flow_setUnit, State.readyList_setUnit, State.linkNext_setUnit,
    State.linkPrev_setUnit]
  rfl

/-! ## The place of a flow in its list -/

/-- A flow stands in a port's list for a class, between two neighbours (R109). -/
def FlowEntry.standsIn (e : FlowEntry) (p : PortId) (c : ClassId) (prev next : Option FlowId) : Prop :=
  e.listed = true ∧ e.consumer = p ∧ e.cls = c ∧ e.prev = prev ∧ e.next = next

/-- A list holds `fs` exactly when it is bounded by them and each of them stands between the flows before and after
it. -/
theorem State.listHolds_iff {s : State} {p : PortId} {c : ClassId} {fs : List FlowId} :
    s.listHolds p c fs ↔ fs.Nodup ∧
      s.readyList p c = { head := fs.head?, tail := fs.getLast?, length := fs.length } ∧
      ∀ before g after, fs = before ++ g :: after →
        (s.flow g).standsIn p c before.getLast? after.head? := by
  unfold State.listHolds
  refine and_congr_right fun _ => and_congr_right fun _ => ⟨fun h before g after hfs => ?_, fun h i hi => ?_⟩
  · subst hfs
    obtain ⟨hlisted, hcons, hcls, hprev, hnext⟩ := h before.length (by simp)
    simp only [List.getElem_append_right (Nat.le_refl _), Nat.sub_self, List.getElem_cons_zero] at *
    refine ⟨hlisted, hcons, hcls, hprev.trans ?_, hnext.trans ?_⟩
    · cases before using List.reverseRecOn <;> simp
    · cases after <;> simp
  · obtain ⟨hlisted, hcons, hcls, hprev, hnext⟩ := h (fs.take i) fs[i] (fs.drop (i + 1)) (by simp)
    refine ⟨hlisted, hcons, hcls, hprev.trans ?_, hnext.trans ?_⟩
    · cases i with
      | zero => simp
      | succ i => simp [List.getLast?_take, Nat.lt_of_succ_lt hi]
    · simp

theorem State.listHolds.mem_standsIn {s : State} {p : PortId} {c : ClassId} {fs : List FlowId} {g : FlowId}
    (h : s.listHolds p c fs) (hg : g ∈ fs) : ∃ prev next, (s.flow g).standsIn p c prev next := by
  obtain ⟨before, after, hfs⟩ := List.append_of_mem hg
  exact ⟨_, _, (State.listHolds_iff.1 h).2.2 before g after hfs⟩

theorem getLast?_eq_some_iff_of_nodup {α : Type} {before after : List α} {g : α}
    (h : (before ++ g :: after).Nodup) : (before ++ g :: after).getLast? = some g ↔ after = [] := by
  cases after using List.reverseRecOn with
  | nil => simp
  | append_singleton after z =>
    have hz : z ≠ g := by rintro rfl; simp [List.nodup_append] at h
    rw [← List.cons_append, ← List.append_assoc, List.getLast?_append]
    simp [hz]

theorem head?_eq_some_iff_of_nodup {α : Type} {before after : List α} {g : α}
    (h : (before ++ g :: after).Nodup) : (before ++ g :: after).head? = some g ↔ before = [] := by
  cases before with
  | nil => simp
  | cons a before =>
    have ha : a ≠ g := by rintro rfl; simp at h
    simp [ha]

/-- A place in two lists joined is a place in the one or in the other. -/
theorem append_eq_append_cons_cases {α : Type} {before after b a : List α} {g : α}
    (h : before ++ after = b ++ g :: a) :
    (∃ a', before = b ++ g :: a' ∧ a = a' ++ after) ∨ (∃ b', after = b' ++ g :: a ∧ b = before ++ b') := by
  obtain ⟨b', hb, hafter⟩ | ⟨bs, hbefore, hga⟩ := List.append_eq_append_iff.1 h
  · exact .inr ⟨b', hafter, hb⟩
  · cases bs with
    | nil => exact .inr ⟨[], by simpa using hga.symm, by simpa using hbefore.symm⟩
    | cons x a' =>
      obtain ⟨rfl, ha⟩ := List.cons.inj hga
      exact .inl ⟨a', hbefore, ha⟩

/-! ## The list that a listing or a withdrawal leaves -/

/-- A listing puts the flow at the tail (R110). -/
theorem State.listHolds_listFlow {s : State} {f : FlowId} {fs : List FlowId} (hf : (s.flow f).listed = false)
    (h : s.listHolds (s.flow f).consumer (s.flow f).cls fs) :
    (s.listFlow f).listHolds (s.flow f).consumer (s.flow f).cls (fs ++ [f]) := by
  have hnot : f ∉ fs := by
    intro hmem
    obtain ⟨_, _, hlisted, _⟩ := h.mem_standsIn hmem
    simp [hf] at hlisted
  obtain ⟨hnodup, hlist, hstands⟩ := State.listHolds_iff.1 h
  have htail : (s.readyList (s.flow f).consumer (s.flow f).cls).tail = fs.getLast? := by rw [hlist]
  refine State.listHolds_iff.2 ⟨?_, ?_, fun before g after hfs => ?_⟩
  · simpa using hnodup.concat hnot
  · have hhead : (if fs.getLast?.isNone then some f else fs.head?) = (fs ++ [f]).head? := by cases fs <;> simp
    rw [State.readyList_listFlow_self, hlist]
    simp only [hhead, List.getLast?_concat, List.length_append, List.length_singleton]
  · obtain rfl | ⟨after, z, rfl⟩ := List.eq_nil_or_concat' after
    · obtain ⟨rfl, hg⟩ := List.append_inj' hfs rfl
      obtain rfl : f = g := by simpa using hg
      rw [State.flow_listFlow_self _ _ (by rw [htail]; exact fun e => hnot (List.mem_of_getLast? e)), htail]
      exact ⟨rfl, rfl, rfl, rfl, rfl⟩
    · have hsplit : fs ++ [f] = (before ++ g :: after) ++ [z] := by rw [hfs]; simp
      obtain ⟨rfl, hz⟩ := List.append_inj' hsplit rfl
      obtain rfl : f = z := by simpa using hz
      obtain ⟨hlisted, hcons, hcls, hprev, hnext⟩ := hstands before g after rfl
      rw [State.flow_listFlow_ne _ (fun e => hnot (by simp [e])), htail]
      refine ⟨hlisted, hcons, hcls, hprev, ?_⟩
      simp only [getLast?_eq_some_iff_of_nodup hnodup, hnext]
      cases after <;> simp

/-- A withdrawal takes the flow from where it stands, and the others keep their order (R110). -/
theorem State.listHolds_withdrawFlow {s : State} {p : PortId} {c : ClassId} {f : FlowId} {before after : List FlowId}
    (h : s.listHolds p c (before ++ f :: after)) : (s.withdrawFlow f).listHolds p c (before ++ after) := by
  obtain ⟨hnodup, hlist, hstands⟩ := State.listHolds_iff.1 h
  obtain ⟨_, rfl, rfl, hprevF, hnextF⟩ := hstands before f after rfl
  obtain ⟨hfresh, hrest⟩ := List.nodup_middle.1 hnodup |> List.nodup_cons.1
  obtain ⟨hbefore, hafter, hdisjoint⟩ := List.nodup_append.1 hrest
  refine State.listHolds_iff.2 ⟨hrest, ?_, fun b g a hsplit => ?_⟩
  · rw [State.readyList_withdrawFlow, if_pos ⟨rfl, rfl⟩, hprevF, hnextF, hlist]
    cases before using List.reverseRecOn <;> cases after <;> simp
  · have hg : g ≠ f := by rintro rfl; exact hfresh (by simp [hsplit])
    rw [State.flow_withdrawFlow_ne _ hg, hprevF, hnextF]
    obtain ⟨a', rfl, rfl⟩ | ⟨b', rfl, rfl⟩ := append_eq_append_cons_cases hsplit
    · obtain ⟨hlisted, hcons, hcls, hprev, hnext⟩ := hstands b g (a' ++ f :: after) (by simp)
      have hnear : after.head? ≠ some g := fun e => hdisjoint g (by simp) g (List.mem_of_mem_head? e) rfl
      refine ⟨hlisted, hcons, hcls, by simp [hnear, hprev], ?_⟩
      simp only [getLast?_eq_some_iff_of_nodup hbefore, hnext]
      cases a' <;> simp
    · obtain ⟨hlisted, hcons, hcls, hprev, hnext⟩ := hstands (before ++ f :: b') g a (by simp)
      have hnear : before.getLast? ≠ some g := fun e => hdisjoint g (List.mem_of_getLast? e) g (by simp) rfl
      refine ⟨hlisted, hcons, hcls, ?_, by simp [hnear, hnext]⟩
      simp only [head?_eq_some_iff_of_nodup hafter, hprev]
      cases b' using List.reverseRecOn <;> simp [List.getLast?_append, List.getLast?_cons]

/-! ## The comparison of R111 -/

theorem State.relist_of_due {s : State} {f : FlowId} (hready : (s.flow f).ready = true)
    (hdisp : (s.flow f).dispatched = false) :
    s.relist f = if (s.flow f).listed then s else s.listFlow f := by
  simp [State.relist, hready, hdisp]

theorem State.relist_of_notDue {s : State} {f : FlowId}
    (h : (s.flow f).ready = false ∨ (s.flow f).dispatched = true) :
    s.relist f = if (s.flow f).listed then s.withdrawFlow f else s := by
  obtain h | h := h <;> simp [State.relist, h]

/-- Settles O60: the rows of the table by the two sides of the comparison, the lists by what a listing and a withdrawal
write at each place, READY by the units after a listing. -/
theorem listsFollowTheTable : Obligations.ListsFollowTheTable := by
  unfold Obligations.ListsFollowTheTable
  refine ⟨fun s f => ⟨?_, ?_, ?_, ?_, ?_, ?_⟩, fun s f fs => State.listHolds_listFlow,
    fun s p c f before after h => ?_, fun s f => ⟨fun hempty harmed => ?_, fun h => ?_, s.units_withdrawFlow f⟩⟩
  · intro hready hdisp hlisted
    simp [State.relist_of_due hready hdisp, hlisted]
  · intro hready hdisp hlisted
    simp [State.relist_of_due hready hdisp, hlisted]
  · intro _ hdisp hlisted
    simp [State.relist_of_notDue (.inr hdisp), hlisted]
  · intro hready hlisted
    simp [State.relist_of_notDue (.inl hready), hlisted]
  · intro hready hlisted
    simp [State.relist_of_notDue (.inl hready), hlisted]
  · intro hdisp hlisted
    simp [State.relist_of_notDue (.inr hdisp), hlisted]
  · refine ⟨State.listHolds_withdrawFlow h, ?_⟩
    rw [State.flow_withdrawFlow_self]
    exact ⟨rfl, rfl, rfl⟩
  · rw [State.units_listFlow, if_pos ⟨hempty, harmed⟩]
  · rw [State.units_listFlow, if_neg]
    rintro ⟨hempty, harmed⟩
    obtain hsome | hunarmed := h
    · omega
    · simp [harmed] at hunarmed

/-! ## NEXT (R113) -/

/-- The head of a list is handed over: it is dispatched, and so withdrawn (R111, R113). -/
def State.pop (s : State) (f : FlowId) : State :=
  (s.setFlow f { s.flow f with dispatched := true }).withdrawFlow f

theorem State.relist_dispatched {s : State} {f : FlowId} (h : (s.flow f).listed = true) :
    (s.setFlow f { s.flow f with dispatched := true }).relist f = s.pop f := by
  simp [State.relist_of_notDue, h, State.pop]

/-- Where a flow stands in a list does not rest on its dispatched field. -/
theorem State.listHolds_setDispatched {s : State} {p : PortId} {c : ClassId} {fs : List FlowId} (f : FlowId) (b : Bool)
    (h : s.listHolds p c fs) : (s.setFlow f { s.flow f with dispatched := b }).listHolds p c fs := by
  obtain ⟨hnodup, hlist, hstands⟩ := State.listHolds_iff.1 h
  refine State.listHolds_iff.2 ⟨hnodup, hlist, fun before g after hfs => ?_⟩
  rw [State.flow_setFlow]
  split
  · next e => subst e; exact hstands before g after hfs
  · exact hstands before g after hfs

theorem State.listHolds_pop {s : State} {p : PortId} {c : ClassId} {f : FlowId} {fs : List FlowId}
    (h : s.listHolds p c (f :: fs)) : (s.pop f).listHolds p c fs :=
  State.listHolds_withdrawFlow (before := []) (State.listHolds_setDispatched f true h)

theorem State.flow_pop_self (s : State) (f : FlowId) : (s.pop f).flow f =
    { s.flow f with dispatched := true, listed := false, prev := none, next := none } := by
  simp [State.pop, State.flow_withdrawFlow_self]

theorem State.flow_pop_ne (s : State) {f g : FlowId} (hprev : (s.flow f).prev = none) (hg : g ≠ f) :
    (s.pop f).flow g = { s.flow g with prev := ((s.pop f).flow g).prev } := by
  simp [State.pop, State.flow_withdrawFlow_ne _ hg, State.flow_setFlow_ne _ _ hg, hprev]

theorem State.readyList_pop_ne (s : State) (f : FlowId) {q : PortId} {d : ClassId}
    (h : (q, d) ≠ ((s.flow f).consumer, (s.flow f).cls)) : (s.pop f).readyList q d = s.readyList q d := by
  unfold State.pop
  rw [State.readyList_withdrawFlow, if_neg]
  · rfl
  · simpa using h

theorem State.inLists_pop (s : State) (f : FlowId) : s.InLists (s.pop f) :=
  State.InLists.trans (t := s.setFlow f _) rfl (State.inLists_withdrawFlow _ f)

theorem State.unit_pop (s : State) (f : FlowId) (p : PortId) : (s.pop f).unit p = s.unit p := by
  rw [s.inLists_pop f]; rfl

theorem State.pop_takenIn (s : State) (f : FlowId) (p : PortId) (rest : List Message) (t : TagId) (r : Request)
    (ph : Phase) : (s.takenIn p rest t r ph).pop f = (s.pop f).takenIn p rest t r ph := by
  unfold State.takenIn
  rw [State.unit_pop]
  exact State.withdrawFlow_setUnit (s.setFlow f { s.flow f with dispatched := true }) f p _

theorem State.quiet_pop (s : State) (f : FlowId) : (s.pop f).quiet = s.quiet := by
  rw [s.inLists_pop f]; rfl

theorem State.flow_granted (s : State) (p : PortId) (rest : List Message) (t : TagId) (body : BitVec 64) (res : Result)
    (g : FlowId) : (s.granted p rest t body res).flow g = s.flow g := rfl

theorem State.readyList_granted (s : State) (p : PortId) (rest : List Message) (t : TagId) (body : BitVec 64)
    (res : Result) (q : PortId) (d : ClassId) : (s.granted p rest t body res).readyList q d = s.readyList q d := rfl

theorem State.listHolds_granted {s : State} {p q : PortId} {rest : List Message} {t : TagId} {body : BitVec 64}
    {res : Result} {d : ClassId} {fs : List FlowId} :
    (s.granted p rest t body res).listHolds q d fs ↔ s.listHolds q d fs := Iff.rfl

theorem State.granted_pop_frame (s : State) (f : FlowId) (p : PortId) (rest : List Message) (t : TagId)
    (body : BitVec 64) (res : Result) :
    (s.pop f).granted p rest t body res =
      { s with flows := (s.pop f).flows, lists := (s.pop f).lists, units := (s.granted p rest t body res).units } := by
  rw [s.inLists_pop f]; rfl

theorem State.nextListed_of_empty {s : State} {p : PortId} (h : ∀ c, (s.readyList p c).head = none) :
    s.nextListed p = none := by
  simp [State.nextListed, h]

theorem State.nextListed_of_first {s : State} {p : PortId} {c : ClassId} {f : FlowId}
    (hbefore : ∀ b, b < c → (s.readyList p b).head = none) (hhead : (s.readyList p c).head = some f) :
    s.nextListed p = some (c, f) := by
  unfold State.nextListed allClasses
  match c with
  | 0 => simp [hhead]
  | 1 => simp [hhead, hbefore 0]
  | 2 => simp [hhead, hbefore 0, hbefore 1]
  | 3 => simp [hhead, hbefore 0, hbefore 1, hbefore 2]

theorem State.nextListed_takenIn (s : State) (p q : PortId) (rest : List Message) (t : TagId) (r : Request)
    (ph : Phase) : (s.takenIn p rest t r ph).nextListed q = s.nextListed q := rfl

theorem State.nextGo_of_none {s : State} {p : PortId} {t : TagId} (h : s.nextListed p = none) :
    s.nextGo p t = (s.respond p t .empty .none).setUnit p
      { (s.respond p t .empty .none).unit p with readyArmed := true } := by
  unfold State.nextGo
  rw [h]

theorem State.nextGo_of_some {s : State} {p : PortId} {t : TagId} {c : ClassId} {f : FlowId}
    (h : s.nextListed p = some (c, f)) (hlisted : (s.flow f).listed = true) :
    s.nextGo p t = (s.pop f).respond p t .ok (.next f c) := by
  unfold State.nextGo
  rw [h, ← State.relist_dispatched hlisted]

/-- A port whose assembly record is ADMITTING takes no message in (R70). -/
theorem State.nextMessage_of_admitting {s : State} {p : PortId} (h : (s.asm p).state = .admitting) :
    s.nextMessage p = none := by
  simp [State.nextMessage, h]

theorem exec_nextReq (p : PortId) (s : State) : exec (.nextReq p) s = s.takeIn p .next (fun s t _ => s.nextGo p t) :=
  rfl

theorem exec_nextReq_of_empty {s : State} {p : PortId} {t : TagId} {body : BitVec 64} {rest : List Message}
    (hquiet : s.quiet = true) (htakes : s.takesRequest p t body rest .next)
    (hempty : ∀ c, (s.readyList p c).head = none) :
    exec (.nextReq p) s = .next (s.setUnit p
      { (s.refused p rest t body .empty).unit p with readyArmed := true }) := by
  have ⟨_, hkind, _, hcurrent, _⟩ := htakes
  have hrefusal : refusal (Request.ofBody body).kind t .empty = .response t .empty .none .final := by rw [hkind]; rfl
  have hgo : (s.takenIn p rest t (Request.ofBody body) .taken).nextGo p t =
      s.setUnit p { (s.refused p rest t body .empty).unit p with readyArmed := true } := by
    rw [State.nextGo_of_none (by rw [State.nextListed_takenIn, State.nextListed_of_empty hempty]),
      State.respond_takenIn _ _ _ hcurrent]
    unfold State.refused
    rw [hrefusal]
    simp [State.takenAndPlaced]
  rw [exec_nextReq, State.takeIn_request htakes (by decide), hgo, State.finish_of_quiet]
  rw [← hquiet]
  refine State.quiet_congr rfl rfl rfl (State.sameQuiet_setUnit ?_)
  unfold State.refused State.takenAndPlaced
  rw [State.unit_setUnit_self]
  exact PortUnit.SameQuiet.trans ⟨rfl, rfl, rfl⟩ (PortUnit.sameQuiet_place _ (refusal_notBeat _ _) _)

theorem exec_nextReq_of_first {s : State} {p : PortId} {t : TagId} {body : BitVec 64} {rest : List Message}
    {c : ClassId} {f : FlowId} (hquiet : s.quiet = true) (htakes : s.takesRequest p t body rest .next)
    (hfirst : s.nextListed p = some (c, f)) (hlisted : (s.flow f).listed = true) :
    exec (.nextReq p) s = .next ((s.pop f).granted p rest t body (.next f c)) := by
  have ⟨_, _, _, hcurrent, _⟩ := htakes
  have hgo : (s.takenIn p rest t (Request.ofBody body) .taken).nextGo p t =
      (s.pop f).granted p rest t body (.next f c) := by
    rw [State.nextGo_of_some (by rw [State.nextListed_takenIn, hfirst]) (by exact hlisted), State.pop_takenIn,
      State.respond_takenIn _ _ _ (by rw [State.unit_pop]; exact hcurrent)]
    rfl
  rw [exec_nextReq, State.takeIn_request htakes (by decide), hgo]
  unfold State.granted
  rw [State.finish_takenAndPlaced (by rw [State.quiet_pop, hquiet]) _ (.response ..) trivial]

/-- Settles O40: the first list that is not empty is found by its head, and its pop is a withdrawal from the head. -/
theorem nextPopsTheFirstList : Obligations.NextPopsTheFirstList := by
  unfold Obligations.NextPopsTheFirstList
  refine ⟨fun s p hadmitting => ?_, fun s p t body rest hquiet htakes =>
    ⟨exec_nextReq_of_empty hquiet htakes, fun c f fs hbefore hholds => ?_⟩⟩
  · rw [exec_nextReq]
    unfold State.takeIn
    rw [State.nextMessage_of_admitting hadmitting]
  · obtain ⟨-, hlist, hstands⟩ := State.listHolds_iff.1 hholds
    obtain ⟨hlisted, rfl, rfl, hprev, -⟩ := hstands [] f fs rfl
    have hfirst := State.nextListed_of_first hbefore (f := f) (by rw [hlist]; rfl)
    refine ⟨_, exec_nextReq_of_first hquiet htakes hfirst hlisted, ?_, ?_, fun g hg => ?_, fun q d hqd => ?_,
      s.granted_pop_frame f _ _ _ _ _⟩
    · exact State.listHolds_granted.2 (State.listHolds_pop hholds)
    · rw [State.flow_granted, State.flow_pop_self]
    · rw [State.flow_granted]
      exact s.flow_pop_ne hprev hg
    · rw [State.readyList_granted, State.readyList_pop_ne s f hqd]

/-! ## ARM (R118) -/

theorem exec_arm (p : PortId) (s : State) : exec (.arm p) s = execArm p s := rfl

theorem exec_arm_of_takesIn {s : State} {p : PortId} {rest : List Message} (h : s.takesIn p .arm rest) :
    exec (.arm p) s = .next ((s.setUnit p ((s.unit p).afterTakeIn rest)).armReady p) := by
  rw [exec_arm]
  unfold execArm
  rw [State.nextMessage_of_takesIn h, State.popInbound_of_takesIn h]

/-- Settles O28: ARM is the arming of R117 in the state that the take-in leaves. -/
theorem armRaisesReadyOrArms : Obligations.ArmRaisesReadyOrArms := by
  unfold Obligations.ArmRaisesReadyOrArms
  refine fun s p => ⟨fun hadmitting => ?_, fun rest htakes => ⟨fun hlisted => ?_, fun hnone => ?_⟩⟩
  · rw [exec_arm]
    unfold execArm
    rw [State.nextMessage_of_admitting hadmitting]
  · have hstill : 0 < (s.setUnit p ((s.unit p).afterTakeIn rest)).listedFlows p := hlisted
    rw [exec_arm_of_takesIn htakes]
    simp [State.armReady, hstill, State.raise]
  · have hstill : (s.setUnit p ((s.unit p).afterTakeIn rest)).listedFlows p = 0 := hnone
    rw [exec_arm_of_takesIn htakes]
    simp [State.armReady, hstill]

end Sys2Proof.Machine

/-! SUPPORT. The services at a slot: who holds a flow, what a request meets at the slot that serves its flow, the
service of PIN, and its settled statement. -/

namespace Sys2Proof.Machine

/-! ## The holder, and the slot that serves a flow -/

theorem State.holder_isSome_iff (s : State) (f : FlowId) :
    (s.holder f).isSome = true ↔ ∃ q, (s.hold q).state ≠ .empty ∧ (s.hold q).flow = f := by
  have hports (q : PortId) : q ∈ allPorts := by fin_cases q <;> simp [allPorts]
  simp [State.holder, List.find?_isSome, hports]

theorem State.servingSlot_eq_some_iff {s : State} {f : FlowId} {S : SlotId} : s.servingSlot f = some S ↔
    (s.flow f).residency = some S ∧ (s.slot S).state = .resident ∧ (s.slot S).flow = some f := by
  unfold State.servingSlot
  cases hres : (s.flow f).residency with
  | none => simp
  | some T =>
    simp only [State.residentWith, Bool.and_eq_true, decide_eq_true_eq, Option.ite_none_right_eq_some,
      Option.some.injEq]
    exact ⟨fun ⟨hT, e⟩ => e ▸ ⟨rfl, hT⟩, fun ⟨e, hT⟩ => e ▸ ⟨e ▸ hT, rfl⟩⟩

/-- The slot that serves a flow is counted when it has pins or some port's record names the flow (R47). -/
theorem State.counted_iff_of_serving {s : State} {f : FlowId} {S : SlotId} (h : s.servingSlot f = some S) :
    s.counted S = true ↔ 0 < (s.slot S).pins ∨ ∃ q, (s.hold q).state ≠ .empty ∧ (s.hold q).flow = f := by
  obtain ⟨-, -, hflow⟩ := State.servingSlot_eq_some_iff.1 h
  simp only [State.counted, State.slotHeld, hflow, Bool.or_eq_true, decide_eq_true_eq, State.holder_isSome_iff]

/-- Counted is what keeps a slot from being evictable by its pins or its hold (R47). -/
theorem State.evictable_of_counted {s : State} {S : SlotId} (h : s.counted S = true) : s.evictable S = false := by
  simp only [State.counted, Bool.or_eq_true, decide_eq_true_eq] at h
  obtain hpins | hheld := h
  · have hne : (s.slot S).pins ≠ 0 := by omega
    simp [State.evictable, hne]
  · simp [State.evictable, hheld]

/-! ## A request that meets the slot that serves its flow (R48) -/

section
variable {s : State} {p : PortId} {t : TagId} {body : BitVec 64} {rest : List Message} {r : Request} {S : SlotId}

@[simp] theorem State.flow_takenIn (ph : Phase) (f : FlowId) : (s.takenIn p rest t r ph).flow f = s.flow f := rfl
@[simp] theorem State.slot_takenIn (ph : Phase) (T : SlotId) : (s.takenIn p rest t r ph).slot T = s.slot T := rfl
@[simp] theorem State.counted_takenIn (ph : Phase) (T : SlotId) :
    (s.takenIn p rest t r ph).counted T = s.counted T := rfl

theorem State.setSlot_takenIn (ph : Phase) (v : Slot) :
    (s.takenIn p rest t r ph).setSlot S v = (s.setSlot S v).takenIn p rest t r ph := rfl

theorem State.setCount_takenIn (ph : Phase) (n : Nat) :
    ({ s.takenIn p rest t r ph with pinnedOrHeld := n } : State) =
      ({ s with pinnedOrHeld := n } : State).takenIn p rest t r ph := rfl

theorem State.setPhase_takenIn (ph ph' : Phase) :
    (s.takenIn p rest t r ph).setPhase p t ph' = s.takenIn p rest t r ph' := by
  unfold State.setPhase
  rw [State.tagRec_takenIn]
  simp [State.takenIn, State.setTagRec, PortUnit.setTag, TagRecord.using]

theorem State.flowRefusal_eq_none {f : FlowId} (hopen : (s.flow f).state ≠ .closed)
    (hhalt : (s.flow f).halt ≠ some .ctxErr) : s.flowRefusal f = none := by
  simp [State.flowRefusal, FlowEntry.lost, hopen, hhalt]

/-- A request just taken in reaches the service at its flow's slot (R10, R22, R48). -/
theorem State.arrive_takenIn (ph : Phase) (hopen : (s.flow r.flow).state ≠ .closed)
    (hhalt : (s.flow r.flow).halt ≠ some .ctxErr) (hS : s.servingSlot r.flow = some S) :
    (s.takenIn p rest t r ph).arrive (.request p t) = (s.takenIn p rest t r ph).serveRequest S p t := by
  obtain ⟨hres, hstate, -⟩ := State.servingSlot_eq_some_iff.1 hS
  have hflow : (s.takenIn p rest t r ph).reqFlow (.request p t) = r.flow := by
    simp [State.reqFlow, TagRecord.using]
  have hmet : (s.takenIn p rest t r ph).metStatus (.request p t) = none := by
    simp [State.metStatus, hflow, FlowEntry.lost, hopen, hhalt]
  have hlink : (s.takenIn p rest t r ph).isLink (.request p t) = false := by
    simp [State.isLink, TagRecord.using]
  simp [State.arrive, hmet, hflow, hres, hstate, State.serveAny, hlink, State.serve]

/-- The start of a service marks the slot used and the request in service (R46, R142). -/
theorem State.startService_takenIn (ph : Phase) :
    (s.takenIn p rest t r ph).startService S p t = (s.used S).takenIn p rest t r .inService := by
  unfold State.startService
  rw [State.setSlot_takenIn, State.setPhase_takenIn, State.slot_takenIn]
  rfl

theorem State.slot_used (s : State) (S : SlotId) : (s.used S).slot S = { s.slot S with ref := true } :=
  State.slot_setSlot_self _ _ _

/-- What counts a slot does not rest on its ref (R47). -/
theorem State.counted_used (s : State) (S : SlotId) : (s.used S).counted S = s.counted S := by
  have hholder (f : FlowId) : (s.used S).holder f = s.holder f := rfl
  simp only [State.counted, State.slotHeld, State.slot_used, hholder]

/-- What a service writes to its slot takes the place of the mark. -/
theorem State.setSlot_used (s : State) (S : SlotId) (v : Slot) : (s.used S).setSlot S v = s.setSlot S v :=
  State.setSlot_setSlot _ _ _ _

theorem State.setSlot_setCount_used (s : State) (S : SlotId) (n : Nat) (v : Slot) :
    ({ s.used S with pinnedOrHeld := n } : State).setSlot S v = ({ s with pinnedOrHeld := n } : State).setSlot S v :=
  State.setSlot_used { s with pinnedOrHeld := n } S v

/-- Slots are no part of a state's quiet. -/
@[simp] theorem State.quiet_setSlot (s : State) (S : SlotId) (v : Slot) : (s.setSlot S v).quiet = s.quiet :=
  State.quiet_congr rfl rfl rfl (fun _ => .refl _)

/-- The pinned-or-held count is no part of a state's quiet. -/
theorem State.quiet_setCount (s : State) (n : Nat) :
    ({ s with pinnedOrHeld := n } : State).quiet = s.quiet :=
  State.quiet_congr rfl rfl rfl (fun _ => .refl _)

/-- The end of an event that has answered a request OK and left nothing due. -/
theorem State.finish_respond_ok (ph : Phase) (res : Result) (hquiet : s.quiet = true)
    (hcurrent : (s.unit p).current ≠ some t) :
    ((s.takenIn p rest t (Request.ofBody body) ph).respond p t .ok res).finish = s.granted p rest t body res := by
  rw [State.respond_takenIn _ _ _ hcurrent, State.finish_takenAndPlaced hquiet _ (.response ..) trivial]
  rfl

/-- The end of an event that has refused a request by a RESPONSE and left nothing due. -/
theorem State.finish_respond_refused (ph : Phase) (st : Status) (hquiet : s.quiet = true)
    (hcurrent : (s.unit p).current ≠ some t)
    (hanswer : refusal (Request.ofBody body).kind t st = .response t st .none .final) :
    ((s.takenIn p rest t (Request.ofBody body) ph).respond p t st .none).finish = s.refused p rest t body st := by
  rw [State.respond_takenIn _ _ _ hcurrent, State.finish_takenAndPlaced hquiet _ (.response ..) trivial]
  unfold State.refused
  rw [hanswer]

end

/-! ## The service of PIN (R133) -/

section
variable {s : State} {S : SlotId} {p : PortId} {t : TagId}

theorem State.servePinHere_of_max (h : 255 ≤ (s.slot S).pins) :
    s.servePinHere S p t = s.respond p t .badArg .none := by
  simp [State.servePinHere, h]

theorem State.pins_eq_zero_of_uncounted (h : s.counted S = false) : (s.slot S).pins = 0 := by
  simp only [State.counted, Bool.or_eq_false_iff, decide_eq_false_iff_not] at h
  omega

theorem State.servePinHere_of_noRoom (h : s.counted S = false) (hfull : 48 ≤ s.pinnedOrHeld) :
    s.servePinHere S p t = s.respond p t .pinFull .none := by
  have hheld : s.slotHeld S = false := ((Bool.or_eq_false_iff).1 h).2
  simp [State.servePinHere, State.pins_eq_zero_of_uncounted h, hheld, hfull]

theorem State.servePinHere_of_uncounted (h : s.counted S = false) (hroom : s.pinnedOrHeld < 48) :
    s.servePinHere S p t = (({ s with pinnedOrHeld := s.pinnedOrHeld + 1 } : State).setSlot S
      { s.slot S with pins := 1 }).respond p t .ok (.pins 1) := by
  have hfull : ¬ 48 ≤ s.pinnedOrHeld := by omega
  simp [State.servePinHere, State.pins_eq_zero_of_uncounted h, h, hfull]

theorem State.servePinHere_of_counted (h : s.counted S = true) (hmax : (s.slot S).pins < 255) :
    s.servePinHere S p t = (s.setSlot S { s.slot S with pins := (s.slot S).pins + 1 }).respond p t .ok
      (.pins ((s.slot S).pins + 1)) := by
  have hcan : ¬ ((s.slot S).pins = 0 ∧ !s.slotHeld S ∧ 48 ≤ s.pinnedOrHeld) := by
    rintro ⟨hpins, hheld, -⟩
    simp_all [State.counted]
  simp only [State.servePinHere, if_neg (Nat.not_le.2 hmax), if_neg hcan, h, if_true]

end

section
variable {s : State} {p : PortId} {t : TagId} {body : BitVec 64} {rest : List Message} {S : SlotId}

theorem exec_pinReq (p : PortId) (s : State) : exec (.pinReq p) s =
    s.takeIn p .pin (fun s t r => s.checked p t (s.pinRefusal p r) (fun s => s.arrive (.request p t))) := rfl

theorem State.pinRefusal_eq_none {r : Request} (hadmin : s.config.adminRole[p] = true)
    (hopen : (s.flow r.flow).state ≠ .closed) (hhalt : (s.flow r.flow).halt ≠ some .ctxErr) :
    s.pinRefusal p r = none := by
  simp [State.pinRefusal, hadmin, State.flowRefusal_eq_none hopen hhalt]

section
variable (hquiet : s.quiet = true) (htakes : s.takesRequest p t body rest .pin) (hadmin : s.config.adminRole[p] = true)
  (hopen : (s.flow (Request.ofBody body).flow).state ≠ .closed)
  (hhalt : (s.flow (Request.ofBody body).flow).halt ≠ some .ctxErr)
  (hS : s.servingSlot (Request.ofBody body).flow = some S)

include htakes hadmin hopen hhalt hS

/-- A PIN past its take-in checks (R132) is served at the slot of its flow. -/
theorem exec_pinReq_of_serving : exec (.pinReq p) s =
    .next (((s.used S).takenIn p rest t (Request.ofBody body) .inService).servePinHere S p t).finish := by
  have ⟨_, hkind, _⟩ := htakes
  have hpass : (s.takenIn p rest t (Request.ofBody body) .taken).pinRefusal p (Request.ofBody body) = none :=
    State.pinRefusal_eq_none hadmin hopen hhalt
  rw [exec_pinReq, State.takeIn_request htakes (by decide), hpass]
  simp only [State.checked, State.arrive_takenIn _ hopen hhalt hS, State.serveRequest, State.tagRec_takenIn,
    TagRecord.using, hkind, State.startService_takenIn]

/-- A PIN whose service writes slots and the count alone, and answers OK. -/
theorem exec_pinReq_of_granted {u : State} {res : Result} (hu : u.quiet = true) (hunits : u.units = s.units)
    (h : ((s.used S).takenIn p rest t (Request.ofBody body) .inService).servePinHere S p t =
      (u.takenIn p rest t (Request.ofBody body) .inService).respond p t .ok res) :
    exec (.pinReq p) s = .next (u.granted p rest t body res) := by
  have ⟨_, _, _, hcurrent, _⟩ := htakes
  have hcurrent' : (u.unit p).current ≠ some t := by rwa [State.unit, hunits]
  rw [exec_pinReq_of_serving htakes hadmin hopen hhalt hS, h, State.finish_respond_ok _ _ hu hcurrent']

include hquiet

/-- A PIN whose service refuses it leaves the mark on the slot and no more. -/
theorem exec_pinReq_of_refused {st : Status}
    (h : ((s.used S).takenIn p rest t (Request.ofBody body) .inService).servePinHere S p t =
      ((s.used S).takenIn p rest t (Request.ofBody body) .inService).respond p t st .none) :
    exec (.pinReq p) s = .next ((s.used S).refused p rest t body st) := by
  have ⟨_, hkind, _, hcurrent, _⟩ := htakes
  have hused : (s.used S).quiet = true := (s.quiet_setSlot S _).trans hquiet
  rw [exec_pinReq_of_serving htakes hadmin hopen hhalt hS, h,
    State.finish_respond_refused _ _ hused hcurrent (by rw [hkind]; rfl)]

theorem exec_pinReq_of_uncounted (h : s.counted S = false) (hroom : s.pinnedOrHeld < 48) :
    exec (.pinReq p) s = .next (({ s with pinnedOrHeld := s.pinnedOrHeld + 1 }.setSlot S
      { s.slot S with ref := true, pins := 1 }).granted p rest t body (.pins 1)) := by
  refine exec_pinReq_of_granted htakes hadmin hopen hhalt hS (by rwa [State.quiet_setSlot, State.quiet_setCount]) rfl ?_
  rw [State.servePinHere_of_uncounted]
  · rw [State.slot_takenIn, State.slot_used, State.setCount_takenIn, State.setSlot_takenIn,
      State.setSlot_setCount_used]
    rfl
  · rw [State.counted_takenIn, State.counted_used, h]
  · exact hroom

theorem exec_pinReq_of_counted (h : s.counted S = true) (hmax : (s.slot S).pins < 255) :
    exec (.pinReq p) s = .next ((s.setSlot S { s.slot S with ref := true, pins := (s.slot S).pins + 1 }).granted p rest
      t body (.pins ((s.slot S).pins + 1))) := by
  refine exec_pinReq_of_granted htakes hadmin hopen hhalt hS (by rwa [State.quiet_setSlot]) rfl ?_
  rw [State.servePinHere_of_counted]
  · rw [State.slot_takenIn, State.slot_used, State.setSlot_takenIn, State.setSlot_used]
  · rw [State.counted_takenIn, State.counted_used, h]
  · rwa [State.slot_takenIn, State.slot_used]

end

end

/-- Settles O43: the rows of the table by whether the slot is at its most pins, is counted, or finds room in the
count. -/
theorem pinCountsAtTheSlot : Obligations.PinCountsAtTheSlot := by
  unfold Obligations.PinCountsAtTheSlot
  intro s p t body rest hquiet htakes hadmin f hopen hhalt S hS v isHeld
  have hcounted : s.counted S = true ↔ 0 < v.pins ∨ isHeld := State.counted_iff_of_serving hS
  have huncounted (hpins : v.pins = 0) (hfree : ¬ isHeld) : s.counted S = false := by
    rw [Bool.eq_false_iff, Ne, hcounted, not_or]
    exact ⟨by omega, hfree⟩
  refine ⟨fun hmax => ?_, fun hpins hfree hfull => ?_, fun hpins hfree => ?_, fun hpins hheld => ?_,
    fun hlow hhigh => ?_, fun hlow => State.evictable_of_counted (hcounted.2 (.inl hlow))⟩
  · refine exec_pinReq_of_refused hquiet htakes hadmin hopen hhalt hS (State.servePinHere_of_max ?_)
    rwa [State.slot_takenIn, State.slot_used]
  · refine exec_pinReq_of_refused hquiet htakes hadmin hopen hhalt hS (State.servePinHere_of_noRoom ?_ hfull)
    rw [State.counted_takenIn, State.counted_used, huncounted hpins hfree]
  · exact exec_pinReq_of_uncounted hquiet htakes hadmin hopen hhalt hS (huncounted hpins hfree)
  · have hmax : v.pins < 255 := by omega
    simpa only [v, hpins] using
      exec_pinReq_of_counted hquiet htakes hadmin hopen hhalt hS (hcounted.2 (.inr hheld)) hmax
  · have hmax : v.pins < 255 := by omega
    exact exec_pinReq_of_counted hquiet htakes hadmin hopen hhalt hS (hcounted.2 (.inl hlow)) hmax

end Sys2Proof.Machine

/-! SUPPORT. The transition of a port to UP: a READY raised where no other notice waits, the arming of R117 case by case,
and the settled statement of LINK_UP. -/

namespace Sys2Proof.Machine

/-! ## A READY raised where no other notice waits (R146, R147) -/

section

variable {u : PortUnit} (hpool : u.poolLowWaiting = none) (hqueue : u.noticeQueue = [])

include hpool hqueue

theorem PortUnit.placeOneNotice_of_none_waits (hready : u.readyWaiting = none) : u.placeOneNotice = none := by
  simp only [PortUnit.placeOneNotice, hready, hpool, hqueue]

theorem PortUnit.placeNotices_of_none_waits (n : Nat) (hready : u.readyWaiting = none) : u.placeNotices n = u := by
  cases n with
  | zero => rfl
  | succ n =>
    unfold PortUnit.placeNotices
    rw [PortUnit.placeOneNotice_of_none_waits hpool hqueue hready]
    exact ite_self u

/-- Where READY alone waits and the queue has room, the queue gains the READY and nothing is left to place. -/
theorem PortUnit.noticesPlaced_of_only_ready_waits {kept : Bool} (hready : u.readyWaiting = some kept)
    (hroom : u.outbound.length < 64) : u.noticesPlaced = { u with
      readyWaiting := none, overflow := false, outbound := u.outbound ++ [.notice .ready (kept || u.overflow)] } := by
  have hone : u.placeOneNotice = some { u with
      readyWaiting := none, overflow := false, outbound := u.outbound ++ [.notice .ready (kept || u.overflow)] } := by
    simp only [PortUnit.placeOneNotice, hready]
  unfold PortUnit.noticesPlaced PortUnit.placeNotices
  rw [if_pos hroom, hone]
  exact PortUnit.placeNotices_of_none_waits (u := { u with readyWaiting := none, overflow := false, outbound := _ })
    hpool hqueue _ rfl

theorem PortUnit.raise_ready_of_none_waits (hup : u.state = .up) (hready : u.readyWaiting = none)
    (hroom : u.outbound.length < 64) : u.raise .ready = { u with
      readyWaiting := none, overflow := false, outbound := u.outbound ++ [.notice .ready u.overflow] } := by
  unfold PortUnit.raise
  rw [if_neg (not_not_intro hup), hready]
  exact PortUnit.noticesPlaced_of_only_ready_waits (u := { u with readyWaiting := some false }) hpool hqueue rfl hroom

end

/-! ## The arming of READY (R117) -/

theorem State.armReady_of_unlisted {s : State} {p : PortId} (h : s.listedFlows p = 0) :
    s.armReady p = s.setUnit p { s.unit p with readyArmed := true } := by
  simp [State.armReady, h]

theorem State.armReady_of_listed {s : State} {p : PortId} (h : 0 < s.listedFlows p) :
    s.armReady p = s.setUnit p (PortUnit.raise .ready { s.unit p with readyArmed := false }) := by
  simp [State.armReady, h, State.raise]

@[simp] theorem State.listedFlows_setUnit (s : State) (p q : PortId) (u : PortUnit) :
    (s.setUnit p u).listedFlows q = s.listedFlows q := rfl

/-! ## LINK_UP (R138) -/

/-- A port unit at its transition to UP, before the arming of its READY (R138). -/
def PortUnit.linkedUp (u : PortUnit) : PortUnit :=
  { u with state := .up, inbound := [], inboundCredits := 32, returning := 32, returnOwed := 0, outboundCredits := 0 }

theorem exec_linkUp (p : PortId) (s : State) : exec (.linkUp p) s = execLinkUp p s := rfl

theorem exec_linkUp_of_not_down {s : State} {p : PortId} (h : (s.unit p).state ≠ .down) :
    exec (.linkUp p) s = .next s := by
  rw [exec_linkUp, execLinkUp, if_neg h]

theorem exec_linkUp_of_down {s : State} {p : PortId} (h : (s.unit p).state = .down) :
    exec (.linkUp p) s = .next ((s.setUnit p (s.unit p).linkedUp).armReady p) := by
  rw [exec_linkUp, execLinkUp, if_pos h]
  rfl

theorem exec_linkUp_of_unlisted {s : State} {p : PortId} (h : (s.unit p).state = .down) (hlisted : s.listedFlows p = 0) :
    exec (.linkUp p) s = .next (s.setUnit p { (s.unit p).linkedUp with readyArmed := true }) := by
  rw [exec_linkUp_of_down h, State.armReady_of_unlisted (by rwa [State.listedFlows_setUnit]),
    State.setUnit_setUnit, State.unit_setUnit_self]

theorem exec_linkUp_of_listed {s : State} {p : PortId} (h : (s.unit p).state = .down) (hlisted : 0 < s.listedFlows p) :
    exec (.linkUp p) s =
      .next (s.setUnit p (PortUnit.raise .ready { (s.unit p).linkedUp with readyArmed := false })) := by
  rw [exec_linkUp_of_down h, State.armReady_of_listed (by rwa [State.listedFlows_setUnit]),
    State.setUnit_setUnit, State.unit_setUnit_self]

/-- Settles O21: LINK_UP is the transition of R138 and the arming of R117, whose READY is placed at once because the
queue is empty and no other notice waits. -/
theorem linkUpBringsADownPortUp : Obligations.LinkUpBringsADownPortUp := by
  unfold Obligations.LinkUpBringsADownPortUp
  refine fun s p => ⟨exec_linkUp_of_unlisted, fun hdown hlisted hout hqueue hready hpool hoverflow => ?_,
    exec_linkUp_of_not_down⟩
  have hraise := PortUnit.raise_ready_of_none_waits (u := { (s.unit p).linkedUp with readyArmed := false })
    hpool hqueue rfl hready (by rw [PortUnit.linkedUp, hout]; decide)
  rw [exec_linkUp_of_listed hdown hlisted, hraise]
  simp only [PortUnit.linkedUp, hout, hready, hoverflow, List.nil_append]

end Sys2Proof.Machine

/-! SUPPORT. INIT and the read commands of the management port: the six tests of the configuration as the model compares
them, the first of them that fails, the result words of READ_SLOT, and the settled statements about INIT, READ_FLOW and
READ_SLOT. -/

namespace Sys2Proof.Machine

/-! ## Regions of words (R153, R167) -/

/-- Every word of a region that is not empty lies in the memory where the region's end does. -/
theorem region_fits_iff {first stop size : Nat} (hregion : first < stop) (hsize : 0 < size) :
    (∀ w, first ≤ w → w ≤ stop - 1 → w ≤ size - 1) ↔ stop ≤ size := by
  constructor
  · intro hfits
    have hlast := hfits (stop - 1) (by omega) le_rfl
    omega
  · intro hstop w _ hw
    omega

/-- Two regions that are not empty share a word where each begins before the other stops: the later of the two first
words is then in both. -/
theorem regions_disjoint_iff {first stop first' stop' : Nat} (hregion : first < stop) (hregion' : first' < stop') :
    (∀ w, ¬((first ≤ w ∧ w ≤ stop - 1) ∧ (first' ≤ w ∧ w ≤ stop' - 1))) ↔ ¬(first' < stop ∧ first < stop') := by
  constructor
  · rintro hdisjoint ⟨h, h'⟩
    exact hdisjoint (max first first') (by omega)
  · intro happart w hw
    omega

/-! ## The six tests of INIT (R167) -/

namespace Configuration

variable {c : Configuration}

theorem test_one_iff : c.test 1 ↔ ¬ c.nSeg.toNat < 1024 := by
  have hwidth : c.nSeg.toNat < 65536 := c.nSeg.isLt
  simp only [test]
  omega

theorem test_two_iff : c.test 2 ↔ ¬(c.memSize.toNat < 32768 ∨ 2097152 < c.memSize.toNat) := by
  simp only [test]
  omega

/-- A memory of the size that test 2 asks for is not empty. -/
theorem memSize_pos (h : c.test 2) : 0 < c.memSize.toNat := by
  have hleast : 32768 ≤ c.memSize.toNat := h.1
  omega

/-- A segment region of the size that test 1 asks for is not empty. -/
theorem segRegion_pos (h : c.test 1) : c.segBase.toNat < c.segBase.toNat + 16 * c.nSeg.toNat := by
  have hleast : 1024 ≤ c.nSeg.toNat := h.1
  omega

theorem ctxRegion_pos : c.ctxBase.toNat < c.ctxBase.toNat + 16384 := by omega

theorem test_three_iff (h1 : c.test 1) (h2 : c.test 2) :
    c.test 3 ↔ ¬ c.memSize.toNat < c.segBase.toNat + 16 * c.nSeg.toNat :=
  (region_fits_iff (segRegion_pos h1) (memSize_pos h2)).trans not_lt.symm

theorem test_four_iff (h2 : c.test 2) : c.test 4 ↔ ¬ c.memSize.toNat < c.ctxBase.toNat + 16384 :=
  (region_fits_iff ctxRegion_pos (memSize_pos h2)).trans not_lt.symm

theorem test_five_iff (h1 : c.test 1) : c.test 5 ↔ ¬(c.ctxBase.toNat < c.segBase.toNat + 16 * c.nSeg.toNat ∧
    c.segBase.toNat < c.ctxBase.toNat + 16384) :=
  regions_disjoint_iff (segRegion_pos h1) ctxRegion_pos

/-! ## The first failing test -/

/-- Every test before test `k` passes. -/
def passesBelow (c : Configuration) (k : Nat) : Prop := ∀ j, 1 ≤ j → j < k → c.test j

theorem passesBelow_one : c.passesBelow 1 := fun j h1 hlt => absurd hlt (by omega)

theorem passesBelow.succ {k : Nat} (hbelow : c.passesBelow k) (htest : c.test k) : c.passesBelow (k + 1) := by
  intro j h1 hlt
  obtain hj | rfl := Nat.lt_succ_iff_lt_or_eq.1 hlt
  · exact hbelow j h1 hj
  · exact htest

/-- The model's comparisons find the first failing test, or none where the six tests pass. -/
theorem failingTest_cases (c : Configuration) :
    (c.failingTest = none ∧ c.passesBelow 7) ∨
      ∃ k, c.failingTest = some k ∧ 1 ≤ k ∧ k ≤ 6 ∧ c.passesBelow k ∧ ¬ c.test k := by
  unfold failingTest
  dsimp only
  split
  · next hfail => exact .inr ⟨1, rfl, by decide, by decide, passesBelow_one, fun h => test_one_iff.1 h hfail⟩
  next hpass =>
  have h1 := test_one_iff.2 hpass
  have below2 := passesBelow_one.succ h1
  split
  · next hfail => exact .inr ⟨2, rfl, by decide, by decide, below2, fun h => test_two_iff.1 h hfail⟩
  next hpass =>
  have h2 := test_two_iff.2 hpass
  have below3 := below2.succ h2
  split
  · next hfail => exact .inr ⟨3, rfl, by decide, by decide, below3, fun h => (test_three_iff h1 h2).1 h hfail⟩
  next hpass =>
  have below4 := below3.succ ((test_three_iff h1 h2).2 hpass)
  split
  · next hfail => exact .inr ⟨4, rfl, by decide, by decide, below4, fun h => (test_four_iff h2).1 h hfail⟩
  next hpass =>
  have below5 := below4.succ ((test_four_iff h2).2 hpass)
  split
  · next hfail => exact .inr ⟨5, rfl, by decide, by decide, below5, fun h => (test_five_iff h1).1 h hfail⟩
  next hpass =>
  have below6 := below5.succ ((test_five_iff h1).2 hpass)
  split
  · next hfail => exact .inr ⟨6, rfl, by decide, by decide, below6, hfail⟩
  next hpass => exact .inl ⟨rfl, below6.succ (not_not.1 hpass)⟩

theorem failingTest_eq_none_iff : c.failingTest = none ↔ ∀ k, 1 ≤ k → k ≤ 6 → c.test k := by
  obtain ⟨hnone, hpass⟩ | ⟨k, hsome, h1, h6, -, hfail⟩ := c.failingTest_cases
  · exact iff_of_true hnone fun k h1 h6 => hpass k h1 (Nat.lt_succ_of_le h6)
  · exact iff_of_false (by simp [hsome]) fun hall => hfail (hall k h1 h6)

/-- Only one test is the first that fails. -/
theorem failingTest_eq_some {k : Nat} (h1 : 1 ≤ k) (h6 : k ≤ 6) (hfail : ¬ c.test k) (hbelow : c.passesBelow k) :
    c.failingTest = some k := by
  obtain ⟨-, hpass⟩ | ⟨k', hsome, h1', -, hbelow', hfail'⟩ := c.failingTest_cases
  · exact absurd (hpass k h1 (Nat.lt_succ_of_le h6)) hfail
  · obtain hlt | rfl | hlt := Nat.lt_trichotomy k k'
    · exact absurd (hbelow' k h1 hlt) hfail
    · exact hsome
    · exact absurd (hbelow k' h1' hlt) hfail'

end Configuration

/-! ## INIT (R164, R166, R167) -/

theorem exec_init (s : State) : exec .init s = .next (s.command .init State.initAct) := rfl

/-- Past its acceptance INIT is its tests (R164). -/
theorem exec_init_of_free {s : State} (hfree : s.mgmt.command ≠ .inFlight) :
    exec .init s = .next (s.setMgmt (s.mgmt.acceptedNow .init)).initAct := by
  rw [exec_init, State.command_accepted hfree]

theorem State.initAct_of_failing {s : State} {k : Nat} (hdevice : s.mgmt.device = .config)
    (hfirst : s.config.failingTest = some k) :
    s.initAct = s.commandDone .invalid (noWords.set 0 (BitVec.ofNat 32 k)) := by
  rw [State.initAct, if_pos hdevice, hfirst]
  rfl

theorem State.initAct_of_valid {s : State} (hdevice : s.mgmt.device = .config) (hvalid : s.config.failingTest = none) :
    s.initAct = s.setMgmt { s.mgmt with device := .initializing } := by
  rw [State.initAct, if_pos hdevice, hvalid]

theorem State.initAct_of_not_config {s : State} (hdevice : s.mgmt.device ≠ .config) :
    s.initAct = s.commandDone .wrongState noWords := by
  rw [State.initAct, if_neg hdevice]
  rfl

/-- Settles O12: the command's acceptance or refusal, and past its acceptance the first failing test. The acceptance
leaves the device state and the configuration, so each test is made of the same values. -/
theorem initTestsTheConfiguration : Obligations.InitTestsTheConfiguration := by
  unfold Obligations.InitTestsTheConfiguration
  refine fun s => ⟨fun hflight => ?_, fun hfree hdevice k h1 h6 hfail hbelow => ?_, fun hfree hdevice hall => ?_,
    fun hfree hdevice => ?_⟩
  · rw [exec_init, State.command_refused hflight]
  · have hfirst := Configuration.failingTest_eq_some h1 h6 hfail hbelow
    rw [exec_init_of_free hfree, State.initAct_of_failing (by exact hdevice) (by exact hfirst),
      State.commandDone_accepted]
  · have hvalid := Configuration.failingTest_eq_none_iff.2 hall
    rw [exec_init_of_free hfree, State.initAct_of_valid (by exact hdevice) (by exact hvalid), State.setMgmt_setMgmt,
      State.mgmt_setMgmt]
  · rw [exec_init_of_free hfree, State.initAct_of_not_config (by exact hdevice), State.commandDone_accepted]

/-! ## READ_FLOW (R172, R180) -/

theorem exec_readFlow (arg : BitVec 16) (s : State) :
    exec (.readFlow arg) s = .next (s.command .readFlow (State.readFlowAct arg)) := rfl

theorem State.readFlowAct_of_flow {s : State} {arg : BitVec 16} {f : FlowId} (harg : f.val = arg.toNat) :
    s.readFlowAct arg = s.commandDone .ok (s.flow f).resultWords := by
  have hf : (⟨arg.toNat, harg ▸ f.isLt⟩ : FlowId) = f := Fin.ext harg.symm
  rw [State.readFlowAct, dif_pos (harg ▸ f.isLt), hf]

theorem State.readFlowAct_of_badArg {s : State} {arg : BitVec 16} (harg : 4095 < arg.toNat) :
    s.readFlowAct arg = s.commandDone .badArg noWords := by
  rw [State.readFlowAct, dif_neg (by omega)]
  rfl

/-! ## READ_SLOT (R172, R180) -/

theorem exec_readSlot (arg : BitVec 16) (s : State) :
    exec (.readSlot arg) s = .next (s.command .readSlot (State.readSlotAct arg)) := rfl

/-- How many free values have been drawn after a report on slot `S`: a slot that is not RESIDENT takes one for its
context words (log entries 12 and 28). -/
def State.drawnByReport (s : State) (S : SlotId) : Nat :=
  if (s.slot S).state = .resident then s.drawn else s.drawn + 1

theorem State.readSlotAct_of_slot {s : State} {arg : BitVec 16} {S : SlotId} (harg : S.val = arg.toNat) :
    s.readSlotAct arg = { s with drawn := s.drawnByReport S }.commandDone .ok (s.slotWords S) := by
  have hS : (⟨arg.toNat, harg ▸ S.isLt⟩ : SlotId) = S := Fin.ext harg.symm
  rw [State.readSlotAct, dif_pos (harg ▸ S.isLt), hS, State.drawnByReport]
  dsimp only
  split <;> rfl

theorem State.readSlotAct_of_badArg {s : State} {arg : BitVec 16} (harg : 63 < arg.toNat) :
    s.readSlotAct arg = s.commandDone .badArg noWords := by
  rw [State.readSlotAct, dif_neg (by omega)]
  rfl

/-- The report reads nothing of the management unit, so it is the same in the state that the acceptance leaves. -/
theorem exec_readSlot_of_slot {s : State} {arg : BitVec 16} {S : SlotId} (hfree : s.mgmt.command ≠ .inFlight)
    (harg : S.val = arg.toNat) :
    exec (.readSlot arg) s =
      .next { s with drawn := s.drawnByReport S, mgmt := s.mgmt.answeredNow .readSlot .ok (s.slotWords S) } := by
  rw [exec_readSlot, State.command_accepted hfree, State.readSlotAct_of_slot harg]
  rfl

theorem State.slotWords_context_of_resident {s : State} {S : SlotId} (h : (s.slot S).state = .resident) (i : Fin 8) :
    (s.slotWords S)[4 + i.val]'(by omega) =
      ((s.slot S).context.body ++ (0 : BitVec 8)).extractLsb' (32 * (7 - i.val)) 32 := by
  rw [State.slotWords_context, State.slotRecord, if_pos h]
  rfl

/-- Settles O17: each report is read off the state that the acceptance leaves, which differs from the state before it in
the management unit alone. -/
theorem readFlowAndReadSlotReport : Obligations.ReadFlowAndReadSlotReport := by
  unfold Obligations.ReadFlowAndReadSlotReport
  refine ⟨fun s arg hfree => ⟨fun harg => ?_, fun S harg => ?_⟩, fun s arg hfree => ⟨fun harg => ?_, fun f harg => ?_⟩⟩
  · rw [exec_readSlot, State.command_accepted hfree, State.readSlotAct_of_badArg harg, State.commandDone_accepted]
  · exact ⟨_, exec_readSlot_of_slot hfree harg, rfl, rfl, rfl, rfl, rfl, State.slotWords_context_of_resident⟩
  · rw [exec_readFlow, State.command_accepted hfree, State.readFlowAct_of_badArg harg, State.commandDone_accepted]
  · rw [exec_readFlow, State.command_accepted hfree, State.readFlowAct_of_flow harg, State.commandDone_accepted,
      State.flow_setMgmt]

end Sys2Proof.Machine

/-! SUPPORT. What every step keeps: each change that an event is made of keeps the queue, the configuration and the
invariants of a run, and so every command and every step does. -/

namespace Sys2Proof.Machine

/-! ## Words cut short by a reset (R162) -/

/-- A state that differs from another in the SRAM, the damage of its words and the free values drawn alone. -/
def State.InSram (s t : State) : Prop := t = { s with sram := t.sram, damage := t.damage, drawn := t.drawn }

theorem State.InSram.trans {s t u : State} (h : s.InSram t) (k : t.InSram u) : s.InSram u := by
  unfold State.InSram at *
  rw [k, h]

theorem State.inSram_foldl_damageWord (s : State) (addr : State → Nat → Nat) (l : List Nat) :
    s.InSram (l.foldl (fun s i => s.damageWord (addr s i)) s) := by
  induction l generalizing s with
  | nil => rfl
  | cons i l ih => exact State.InSram.trans (t := s.damageWord (addr s i)) rfl (ih _)

theorem State.inSram_cutShort (s : State) : s.InSram s.cutShort := by
  unfold State.cutShort
  split
  · exact s.inSram_foldl_damageWord (fun s i => s.recordWordAddr _ i) _
  · rfl
  · rfl
  · rfl
  · rfl
  · rfl

@[simp] theorem State.pending_volatileReset (s : State) : s.volatileReset.pending = s.pending := by
  change s.cutShort.pending = s.pending
  rw [s.inSram_cutShort]

/-- The SRAM and the damage of its words are in their canonical forms (R153, R162). -/
def State.sramCanonical (s : State) : Prop := Memory.wf s.sram = true ∧ Table.risingFrom none s.damage = true

theorem State.sramCanonical_damageWord {s : State} (h : s.sramCanonical) (a : Nat) : (s.damageWord a).sramCanonical :=
  ⟨Memory.wf_forgetWord _ _ h.1, Table.risingFrom_insert _ _ _ none (by simp) h.2⟩

theorem State.sramCanonical_foldl_damageWord {s : State} (h : s.sramCanonical) (addr : State → Nat → Nat)
    (l : List Nat) : (l.foldl (fun s i => s.damageWord (addr s i)) s).sramCanonical := by
  induction l generalizing s with
  | nil => exact h
  | cons i l ih => exact ih (State.sramCanonical_damageWord h _)

theorem State.sramCanonical_cutShort {s : State} (h : s.sramCanonical) : s.cutShort.sramCanonical := by
  unfold State.cutShort
  split
  · exact State.sramCanonical_foldl_damageWord h (fun s i => s.recordWordAddr _ i) _
  · exact State.sramCanonical_damageWord h _
  all_goals exact h

/-! ## The queue of commands -/

theorem Work.pending {s t : State} (h : Work s t) : t.pending = s.pending := by cases h <;> rfl

theorem Event.pending {w : Bool} {s t : State} (h : Event w s t) : t.pending = s.pending := by
  cases h with
  | work h => exact h.pending
  | reset => exact s.pending_volatileReset
  | restarted => exact s.pending_volatileReset
  | _ => rfl

theorem Events.pending {w : Bool} {s t : State} (h : Events w s t) : t.pending = s.pending :=
  h.keeps (fun u => u.pending = s.pending) (fun _ _ e k => e.pending.trans k) rfl

/-- Settles O3: every change that a command can make leaves the queue. -/
theorem everyCommandAnswersANextState : Obligations.EveryCommandAnswersANextState := by
  unfold Obligations.EveryCommandAnswersANextState
  intro c s
  obtain ⟨t, ht, hevents⟩ := exec_events c s
  exact ⟨t, ht, hevents.pending⟩

/-! ## The configuration (R165) -/

theorem Work.config {s t : State} (h : Work s t) : t.config = s.config := by cases h <;> rfl

/-- A change of a command that may not write the configuration leaves it. -/
theorem Event.config {s t : State} (h : Event false s t) : t.config = s.config := by
  cases h with
  | work h => exact h.config
  | _ => rfl

theorem Events.config {s t : State} (h : Events false s t) : t.config = s.config :=
  h.keeps (fun u => u.config = s.config) (fun _ _ e k => e.config.trans k) rfl

theorem exec_writeFrame (a : BitVec 16) (v : Word32) (s : State) : exec (.writeFrame a v) s = execWriteFrame a v s := rfl

theorem config_of_writeFrame {a : BitVec 16} {v : Word32} {s t : State} (h : exec (.writeFrame a v) s = .next t)
    (hdevice : s.mgmt.device ≠ .config) : t.config = s.config := by
  have hclear : s.spiClear.mgmt.device ≠ .config := hdevice
  rw [exec_writeFrame] at h
  unfold execWriteFrame at h
  dsimp only at h
  split at h
  · cases h; rfl
  · rw [if_neg hclear] at h
    cases h; rfl

/-- Settles O4: WRITE_FRAME stores in CONFIG alone, and no other command but POWER_ON is made of a change that writes the
configuration. -/
theorem configurationIsKept : Obligations.ConfigurationIsKept := by
  unfold Obligations.ConfigurationIsKept
  intro c s t hexec hpower hconfig
  cases hmay : mayConfigure c with
  | false => exact Events.config (hmay ▸ events_of_exec hexec)
  | true =>
    cases c with
    | powerOn => exact absurd rfl hpower
    | writeFrame a v => exact config_of_writeFrame hexec (fun hdevice => hconfig hdevice a v rfl)
    | _ => cases hmay

/-! ## The canonical forms -/

theorem Pool.links_wf_of_kept {P Q : Pool} (h : P.Kept Q) (hwf : Table.wf (sweptEntry P.swept) P.links = true) :
    Table.wf (sweptEntry Q.swept) Q.links = true := by
  obtain ⟨hswept, hlinks⟩ := h
  rw [hswept]
  exact hlinks hwf

theorem Work.canonical {s t : State} (h : Work s t) (hs : s.canonical) : t.canonical := by
  obtain ⟨hsram, hdamage, hflows, hlinks⟩ := hs
  cases h with
  | flow => exact ⟨hsram, hdamage, Table.wf_put _ _ _ _ hflows, hlinks⟩
  | asm _ _ P hkept => exact ⟨hsram, hdamage, hflows, Pool.links_wf_of_kept hkept hlinks⟩
  | pool P hkept => exact ⟨hsram, hdamage, hflows, Pool.links_wf_of_kept hkept hlinks⟩
  | sram => exact ⟨Memory.wf_writeWord _ _ _ hsram, Table.risingFrom_erase _ _ _ hdamage, hflows, hlinks⟩
  | _ => exact ⟨hsram, hdamage, hflows, hlinks⟩

theorem Event.canonical {w : Bool} {s t : State} (h : Event w s t) (hs : s.canonical) : t.canonical := by
  have ⟨hsram, hdamage, _, _⟩ := hs
  have hcut := State.sramCanonical_cutShort (s := s) ⟨hsram, hdamage⟩
  cases h with
  | work h => exact h.canonical hs
  | swept => exact ⟨hsram, hdamage, rfl, rfl⟩
  | reset => exact ⟨hcut.1, hcut.2, rfl, rfl⟩
  | restarted => exact ⟨hcut.1, hcut.2, rfl, rfl⟩
  | _ => exact hs

/-- What every change keeps and no queue has a part in, every step keeps. -/
theorem step_keeps (P : State → Prop) (hqueue : ∀ (s : State) (q : List Instr), P s → P { s with pending := q })
    (hevent : ∀ s t, Event true s t → P s → P t) {s t : State} (hs : P s) (hstep : step s = .next t) : P t :=
  (events_of_step hstep).keeps P hevent (hqueue s _ hs)

/-- Settles O6. -/
theorem stepKeepsCanonicalForm : Obligations.StepKeepsCanonicalForm := by
  unfold Obligations.StepKeepsCanonicalForm
  exact fun s t => step_keeps State.canonical (fun _ _ => id) (fun _ _ => Event.canonical)

/-! ## The inbound credits (R139) -/

/-- What a port unit keeps of its credits while it is UP (R139). -/
def PortUnit.creditsWhole (u : PortUnit) : Prop := u.state = .up → u.inboundCredits + u.inbound.length = 32

theorem State.creditsWhole_setUnit {s : State} {p : PortId} {u : PortUnit} (h : s.creditsWhole) (hu : u.creditsWhole) :
    (s.setUnit p u).creditsWhole := by
  intro q
  rw [State.unit_setUnit]
  split
  · exact hu
  · exact h q

theorem PortUnit.creditsWhole_of_same {u v : PortUnit} (h : u.creditsWhole) (hstate : v.state = u.state)
    (hinbound : v.inbound = u.inbound) (hcredits : v.inboundCredits = u.inboundCredits) : v.creditsWhole := by
  unfold PortUnit.creditsWhole
  rw [hstate, hinbound, hcredits]
  exact h

/-- The place that a message leaves is returned (R139, R140). -/
theorem PortUnit.creditsWhole_pop {u : PortUnit} (h : u.creditsWhole) (hmsg : u.inbound ≠ []) :
    ({ u with inbound := u.inbound.tail }.creditFreed).creditsWhole := by
  have hlength : u.inbound.length ≠ 0 := fun e => hmsg (List.length_eq_zero_iff.1 e)
  have hsum : u.state = .up → u.inboundCredits + 1 + u.inbound.tail.length = 32 := fun hup => by
    have hwhole := h hup
    rw [List.length_tail]
    omega
  unfold PortUnit.creditFreed
  split <;> exact hsum

theorem PortUnit.creditsWhole_arrived {u : PortUnit} (h : u.creditsWhole) (m : Message) (hcredit : u.inboundCredits ≠ 0) :
    ({ u with inboundCredits := u.inboundCredits - 1, inbound := u.inbound ++ [m] } : PortUnit).creditsWhole := by
  intro hup
  have hwhole := h hup
  simp only [List.length_append, List.length_singleton]
  omega

theorem Work.creditsWhole {s t : State} (h : Work s t) (hs : s.creditsWhole) : t.creditsWhole := by
  cases h with
  | unit p u hstate _ hinbound hcredits =>
    exact State.creditsWhole_setUnit hs (PortUnit.creditsWhole_of_same (hs p) hstate hinbound hcredits)
  | _ => exact hs

theorem State.unit_sweepEnd (s : State) (p : PortId) :
    s.sweepEnd.unit p = { s.unit p with readyArmed := decide ((s.unit p).state = .up) } := by
  simp [State.sweepEnd, State.unit]
  rfl

theorem State.unit_volatileReset (s : State) (p : PortId) : s.volatileReset.unit p = PortUnit.initial := by
  simp [State.volatileReset, State.reset, State.unit]

theorem Event.creditsWhole {w : Bool} {s t : State} (h : Event w s t) (hs : s.creditsWhole) : t.creditsWhole := by
  cases h with
  | work h => exact h.creditsWhole hs
  | taken _ p hmsg => exact State.creditsWhole_setUnit hs (PortUnit.creditsWhole_pop (hs p) hmsg)
  | faulted _ p => exact State.creditsWhole_setUnit hs (hs p)
  | left _ p u hleft => exact State.creditsWhole_setUnit hs (fun hup => absurd hup hleft)
  | up _ p u hup =>
    obtain ⟨hinbound, hcredits⟩ := hup
    exact State.creditsWhole_setUnit hs (fun _ => by rw [hinbound, hcredits]; rfl)
  | arrived _ p m hcredit => exact State.creditsWhole_setUnit hs (PortUnit.creditsWhole_arrived (hs p) m hcredit)
  | swept => exact fun p => by rw [State.unit_sweepEnd]; exact hs p
  | reset =>
    intro p hup
    rw [State.unit_volatileReset] at hup
    cases hup
  | restarted =>
    intro p hup
    change (s.volatileReset.unit p).state = .up at hup
    rw [State.unit_volatileReset] at hup
    cases hup
  | _ => exact hs

/-- Settles O7. -/
theorem stepKeepsInboundCredits : Obligations.StepKeepsInboundCredits := by
  unfold Obligations.StepKeepsInboundCredits
  exact fun s t => step_keeps State.creditsWhole (fun _ _ => id) (fun _ _ => Event.creditsWhole)

/-! ## The holds (R121) -/

theorem State.holdsExclusive_setHold {s : State} {p : PortId} {v : Hold} (hs : s.holdsExclusive)
    (hv : v.state ≠ .empty → ∀ q, q ≠ p → (s.hold q).state ≠ .empty → (s.hold q).flow ≠ v.flow) :
    (s.setHold p v).holdsExclusive := by
  intro a b hab ha hb
  rw [State.hold_setHold] at ha hb ⊢
  rw [State.hold_setHold]
  by_cases hap : a = p
  · have hbp : b ≠ p := fun e => hab (hap.trans e.symm)
    rw [if_pos hap] at ha ⊢
    rw [if_neg hbp] at hb ⊢
    exact (hv ha b hbp hb).symm
  · rw [if_neg hap] at ha ⊢
    split at hb
    · next hbp => rw [if_pos hbp]; exact hv hb a hap ha
    · next hbp => rw [if_neg hbp]; exact hs a b hab ha hb

theorem State.holdsExclusive_of_empty {s : State} (h : ∀ p, (s.hold p).state = .empty) : s.holdsExclusive :=
  fun p _ _ hp => absurd (h p) hp

theorem Work.holdsExclusive {s t : State} (h : Work s t) (hs : s.holdsExclusive) : t.holdsExclusive := by
  cases h with
  | holdNew p v hfree => exact State.holdsExclusive_setHold hs (fun hv q _ => hfree hv q)
  | holdSame p v hsame =>
    refine State.holdsExclusive_setHold hs (fun hv q hqp hq => ?_)
    obtain ⟨hheld, hflow⟩ := hsame hv
    rw [hflow]
    exact hs q p hqp hq hheld
  | _ => exact hs

theorem State.hold_sweepEnd (s : State) (p : PortId) : s.sweepEnd.hold p = Hold.initial := by
  simp [State.sweepEnd, State.hold]

theorem State.hold_volatileReset (s : State) (p : PortId) : s.volatileReset.hold p = Hold.initial := by
  simp [State.volatileReset, State.reset, State.hold]

/-- A microsecond takes 1 off the lease of a record in HELD (R129). -/
theorem State.hold_tick (s : State) (p : PortId) : s.tick.hold p = { s.hold p with
    lease := if (s.hold p).state = .held then (s.hold p).lease - 1 else (s.hold p).lease } := by
  have hmap : s.tick.hold p =
      if (s.hold p).state = .held then { s.hold p with lease := (s.hold p).lease - 1 } else s.hold p := by
    simp [State.tick, State.hold]
    rfl
  rw [hmap]
  split <;> rfl

/-- A microsecond adds 1 to a gap timer that runs (R77). -/
theorem State.asm_tick (s : State) (p : PortId) :
    s.tick.asm p = { s.asm p with gapTimer := (s.asm p).gapTimer.map (fun n => n + 1) } := by
  simp [State.tick, State.asm]

theorem State.holdsExclusive_tick {s : State} (hs : s.holdsExclusive) : s.tick.holdsExclusive := by
  intro p q hpq hp hq
  rw [State.hold_tick] at hp hq ⊢
  rw [State.hold_tick]
  exact hs p q hpq hp hq

theorem Event.holdsExclusive {w : Bool} {s t : State} (h : Event w s t) (hs : s.holdsExclusive) : t.holdsExclusive := by
  cases h with
  | work h => exact h.holdsExclusive hs
  | swept => exact State.holdsExclusive_of_empty (fun p => by rw [State.hold_sweepEnd]; rfl)
  | reset => exact State.holdsExclusive_of_empty (fun p => by rw [State.hold_volatileReset]; rfl)
  | restarted =>
    exact State.holdsExclusive_of_empty (fun p => congrArg Hold.state (s.hold_volatileReset p))
  | ticked => exact State.holdsExclusive_tick hs
  | _ => exact hs

/-- Settles O9. -/
theorem stepKeepsHoldsExclusive : Obligations.StepKeepsHoldsExclusive := by
  unfold Obligations.StepKeepsHoldsExclusive
  exact fun s t => step_keeps State.holdsExclusive (fun _ _ => id) (fun _ _ => Event.holdsExclusive)

/-! ## The configuration of a device that has left CONFIG (R166, R167) -/

theorem Work.device {s t : State} (h : Work s t) : t.mgmt.device = s.mgmt.device := by
  cases h with
  | mgmt m hdevice => exact hdevice
  | _ => rfl

theorem Work.configuredWell {s t : State} (h : Work s t) (hs : s.configuredWell) : t.configuredWell := by
  unfold State.configuredWell
  rw [h.device, h.config]
  exact hs

theorem State.configuredWell_of_config {s : State} (h : s.mgmt.device = .config) : s.configuredWell :=
  fun hleft => absurd h hleft

theorem Event.configuredWell {w : Bool} {s t : State} (h : Event w s t) (hs : s.configuredWell) :
    t.configuredWell := by
  cases h with
  | work h => exact h.configuredWell hs
  | configured _ c hdevice => exact State.configuredWell_of_config hdevice
  | initializing _ _ hvalid => exact fun _ => Configuration.failingTest_eq_none_iff.1 hvalid
  | swept _ hdevice => exact fun _ => hs (by rw [hdevice]; decide)
  | reset => exact State.configuredWell_of_config rfl
  | restarted _ m hdevice => exact State.configuredWell_of_config hdevice
  | _ => exact hs

/-- Settles O10: the device leaves CONFIG only where the six tests pass, and the configuration is written in CONFIG
alone. -/
theorem stepKeepsValidConfiguration : Obligations.StepKeepsValidConfiguration := by
  unfold Obligations.StepKeepsValidConfiguration
  exact fun s t => step_keeps State.configuredWell (fun _ _ => id) (fun _ _ => Event.configuredWell)

/-! ## The bounds of the cache (R60, R135) -/

theorem Work.pinsBounded {s t : State} (h : Work s t) (hs : s.pinsBounded) : t.pinsBounded := by
  cases h with
  | count n hn => exact hn.elim (fun hfell => Nat.le_trans hfell hs) id
  | _ => exact hs

theorem Event.pinsBounded {w : Bool} {s t : State} (h : Event w s t) (hs : s.pinsBounded) : t.pinsBounded := by
  cases h with
  | work h => exact h.pinsBounded hs
  | swept => exact Nat.zero_le _
  | reset => exact Nat.zero_le _
  | restarted => exact Nat.zero_le _
  | _ => exact hs

theorem Work.missBounded {s t : State} (h : Work s t) (hs : s.missBounded) : t.missBounded := by
  cases h with
  | miss q hq => exact hq.elim (fun hfell => Nat.le_trans hfell hs) id
  | _ => exact hs

theorem Event.missBounded {w : Bool} {s t : State} (h : Event w s t) (hs : s.missBounded) : t.missBounded := by
  cases h with
  | work h => exact h.missBounded hs
  | swept => exact Nat.zero_le _
  | reset => exact Nat.zero_le _
  | restarted => exact Nat.zero_le _
  | _ => exact hs

/-! ## The reservations (R36) -/

theorem Work.pooled {s t : State} (h : Work s t) (hs : s.pooled) : t.pooled := by
  cases h with
  | asm p v P _ hpooled => exact hpooled hs
  | pool P _ hreserved hfree => exact State.pooled_of_same hs rfl rfl hreserved hfree
  | mgmt m hdevice => exact State.pooled_of_same hs rfl hdevice rfl le_rfl
  | _ => exact hs

/-- A record that is no assembly is whole in every device state, and holds nothing reserved. -/
theorem Assembly.whole_of_idles {a : Assembly} (h : a.idles) (d : DeviceState) : a.whole d := by
  obtain ⟨hadmitting, hassembling⟩ := h
  exact ⟨fun k => absurd k (not_or.2 ⟨hadmitting, hassembling⟩), fun k => absurd k hadmitting,
    fun k => absurd k hassembling⟩

theorem Assembly.reservation_of_idles {a : Assembly} (h : a.idles) : a.reservation = 0 := if_neg h.2

theorem State.idles_of_not_running {s : State} (hs : s.assembliesWhole) (hdevice : s.mgmt.device ≠ .running)
    (p : PortId) : (s.asm p).idles := by
  have hadmits : ¬((s.asm p).state = .admitting ∨ (s.asm p).state = .assembling) := fun k => hdevice ((hs p).1 k).1
  exact not_or.1 hadmits

/-- Where no port assembles, the account holds with nothing reserved. -/
theorem State.pooled_of_idles {s : State} (hasm : ∀ p, (s.asm p).idles) (hreserved : s.pool.reserved = 0) : s.pooled := by
  refine ⟨⟨?_, hreserved ▸ Nat.zero_le _⟩, fun p => Assembly.whole_of_idles (hasm p) _⟩
  simp [hreserved, allPorts, Assembly.reservation_of_idles (hasm _)]

theorem State.reserved_of_idles {s : State} (hs : s.reservedWhole) (hasm : ∀ p, (s.asm p).idles) :
    s.pool.reserved = 0 := by
  obtain ⟨hsum, -⟩ := hs
  simpa [allPorts, Assembly.reservation_of_idles (hasm _)] using hsum

theorem State.idles_volatileReset (s : State) (p : PortId) : (s.volatileReset.asm p).idles := by
  have hinitial : s.volatileReset.asm p = Assembly.initial := by
    simp [State.volatileReset, State.reset, State.asm]
  rw [hinitial]
  exact Assembly.idles_initial

/-- A record that begins ADMITTING holds nothing reserved, as before (R67, R72). -/
theorem State.pooled_admits {s : State} {p : PortId} {v : Assembly} (hs : s.pooled) (hdevice : s.mgmt.device = .running)
    (hbefore : (s.asm p).state ≠ .assembling)
    (hv : v.state = .admitting ∧ v.needed = neededFor v.declared ∧ v.taken = 0) : (s.setAsm p v).pooled := by
  obtain ⟨hstate, hneeded, htaken⟩ := hv
  have hnone : v.reservation = 0 := if_neg (by rw [hstate]; decide)
  have hnone' : (s.asm p).reservation = 0 := if_neg hbefore
  refine State.pooled_setAsm (P := s.pool) hs (by rw [hnone, hnone']) hs.1.2
    ⟨fun _ => ⟨hdevice, hneeded⟩, fun _ => htaken, fun k => ?_⟩
  rw [hstate] at k
  cases k

theorem State.pooled_tick {s : State} (hs : s.pooled) : s.tick.pooled := by
  obtain ⟨⟨hsum, hfree⟩, hwhole⟩ := hs
  refine ⟨⟨?_, hfree⟩, fun p => ?_⟩
  · simp only [State.asm_tick]
    exact hsum
  · rw [State.asm_tick]
    exact hwhole p

theorem Event.pooled {w : Bool} {s t : State} (h : Event w s t) (hs : s.pooled) : t.pooled := by
  cases h with
  | work h => exact h.pooled hs
  | admits _ p v hdevice hbefore hv => exact State.pooled_admits hs hdevice hbefore hv
  | initializing _ hdevice =>
    have hidle := State.idles_of_not_running hs.2 (by rw [hdevice]; decide)
    exact State.pooled_of_idles hidle (State.reserved_of_idles hs.1 hidle)
  | swept _ hdevice => exact State.pooled_of_idles (State.idles_of_not_running (s := s) hs.2 (by rw [hdevice]; decide)) rfl
  | reset => exact State.pooled_of_idles s.idles_volatileReset rfl
  | restarted => exact State.pooled_of_idles (fun p => s.idles_volatileReset p) rfl
  | ticked => exact State.pooled_tick hs
  | _ => exact hs

/-! ## The reset state, and the steps (R166) -/

theorem State.canonical_reset : State.reset.canonical := ⟨rfl, rfl, rfl, rfl⟩

theorem State.unit_reset (p : PortId) : State.reset.unit p = PortUnit.initial := by
  simp [State.reset, State.unit]

theorem State.hold_reset (p : PortId) : State.reset.hold p = Hold.initial := by
  simp [State.reset, State.hold]

theorem State.asm_reset (p : PortId) : State.reset.asm p = Assembly.initial := by
  simp [State.reset, State.asm]

/-- Settles O5: no port is UP, none holds and none assembles, and the tables are empty. -/
theorem resetIsSafe : Obligations.ResetIsSafe := by
  unfold Obligations.ResetIsSafe
  have hcredits : State.reset.creditsWhole := fun p hup => by rw [State.unit_reset] at hup; cases hup
  have hholds := State.holdsExclusive_of_empty (s := State.reset) (fun p => by rw [State.hold_reset]; rfl)
  obtain ⟨hreserved, hwhole⟩ := State.pooled_of_idles (s := State.reset)
    (fun p => by rw [State.asm_reset]; exact Assembly.idles_initial) rfl
  exact ⟨State.canonical_reset, hcredits, Nat.zero_le _, Nat.zero_le _, hholds, State.configuredWell_of_config rfl,
    hreserved, hwhole⟩

/-- Settles O1: that is how a step is defined on a queue that is not empty. -/
theorem stepRunsTheFrontCommand : Obligations.StepRunsTheFrontCommand := by
  unfold Obligations.StepRunsTheFrontCommand
  intro s c rest hqueue
  unfold step
  rw [hqueue]

/-! ## An idle step (R77, R129) -/

theorem State.gapDue_iff (s : State) (p : PortId) : s.gapDue p = true ↔ s.gapExpired p := by
  unfold State.gapDue State.gapExpired
  cases (s.asm p).gapTimer <;> simp

theorem State.leaseDue_iff (s : State) (p : PortId) : s.leaseDue p = true ↔ s.leaseExpired p := by
  simp [State.leaseDue, State.leaseExpired]

theorem find?_allPorts_of_first {P : PortId → Bool} {p : PortId} (hp : P p = true) (hfirst : ∀ q, q < p → P q = false) :
    allPorts.find? P = some p := by
  unfold allPorts
  match p with
  | 0 => simp [hp]
  | 1 => simp [hp, hfirst 0]
  | 2 => simp [hp, hfirst 0, hfirst 1]
  | 3 => simp [hp, hfirst 0, hfirst 1, hfirst 2]

theorem find?_allPorts_of_none {P : PortId → Bool} (h : ∀ p, P p = false) : allPorts.find? P = none :=
  List.find?_eq_none.2 (fun p _ => by simp [h p])

theorem step_of_empty {s : State} (h : s.pending = []) : step s = s.idle := by
  unfold step
  rw [h]

theorem State.idle_of_gap {s : State} {p : PortId} (h : s.gapExpired p) (hfirst : ∀ q, q < p → ¬ s.gapExpired q) :
    s.idle = exec (.gapTimeout p) s := by
  have hfind := find?_allPorts_of_first ((s.gapDue_iff p).2 h)
    (fun q hq => Bool.eq_false_iff.2 (fun hdue => hfirst q hq ((s.gapDue_iff q).1 hdue)))
  unfold State.idle
  rw [hfind]
  rfl

theorem State.no_gapDue {s : State} (h : ∀ q, ¬ s.gapExpired q) : allPorts.find? s.gapDue = none :=
  find?_allPorts_of_none (fun q => Bool.eq_false_iff.2 (fun hdue => h q ((s.gapDue_iff q).1 hdue)))

theorem State.idle_of_lease {s : State} {p : PortId} (hgap : ∀ q, ¬ s.gapExpired q) (h : s.leaseExpired p)
    (hfirst : ∀ q, q < p → ¬ s.leaseExpired q) : s.idle = exec (.leaseExpiry p) s := by
  have hfind := find?_allPorts_of_first ((s.leaseDue_iff p).2 h)
    (fun q hq => Bool.eq_false_iff.2 (fun hdue => hfirst q hq ((s.leaseDue_iff q).1 hdue)))
  unfold State.idle
  rw [State.no_gapDue hgap]
  dsimp only
  rw [hfind]
  rfl

theorem State.idle_of_none_due {s : State} (hgap : ∀ q, ¬ s.gapExpired q) (hlease : ∀ q, ¬ s.leaseExpired q) :
    s.idle = .next s.tick := by
  have hfind := find?_allPorts_of_none (P := s.leaseDue)
    (fun q => Bool.eq_false_iff.2 (fun hdue => hlease q ((s.leaseDue_iff q).1 hdue)))
  unfold State.idle
  rw [State.no_gapDue hgap]
  dsimp only
  rw [hfind]

/-- Settles O2: the first expiry found is the lowest port's, and where none is found the step is the tick. -/
theorem emptyQueueIsOneMicrosecond : Obligations.EmptyQueueIsOneMicrosecond := by
  unfold Obligations.EmptyQueueIsOneMicrosecond
  intro s hempty
  rw [step_of_empty hempty]
  refine ⟨fun p => State.idle_of_gap, fun p => State.idle_of_lease, fun hnone => ?_⟩
  refine ⟨s.tick, State.idle_of_none_due (fun q => (hnone q).1) (fun q => (hnone q).2), rfl, fun p => ?_, s.asm_tick⟩
  rw [State.hold_tick]
  exact ⟨rfl, rfl, rfl⟩

end Sys2Proof.Machine

/-! SUPPORT. What answers and the comparison of R111 leave unchanged, and the count of the pinned or held slots. -/

namespace Sys2Proof.Machine

/-! ## What an answer leaves unchanged -/

/-- A state that differs from another in the port units alone. -/
def State.InUnits (s t : State) : Prop := t = { s with units := t.units }

/-- A state that differs from another in what the answer to a request met in a list may write: the port units, the
assembly records and the management unit. -/
def State.InAnswers (s t : State) : Prop := t = { s with units := t.units, asms := t.asms, mgmt := t.mgmt }

theorem State.InUnits.trans {s t u : State} (h : s.InUnits t) (k : t.InUnits u) : s.InUnits u := by
  unfold State.InUnits at *
  rw [k, h]

theorem State.InAnswers.trans {s t u : State} (h : s.InAnswers t) (k : t.InAnswers u) : s.InAnswers u := by
  unfold State.InAnswers at *
  rw [k, h]

theorem State.InUnits.inAnswers {s t : State} (h : s.InUnits t) : s.InAnswers t := by
  unfold State.InUnits State.InAnswers at *
  rw [h]

theorem State.inUnits_respond (s : State) (p : PortId) (t : TagId) (st : Status) (res : Result) :
    s.InUnits (s.respond p t st res) := rfl

theorem State.inUnits_refuse (s : State) (p : PortId) (t : TagId) (st : Status) : s.InUnits (s.refuse p t st) := by
  unfold State.refuse
  split <;> rfl

theorem State.inAnswers_discardBeats (s : State) (p : PortId) (n : Nat) : s.InAnswers (s.discardBeats p n) := by
  unfold State.discardBeats
  split
  · rfl
  · split <;> rfl

theorem State.inAnswers_answerReq (s : State) (st : Status) (r : Req) : s.InAnswers (s.answerReq st r) := by
  cases r with
  | request p t =>
    have hrefuse := (s.inUnits_refuse p t st).inAnswers
    simp only [State.answerReq]
    split
    · exact hrefuse.trans (State.inAnswers_discardBeats _ _ _)
    · exact hrefuse
  | clearHalt f => rfl

theorem State.inAnswers_foldl_answerReq (st : Status) (rs : List Req) (s : State) :
    s.InAnswers (rs.foldl (fun s r => s.answerReq st r) s) := by
  induction rs generalizing s with
  | nil => rfl
  | cons r rs ih => exact (s.inAnswers_answerReq st r).trans (ih _)

/-! ## What the comparison of R111 writes -/

/-- A state that differs from another in the flow map, the ready lists and the port units alone. -/
def State.InRelist (s t : State) : Prop := t = { s with flows := t.flows, lists := t.lists, units := t.units }

theorem State.InRelist.trans {s t u : State} (h : s.InRelist t) (k : t.InRelist u) : s.InRelist u := by
  unfold State.InRelist at *
  rw [k, h]

theorem State.InLists.inRelist {s t : State} (h : s.InLists t) : s.InRelist t := by
  unfold State.InLists State.InRelist at *
  rw [h]

/-- An entry of the flow map that differs from another in its neighbours in a ready list alone (R5). -/
def FlowEntry.SameButPlace (e e' : FlowEntry) : Prop := e' = { e with prev := e'.prev, next := e'.next }

theorem State.inRelist_putAtTail (s : State) (f : FlowId) : s.InRelist (s.putAtTail f) :=
  State.InLists.inRelist (State.InLists.trans (t := s.setFlow f _) rfl
    (State.InLists.trans (State.inLists_linkNext _ _ _) rfl))

theorem State.inRelist_listsFilled (s : State) (p : PortId) : s.InRelist (s.listsFilled p) := by
  unfold State.listsFilled
  split <;> rfl

theorem State.inRelist_listFlow (s : State) (f : FlowId) : s.InRelist (s.listFlow f) := by
  rw [State.listFlow_eq]
  split
  · exact (s.inRelist_putAtTail f).trans (State.inRelist_listsFilled _ _)
  · exact s.inRelist_putAtTail f

theorem State.inRelist_relist (s : State) (f : FlowId) : s.InRelist (s.relist f) := by
  unfold State.relist
  dsimp only
  split
  · split
    · rfl
    · exact s.inRelist_listFlow f
  · split
    · exact (s.inLists_withdrawFlow f).inRelist
    · rfl

/-- A flow is listed after the comparison exactly when it is ready and not dispatched (R111). -/
theorem State.flow_relist_self (s : State) (f : FlowId) :
    { s.flow f with listed := (s.flow f).ready && !(s.flow f).dispatched }.SameButPlace ((s.relist f).flow f) := by
  have hlist : { s.flow f with listed := true }.SameButPlace ((s.listFlow f).flow f) := by
    rw [State.listFlow_eq, apply_ite (State.flow · f), State.flow_listsFilled, ite_self]
    simp [State.putAtTail, State.flow_linkNext, FlowEntry.SameButPlace]
  unfold State.relist
  dsimp only
  split
  · next hdue =>
    rw [hdue]
    split
    · next hlisted => rw [← hlisted]; rfl
    · exact hlist
  · next hnot =>
    rw [Bool.eq_false_iff.2 hnot]
    split
    · rw [State.flow_withdrawFlow_self]
      rfl
    · next hlisted => rw [← Bool.eq_false_iff.2 hlisted]; rfl

/-- The comparison of a flow moves no more of another's entry than its neighbours. -/
theorem State.flow_relist_ne (s : State) {f g : FlowId} (h : g ≠ f) :
    (s.flow g).SameButPlace ((s.relist f).flow g) := by
  unfold State.relist
  dsimp only
  split
  · split
    · rfl
    · rw [s.flow_listFlow_ne h]; rfl
  · split
    · rw [s.flow_withdrawFlow_ne h]; rfl
    · rfl

/-- Its fields but listed and its neighbours, the comparison leaves. -/
theorem State.flow_relist (s : State) (f g : FlowId) : (s.relist f).flow g = { s.flow g with
    listed := ((s.relist f).flow g).listed, prev := ((s.relist f).flow g).prev,
    next := ((s.relist f).flow g).next } := by
  by_cases h : g = f
  · subst h
    have hself := s.flow_relist_self g
    unfold FlowEntry.SameButPlace at hself
    rw [hself]
  · have hne := s.flow_relist_ne h
    unfold FlowEntry.SameButPlace at hne
    rw [hne]

@[simp] theorem State.residency_relist (s : State) (f g : FlowId) :
    ((s.relist f).flow g).residency = (s.flow g).residency := by rw [s.flow_relist f g]

@[simp] theorem State.slots_relist (s : State) (f : FlowId) : (s.relist f).slots = s.slots := by
  rw [s.inRelist_relist f]

@[simp] theorem State.holds_relist (s : State) (f : FlowId) : (s.relist f).holds = s.holds := by
  rw [s.inRelist_relist f]

@[simp] theorem State.pinnedOrHeld_relist (s : State) (f : FlowId) : (s.relist f).pinnedOrHeld = s.pinnedOrHeld := by
  rw [s.inRelist_relist f]

/-! ## Who holds a flow -/

/-- Some port's record in HELD or LAPSING names the flow (R121). -/
def State.isHeld (s : State) (f : FlowId) : Prop := ∃ q, (s.hold q).state ≠ .empty ∧ (s.hold q).flow = f

theorem State.holder_eq_none_iff (s : State) (f : FlowId) : s.holder f = none ↔ ¬ s.isHeld f := by
  unfold State.isHeld
  rw [← State.holder_isSome_iff, Option.not_isSome_iff_eq_none]

theorem State.hold_of_holder {s : State} {f : FlowId} {p : PortId} (h : s.holder f = some p) :
    (s.hold p).state ≠ .empty ∧ (s.hold p).flow = f := by
  simpa using List.find?_some h

theorem State.isHeld_congr {s t : State} (h : t.holds = s.holds) (f : FlowId) : t.isHeld f ↔ s.isHeld f := by
  simp only [State.isHeld, State.hold, h]

/-- A slot is counted when it has pins or its flow is held (R47). -/
theorem State.counted_iff (s : State) (S : SlotId) :
    s.counted S = true ↔ 0 < (s.slot S).pins ∨ ∃ g, (s.slot S).flow = some g ∧ s.isHeld g := by
  unfold State.counted State.slotHeld
  cases (s.slot S).flow <;> simp [State.holder_isSome_iff, State.isHeld]

/-- Where each flow is held by at most one port, a flow is not held any more when its holder's record is cleared, and
every other flow is held as before (R121). -/
theorem State.isHeld_cleared {s : State} {p : PortId} (hex : s.holdsExclusive) (hp : (s.hold p).state ≠ .empty)
    (g : FlowId) : (s.setHold p Hold.initial).isHeld g ↔ g ≠ (s.hold p).flow ∧ s.isHeld g := by
  constructor
  · rintro ⟨q, hq, rfl⟩
    by_cases hqp : q = p
    · subst hqp
      rw [State.hold_setHold_self] at hq
      exact absurd rfl hq
    · rw [State.hold_setHold_ne _ _ hqp] at hq ⊢
      exact ⟨hex q p hqp hq hp, q, hq, rfl⟩
  · rintro ⟨hg, q, hq, rfl⟩
    have hqp : q ≠ p := fun e => hg (by rw [e])
    exact ⟨q, by rw [State.hold_setHold_ne _ _ hqp]; exact ⟨hq, rfl⟩⟩

/-- A record that is granted to a port with none holds its flow, beside those held before. -/
theorem State.isHeld_granted {s : State} {p : PortId} {v : Hold} (hp : (s.hold p).state = .empty)
    (hv : v.state ≠ .empty) (g : FlowId) : (s.setHold p v).isHeld g ↔ g = v.flow ∨ s.isHeld g := by
  constructor
  · rintro ⟨q, hq, rfl⟩
    by_cases hqp : q = p
    · subst hqp
      rw [State.hold_setHold_self]
      exact .inl rfl
    · rw [State.hold_setHold_ne _ _ hqp] at hq ⊢
      exact .inr ⟨q, hq, rfl⟩
  · rintro (rfl | ⟨q, hq, rfl⟩)
    · exact ⟨p, by rw [State.hold_setHold_self]; exact ⟨hv, rfl⟩⟩
    · have hqp : q ≠ p := fun e => hq (by rw [e]; exact hp)
      exact ⟨q, by rw [State.hold_setHold_ne _ _ hqp]; exact ⟨hq, rfl⟩⟩

theorem State.isHeld_renewed {s : State} {p : PortId} {v : Hold} (hstate : v.state = (s.hold p).state)
    (hflow : v.flow = (s.hold p).flow) (g : FlowId) : (s.setHold p v).isHeld g ↔ s.isHeld g := by
  unfold State.isHeld
  refine exists_congr fun q => ?_
  rw [State.hold_setHold]
  split
  · next hq => rw [hq, hstate, hflow]
  · rfl

theorem State.isHeld_dropHold {s : State} (hex : s.holdsExclusive) (f g : FlowId) :
    (s.dropHold f).isHeld g ↔ g ≠ f ∧ s.isHeld g := by
  unfold State.dropHold
  split
  · next p hp =>
    obtain ⟨hstate, hflow⟩ := State.hold_of_holder hp
    rw [State.isHeld_cleared hex hstate, hflow]
  · next hnone =>
    have hfree := (s.holder_eq_none_iff f).1 hnone
    exact ⟨fun hg => ⟨fun e => hfree (e ▸ hg), hg⟩, And.right⟩

/-- What dropping a hold writes is one hold record. -/
theorem State.dropHold_holds (s : State) (f : FlowId) : s.dropHold f = { s with holds := (s.dropHold f).holds } := by
  unfold State.dropHold
  split <;> rfl

/-! ## The count of the slots that are pinned or held (R47) -/

theorem State.counted_congr {s t : State} (hslots : t.slots = s.slots) (hholds : t.holds = s.holds) (S : SlotId) :
    t.counted S = s.counted S := by
  rw [Bool.eq_iff_iff, State.counted_iff, State.counted_iff]
  simp only [State.slot, hslots, State.isHeld_congr hholds]

theorem State.countWhole_congr {s t : State} (hslots : t.slots = s.slots) (hholds : t.holds = s.holds)
    (hcount : t.pinnedOrHeld = s.pinnedOrHeld) (hs : s.countWhole) : t.countWhole := by
  unfold State.countWhole
  simp only [State.counted_congr hslots hholds, hcount]
  exact hs

theorem State.countWhole_respond {s : State} {p : PortId} {t : TagId} {st : Status} {res : Result} (hs : s.countWhole) :
    (s.respond p t st res).countWhole := State.countWhole_congr rfl rfl rfl hs

theorem mem_allSlots (S : SlotId) : S ∈ allSlots := by
  simp only [allSlots, List.mem_map, List.mem_range]
  exact ⟨S.val, S.isLt, Fin.ofNat_val_eq_self S⟩

theorem nodup_allSlots : allSlots.Nodup := by decide

/-- The number of slots that something counts, by one slot and the others. -/
theorem countP_allSlots (c : SlotId → Bool) (S : SlotId) :
    allSlots.countP c = (allSlots.erase S).countP c + if c S = true then 1 else 0 := by
  rw [(List.perm_cons_erase (mem_allSlots S)).countP_eq, List.countP_cons]

/-- Where what is counted changes at one slot, the count changes as that slot does. -/
theorem State.countWhole_of_changed {s t : State} {S : SlotId} (hs : s.countWhole)
    (hothers : ∀ T, T ≠ S → t.counted T = s.counted T)
    (hcount : t.pinnedOrHeld + (if s.counted S = true then 1 else 0) =
      s.pinnedOrHeld + if t.counted S = true then 1 else 0) : t.countWhole := by
  have hrest : (allSlots.erase S).countP t.counted = (allSlots.erase S).countP s.counted :=
    List.countP_congr fun T hT => by rw [hothers T (nodup_allSlots.mem_erase_iff.1 hT).1]
  have hbefore := countP_allSlots s.counted S
  have hafter := countP_allSlots t.counted S
  change s.pinnedOrHeld = allSlots.countP s.counted at hs
  change t.pinnedOrHeld = allSlots.countP t.counted
  omega

theorem State.pinnedOrHeld_pos {s : State} {S : SlotId} (hs : s.countWhole) (hS : s.counted S = true) :
    0 < s.pinnedOrHeld := by
  rw [hs]
  exact List.countP_pos_iff.2 ⟨S, mem_allSlots S, hS⟩

/-- A flow that another slot than its own holds is another flow (R44). -/
theorem State.flow_of_other_slot {s : State} {f g : FlowId} {S T : SlotId} (hnames : s.namesWhole)
    (hserving : s.servingSlot f = some S) (hT : T ≠ S) (hg : (s.slot T).flow = some g) : g ≠ f := by
  rintro rfl
  obtain ⟨hres, -, -⟩ := State.servingSlot_eq_some_iff.1 hserving
  exact hT (Option.some.inj ((hnames T g hg).symm.trans hres))

/-- Where the other slots stay and the other flows are held as before, the other slots are counted as before. -/
theorem State.counted_others {s t : State} {f : FlowId} {S : SlotId} (hnames : s.namesWhole)
    (hserving : s.servingSlot f = some S) (hslots : ∀ T, T ≠ S → t.slot T = s.slot T)
    (hheld : ∀ g, g ≠ f → (t.isHeld g ↔ s.isHeld g)) (T : SlotId) (hT : T ≠ S) : t.counted T = s.counted T := by
  rw [Bool.eq_iff_iff, State.counted_iff, State.counted_iff, hslots T hT]
  refine or_congr_right (exists_congr fun g => and_congr_right fun hg => ?_)
  exact hheld g (State.flow_of_other_slot hnames hserving hT hg)

theorem State.servingSlot_congr {s t : State} {f : FlowId} (hslots : t.slots = s.slots)
    (hres : (t.flow f).residency = (s.flow f).residency) : t.servingSlot f = s.servingSlot f := by
  simp only [State.servingSlot, State.residentWith, State.slot, hslots, hres]
  rfl

/-- The slot that serves a flow is counted when it has pins or the flow is held. -/
theorem State.counted_serving {s : State} {f : FlowId} {S : SlotId} (h : s.servingSlot f = some S) :
    s.counted S = true ↔ 0 < (s.slot S).pins ∨ s.isHeld f := State.counted_iff_of_serving h

theorem State.slotHeld_serving {s : State} {f : FlowId} {S : SlotId} (h : s.servingSlot f = some S) :
    s.slotHeld S = true ↔ s.isHeld f := by
  obtain ⟨-, -, hflow⟩ := State.servingSlot_eq_some_iff.1 h
  unfold State.slotHeld
  rw [hflow]
  exact s.holder_isSome_iff f

section
variable {s : State} {S : SlotId} {p : PortId} {t : TagId} {f : FlowId}

/-- The slots that are counted when the pins of one are written. -/
theorem State.counted_setPins (n c : Nat) (T : SlotId) :
    (({ s with pinnedOrHeld := c } : State).setSlot S { s.slot S with pins := n }).counted T = true ↔
      if T = S then 0 < n ∨ s.slotHeld S = true else s.counted T = true := by
  have hheld (g : FlowId) :
      (({ s with pinnedOrHeld := c } : State).setSlot S { s.slot S with pins := n }).isHeld g ↔ s.isHeld g :=
    State.isHeld_congr rfl g
  have hslotHeld : s.slotHeld S = true ↔ ∃ g, (s.slot S).flow = some g ∧ s.isHeld g := by
    unfold State.slotHeld
    cases (s.slot S).flow <;> simp [State.holder_isSome_iff, State.isHeld]
  rw [State.counted_iff, State.slot_setSlot]
  simp only [hheld]
  split
  · rw [hslotHeld]
  · rw [State.counted_iff]
    rfl

theorem State.counted_eq_pins_or_held : s.counted S = (decide (0 < (s.slot S).pins) || s.slotHeld S) := rfl

/-- The count when the pins of a slot are written, and the count with them (R133, R134). -/
theorem State.countWhole_setPins (hs : s.countWhole) (n c : Nat)
    (hc : c + (if s.counted S = true then 1 else 0) =
      s.pinnedOrHeld + if 0 < n ∨ s.slotHeld S = true then 1 else 0) :
    (({ s with pinnedOrHeld := c } : State).setSlot S { s.slot S with pins := n }).countWhole := by
  refine State.countWhole_of_changed (S := S) hs (fun T hT => ?_) ?_
  · rw [Bool.eq_iff_iff, State.counted_setPins, if_neg hT]
  · simp only [State.counted_setPins, if_true]
    exact hc

theorem State.countWhole_servePinHere (hs : s.countWhole) : (s.servePinHere S p t).countWhole := by
  unfold State.servePinHere
  dsimp only
  split
  · exact hs
  split
  · exact hs
  refine State.countWhole_congr (s := State.setSlot _ S _) rfl rfl rfl ?_
  split
  · next hcounted => exact State.countWhole_setPins hs _ s.pinnedOrHeld (by simp [hcounted])
  · next hcounted => exact State.countWhole_setPins hs _ (s.pinnedOrHeld + 1) (by simp [hcounted])

theorem State.countWhole_serveUnpinHere (hs : s.countWhole) : (s.serveUnpinHere S p t).countWhole := by
  unfold State.serveUnpinHere
  dsimp only
  split
  · exact hs
  next hpins =>
  have hcounted : s.counted S = true := by
    rw [State.counted_eq_pins_or_held, decide_eq_true (Nat.pos_of_ne_zero hpins), Bool.true_or]
  have hpos := State.pinnedOrHeld_pos hs hcounted
  have hset : (({ s with pinnedOrHeld := if (s.slot S).pins = 1 ∧ !s.slotHeld S then s.pinnedOrHeld - 1
      else s.pinnedOrHeld } : State).setSlot S { s.slot S with pins := (s.slot S).pins - 1 }).countWhole := by
    refine State.countWhole_setPins hs _ _ ?_
    rw [if_pos hcounted]
    cases hheld : s.slotHeld S with
    | true => simp
    | false => by_cases h1 : (s.slot S).pins = 1 <;> simp [h1] <;> omega
  refine State.countWhole_congr ?_ ?_ ?_ hset <;> split <;> split <;> rfl

/-- A hold granted to a port with none, and the count with it (R124). -/
theorem State.countWhole_granted {v : Hold} {c : Nat} (hs : s.countWhole) (hnames : s.namesWhole)
    (hserving : s.servingSlot f = some S) (hfree : ¬ s.isHeld f) (hp : (s.hold p).state = .empty)
    (hv : v.state ≠ .empty) (hflow : v.flow = f)
    (hc : c = s.pinnedOrHeld + if (s.slot S).pins = 0 then 1 else 0) :
    (({ s with pinnedOrHeld := c } : State).setHold p v).countWhole := by
  have hheld (g : FlowId) : (({ s with pinnedOrHeld := c } : State).setHold p v).isHeld g ↔ g = f ∨ s.isHeld g :=
    hflow ▸ State.isHeld_granted (s := { s with pinnedOrHeld := c }) hp hv g
  have hafter : (({ s with pinnedOrHeld := c } : State).setHold p v).counted S = true :=
    (State.counted_iff _ S).2 (.inr ⟨f, (State.servingSlot_eq_some_iff.1 hserving).2.2, (hheld f).2 (.inl rfl)⟩)
  refine State.countWhole_of_changed (S := S) hs ?_ ?_
  · exact State.counted_others hnames hserving (fun _ _ => rfl)
      (fun g hg => (hheld g).trans ⟨fun h => h.resolve_left hg, .inr⟩)
  · rw [if_pos hafter, State.pinnedOrHeld_setHold]
    simp only [State.counted_serving hserving, hfree, or_false, hc]
    by_cases hpins : (s.slot S).pins = 0
    · simp [hpins]
    · simp [hpins, Nat.pos_of_ne_zero hpins]

theorem State.countWhole_grantHold (hs : s.countWhole) (hnames : s.namesWhole) (hserving : s.servingSlot f = some S)
    (hfree : ¬ s.isHeld f) (hp : (s.hold p).state = .empty) : (s.grantHold S p t f).countWhole := by
  unfold State.grantHold
  dsimp only
  split
  · next hpins =>
    exact State.countWhole_respond <| State.countWhole_granted hs hnames hserving hfree hp (by simp) rfl (by rw [if_pos hpins])
  · next hpins =>
    exact State.countWhole_respond <| State.countWhole_granted (c := s.pinnedOrHeld) hs hnames hserving hfree hp (by simp) rfl
      (by rw [if_neg hpins, Nat.add_zero])

theorem State.countWhole_renewed {v : Hold} (hs : s.countWhole) (hstate : v.state = (s.hold p).state)
    (hflow : v.flow = (s.hold p).flow) : (s.setHold p v).countWhole := by
  have hcounted : (s.setHold p v).counted = s.counted := funext fun T => by
    rw [Bool.eq_iff_iff, State.counted_iff, State.counted_iff]
    simp only [State.isHeld_renewed hstate hflow, State.slot_setHold]
  unfold State.countWhole
  rw [hcounted]
  exact hs

theorem State.countWhole_setSlot_same {v : Slot} (hs : s.countWhole) (hflow : v.flow = (s.slot S).flow)
    (hpins : v.pins = (s.slot S).pins) : (s.setSlot S v).countWhole := by
  have hcounted : (s.setSlot S v).counted = s.counted := funext fun T => by
    rw [Bool.eq_iff_iff, State.counted_iff, State.counted_iff, State.slot_setSlot]
    have hheld (g : FlowId) : (s.setSlot S v).isHeld g ↔ s.isHeld g := State.isHeld_congr rfl g
    simp only [hheld]
    split
    · next hT => rw [hT, hflow, hpins]
    · rfl
  unfold State.countWhole
  rw [hcounted]
  exact hs

theorem State.countWhole_parkOrHeld (hs : s.countWhole) : (s.parkOrHeld S p t).countWhole := by
  unfold State.parkOrHeld
  split
  · exact State.countWhole_congr (s := s.setSlot S _) rfl rfl rfl (State.countWhole_setSlot_same hs rfl rfl)
  · have hframe := s.inUnits_refuse p t .held
    unfold State.InUnits at hframe
    rw [hframe]
    exact hs

theorem State.countWhole_serveHoldHere (hs : s.countWhole) (hnames : s.namesWhole)
    (hserving : s.servingSlot f = some S) : (s.serveHoldHere S p t f).countWhole := by
  unfold State.serveHoldHere
  dsimp only
  split
  · exact State.countWhole_respond (State.countWhole_renewed hs rfl rfl)
  split
  · exact hs
  next hother =>
  split
  · exact State.countWhole_parkOrHeld hs
  next hholder =>
  split
  · exact State.countWhole_parkOrHeld hs
  split
  · exact hs
  have hfree : ¬ s.isHeld f := fun hheld => hholder ((s.holder_isSome_iff f).2 hheld)
  refine State.countWhole_grantHold hs hnames hserving hfree ?_
  by_contra hp
  exact hother ⟨hp, fun e => hfree ⟨p, hp, e⟩⟩

/-- The state when a port's hold has ended, but for the notice and those parked behind it: the record is EMPTY, and the
count falls where the slot has no pins (R130). -/
def State.holdEnded (s : State) (p : PortId) (S : SlotId) : State :=
  ({ s with pinnedOrHeld := s.pinnedOrHeld - if (s.slot S).pins = 0 then 1 else 0 }).setHold p Hold.initial

/-- The end of the one hold on a flow, and the count with it (R130). -/
theorem State.countWhole_holdEnded (hs : s.countWhole) (hnames : s.namesWhole) (hex : s.holdsExclusive)
    (hserving : s.servingSlot f = some S) (hp : (s.hold p).state ≠ .empty) (hflow : (s.hold p).flow = f) :
    (s.holdEnded p S).countWhole := by
  have hheld (g : FlowId) : (s.holdEnded p S).isHeld g ↔ g ≠ f ∧ s.isHeld g :=
    hflow ▸ State.isHeld_cleared (s := { s with pinnedOrHeld := _ }) hex hp g
  have hbefore : s.counted S = true := (State.counted_serving hserving).2 (.inr ⟨p, hp, hflow⟩)
  have hpos := State.pinnedOrHeld_pos hs hbefore
  have hafter : (s.holdEnded p S).counted S = true ↔ 0 < (s.slot S).pins := by
    refine (State.counted_iff _ S).trans ⟨fun h => h.elim id fun ⟨g, hg, hheldg⟩ => ?_, .inl⟩
    obtain rfl : f = g := Option.some.inj ((State.servingSlot_eq_some_iff.1 hserving).2.2.symm.trans hg)
    exact absurd rfl ((hheld f).1 hheldg).1
  refine State.countWhole_of_changed (S := S) hs ?_ ?_
  · exact State.counted_others hnames hserving (fun _ _ => rfl)
      (fun g hg => (hheld g).trans ⟨And.right, fun h => ⟨hg, h⟩⟩)
  · simp only [hafter, if_pos hbefore]
    unfold State.holdEnded
    rw [State.pinnedOrHeld_setHold]
    by_cases hpins : (s.slot S).pins = 0
    · simp only [hpins, if_true, Nat.lt_irrefl, if_false]
      omega
    · simp [hpins, Nat.pos_of_ne_zero hpins]

/-- A pass over a parked list that is empty, or that no slot has, does nothing (R126). -/
theorem State.parkedPass_of_none_parked (h : ∀ S, s.servingSlot f = some S → (s.slot S).parkedList = []) :
    s.parkedPass f = s := by
  unfold State.parkedPass
  split
  · rfl
  · next S hS => simp [h S hS]

/-- The end of the hold on a flow that a slot serves: the notice, and then those parked behind it (R130). -/
theorem State.endHold_of_serving (hserving : s.servingSlot f = some S) (hflow : (s.hold p).flow = f)
    (n : Option Notice) :
    s.endHold p n = ((n.elim (s.holdEnded p S) ((s.holdEnded p S).raise p)).parkedPass f).dueRetry := by
  have hcleared : (s.setHold p Hold.initial).servingSlot f = some S := hserving
  have hcount : (if ((s.setHold p Hold.initial).slot S).pins = 0 then
        { s.setHold p Hold.initial with pinnedOrHeld := (s.setHold p Hold.initial).pinnedOrHeld - 1 }
      else s.setHold p Hold.initial) = s.holdEnded p S := by
    unfold State.holdEnded
    rw [State.slot_setHold]
    by_cases hpins : (s.slot S).pins = 0
    · simp only [hpins, if_true]
      rfl
    · simp only [hpins, if_false]
      rfl
  unfold State.endHold
  simp only [hflow, hcleared, hcount]
  cases n <;> rfl

/-- The end of a hold with no one parked behind it (R130). -/
theorem State.endHold_of_none_parked (hserving : s.servingSlot f = some S) (hflow : (s.hold p).flow = f)
    (hparked : (s.slot S).parkedList = []) (n : Option Notice) :
    s.endHold p n = (n.elim (s.holdEnded p S) ((s.holdEnded p S).raise p)).dueRetry := by
  rw [State.endHold_of_serving hserving hflow, State.parkedPass_of_none_parked]
  intro T hT
  have hT' : s.servingSlot f = some T := by cases n <;> exact hT
  obtain rfl := Option.some.inj (hserving.symm.trans hT')
  cases n <;> exact hparked

theorem State.countWhole_endHold (hs : s.countWhole) (hnames : s.namesWhole) (hex : s.holdsExclusive)
    (hserving : s.servingSlot f = some S) (hp : (s.hold p).state ≠ .empty) (hflow : (s.hold p).flow = f)
    (hparked : (s.slot S).parkedList = []) : (s.endHold p none).countWhole := by
  rw [State.endHold_of_none_parked hserving hflow hparked]
  exact State.countWhole_congr (s := s.holdEnded p S) rfl rfl rfl
    (State.countWhole_holdEnded hs hnames hex hserving hp hflow)

/-! ## A flow enters CLOSED (R16) -/

/-- The state when the slot that serves a flow has gone FREE and the flow's hold has ended, but for the answers to those
parked there (R16): the count falls where the slot was counted. -/
def State.slotClosed (s : State) (f : FlowId) (S : SlotId) : State :=
  (({ s.dropHold f with pinnedOrHeld := s.pinnedOrHeld - if s.counted S then 1 else 0 }.setSlot S
    Slot.initial).dueRetry).setFlow f { s.flow f with residency := none }

theorem State.dropHold_setCount (n : Nat) :
    ({ s with pinnedOrHeld := n } : State).dropHold f = { s.dropHold f with pinnedOrHeld := n } := by
  have hholder : ({ s with pinnedOrHeld := n } : State).holder f = s.holder f := rfl
  unfold State.dropHold
  rw [hholder]
  cases s.holder f <;> rfl

theorem State.closeSlot_of_serving (hserving : s.servingSlot f = some S) :
    s.closeSlot f = (s.slot S).parkedList.foldl (fun s r => s.answerReq .closed r) (s.slotClosed f S) := by
  have hcount : (if s.counted S then { s with pinnedOrHeld := s.pinnedOrHeld - 1 } else s) =
      { s with pinnedOrHeld := s.pinnedOrHeld - if s.counted S then 1 else 0 } := by
    cases s.counted S <;> rfl
  unfold State.closeSlot State.slotClosed
  simp only [hserving, hcount, State.dropHold_setCount]
  rw [State.dropHold_holds]
  rfl

/-- The flow map's part of entering CLOSED: the fields that a CLOSED flow has, and the comparison of R111. -/
def State.closeFlow (s : State) (f : FlowId) : State :=
  (s.setFlow f { s.flow f with state := .closed, halt := none, ready := false, dispatched := false }).relist f

theorem State.enterClosed_eq (s : State) (f : FlowId) : s.enterClosed f = (s.closeFlow f).closeSlot f := rfl

theorem State.residency_closeFlow (s : State) (f g : FlowId) :
    ((s.closeFlow f).flow g).residency = (s.flow g).residency := by
  unfold State.closeFlow
  rw [State.residency_relist, State.flow_setFlow]
  split
  · next hg => rw [hg]
  · rfl

theorem State.countWhole_slotClosed (hs : s.countWhole) (hnames : s.namesWhole) (hex : s.holdsExclusive)
    (hserving : s.servingSlot f = some S) : (s.slotClosed f S).countWhole := by
  have hheld (g : FlowId) : (s.slotClosed f S).isHeld g ↔ g ≠ f ∧ s.isHeld g :=
    (State.isHeld_congr (s := s.dropHold f) rfl g).trans (State.isHeld_dropHold hex f g)
  have hslots (T : SlotId) : (s.slotClosed f S).slot T = if T = S then Slot.initial else s.slot T := by
    unfold State.slotClosed
    rw [State.slot_setFlow, State.dropHold_holds]
    exact State.slot_setSlot _ _ _ _
  have hafter : (s.slotClosed f S).counted S = false := by
    rw [Bool.eq_false_iff, ne_eq, State.counted_iff, hslots, if_pos rfl]
    simp [Slot.initial]
  refine State.countWhole_of_changed (S := S) hs ?_ ?_
  · exact State.counted_others hnames hserving (fun T hT => by rw [hslots, if_neg hT])
      (fun g hg => (hheld g).trans ⟨And.right, fun h => ⟨hg, h⟩⟩)
  · have hcount : (s.slotClosed f S).pinnedOrHeld = s.pinnedOrHeld - if s.counted S then 1 else 0 := rfl
    rw [hcount, hafter]
    split
    · next hcounted => exact Nat.sub_add_cancel (State.pinnedOrHeld_pos hs hcounted)
    · rfl

theorem State.countWhole_enterClosed (hs : s.countWhole) (hnames : s.namesWhole) (hex : s.holdsExclusive)
    (hserving : s.servingSlot f = some S) : (s.enterClosed f).countWhole := by
  rw [State.enterClosed_eq]
  have hslots : (s.closeFlow f).slots = s.slots := State.slots_relist _ f
  have hholds : (s.closeFlow f).holds = s.holds := State.holds_relist _ f
  have hcount := State.countWhole_congr hslots hholds (State.pinnedOrHeld_relist _ f) hs
  have hnames' : (s.closeFlow f).namesWhole := by
    intro T g hg
    rw [State.residency_closeFlow]
    exact hnames T g (by rw [State.slot, ← hslots]; exact hg)
  have hex' : (s.closeFlow f).holdsExclusive := by
    unfold State.holdsExclusive State.hold
    rw [hholds]
    exact hex
  have hserving' := (State.servingSlot_congr hslots (s.residency_closeFlow f f)).trans hserving
  have hframe := State.inAnswers_foldl_answerReq .closed ((s.closeFlow f).slot S).parkedList
    ((s.closeFlow f).slotClosed f S)
  rw [State.closeSlot_of_serving hserving']
  unfold State.InAnswers at hframe
  rw [hframe]
  exact State.countWhole_congr (s := (s.closeFlow f).slotClosed f S) rfl rfl rfl
    (State.countWhole_slotClosed hcount hnames' hex' hserving')

end

/-- Settles O8: each change of an event keeps the bounds and the account of the reservations, and each of the five
services changes the count as it changes what its slot is counted for. -/
theorem stepKeepsCacheBounds : Obligations.StepKeepsCacheBounds := by
  unfold Obligations.StepKeepsCacheBounds
  refine ⟨fun s t => step_keeps State.pinsBounded (fun _ _ => id) (fun _ _ => Event.pinsBounded),
    fun s t => step_keeps State.missBounded (fun _ _ => id) (fun _ _ => Event.missBounded),
    fun s t hreserved hwhole => step_keeps State.pooled (fun _ _ => id) (fun _ _ => Event.pooled) ⟨hreserved, hwhole⟩,
    fun s S p t f hs hnames hex hserving => ⟨State.countWhole_servePinHere hs, State.countWhole_serveUnpinHere hs,
      State.countWhole_serveHoldHere hs hnames hserving, State.countWhole_enterClosed hs hnames hex hserving,
      fun hp hflow hparked => State.countWhole_endHold hs hnames hex hserving hp hflow hparked⟩⟩

end Sys2Proof.Machine

/-! SUPPORT. The resets of the whole part and the management port: the values after POWER_ON, RESTART and the sweep, the
configuration words, refused frames, PORT_RESET of a port that is not UP, the diagnostic read, and the counters. -/

namespace Sys2Proof.Machine

/-! ## POWER_ON and RESTART (R162, R164 to R166, R169, R174) -/

theorem State.blank_reset : State.reset.blank := by
  have hports (p : PortId) (t : TagId) : (State.reset.tagRec p t).status = .free := by
    simp [State.tagRec, State.unit_reset, PortUnit.initial, PortUnit.tag, TagRecord.initial]
  refine ⟨fun _ => rfl, fun n => ?_, ⟨rfl, rfl, rfl, rfl, rfl, rfl⟩, fun S => ?_, ⟨rfl, rfl, rfl, rfl⟩, fun p => ?_,
    fun p => ?_, fun p => ?_, fun p c => ?_, fun p => ?_, ?_⟩
  · simp [State.reset, Pool.initial, Pool.link, Table.get, Table.find?, sweptEntry]
  · simp [State.reset, State.slot, Slot.initial]
  · simp [State.asm_reset, Assembly.initial]
  · simp [State.reset, State.del, Delivery.initial]
  · simp [State.hold_reset, Hold.initial]
  · simp [State.reset, State.readyList, ClassList.initial]
  · simp [State.unit_reset, PortUnit.initial, hports]
  · simp [State.reset, MemController.initial]

/-- What is blank at a reset does not rest on the queue, the SRAM, the configuration or the management unit. -/
theorem State.blank_of_reset {q : List Instr} {m : Management} {c : Configuration} {cells : List Host.Cell}
    {damage : List (Nat × Nat)} {n : Nat} : ({ State.reset with
      pending := q, mgmt := m, config := c, sram := cells, damage := damage, drawn := n } : State).blank :=
  State.blank_reset

theorem Memory.read_forgetWord (m : List Host.Cell) {a j : Nat} (h : j / 8 ≠ a) :
    Memory.read (Memory.forgetWord m a) j = Memory.read m j := by
  have hlist (l : List Nat) (hl : ∀ i ∈ l, i < 8) : ∀ m : List Host.Cell,
      Memory.read (l.foldl (fun m i => Memory.forget m (8 * a + i)) m) j = Memory.read m j := by
    induction l with
    | nil => exact fun _ => rfl
    | cons i l ih =>
      intro m
      have hi : i < 8 := hl i (by simp)
      have hne : j ≠ 8 * a + i := by omega
      rw [List.foldl_cons, ih (fun k hk => hl k (by simp [hk])), Memory.read_forget, if_neg hne]
  exact hlist _ (fun i hi => List.mem_range.1 hi) m

theorem State.read_foldl_damageRecord {f : FlowId} {j : Nat} (l : List Nat) (s : State)
    (h : ∀ i ∈ l, j / 8 ≠ s.recordWordAddr f i) :
    Memory.read (l.foldl (fun s i => s.damageWord (s.recordWordAddr f i)) s).sram j = Memory.read s.sram j := by
  induction l generalizing s with
  | nil => rfl
  | cons i l ih =>
    rw [List.foldl_cons, ih (s.damageWord _) (fun k hk => h k (by simp [hk]))]
    exact Memory.read_forgetWord _ (h i (by simp))

/-- A reset leaves the bytes of the words that were not being written (R162). -/
theorem State.read_cutShort {s : State} {j : Nat} (h : ∀ w ∈ s.wordsBeingWritten, j / 8 ≠ w) :
    Memory.read s.cutShort.sram j = Memory.read s.sram j := by
  unfold State.wordsBeingWritten at h
  unfold State.cutShort
  split
  · next f hspill =>
    rw [hspill] at h
    exact State.read_foldl_damageRecord _ s (fun i hi => h _ (List.mem_map.2 ⟨i, hi, rfl⟩))
  · next w hwrite =>
    rw [hwrite] at h
    exact Memory.read_forgetWord _ (h _ (by simp))
  all_goals rfl

/-- Settles O11: both commands leave the state of a reset, but for what R162 and R169 keep. -/
theorem powerOnAndRestartValues : Obligations.PowerOnAndRestartValues := by
  unfold Obligations.PowerOnAndRestartValues
  refine ⟨⟨State.blank_reset, rfl, rfl⟩, fun s => ?_, fun s => ?_⟩
  · refine ⟨s.volatileReset, rfl, State.blank_of_reset, s.pending_volatileReset,
      ⟨rfl, rfl, rfl, rfl, rfl, rfl, rfl, fun p => ?_⟩, ⟨rfl, rfl, rfl, rfl, rfl, rfl, rfl⟩,
      fun a => State.read_cutShort⟩
    change Configuration.powerOn.adminRole[p] = false ∧ Configuration.powerOn.poolNotice[p] = false
    simp [Configuration.powerOn]
  · exact ⟨_, rfl, State.blank_of_reset, s.pending_volatileReset, rfl, ⟨rfl, rfl, rfl, rfl, rfl, rfl, rfl⟩,
      fun a => State.read_cutShort⟩

/-! ## The end of the INIT sweep (R27, R168) -/

/-- Segments in ascending order, each of which names the one after it, are a chain. -/
theorem Pool.chained_range' {P : Pool} {after : Nat} (m a : Nat) (ha : a ≠ 0)
    (hnext : ∀ k, a ≤ k → k + 1 < a + m → (P.link k).next = k + 1)
    (hlast : 1 ≤ m → (P.link (a + m - 1)).next = after) : P.chained after (List.range' a m) := by
  induction m generalizing a with
  | zero => trivial
  | succ m ih =>
    cases m with
    | zero => exact ⟨ha, hlast le_rfl⟩
    | succ m =>
      have htail := ih (a + 1) (by omega) (fun k hk hlt => hnext k (by omega) (by omega))
        (fun _ => by rw [← hlast (by omega)]; congr 2; omega)
      rw [List.range'_succ, List.range'_succ] at *
      exact ⟨ha, hnext a le_rfl (by omega), htail⟩

theorem Pool.link_atSweepEnd (n k : Nat) : (Pool.atSweepEnd n).link k = sweptEntry n k := by
  simp [Pool.atSweepEnd, Pool.initial, Pool.link, Table.get, Table.find?]

/-- The free list at the end of the sweep is every segment, in ascending order (R27). -/
theorem Pool.freeIs_atSweepEnd {n : Nat} (hn : 1 ≤ n) : (Pool.atSweepEnd n).freeIs (List.range' 1 n) := by
  refine ⟨Pool.chained_range' n 1 (by decide) (fun k hk hlt => ?_) (fun _ => ?_), List.nodup_range', ?_, ?_, ?_⟩
  · rw [Pool.link_atSweepEnd, sweptEntry, if_pos ⟨by omega, by omega⟩]
  · rw [Pool.link_atSweepEnd, sweptEntry, if_neg (by omega)]
  · obtain ⟨m, rfl⟩ := Nat.exists_eq_add_of_le' hn
    rfl
  · simp [Pool.atSweepEnd, List.getLast?_range', show n ≠ 0 by omega]
  · simp [Pool.atSweepEnd]

/-- Settles O13. -/
theorem sweepEndValues : Obligations.SweepEndValues := by
  unfold Obligations.SweepEndValues
  intro s hdevice hseg
  have hexec : exec .initSweepCompletion s = .next s.sweepEnd := if_pos hdevice
  refine ⟨s.sweepEnd, hexec, rfl, Pool.freeIs_atSweepEnd hseg, fun n => ?_, fun n hn => ?_, ⟨rfl, rfl, rfl⟩,
    fun _ => rfl, fun S => ?_, fun p => ?_, fun p c => ?_, fun p => s.unit_sweepEnd p⟩
  · exact congrArg LinkEntry.last (Pool.link_atSweepEnd _ n)
  · refine (congrArg LinkEntry.next (Pool.link_atSweepEnd _ n)).trans (if_neg ?_)
    omega
  · simp [State.sweepEnd, State.slot]
  · rw [State.hold_sweepEnd]
    rfl
  · simp [State.sweepEnd, State.readyList, ClassList.initial]

/-! ## The configuration words (R163, R180, R181) -/

/-- The addresses of the configuration words (R165). -/
theorem configurationBits_cases {addr : BitVec 16} (h : (configurationBits addr).isSome = true) :
    addr = 0x0010 ∨ addr = 0x0011 ∨ addr = 0x0012 ∨ addr = 0x0013 ∨ addr = 0x0014 ∨ addr = 0x0015 ∨ addr = 0x0016 ∨
      addr = 0x0017 ∨ addr = 0x0018 ∨ addr = 0x0019 ∨ addr = 0x001A := by
  unfold configurationBits at h
  split_ifs at h with h1 h2 h3 h4 h5
  · exact .inl h1
  · exact .inr (.inl h2)
  · tauto
  · tauto
  · tauto
  · exact absurd h (by decide)

theorem Configuration.write_of_none {c : Configuration} {addr : BitVec 16} {v : Word32}
    (h : configurationBits addr = none) : c.write addr v = none := by
  have hne (n : Nat) (hn : (configurationBits (BitVec.ofNat 16 n)).isSome = true) : addr.toNat ≠ n := fun e => by
    rw [← e, BitVec.ofNat_toNat, BitVec.setWidth_eq, h] at hn
    cases hn
  simp only [Configuration.write, hne 0x10 rfl, hne 0x11 rfl, hne 0x12 rfl, hne 0x13 rfl, hne 0x14 rfl, hne 0x15 rfl,
    hne 0x16 rfl, hne 0x17 rfl, hne 0x18 rfl, hne 0x19 rfl, hne 0x1A rfl, if_false]

/-- The bits that a layout assigns from bit 0 on are stored, and the others read as 0. -/
theorem setWidth_setWidth_eq_and (v : Word32) {w : Nat} (hw : w ≤ 32) :
    (v.setWidth w).setWidth 32 = v &&& BitVec.ofNat 32 (2 ^ w - 1) := by
  have hpow : 2 ^ w ≤ 2 ^ 32 := Nat.pow_le_pow_right (by decide) hw
  have hpos : 0 < 2 ^ w := Nat.two_pow_pos w
  refine BitVec.eq_of_toNat_eq ?_
  rw [BitVec.toNat_and, BitVec.toNat_setWidth, BitVec.toNat_setWidth, BitVec.toNat_ofNat,
    Nat.mod_eq_of_lt (show 2 ^ w - 1 < 2 ^ 32 by omega), Nat.and_two_pow_sub_one_eq_mod, Nat.mod_eq_of_lt]
  exact Nat.lt_of_lt_of_le (Nat.mod_lt _ hpos) hpow

theorem bit_getLsbD (v : Word32) (i : Nat) : bit (v.getLsbD i) = v.toNat / 2 ^ i % 2 := by
  rw [BitVec.getLsbD, Nat.testBit_eq_decide_div_mod_eq, bit]
  split
  · next h => exact (of_decide_eq_true h).symm
  · next h =>
    have hne : ¬ v.toNat / 2 ^ i % 2 = 1 := fun e => h (decide_eq_true e)
    omega

/-- The port roles word returns the 8 bits stored (R180). -/
theorem roles_of_bits (c : Configuration) (v : Word32) : ({ c with
    adminRole := #v[v.getLsbD 0, v.getLsbD 1, v.getLsbD 2, v.getLsbD 3],
    poolNotice := #v[v.getLsbD 4, v.getLsbD 5, v.getLsbD 6, v.getLsbD 7] } : Configuration).roles = v &&& 0xFF := by
  have hand : (v &&& 0xFF).toNat = v.toNat % 2 ^ 8 := by
    rw [BitVec.toNat_and]
    exact Nat.and_two_pow_sub_one_eq_mod _ 8
  refine BitVec.eq_of_toNat_eq ?_
  rw [hand]
  simp only [Configuration.roles, Vector.getElem_mk, List.getElem_toArray, List.getElem_cons_zero,
    List.getElem_cons_succ, bit_getLsbD, BitVec.toNat_ofNat]
  omega

/-- A configuration word, as a read frame returns it (R180). -/
def Configuration.word (c : Configuration) (addr : BitVec 16) : Word32 :=
  ({ State.reset with config := c } : State).readWord addr

theorem State.readWord_config (s : State) {addr : BitVec 16} (h : (configurationBits addr).isSome = true) :
    s.readWord addr = s.config.word addr := by
  obtain rfl | rfl | rfl | rfl | rfl | rfl | rfl | rfl | rfl | rfl | rfl := configurationBits_cases h <;> rfl

section
variable {c c' : Configuration} {addr other : BitVec 16} {bits v : Word32}

/-- A write of a configuration word stores the bits its layout assigns (R181). -/
theorem Configuration.write_stores (h : configurationBits addr = some bits) :
    ∃ c', c.write addr v = some c' ∧ c'.word addr = v &&& bits := by
  have hcase := configurationBits_cases (by rw [h]; rfl)
  obtain rfl | rfl | rfl | rfl | rfl | rfl | rfl | rfl | rfl | rfl | rfl := hcase <;>
    obtain rfl := Option.some.inj h <;> refine ⟨_, rfl, ?_⟩
  · exact setWidth_setWidth_eq_and v (w := 16) (by decide)
  · exact setWidth_setWidth_eq_and v (w := 23) (by decide)
  · exact setWidth_setWidth_eq_and v (w := 22) (by decide)
  · exact setWidth_setWidth_eq_and v (w := 22) (by decide)
  · exact (congrArg (BitVec.setWidth 32) (Vector.getElem_set_self _)).trans (setWidth_setWidth_eq_and v (w := 16) (by decide))
  · exact (congrArg (BitVec.setWidth 32) (Vector.getElem_set_self _)).trans (setWidth_setWidth_eq_and v (w := 16) (by decide))
  · exact (congrArg (BitVec.setWidth 32) (Vector.getElem_set_self _)).trans (setWidth_setWidth_eq_and v (w := 16) (by decide))
  · exact (congrArg (BitVec.setWidth 32) (Vector.getElem_set_self _)).trans (setWidth_setWidth_eq_and v (w := 16) (by decide))
  · exact setWidth_setWidth_eq_and v (w := 16) (by decide)
  · exact setWidth_setWidth_eq_and v (w := 8) (by decide)
  · exact roles_of_bits c v

/-- A write of a configuration word leaves the others (R181). -/
theorem Configuration.word_write_ne (hwrite : c.write addr v = some c') (hne : other ≠ addr)
    (hother : (configurationBits other).isSome = true) : c'.word other = c.word other := by
  have haddr : (configurationBits addr).isSome = true := by
    by_contra hnone
    rw [Configuration.write_of_none (Option.not_isSome_iff_eq_none.1 hnone)] at hwrite
    cases hwrite
  obtain rfl | rfl | rfl | rfl | rfl | rfl | rfl | rfl | rfl | rfl | rfl := configurationBits_cases haddr <;>
    obtain rfl := Option.some.inj hwrite <;>
    obtain rfl | rfl | rfl | rfl | rfl | rfl | rfl | rfl | rfl | rfl | rfl := configurationBits_cases hother <;>
    simp_all [Configuration.word, State.readWord, Configuration.roles]

end

theorem exec_writeFrame_of_stored {s : State} {addr : BitVec 16} {v : Word32} {c : Configuration}
    (hwrite : s.config.write addr v = some c) (hdevice : s.mgmt.device = .config) :
    exec (.writeFrame addr v) s = .next { s.spiClear with config := c } := by
  rw [exec_writeFrame, execWriteFrame]
  rw [show s.spiClear.config.write addr v = some c from hwrite]
  exact if_pos hdevice

theorem exec_writeFrame_of_not_config {s : State} {addr : BitVec 16} {v : Word32} {c : Configuration}
    (hwrite : s.config.write addr v = some c) (hdevice : s.mgmt.device ≠ .config) :
    exec (.writeFrame addr v) s = .next (s.setMgmt (s.mgmt.refusedNow .notConfig)) := by
  rw [exec_writeFrame, execWriteFrame]
  rw [show s.spiClear.config.write addr v = some c from hwrite]
  exact if_neg hdevice

theorem exec_writeFrame_of_undefined {s : State} {addr : BitVec 16} {v : Word32}
    (hbits : configurationBits addr = none) :
    exec (.writeFrame addr v) s = .next (s.setMgmt (s.mgmt.refusedNow .undefined)) := by
  rw [exec_writeFrame, execWriteFrame]
  rw [show s.spiClear.config.write addr v = none from Configuration.write_of_none hbits]
  rfl

theorem exec_undefinedCommandByte (cmd : Byte) (addr : BitVec 16) (v : Word32) (s : State) :
    exec (.undefinedCommandByte cmd addr v) s = execUndefinedCommandByte cmd addr v s := rfl

/-! ## The bytes of a management frame (R180) -/

theorem byteOfWord_zero (b : Byte) (n : Nat) : byteOfWord (b.toNat + 2 ^ 8 * n) 0 = b := by
  refine BitVec.eq_of_toNat_eq ?_
  have hb : b.toNat < 256 := b.isLt
  simp only [byteOfWord, BitVec.toNat_ofNat]
  omega

theorem byteOfWord_succ (b : Byte) (n i : Nat) : byteOfWord (b.toNat + 2 ^ 8 * n) (i + 1) = byteOfWord n i := by
  have hb : b.toNat < 256 := b.isLt
  have hdiv : (b.toNat + 2 ^ 8 * n) / 2 ^ 8 = n := by omega
  rw [byteOfWord, byteOfWord, Nat.mul_succ, Nat.add_comm (8 * i), Nat.pow_add, ← Nat.div_div_eq_div_mul, hdiv]

/-- A frame of 56 bits spells the command of its command byte, its address and its data. -/
theorem decodeTableWord_of_bytes (cmd a1 a0 d3 d2 d1 d0 : Byte) :
    decodeTableWord 56 (cmd.toNat + 2 ^ 8 * a1.toNat + 2 ^ 16 * a0.toNat + 2 ^ 24 * d3.toNat + 2 ^ 32 * d2.toNat +
      2 ^ 40 * d1.toNat + 2 ^ 48 * d0.toNat) = some (frameCommand cmd (a1 ++ a0) (d3 ++ d2 ++ d1 ++ d0)) := by
  have hframe : cmd.toNat + 2 ^ 8 * a1.toNat + 2 ^ 16 * a0.toNat + 2 ^ 24 * d3.toNat + 2 ^ 32 * d2.toNat +
      2 ^ 40 * d1.toNat + 2 ^ 48 * d0.toNat = cmd.toNat + 2 ^ 8 * (a1.toNat + 2 ^ 8 * (a0.toNat + 2 ^ 8 * (d3.toNat +
        2 ^ 8 * (d2.toNat + 2 ^ 8 * (d1.toNat + 2 ^ 8 * (d0.toNat + 2 ^ 8 * 0)))))) := by ring
  rw [hframe, decodeTableWord, if_pos rfl]
  simp only [byteOfWord_zero, byteOfWord_succ]

/-- Settles O14: a frame that names a configuration word writes it in CONFIG, and the frame's bytes stand in their
places. -/
theorem writeFrameStoresOrIsRefused : Obligations.WriteFrameStoresOrIsRefused := by
  unfold Obligations.WriteFrameStoresOrIsRefused
  refine ⟨fun s addr v => ⟨fun bits hbits hdevice => ?_, fun bits hbits hdevice => ?_, exec_writeFrame_of_undefined,
    rfl⟩, decodeTableWord_of_bytes⟩
  · have haddr : (configurationBits addr).isSome = true := by rw [hbits]; rfl
    obtain ⟨c, hwrite, hword⟩ := Configuration.write_stores (c := s.config) (v := v) hbits
    refine ⟨_, exec_writeFrame_of_stored hwrite hdevice, rfl, ?_, fun other hne hother => ?_⟩
    · rw [State.readWord_config _ haddr]
      exact hword
    · rw [State.readWord_config _ hother, State.readWord_config _ hother]
      exact Configuration.word_write_ne hwrite hne hother
  · obtain ⟨c, hwrite, -⟩ := Configuration.write_stores (c := s.config) (v := v) hbits
    exact exec_writeFrame_of_not_config hwrite hdevice

/-! ## Refused frames (R164) -/

theorem exec_undefinedCommandByte_of_undefined {s : State} {cmd : Byte} {addr : BitVec 16} {v : Word32}
    (hread : cmd ≠ 0x01) (hwrite : cmd ≠ 0x02) (hcommand : ¬(0x10 ≤ cmd.toNat ∧ cmd.toNat ≤ 0x17)) :
    exec (.undefinedCommandByte cmd addr v) s = .next (s.setMgmt (s.mgmt.refusedNow .undefined)) := by
  have hdefined : ¬ definedCommandByte cmd = true := by
    simp only [definedCommandByte, Bool.or_eq_true, Bool.and_eq_true, decide_eq_true_eq]
    tauto
  rw [exec_undefinedCommandByte, execUndefinedCommandByte, if_neg hread, if_neg hdefined]
  rfl

theorem exec_portReset (arg : BitVec 16) (s : State) :
    exec (.portReset arg) s = (s.command .portReset (State.portResetAct arg)).concluded := rfl

theorem exec_clearHalt (arg : BitVec 16) (s : State) :
    exec (.clearHalt arg) s = (s.command .clearHalt (State.clearHaltAct arg)).concluded := rfl

theorem exec_readContext (arg : BitVec 16) (s : State) :
    exec (.readContext arg) s = (s.command .readContext (State.readContextAct arg)).concluded := rfl

theorem exec_clearCounters (s : State) : exec .clearCounters s = .next (s.command .clearCounters State.clearCountersAct) :=
  rfl

/-- Settles O15: each command but RESTART goes through the acceptance of R164, and the end of the event finds nothing to
do. -/
theorem refusedFramesChangeNothing : Obligations.RefusedFramesChangeNothing := by
  unfold Obligations.RefusedFramesChangeNothing
  refine ⟨fun s cmd addr v => exec_undefinedCommandByte_of_undefined, fun s c arg hquiet hflight hc => ?_⟩
  have hends : (s.setMgmt (s.mgmt.refusedNow .inFlight)).concluded = .next (s.setMgmt (s.mgmt.refusedNow .inFlight)) :=
    by rw [State.concluded, State.finish_setMgmt hquiet]
  obtain rfl | rfl | rfl | rfl | rfl | rfl | rfl := hc
  · rw [exec_init, State.command_refused hflight]
  · rw [exec_portReset, State.command_refused hflight, hends]
  · rw [exec_clearHalt, State.command_refused hflight, hends]
  · rw [exec_readFlow, State.command_refused hflight]
  · rw [exec_readContext, State.command_refused hflight, hends]
  · rw [exec_readSlot, State.command_refused hflight]
  · rw [exec_clearCounters, State.command_refused hflight]

/-! ## PORT_RESET of a port that is not UP (R170) -/

theorem State.portResetAct_of_badArg {s : State} {arg : BitVec 16} (harg : 3 < arg.toNat) :
    s.portResetAct arg = s.commandDone .badArg noWords := by
  rw [State.portResetAct, dif_neg (by omega)]
  rfl

theorem State.portResetAct_of_port {s : State} {arg : BitVec 16} {p : PortId} (harg : p.val = arg.toNat) :
    s.portResetAct arg = (match (s.unit p).state with
      | .up => s.teardown p .down
      | .fault => s.setUnit p { s.unit p with state := .down }
      | .down => s).commandDone .ok noWords := by
  have hp : (⟨arg.toNat, harg ▸ p.isLt⟩ : PortId) = p := Fin.ext harg.symm
  rw [State.portResetAct, dif_pos (harg ▸ p.isLt), hp]
  rfl

/-- Settles O16. -/
theorem portResetOfADownPort : Obligations.PortResetOfADownPort := by
  unfold Obligations.PortResetOfADownPort
  refine fun s arg hquiet hfree => ⟨fun harg => ?_, fun p harg => ⟨fun hdown => ?_, fun hfault => ?_⟩⟩
  · rw [exec_portReset, State.command_accepted hfree, State.portResetAct_of_badArg harg, State.commandDone_accepted,
      State.concluded, State.finish_setMgmt hquiet]
  · rw [exec_portReset, State.command_accepted hfree, State.portResetAct_of_port harg, State.unit_setMgmt, hdown,
      State.concluded]
    dsimp only
    rw [State.commandDone_accepted, State.finish_setMgmt hquiet]
  · rw [exec_portReset, State.command_accepted hfree, State.portResetAct_of_port harg, State.unit_setMgmt, hfault,
      State.concluded, State.finish_of_quiet]
    · rfl
    · rw [← hquiet]
      exact State.quiet_congr rfl rfl rfl (State.sameQuiet_setUnit (s := s) ⟨rfl, rfl, rfl⟩)

/-! ## READ_CONTEXT and CLEAR_COUNTERS (R157, R161, R173, R174) -/

theorem State.readContextAct_of_not_running {s : State} {arg : BitVec 16} (hdevice : s.mgmt.device ≠ .running) :
    s.readContextAct arg = s.commandDone .notReady noWords := if_pos hdevice

theorem State.readContextAct_of_badArg {s : State} {arg : BitVec 16} (hdevice : s.mgmt.device = .running)
    (harg : 4095 < arg.toNat) : s.readContextAct arg = s.commandDone .badArg noWords := by
  rw [State.readContextAct, if_neg (not_not_intro hdevice), dif_neg (by omega)]
  rfl

theorem State.readContextAct_of_flow {s : State} {arg : BitVec 16} {f : FlowId} (hdevice : s.mgmt.device = .running)
    (harg : f.val = arg.toNat) : s.readContextAct arg = s.setMem { s.mem with mgmtRead := some f } := by
  have hf : (⟨arg.toNat, harg ▸ f.isLt⟩ : FlowId) = f := Fin.ext harg.symm
  rw [State.readContextAct, if_neg (not_not_intro hdevice), dif_pos (harg ▸ f.isLt), hf]

/-- A management read does not count among the beat reads. -/
theorem State.readDue_mgmtRead (s : State) (f : FlowId) (p : PortId) :
    (s.setMem { s.mem with mgmtRead := some f }).readDue p = s.readDue p := rfl

/-- Where no fill, no spill and no port's access is to be granted, the management read is (R157). -/
theorem MemController.grant_of_mgmtRead {m : MemController} {f : FlowId} (hnone : m.inProgress = none)
    (hfills : m.fillQueue = []) (hspills : m.spillQueue = []) (hports : ∀ p, m.eligible p = false)
    (hread : m.mgmtRead = some f) : m.grant = { m with mgmtRead := none, inProgress := some (.diagnostic f) } := by
  have hfind : (rotation m.lastPort).find? m.eligible = none := List.find?_eq_none.2 (fun p _ => by simp [hports p])
  unfold MemController.grant
  simp only [hnone, hfills, hspills, hfind, hread, Option.isSome_none, Bool.false_eq_true, if_false]

theorem MemController.grant_of_busy {m : MemController} (hbusy : m.inProgress ≠ none) : m.grant = m :=
  if_pos (Option.isSome_iff_ne_none.2 hbusy)

theorem MemController.not_eligible_of_empty {m : MemController} {p : PortId} (h : m.portQueue[p] = []) :
    m.eligible p = false := by
  unfold MemController.eligible
  rw [h]

/-- In a quiet state no access waits unless one is in progress. -/
theorem State.noneWaits_of_quiet {s : State} (hquiet : s.quiet = true) (hnone : s.mem.inProgress = none) :
    s.mem.noneWaits := by
  obtain ⟨-, -, -, hbusy | hempty⟩ := s.quiet_iff.1 hquiet
  · rw [hnone] at hbusy
    cases hbusy
  · exact hempty

/-- The end of an event that hands the diagnostic read to the memory controller. -/
theorem State.finish_mgmtRead {s : State} (hquiet : s.quiet = true) (f : FlowId) :
    (s.setMem { s.mem with mgmtRead := some f }).finish = s.setMem
      (if s.mem.inProgress = none then { s.mem with inProgress := some (.diagnostic f) }
        else { s.mem with mgmtRead := some f }) := by
  have hreads (p : PortId) : (s.setMem { s.mem with mgmtRead := some f }).readDue p = false := by
    rw [State.readDue_mgmtRead]
    exact ((s.quiet_iff.1 hquiet).2.1 p).2
  rw [State.finish_setMem hquiet _ hreads]
  split
  · next hnone =>
    obtain ⟨hfills, hspills, hports, hread⟩ := State.noneWaits_of_quiet hquiet hnone
    refine congrArg s.setMem ((MemController.grant_of_mgmtRead (m := { s.mem with mgmtRead := some f }) hnone hfills
      hspills (fun p => MemController.not_eligible_of_empty (hports p)) rfl).trans ?_)
    rw [← hread]
  · next hbusy => exact congrArg s.setMem (MemController.grant_of_busy (m := { s.mem with mgmtRead := some f }) hbusy)

theorem exec_diagnosticReadCompletion_of_inProgress {s : State} {f : FlowId} {e0 e1 e2 e3 : ErrorPattern}
    (haccess : s.mem.inProgress = some (.diagnostic f)) :
    exec (.diagnosticReadCompletion e0 e1 e2 e3) s =
      ((s.accessEnded.countCorrected (s.readRecord f #v[e0, e1, e2, e3]).toList).commandDone .ok
        (diagnosticWords (s.readRecord f #v[e0, e1, e2, e3]))).concluded := by
  change execDiagnosticReadCompletion e0 e1 e2 e3 s = _
  rw [execDiagnosticReadCompletion, haccess]

/-- Settles O18: the completion counts and reports the words as read; the command hands over the read, which is granted
where nothing is in progress. -/
theorem readContextReportsTheRecord : Obligations.ReadContextReportsTheRecord := by
  unfold Obligations.ReadContextReportsTheRecord
  refine ⟨fun s f e0 e1 e2 e3 hlast haccess => ?_, fun s arg hquiet hfree => ⟨fun hdevice => ?_,
    fun hdevice harg => ?_, fun f harg hdevice => ?_⟩⟩
  · refine ⟨(s.accessEnded.countCorrected (s.readRecord f #v[e0, e1, e2, e3]).toList).commandDone .ok
      (diagnosticWords (s.readRecord f #v[e0, e1, e2, e3])), ?_, rfl, rfl, rfl⟩
    rw [exec_diagnosticReadCompletion_of_inProgress haccess, State.concluded, State.finish_of_quiet]
    exact hlast
  · rw [exec_readContext, State.command_accepted hfree, State.readContextAct_of_not_running (by exact hdevice),
      State.commandDone_accepted, State.concluded, State.finish_setMgmt hquiet]
  · rw [exec_readContext, State.command_accepted hfree, State.readContextAct_of_badArg (by exact hdevice) harg,
      State.commandDone_accepted, State.concluded, State.finish_setMgmt hquiet]
  · have hquiet' : (s.setMgmt (s.mgmt.acceptedNow .readContext)).quiet = true := by rw [State.quiet_setMgmt, hquiet]
    rw [exec_readContext, State.command_accepted hfree, State.readContextAct_of_flow (by exact hdevice) harg,
      State.concluded, State.finish_mgmtRead hquiet', State.mem_setMgmt]
    exact ⟨fun hnone => by rw [if_pos hnone], fun hbusy => by rw [if_neg hbusy]⟩

/-- Settles O19. -/
theorem clearCountersKeepsStranded : Obligations.ClearCountersKeepsStranded := by
  unfold Obligations.ClearCountersKeepsStranded
  intro s hfree
  rw [exec_clearCounters, State.command_accepted hfree]
  rfl

end Sys2Proof.Machine

/-! SUPPORT. The SRAM words, the context record and the arbiter: the check of a word, a record's fields and check byte,
a record that is stored and read back, and what is granted. -/

namespace Sys2Proof.Machine

/-! ## The check of a word (R154, R155) -/

/-- At most one wrong bit leaves the word as it was written, and does not make it uncorrectable. -/
theorem checkWord_of_le_one {w : Word64} {e : ErrorPattern} (h : onesIn e.data + onesIn e.code ≤ 1) :
    (checkWord w e).data = w ∧ (checkWord w e).outcome ≠ .uncorrectable := by
  unfold checkWord errorWeight
  obtain h0 | h1 : onesIn e.data + onesIn e.code = 0 ∨ onesIn e.data + onesIn e.code = 1 := by omega
  · simp [h0]
  · simp [h1]

theorem checkWord_of_one {w : Word64} {e : ErrorPattern} (h : onesIn e.data + onesIn e.code = 1) :
    checkWord w e = { outcome := .corrected, data := w } := by
  unfold checkWord errorWeight
  rw [if_neg (by omega), if_pos h]

theorem checkWord_of_two {w : Word64} {e : ErrorPattern} (h : onesIn e.data + onesIn e.code = 2) :
    (checkWord w e).outcome = .uncorrectable := by
  unfold checkWord errorWeight
  rw [if_neg (by omega), if_neg (by omega), if_pos h]

/-- Settles O55. -/
theorem checkCodeCorrectsOneBit : Obligations.CheckCodeCorrectsOneBit := by
  unfold Obligations.CheckCodeCorrectsOneBit
  refine fun s a w e => ⟨?_, fun h => ?_, fun h => ?_, fun b hb => State.readSram_writeSram_ne s w e hb⟩
  · rw [State.readSram_writeSram_self]
    rfl
  · rw [State.readSram_writeSram_self, checkWord_of_one h]
  · rw [State.readSram_writeSram_self, checkWord_of_two h]

/-! ## The context record (R159, R160, R179) -/

section
variable (c : Context)

theorem Context.body_of_record : c.record.extractLsb' 8 248 = c.body := by
  simp only [Context.record, BitVec.extractLsb'_append_eq_of_le, Nat.le_refl, Nat.sub_self, BitVec.extractLsb'_eq_self]

theorem Context.check_of_record : c.record.extractLsb' 0 8 = crc8 c.body := by
  simp only [Context.record, BitVec.extractLsb'_append_eq_of_add_le, Nat.zero_add, Nat.le_refl,
    BitVec.extractLsb'_eq_self]

theorem Context.recordSound_record : recordSound c.record = true := by
  rw [recordSound, c.body_of_record, c.check_of_record, decide_eq_true_eq]

/-- The bits of a record above its check byte are those of its body. -/
theorem Context.extractLsb'_record {start len : Nat} (h : 8 ≤ start) :
    c.record.extractLsb' start len = c.body.extractLsb' (start - 8) len :=
  BitVec.extractLsb'_append_eq_of_le h

/-- Each field stands in the body where the layout puts it, and is read from there. -/
theorem Context.ofRecord_record : Context.ofRecord c.record = c := by
  unfold Context.ofRecord
  simp (disch := decide) only [Context.extractLsb'_record, Context.body, BitVec.extractLsb'_append_eq_of_le,
    BitVec.extractLsb'_append_eq_of_add_le, Nat.reduceSub]
  simp only [Nat.reduceAdd, Nat.reduceSub, BitVec.extractLsb'_eq_self]

/-- The bits that no field has are 0. -/
theorem Context.spare_record : c.record.extractLsb' 8 48 = 0 ∧ c.record.extractLsb' 175 1 = 0 ∧
    c.record.extractLsb' 166 2 = 0 := by
  simp (disch := decide) only [Context.extractLsb'_record, Context.body, BitVec.extractLsb'_append_eq_of_le,
    BitVec.extractLsb'_append_eq_of_add_le, Nat.reduceSub]
  simp only [Nat.reduceAdd, Nat.reduceSub, BitVec.extractLsb'_eq_self, BitVec.ofNat_eq_ofNat, and_self]

end

/-- Settles O57. -/
theorem contextRecordRoundTrips : Obligations.ContextRecordRoundTrips := by
  unfold Obligations.ContextRecordRoundTrips
  intro c
  obtain ⟨hbytes, hbit, hbits⟩ := c.spare_record
  have hbit' : c.record.getLsbD 175 = (c.record.extractLsb' 175 1).getLsbD 0 := by simp
  exact ⟨c.ofRecord_record, c.recordSound_record, hbytes, by rw [hbit', hbit]; rfl, hbits⟩

/-- The four words of a record make it up. -/
theorem recordOfWords_recordWord (r : BitVec 256) :
    recordOfWords (recordWord r 0) (recordWord r 1) (recordWord r 2) (recordWord r 3) = r := by
  have h01 : r.extractLsb' 192 64 ++ r.extractLsb' 128 64 = r.extractLsb' 128 128 :=
    BitVec.extractLsb'_append_extractLsb'_eq_extractLsb' rfl
  have h012 : r.extractLsb' 128 128 ++ r.extractLsb' 64 64 = r.extractLsb' 64 192 :=
    BitVec.extractLsb'_append_extractLsb'_eq_extractLsb' rfl
  have hall : r.extractLsb' 64 192 ++ r.extractLsb' 0 64 = r.extractLsb' 0 256 :=
    BitVec.extractLsb'_append_extractLsb'_eq_extractLsb' rfl
  calc recordOfWords (recordWord r 0) (recordWord r 1) (recordWord r 2) (recordWord r 3)
      = ((r.extractLsb' 192 64 ++ r.extractLsb' 128 64) ++ r.extractLsb' 64 64) ++ r.extractLsb' 0 64 := rfl
    _ = r := by rw [h01, h012, hall, BitVec.extractLsb'_eq_self]

/-! ## A record stored and read back (R156, R160) -/

section
variable {f : FlowId} {r : BitVec 256}

/-- The words of a record, written one after another (R156). -/
def State.writeRecordWords (f : FlowId) (r : BitVec 256) (l : List Nat) (s : State) : State :=
  l.foldl (fun s i => s.writeSram (s.recordWordAddr f i) (recordWord r i)) s

theorem State.readSram_writeRecordWords_ne (l : List Nat) (s : State) {i : Nat} (e : ErrorPattern) (hi : i ∉ l) :
    (s.writeRecordWords f r l).readSram (s.recordWordAddr f i) e = s.readSram (s.recordWordAddr f i) e := by
  induction l generalizing s with
  | nil => rfl
  | cons j l ih =>
    obtain ⟨hij, hil⟩ := not_or.1 (List.mem_cons.not.1 hi)
    have haddr : s.recordWordAddr f i ≠ s.recordWordAddr f j := by unfold State.recordWordAddr; omega
    exact (ih (s.writeSram (s.recordWordAddr f j) (recordWord r j)) hil).trans
      (State.readSram_writeSram_ne s _ e haddr)

theorem State.readSram_writeRecordWords (l : List Nat) (s : State) {i : Nat} (e : ErrorPattern) (hi : i ∈ l)
    (hnodup : l.Nodup) :
    (s.writeRecordWords f r l).readSram (s.recordWordAddr f i) e = checkWord (recordWord r i) e := by
  induction l generalizing s with
  | nil => cases hi
  | cons j l ih =>
    obtain ⟨hj, hl⟩ := List.nodup_cons.1 hnodup
    obtain rfl | hil := List.mem_cons.1 hi
    · exact (State.readSram_writeRecordWords_ne l (s.writeSram (s.recordWordAddr f i) (recordWord r i)) e hj).trans
        (State.readSram_writeSram_self s _ _ e)
    · exact ih (s.writeSram (s.recordWordAddr f j) (recordWord r j)) hil hl

theorem State.config_writeRecordWords (l : List Nat) (s : State) : (s.writeRecordWords f r l).config = s.config := by
  induction l generalizing s with
  | nil => rfl
  | cons j l ih => exact ih _

theorem State.storeRecord_eq (s : State) (S : SlotId) (f : FlowId) :
    s.storeRecord S f = s.writeRecordWords f (s.slot S).context.record (List.range 4) := rfl

theorem State.readSram_storeRecord (s : State) (S : SlotId) (f : FlowId) (e : ErrorPattern) {i : Nat} (hi : i < 4) :
    (s.storeRecord S f).readSram ((s.storeRecord S f).recordWordAddr f i) e =
      checkWord (recordWord (s.slot S).context.record i) e := by
  have haddr : (s.storeRecord S f).recordWordAddr f i = s.recordWordAddr f i := by
    unfold State.recordWordAddr
    rw [State.storeRecord_eq, State.config_writeRecordWords]
  rw [haddr, State.storeRecord_eq]
  exact State.readSram_writeRecordWords (List.range 4) s e (List.mem_range.2 hi) List.nodup_range

theorem State.readRecord_storeRecord (s : State) (S : SlotId) (f : FlowId) (es : Vector ErrorPattern 4) :
    (s.storeRecord S f).readRecord f es =
      #v[checkWord (recordWord (s.slot S).context.record 0) es[0],
        checkWord (recordWord (s.slot S).context.record 1) es[1],
        checkWord (recordWord (s.slot S).context.record 2) es[2],
        checkWord (recordWord (s.slot S).context.record 3) es[3]] := by
  simp (disch := decide) only [State.readRecord, State.readSram_storeRecord]

end

/-- Settles O56: each word comes back as it was written, so the record does, and with it the context. -/
theorem spilledContextComesBack : Obligations.SpilledContextComesBack := by
  unfold Obligations.SpilledContextComesBack
  intro s S f es hes
  have hword (i : Fin 4) := checkWord_of_le_one (w := recordWord (s.slot S).context.record i.val) (hes i)
  obtain ⟨hdata0, hgood0⟩ := hword 0
  obtain ⟨hdata1, hgood1⟩ := hword 1
  obtain ⟨hdata2, hgood2⟩ := hword 2
  obtain ⟨hdata3, hgood3⟩ := hword 3
  have hrecord : recordOfReports ((s.storeRecord S f).readRecord f es) = (s.slot S).context.record := by
    rw [State.readRecord_storeRecord]
    calc recordOfWords _ _ _ _
        = recordOfWords (recordWord (s.slot S).context.record 0) (recordWord (s.slot S).context.record 1)
            (recordWord (s.slot S).context.record 2) (recordWord (s.slot S).context.record 3) := by
          exact congr (congr (congr (congrArg recordOfWords hdata0) hdata1) hdata2) hdata3
      _ = (s.slot S).context.record := recordOfWords_recordWord _
  refine ⟨?_, by rw [hrecord, Context.ofRecord_record]⟩
  rw [fillSound, hrecord, Context.recordSound_record, Bool.and_true, State.readRecord_storeRecord]
  simp only [Vector.toList_mk, List.all_cons, List.all_nil, Bool.and_true, Bool.and_eq_true, decide_eq_true_eq]
  exact ⟨hgood0, hgood1, hgood2, hgood3⟩

/-! ## The arbiter (R157, R158) -/

namespace MemController

variable {m : MemController}

theorem grant_of_fill {S : SlotId} {f : FlowId} {q : List (SlotId × FlowId)} (hnone : m.inProgress = none)
    (hfills : m.fillQueue = (S, f) :: q) :
    m.grant = { m with fillQueue := q, inProgress := some (.fill S f) } := by
  unfold grant
  simp only [hnone, hfills, Option.isSome_none, Bool.false_eq_true, if_false]

theorem grant_of_spill {S : SlotId} {f : FlowId} {q : List (SlotId × FlowId)} (hnone : m.inProgress = none)
    (hfills : m.fillQueue = []) (hspills : m.spillQueue = (S, f) :: q) :
    m.grant = { m with spillQueue := q, inProgress := some (.spill S f) } := by
  unfold grant
  simp only [hnone, hfills, hspills, Option.isSome_none, Bool.false_eq_true, if_false]

/-- The ports in rotation are those after the last one granted, in steps of one (R157). -/
theorem rotation_eq (last : PortId) : rotation last = (List.range 4).map (fun k => last + 1 + Fin.ofNat 4 k) := by
  revert last
  decide

/-- The first eligible port in rotation. -/
theorem find?_rotation {p : PortId} {k : Nat} (hk : k < 4) (hp : p = m.lastPort + 1 + Fin.ofNat 4 k)
    (helig : m.eligible p = true) (hbefore : ∀ j, j < k → m.eligible (m.lastPort + 1 + Fin.ofNat 4 j) = false) :
    (rotation m.lastPort).find? m.eligible = some p := by
  have hfirst : (List.range 4).find? (m.eligible ∘ fun k => m.lastPort + 1 + Fin.ofNat 4 k) = some k :=
    List.find?_range_eq_some.2 ⟨by rw [Function.comp, ← hp]; exact helig, List.mem_range.2 hk,
      fun j hj => by rw [Function.comp, hbefore j hj]; rfl⟩
  rw [rotation_eq, List.find?_map, hfirst, hp]
  rfl

theorem grant_of_write {p : PortId} {w : WordWrite} {q : List PortAccess} (hnone : m.inProgress = none)
    (hfills : m.fillQueue = []) (hspills : m.spillQueue = [])
    (hfind : (rotation m.lastPort).find? m.eligible = some p) (hqueue : m.portQueue[p] = .write w :: q) :
    m.grant = { m.setQueue p q with inProgress := some (.wordWrite p w), lastPort := p } := by
  unfold grant
  simp only [hnone, hfills, hspills, hfind, Option.isSome_none, Bool.false_eq_true, if_false]
  rw [hqueue]

theorem grant_of_read {p : PortId} {r : BeatRead} {q : List PortAccess} (hnone : m.inProgress = none)
    (hfills : m.fillQueue = []) (hspills : m.spillQueue = [])
    (hfind : (rotation m.lastPort).find? m.eligible = some p) (hqueue : m.portQueue[p] = .read r :: q) :
    m.grant = { m.setQueue p q with inProgress := some (.beatRead p r), lastPort := p } := by
  unfold grant
  simp only [hnone, hfills, hspills, hfind, Option.isSome_none, Bool.false_eq_true, if_false]
  rw [hqueue]

/-- A read at the head of its queue is eligible (R158). -/
theorem eligible_of_read {p : PortId} {r : BeatRead} {q : List PortAccess} (h : m.portQueue[p] = .read r :: q) :
    m.eligible p = true := by
  unfold eligible
  rw [h]

theorem earlierWrite_eq_false_iff {seg stamp : Nat} {q : List PortAccess} :
    earlierWrite seg stamp q = false ↔ ∀ v, .write v ∈ q → v.seg = seg → stamp ≤ v.stamp := by
  unfold earlierWrite
  rw [List.any_eq_false]
  constructor
  · intro h v hv hseg
    have hnot := h _ hv
    simp only [Bool.and_eq_true, decide_eq_true_eq] at hnot
    exact Nat.le_of_not_lt (fun hlt => hnot ⟨hseg, hlt⟩)
  · rintro h (v | r) hx
    · simp only [Bool.and_eq_true, decide_eq_true_eq]
      exact fun ⟨hseg, hlt⟩ => absurd (h v hx hseg) (Nat.not_le.2 hlt)
    · simp

/-- A write at the head of its queue is eligible where no other queue holds an earlier one to its segment (R158). -/
theorem eligible_of_write {p : PortId} {w : WordWrite} {q : List PortAccess} (h : m.portQueue[p] = .write w :: q) :
    m.eligible p = true ↔
      ∀ o : PortId, o ≠ p → ∀ v, .write v ∈ m.portQueue[o] → v.seg = w.seg → w.stamp ≤ v.stamp := by
  have hports (o : PortId) : o ∈ allPorts := by fin_cases o <;> simp [allPorts]
  unfold eligible
  rw [h]
  simp only [List.all_eq_true, Bool.or_eq_true, decide_eq_true_eq, Bool.not_eq_true', earlierWrite_eq_false_iff]
  exact ⟨fun hall o ho => (hall o (hports o)).resolve_left ho, fun hall o _ => or_iff_not_imp_left.2 (hall o)⟩

end MemController

/-- Settles O59. -/
theorem arbiterGrantsInOrder : Obligations.ArbiterGrantsInOrder := by
  unfold Obligations.ArbiterGrantsInOrder
  refine fun m => ⟨MemController.grant_of_busy, fun hnone => ⟨fun S f q => MemController.grant_of_fill hnone,
    fun S f q => MemController.grant_of_spill hnone, fun p k hfills hspills hk hp helig hbefore => ?_,
    fun f hfills hspills => MemController.grant_of_mgmtRead hnone hfills hspills⟩,
    fun p r q => MemController.eligible_of_read, fun p w q => MemController.eligible_of_write⟩
  have hfind := MemController.find?_rotation hk hp helig hbefore
  exact ⟨fun w q => MemController.grant_of_write hnone hfills hspills hfind,
    fun r q => MemController.grant_of_read hnone hfills hspills hfind⟩

end Sys2Proof.Machine

/-! SUPPORT. The framing layer's events: a port that leaves UP, the frames from the master, RETURN, and CREDIT. -/

namespace Sys2Proof.Machine

/-! ## A port that has left UP (R148, R150) -/

/-- A port unit that has left UP, with its last fault and its inbound side empty. -/
def PortUnit.leftFor (u : PortUnit) (st : PortState) (v : LastFault) : Prop :=
  u.state = st ∧ u.lastFault = v ∧ u.inbound = [] ∧ u.inboundCredits = 0

section
variable {s t : State} {p : PortId} {st : PortState} {v : LastFault}

theorem Work.leftFor (h : Work s t) (hs : (s.unit p).leftFor st v) : (t.unit p).leftFor st v := by
  cases h with
  | unit q u hstate hfault hinbound hcredits =>
    rw [State.unit_setUnit]
    split
    · next hp =>
      unfold PortUnit.leftFor
      rw [hstate, hfault, hinbound, hcredits, ← hp]
      exact hs
    · exact hs
  | _ => exact hs

/-- The outbound queue of a port that is not UP stays empty (R150). -/
theorem Work.outbound_of_not_up (h : Work s t) (hup : (s.unit p).state ≠ .up) (hs : (s.unit p).outbound = []) :
    (t.unit p).outbound = [] := by
  cases h with
  | unit q u _ _ _ _ hout =>
    rw [State.unit_setUnit]
    split
    · next hp =>
      subst hp
      exact (hout hup).elim (fun hsame => hsame.trans hs) id
    · exact hs
  | _ => exact hs

theorem Works.leftFor (h : Works s t) (hs : (s.unit p).leftFor st v) : (t.unit p).leftFor st v :=
  h.keeps (fun u => (u.unit p).leftFor st v) (fun _ _ => Work.leftFor) hs

/-- A teardown leaves the port in the state given, with its buffers and its queue empty and its last fault kept. -/
theorem State.leftFor_teardown (s : State) (p : PortId) (st : PortState) :
    ((s.teardown p st).unit p).leftFor st (s.unit p).lastFault ∧ ((s.teardown p st).unit p).outbound = [] := by
  refine ⟨(s.works_teardown p st).leftFor ?_, ?_⟩
  · rw [State.unit_setUnit_self]
    exact ⟨rfl, rfl, rfl, rfl⟩
  · have hcleared : ∃ u : State, s.teardown p st = u.setUnit p (u.unit p).cleared := ⟨_, rfl⟩
    obtain ⟨u, hu⟩ := hcleared
    rw [hu, State.unit_setUnit_self]
    rfl

/-- What follows in the event leaves a port that has been torn down as it is. -/
theorem State.shut_of_teardown (hst : st ≠ .up) (h : Works (s.teardown p st) t) :
    (t.unit p).state = st ∧ (t.unit p).lastFault = (s.unit p).lastFault ∧ (t.unit p).shut := by
  obtain ⟨hleft, hout⟩ := s.leftFor_teardown p st
  have hkept := h.keeps (fun u => (u.unit p).leftFor st (s.unit p).lastFault ∧ (u.unit p).outbound = [])
    (fun a b hwork ha => ⟨hwork.leftFor ha.1, hwork.outbound_of_not_up (by rw [ha.1.1]; exact hst) ha.2⟩) ⟨hleft, hout⟩
  obtain ⟨⟨hstate, hfault, hinbound, hcredits⟩, hout⟩ := hkept
  exact ⟨hstate, hfault, hinbound, hcredits, hout⟩

/-- A violation takes the port to FAULT, with it as the last fault, and the end of the event leaves it there (R148). -/
theorem State.faulted_violation (s : State) (p : PortId) (v : LastFault) :
    ∃ t, (s.violation p v).concluded = .next t ∧ t.faulted p v := by
  refine ⟨(s.violation p v).finish, rfl, ?_⟩
  have hshut := State.shut_of_teardown (s := s.setUnit p { s.unit p with lastFault := v }) (p := p) (st := .fault)
    (by decide) (Works.refl _).finish
  rw [State.unit_setUnit_self] at hshut
  exact hshut

end

/-! ## FRAME_ARRIVAL (R139, R148, R177) -/

theorem exec_frameArrival (p : PortId) (f : LinkFrame) (s : State) :
    exec (.frameArrival p f) s = execFrameArrival p f s := rfl

section
variable {s : State} {p : PortId} {f : LinkFrame} {m : Message}

theorem exec_frameArrival_of_message (hup : (s.unit p).state = .up) (hm : frameMessage f = some m)
    (hcredit : 0 < (s.unit p).inboundCredits) :
    exec (.frameArrival p f) s = .next (s.setUnit p { s.unit p with
      inboundCredits := (s.unit p).inboundCredits - 1, inbound := (s.unit p).inbound ++ [m] }) := by
  rw [exec_frameArrival, execFrameArrival]
  dsimp only
  rw [if_neg (not_not_intro hup), hm]
  exact if_neg (Nat.ne_of_gt hcredit)

theorem exec_frameArrival_of_noCredit (hup : (s.unit p).state = .up) (hm : frameMessage f = some m)
    (hcredit : (s.unit p).inboundCredits = 0) :
    ∃ t, exec (.frameArrival p f) s = .next t ∧ t.faulted p .noCredit := by
  have hexec : exec (.frameArrival p f) s = (s.violation p .noCredit).concluded := by
    rw [exec_frameArrival, execFrameArrival, if_neg (not_not_intro hup), hm]
    exact if_pos hcredit
  rw [hexec]
  exact s.faulted_violation p .noCredit

theorem exec_frameArrival_of_corrupt (hup : (s.unit p).state = .up) (hm : frameMessage f = none) :
    ∃ t, exec (.frameArrival p f) s = .next t ∧ t.faulted p .corruptFrame := by
  have hexec : exec (.frameArrival p f) s = (s.violation p .corruptFrame).concluded := by
    rw [exec_frameArrival, execFrameArrival, if_neg (not_not_intro hup), hm]
  rw [hexec]
  exact s.faulted_violation p .corruptFrame

end

/-- Settles O24. -/
theorem frameArrivalFillsTheBuffer : Obligations.FrameArrivalFillsTheBuffer := by
  unfold Obligations.FrameArrivalFillsTheBuffer
  exact fun s p f => ⟨fun m => exec_frameArrival_of_message, fun m => exec_frameArrival_of_noCredit,
    exec_frameArrival_of_corrupt, fun hdown => if_pos hdown⟩

/-! ## Which frames are messages (R176 to R178) -/

theorem tag_of_headerByte (sub : Byte) : (BitVec.toFin (sub.extractLsb' 0 3)).val = sub.toNat % 8 := by
  simp

/-- A body of 8 bytes is the word whose bytes they are. -/
theorem wordOfBytes_of_eight (b0 b1 b2 b3 b4 b5 b6 b7 : Byte) :
    wordOfBytes [b0, b1, b2, b3, b4, b5, b6, b7] = b0 ++ b1 ++ b2 ++ b3 ++ b4 ++ b5 ++ b6 ++ b7 := by
  have hbytes : (List.range 8).map (wordByte (b0 ++ b1 ++ b2 ++ b3 ++ b4 ++ b5 ++ b6 ++ b7)) =
      [b0, b1, b2, b3, b4, b5, b6, b7] := by
    have hrange : List.range 8 = [0, 1, 2, 3, 4, 5, 6, 7] := rfl
    simp (disch := decide) only [hrange, List.map_cons, List.map_nil, wordByte, BitVec.extractLsb'_append_eq_of_le,
      BitVec.extractLsb'_append_eq_of_add_le, Nat.reduceSub, Nat.reduceMul]
    simp only [BitVec.extractLsb'_eq_self]
  rw [← hbytes, wordOfBytes_bytes]

theorem frameMessage_isSome_iff (kind sub : Byte) (body : List Byte) :
    (frameMessage (.whole kind sub body)).isSome = true ↔
      (kind = 0x10 ∧ body.length = 8) ∨ (kind = 0x20 ∧ 1 ≤ body.length ∧ body.length ≤ 16) ∨
        (kind = 0x30 ∧ body.length = 2) ∨ (kind = 0x40 ∧ body.length = 0) ∨ (kind = 0x50 ∧ body.length = 1) := by
  simp only [frameMessage]
  split_ifs with hrequest hdata hcut harm hcredit
  · exact iff_of_true rfl (.inl hrequest)
  · exact iff_of_true rfl (.inr (.inl hdata))
  · subst hcut
    match body with
    | [] => simp
    | [_] => simp
    | [_, _] => simp
    | _ :: _ :: _ :: _ => simp
  · exact iff_of_true rfl (.inr (.inr (.inr (.inl harm))))
  · subst hcredit
    match body with
    | [] => simp
    | [_] => simp
    | _ :: _ :: _ => simp
  · refine iff_of_false (by simp) ?_
    tauto

/-- The bits of a REQUEST body that the layout does not assign have no part in any field (R177). -/
theorem Request.ofBody_spare (body x : BitVec 64) :
    Request.ofBody (body ^^^ (x &&& 0x00E0F000000000F0)) = Request.ofBody body := by
  have hfield (start len : Nat) (h : (0x00E0F000000000F0 : BitVec 64).extractLsb' start len = 0) :
      (body ^^^ (x &&& 0x00E0F000000000F0)).extractLsb' start len = body.extractLsb' start len := by
    rw [BitVec.extractLsb'_xor, BitVec.extractLsb'_and, h]
    simp
  have hwait : (body ^^^ (x &&& 0x00E0F000000000F0)).getLsbD 48 = body.getLsbD 48 := by
    rw [BitVec.getLsbD_xor, BitVec.getLsbD_and, show (0x00E0F000000000F0 : BitVec 64).getLsbD 48 = false from rfl]
    simp
  unfold Request.ofBody bodyByte
  rw [hwait, hfield 32 12 (by decide), hfield 49 2 (by decide), hfield 51 2 (by decide), hfield 16 16 (by decide),
    hfield 8 8 (by decide), hfield 0 4 (by decide), hfield (8 * (7 - 0)) 8 (by decide)]

theorem frameMessage_data (sub : Byte) {body : List Byte} (hleast : 1 ≤ body.length) (hmost : body.length ≤ 16) :
    frameMessage (.whole 0x20 sub body) = some (.data body) := by
  simp only [frameMessage]
  rw [if_neg (by simp), if_pos ⟨trivial, hleast, hmost⟩]

theorem keptCount_eq (k : BitVec 16) : keptCount k = if k.toNat ≤ 16384 then k.toNat else 16384 :=
  Nat.min_def ..

/-- Settles O25. -/
theorem framesAreIdentifiedByKindAndLength : Obligations.FramesAreIdentifiedByKindAndLength := by
  unfold Obligations.FramesAreIdentifiedByKindAndLength
  refine ⟨rfl, frameMessage_isSome_iff, fun sub b0 b1 b2 b3 b4 b5 b6 b7 => ?_, fun sub body => frameMessage_data sub,
    fun sub b0 b1 => ⟨_, tag_of_headerByte sub, rfl⟩, fun sub => rfl, fun sub n => rfl, keptCount_eq,
    Request.ofBody_spare, fun s p f => exec_frameArrival_of_corrupt⟩
  rw [← wordOfBytes_of_eight]
  exact ⟨_, tag_of_headerByte sub, rfl⟩

/-! ## The end of an event that may bring a beat read (R92, R157) -/

/-- A beat read is due where the record says that the next one may be issued (R92). -/
theorem State.readDue_iff (s : State) (p : PortId) :
    s.readDue p = true ↔ s.mem.mayRead p (s.del p) (s.unit p).outbound := by
  have houtstanding : s.readOutstanding p = false ↔
      (∀ r, .read r ∉ s.mem.portQueue[p]) ∧ ∀ r, s.mem.inProgress ≠ some (.beatRead p r) := by
    unfold State.readOutstanding
    rw [Bool.or_eq_false_iff, List.any_eq_false]
    refine and_congr ⟨fun h r hr => h _ hr rfl, ?_⟩ ?_
    · rintro h (w | r) hx
      · simp
      · exact absurd hx (h r)
    · rcases s.mem.inProgress with _ | (_ | _ | _ | _ | _) <;> simp [eq_comm]
  simp only [State.readDue, MemController.mayRead, Bool.and_eq_true, decide_eq_true_eq, Bool.not_eq_true', houtstanding]
  tauto

/-- What the end of an event does where no request is handed on and a retry finds nothing waiting: the beat reads and the
grant. -/
theorem State.finish_eq {s : State} (hhand : ∀ p, s.handOnDue p = false) (hwaits : s.retryDue = true → s.noWaits) :
    s.finish = ({ s with retryDue := false } : State).issueReads.setMem
      ({ s with retryDue := false } : State).issueReads.mem.grant := by
  have hsettle : State.settle (4 * s.waiting + 4) s = { s with retryDue := false } := by
    cases hretry : s.retryDue with
    | false =>
      rw [State.settle_quiet _ _ hhand hretry, ← hretry]
    | true =>
      obtain ⟨hmiss, hlink⟩ := hwaits hretry
      have hnone : allPorts.find? s.handOnDue = none := List.find?_eq_none.2 (fun p _ => by simp [hhand p])
      have hempty : s.retryWaits = { s with retryDue := false } := by
        unfold State.retryWaits
        rw [hmiss, hlink]
        rfl
      have hstep (n : Nat) : State.settle (n + 1) s = State.settle n s.retryWaits := by
        rw [State.settle, hnone]
        exact if_pos hretry
      rw [hstep, hempty]
      exact State.settle_quiet _ _ hhand rfl
  unfold State.finish
  rw [hsettle]

theorem State.readDue_issueRead_ne (s : State) {p q : PortId} (h : q ≠ p) : (s.issueRead p).readDue q = s.readDue q := by
  have hdel : (s.issueRead p).del q = s.del q := State.del_setDel_ne _ _ h
  have hqueue : (s.issueRead p).mem.portQueue[q] = s.mem.portQueue[q] := by
    simp only [State.issueRead, MemController.setQueue, State.mem_setMem]
    exact Vector.getElem_set_ne _ _ (fun e => h (Fin.ext e.symm))
  have hunit : (s.issueRead p).unit q = s.unit q := rfl
  have hprogress : (s.issueRead p).mem.inProgress = s.mem.inProgress := rfl
  unfold State.readDue State.readOutstanding
  rw [hdel, hqueue, hunit, hprogress]

/-- Where no beat read is due at the ports of a list, none is issued for them. -/
theorem State.foldl_issueRead_of_none_due (l : List PortId) (s : State) (h : ∀ q ∈ l, s.readDue q = false) :
    l.foldl (fun s p => if s.readDue p then s.issueRead p else s) s = s := by
  induction l with
  | nil => rfl
  | cons q l ih =>
    rw [List.foldl_cons, h q (by simp)]
    exact ih (fun q hq => h q (by simp [hq]))

/-- Where no beat read but one port's can be due, that port's is issued if it is. -/
theorem State.issueReads_of_one {s : State} {p : PortId} (h : ∀ q, q ≠ p → s.readDue q = false) :
    s.issueReads = if s.readDue p then s.issueRead p else s := by
  have hmem : p ∈ allPorts := by fin_cases p <;> simp [allPorts]
  have hnodup : allPorts.Nodup := by decide
  obtain ⟨before, after, hports⟩ := List.append_of_mem hmem
  rw [hports] at hnodup
  have hapart := (List.nodup_cons.1 (List.nodup_middle.1 hnodup)).1
  have hbefore (q : PortId) (hq : q ∈ before) : s.readDue q = false :=
    h q (fun e => hapart (by simp [← e, hq]))
  have hafter (q : PortId) (hq : q ∈ after) : (if s.readDue p then s.issueRead p else s).readDue q = false := by
    have hqp : q ≠ p := fun e => hapart (by simp [← e, hq])
    split
    · rw [State.readDue_issueRead_ne _ hqp, h q hqp]
    · exact h q hqp
  rw [State.issueReads, hports, List.foldl_append, State.foldl_issueRead_of_none_due _ _ hbefore, List.foldl_cons]
  exact State.foldl_issueRead_of_none_due _ _ hafter

/-- The only eligible port is the one found in rotation. -/
theorem MemController.find?_rotation_of_only {m : MemController} {p : PortId} (helig : m.eligible p = true)
    (hothers : ∀ q, q ≠ p → m.eligible q = false) : (rotation m.lastPort).find? m.eligible = some p := by
  have hplace : ∀ last p : PortId, ∃ k, k < 4 ∧ p = last + 1 + Fin.ofNat 4 k ∧
      ∀ j, j < k → last + 1 + Fin.ofNat 4 j ≠ p := by decide
  obtain ⟨k, hk, hp, hbefore⟩ := hplace m.lastPort p
  exact MemController.find?_rotation hk hp helig (fun j hj => hothers _ (hbefore j hj))

@[simp] theorem MemController.portQueue_setQueue_self (m : MemController) (p : PortId) (q : List PortAccess) :
    (m.setQueue p q).portQueue[p] = q := Vector.getElem_set_self _

theorem MemController.portQueue_setQueue_ne (m : MemController) {p o : PortId} (q : List PortAccess) (h : o ≠ p) :
    (m.setQueue p q).portQueue[o] = m.portQueue[o] :=
  Vector.getElem_set_ne p.isLt o.isLt (fun e => h (Fin.ext e.symm))

theorem MemController.setQueue_setQueue_self (m : MemController) (p : PortId) (q : List PortAccess) :
    (m.setQueue p q).setQueue p m.portQueue[p] = m := by
  have hvec : (m.portQueue.set p.val q p.isLt).set p.val m.portQueue[p] p.isLt = m.portQueue := by
    rw [Vector.set_set]
    exact Vector.set_getElem_self _
  unfold MemController.setQueue
  rw [hvec]

/-- The memory controller when it has been handed one beat read, and nothing else waits (R157). -/
theorem MemController.grant_setQueue_read {m : MemController} (p : PortId) (r : BeatRead)
    (hwaits : m.inProgress ≠ none ∨ m.noneWaits) :
    (m.setQueue p (m.portQueue[p] ++ [.read r])).grant = m.withRead p r := by
  unfold MemController.withRead
  split
  · next hnone =>
    obtain ⟨hfills, hspills, hports, -⟩ := hwaits.resolve_left (not_not_intro hnone)
    have hqueue : (m.setQueue p (m.portQueue[p] ++ [.read r])).portQueue[p] = [.read r] := by
      rw [MemController.portQueue_setQueue_self, hports p]
      rfl
    have hothers (q : PortId) (hq : q ≠ p) :
        (m.setQueue p (m.portQueue[p] ++ [.read r])).eligible q = false :=
      MemController.not_eligible_of_empty (by rw [MemController.portQueue_setQueue_ne _ _ hq, hports q])
    rw [MemController.grant_of_read (m := m.setQueue p (m.portQueue[p] ++ [PortAccess.read r])) hnone hfills hspills
      (MemController.find?_rotation_of_only (MemController.eligible_of_read hqueue) hothers) hqueue]
    have hsame : (m.setQueue p (m.portQueue[p] ++ [.read r])).setQueue p [] = m := by
      rw [← hports p]
      exact m.setQueue_setQueue_self p _
    rw [hsame]
  · next hbusy => exact MemController.grant_of_busy hbusy

/-- Where no access waits, or one is in progress, nothing is granted (R157). -/
theorem MemController.grant_of_settled {m : MemController} (hwaits : m.inProgress ≠ none ∨ m.noneWaits) :
    m.grant = m := by
  by_cases hbusy : m.inProgress = none
  · obtain ⟨hfills, hspills, hports, hmgmt⟩ := hwaits.resolve_left (not_not_intro hbusy)
    have hfind : (rotation m.lastPort).find? m.eligible = none :=
      List.find?_eq_none.2 (fun p _ => by simp [MemController.not_eligible_of_empty (hports p)])
    unfold MemController.grant
    simp only [hbusy, hfills, hspills, hfind, hmgmt, Option.isSome_none, Bool.false_eq_true, if_false]
  · exact MemController.grant_of_busy hbusy

/-- The end of an event that may bring port `p`'s next beat read, and nothing else. -/
theorem State.readFollows_finish {s : State} {p : PortId} (hhand : ∀ q, s.handOnDue q = false)
    (hwaits : s.retryDue = true → s.noWaits) (hreads : ∀ q, q ≠ p → s.readDue q = false)
    (haccess : s.mem.inProgress ≠ none ∨ s.mem.noneWaits) :
    s.finish.readFollows p (s.del p) s.mem (s.unit p).outbound ∧ (∀ q, q ≠ p → s.finish.del q = s.del q) ∧
      s.finish = { s with retryDue := false, dels := s.finish.dels, mem := s.finish.mem } := by
  have hdue : ({ s with retryDue := false } : State).readDue p = s.readDue p := rfl
  rw [State.finish_eq hhand hwaits, State.issueReads_of_one (s := { s with retryDue := false }) (p := p) hreads, hdue]
  by_cases hread : s.readDue p = true
  · have hgrant : (({ s with retryDue := false } : State).issueRead p).mem.grant = s.mem.withRead p
        { bytes := (s.pool.readBytes (min 16 ((s.del p).planned - (s.del p).sent)) (s.del p).readSeg
            (s.del p).readOff).1, live := true } :=
      MemController.grant_setQueue_read p _ haccess
    rw [if_pos hread, hgrant]
    refine ⟨⟨fun _ => ⟨?_, rfl⟩, fun hnot => absurd ((s.readDue_iff p).1 hread) hnot⟩, fun q hq => ?_, rfl⟩
    · exact State.del_setDel_self _ _ _
    · exact State.del_setDel_ne _ _ hq
  · rw [if_neg hread]
    exact ⟨⟨fun hmay => absurd ((s.readDue_iff p).2 hmay) hread,
      fun _ => ⟨rfl, MemController.grant_of_settled haccess⟩⟩, fun q hq => rfl, rfl⟩

/-! ## RETURN_SENT and DEPARTURE (R139, R142, R145) -/

theorem exec_returnSent (p : PortId) (s : State) : exec (.returnSent p) s = execReturnSent p s := rfl

theorem exec_returnSent_of_returning {s : State} {p : PortId} (hleast : 1 ≤ (s.unit p).returning)
    (howed : (s.unit p).returnOwed ≤ 32) : exec (.returnSent p) s = .next (s.setUnit p { s.unit p with
      linkOut := [0xD0, 0x00, BitVec.ofNat 8 (s.unit p).returning], returning := (s.unit p).returnOwed
      returnOwed := 0 }) := by
  rw [exec_returnSent, execReturnSent]
  dsimp only
  rw [if_neg (by omega), Nat.min_eq_right howed, Nat.sub_eq_zero_of_le howed]
  rfl

theorem exec_departure (p : PortId) (s : State) : exec (.departure p) s = execDeparture p s := rfl

section
variable {s : State} {p : PortId} {m : OutMsg} {q : List OutMsg}

/-- A port that is not UP or has no outbound credit sends nothing. -/
theorem exec_departure_of_stopped (hout : (s.unit p).outbound = m :: q)
    (hstop : (s.unit p).state ≠ .up ∨ (s.unit p).outboundCredits = 0) : exec (.departure p) s = .next s := by
  rw [exec_departure, execDeparture]
  simp only [hout]
  refine if_neg ?_
  rintro ⟨hup, hcredit⟩
  obtain hdown | hnone := hstop
  · exact hdown hup
  · omega

theorem PortUnit.noticesPlaced_of_none_waits {u : PortUnit} (hready : u.readyWaiting = none)
    (hpool : u.poolLowWaiting = none) (hqueue : u.noticeQueue = []) : u.noticesPlaced = u :=
  PortUnit.placeNotices_of_none_waits hpool hqueue _ hready

/-- A departure writes no more of the port unit than its tags. -/
theorem PortUnit.tagDeparted_tags (u : PortUnit) (m : OutMsg) :
    u.tagDeparted m = { u with tags := (u.tagDeparted m).tags } := by
  unfold PortUnit.tagDeparted
  split
  · rfl
  · rfl
  · split <;> rfl
  · split <;> rfl
  all_goals rfl

/-- A departure with no notice waiting: the head goes out, and its tag follows it (R142, R145). -/
theorem exec_departure_of_sent (hout : (s.unit p).outbound = m :: q) (hready : (s.unit p).readyWaiting = none)
    (hpool : (s.unit p).poolLowWaiting = none) (hqueue : (s.unit p).noticeQueue = []) (hup : (s.unit p).state = .up)
    (hcredit : 0 < (s.unit p).outboundCredits) :
    exec (.departure p) s = (s.setUnit p (((s.unit p).sent m q).tagDeparted m)).concluded := by
  have hplaced : (((s.unit p).sent m q).tagDeparted m).noticesPlaced = ((s.unit p).sent m q).tagDeparted m := by
    rw [PortUnit.tagDeparted_tags]
    exact PortUnit.noticesPlaced_of_none_waits hready hpool hqueue
  rw [exec_departure, execDeparture]
  simp only [hout]
  rw [if_pos ⟨hup, hcredit⟩]
  exact congrArg (fun u => (s.setUnit p u).concluded) hplaced

theorem beatsIn_cons (q : List OutMsg) {m : OutMsg} (h : m.NotBeat) : beatsIn (m :: q) = beatsIn q := by
  cases m with
  | data bytes => exact absurd h id
  | _ => simp [beatsIn]

/-- The departure of a message that is no beat leaves nothing to do. -/
theorem State.finish_sent (hquiet : s.quiet = true) (hout : (s.unit p).outbound = m :: q) (hm : m.NotBeat) :
    (s.setUnit p (((s.unit p).sent m q).tagDeparted m)).finish =
      s.setUnit p (((s.unit p).sent m q).tagDeparted m) := by
  refine State.finish_of_quiet (hquiet ▸ State.quiet_congr rfl rfl rfl (State.sameQuiet_setUnit ?_))
  rw [PortUnit.tagDeparted_tags]
  exact ⟨rfl, rfl, by rw [hout, beatsIn_cons q hm]; rfl⟩

end

/-- What a departed message does to its tag, by its kind (R142, R145). -/
theorem PortUnit.tagDeparted_final {u : PortUnit} {t : TagId} {m : OutMsg}
    (h : (∃ st res, m = .response t st res .final) ∨ (∃ st n, m = .endMsg t st n .final)) :
    u.tagDeparted m = u.setTag t TagRecord.initial := by
  obtain ⟨st, res, rfl⟩ | ⟨st, n, rfl⟩ := h <;> rfl

theorem PortUnit.tagDeparted_busyAnswer {u : PortUnit} {t : TagId} {m : OutMsg}
    (h : (∃ st res, m = .response t st res .busyAnswer) ∨ (∃ st n, m = .endMsg t st n .busyAnswer)) :
    u.tagDeparted m = u.setTag t
      (if (u.tag t).unit.isSome then { u.tag t with busyAnswer := false } else TagRecord.initial) := by
  obtain ⟨st, res, rfl⟩ | ⟨st, n, rfl⟩ := h <;> exact (apply_ite (u.setTag t) _ _ _).symm

theorem OutMsg.notBeat_of_answer {m : OutMsg} {t : TagId} {role : AnswerRole}
    (h : (∃ st res, m = .response t st res role) ∨ (∃ st n, m = .endMsg t st n role)) : m.NotBeat := by
  obtain ⟨st, res, rfl⟩ | ⟨st, n, rfl⟩ := h <;> trivial

/-- The departure of a beat may bring the next beat read of the port (R92). -/
theorem State.readFollows_sent {s : State} {p : PortId} {bytes : List Byte} {q : List OutMsg} (hquiet : s.quiet = true) :
    let t := s.setUnit p ((s.unit p).sent (.data bytes) q)
    t.finish.readFollows p (s.del p) s.mem q ∧ (∀ o, o ≠ p → t.finish.del o = s.del o) ∧
      t.finish = { t with dels := t.finish.dels, mem := t.finish.mem } := by
  intro t
  obtain ⟨hretry, hports, -, haccess⟩ := s.quiet_iff.1 hquiet
  have hunit : t.unit p = (s.unit p).sent (.data bytes) q := State.unit_setUnit_self _ _ _
  have hother (o : PortId) (ho : o ≠ p) : t.unit o = s.unit o := State.unit_setUnit_ne _ _ ho
  have hhand (o : PortId) : t.handOnDue o = false := by
    rw [← (hports o).1]
    unfold State.handOnDue
    by_cases ho : o = p
    · subst ho
      rw [hunit]
      rfl
    · rw [hother o ho]
  have hreads (o : PortId) (ho : o ≠ p) : t.readDue o = false := by
    rw [← (hports o).2]
    unfold State.readDue
    rw [hother o ho]
    rfl
  have hfinish := State.readFollows_finish (s := t) (p := p) hhand (fun h => by rw [show t.retryDue = false from hretry] at h; cases h)
    hreads (haccess.imp_left Option.isSome_iff_ne_none.1)
  rw [hunit] at hfinish
  obtain ⟨hfollows, hdels, hframe⟩ := hfinish
  refine ⟨hfollows, hdels, hframe.trans ?_⟩
  rw [← show t.retryDue = false from hretry]

/-- Settles O26: the departure of a beat is the one that may bring a read. -/
theorem linkSendsFrames : Obligations.LinkSendsFrames := by
  unfold Obligations.LinkSendsFrames
  refine ⟨fun s p => ⟨fun hleast _ howed => exec_returnSent_of_returning hleast howed, fun hnone => if_pos hnone⟩,
    fun s p m q hquiet hout => ⟨fun hready hpool hqueue hup hcredit => ?_, exec_departure_of_stopped hout⟩⟩
  have hsent := exec_departure_of_sent hout hready hpool hqueue hup hcredit
  have hplain (hm : m.NotBeat) : exec (.departure p) s = .next (s.setUnit p (((s.unit p).sent m q).tagDeparted m)) := by
    rw [hsent, State.concluded, State.finish_sent hquiet hout hm]
  refine ⟨fun t hm => ?_, fun t hm => ?_, fun t st res hm => ?_, fun n o hm => ?_, fun bytes hm => ?_⟩
  · rw [hplain (OutMsg.notBeat_of_answer hm), PortUnit.tagDeparted_final hm]
  · rw [hplain (OutMsg.notBeat_of_answer hm), PortUnit.tagDeparted_busyAnswer hm]
    rfl
  · subst hm
    exact hplain trivial
  · subst hm
    exact hplain trivial
  · subst hm
    exact ⟨_, hsent, State.readFollows_sent hquiet⟩

end Sys2Proof.Machine

/-! SUPPORT. CREDIT, the generic checks of a REQUEST, and the notices at a port unit. -/

namespace Sys2Proof.Machine

/-! ## CREDIT (R145, R148) -/

theorem exec_credit (p : PortId) (s : State) : exec (.credit p) s = execCredit p s := rfl

/-- Settles O27. -/
theorem creditAddsOutboundCredits : Obligations.CreditAddsOutboundCredits := by
  unfold Obligations.CreditAddsOutboundCredits
  intro s p n rest htakes
  have hexec : exec (.credit p) s = if 255 < (s.unit p).outboundCredits + n.toNat then
        ((s.popInbound p).violation p .creditOverflow).concluded
      else .next (s.setUnit p { (s.unit p).afterTakeIn rest with
        outboundCredits := (s.unit p).outboundCredits + n.toNat }) := by
    rw [exec_credit, execCredit, State.nextMessage_of_takesIn htakes]
    dsimp only
    rw [State.popInbound_of_takesIn htakes, State.unit_setUnit_self, State.setUnit_setUnit]
    rfl
  refine ⟨fun hfits => ?_, fun hover => ?_⟩
  · rw [hexec, if_neg (Nat.not_lt.2 hfits)]
  · rw [hexec, if_pos hover]
    exact State.faulted_violation _ p .creditOverflow

/-! ## The generic checks (R141) -/

/-- Each kind of REQUEST is taken in by its own command, past whose generic checks stand the kind's own. -/
theorem exec_requestCommand (k : ReqKind) (p : PortId) (s : State) :
    ∃ own, exec (k.command p) s = s.takeIn p k own := by
  cases k with
  | openFlow => exact ⟨_, (show exec _ s = execOpen p s from rfl).trans (by rw [execOpen])⟩
  | closeFlow => exact ⟨_, (show exec _ s = execClose p s from rfl).trans (by rw [execClose])⟩
  | query => exact ⟨_, (show exec _ s = execQuery p s from rfl).trans (by rw [execQuery])⟩
  | put => exact ⟨_, (show exec _ s = execPut p s from rfl).trans (by rw [execPut])⟩
  | take => exact ⟨_, (show exec _ s = execTake p s from rfl).trans (by rw [execTake])⟩
  | peek => exact ⟨_, (show exec _ s = execPeek p s from rfl).trans (by rw [execPeek])⟩
  | drop => exact ⟨_, (show exec _ s = execDrop p s from rfl).trans (by rw [execDrop])⟩
  | next => exact ⟨_, (show exec _ s = execNext p s from rfl).trans (by rw [execNext])⟩
  | hold => exact ⟨_, (show exec _ s = execHold p s from rfl).trans (by rw [execHold])⟩
  | release => exact ⟨_, (show exec _ s = execRelease p s from rfl).trans (by rw [execRelease])⟩
  | pin => exact ⟨_, (show exec _ s = execPin p s from rfl).trans (by rw [execPin])⟩
  | unpin => exact ⟨_, (show exec _ s = execUnpin p s from rfl).trans (by rw [execUnpin])⟩
  | undefined => exact ⟨_, (show exec _ s = execUndefinedRequestCode p s from rfl).trans (by rw [execUndefinedRequestCode])⟩

section
variable {s : State} {p : PortId} {t : TagId} {body : BitVec 64} {rest : List Message} {k : ReqKind}
  {own : State → TagId → Request → State}

@[simp] theorem State.tagRec_popInbound (h : s.takesIn p (.request t body) rest) (g : TagId) :
    (s.popInbound p).tagRec p g = s.tagRec p g := by
  rw [State.popInbound_of_takesIn h]
  simp [State.tagRec, PortUnit.tag_afterTakeIn]

/-- A REQUEST that no complete assembly holds up meets the generic checks. -/
theorem State.takeIn_of_takesIn (h : s.takesIn p (.request t body) rest) (hk : (Request.ofBody body).kind = k)
    (hstall : k = .put → s.putStalled p t = false) :
    s.takeIn p k own =
      (s.takeInRequest p t (Request.ofBody body) (fun s => own s t (Request.ofBody body))).concluded := by
  unfold State.takeIn
  rw [State.nextMessage_of_takesIn h]
  dsimp only
  refine if_pos ⟨hk, ?_⟩
  rintro ⟨hput, hstalled⟩
  rw [hstall hput] at hstalled
  cases hstalled

theorem State.takeInRequest_of_taken (h : s.takesIn p (.request t body) rest) (r : Request) (own : State → State)
    (htaken : (s.tagRec p t).taken = true) :
    s.takeInRequest p t r own = (s.popInbound p).violation p .tagReuse := by
  unfold State.takeInRequest
  dsimp only
  rw [State.tagRec_popInbound h, if_pos htaken]

end

/-- Settles O30: a tag in use is found by the first check, ahead of what a PUT waits for. -/
theorem tagReuseIsAViolation : Obligations.TagReuseIsAViolation := by
  unfold Obligations.TagReuseIsAViolation
  intro s p t body rest htakes huse
  have htaken : (s.tagRec p t).taken = true := by
    simpa [TagRecord.taken] using huse
  have hstall : s.putStalled p t = false := by
    rw [State.putStalled, htaken]
    exact Bool.and_false _
  obtain ⟨own, hexec⟩ := exec_requestCommand (Request.ofBody body).kind p s
  rw [hexec, State.takeIn_of_takesIn htakes rfl (fun _ => hstall), State.takeInRequest_of_taken htakes _ _ htaken]
  exact State.faulted_violation _ p .tagReuse

/-! ## The end of a PUT's assembly record (R68, R69) -/

section
variable {s : State} {p : PortId}

/-- A record that does not assemble is IDLE when a PUT is taken in (R69). -/
theorem State.endAssemblyWork_of_not_assembling (hadmit : (s.asm p).state ≠ .admitting)
    (hassemble : (s.asm p).state ≠ .assembling) :
    ∃ a : Assembly, a.state = .idle ∧ s.endAssemblyWork p = s.setAsm p a := by
  unfold State.endAssemblyWork
  cases hstate : (s.asm p).state with
  | idle => exact ⟨s.asm p, hstate, (s.setAsm_asm p).symm⟩
  | discarding => exact ⟨Assembly.initial, rfl, rfl⟩
  | admitting => exact absurd hstate hadmit
  | assembling => exact absurd hstate hassemble

theorem State.discardBeats_of_not_assembling (h : (s.asm p).state ≠ .assembling) (n : Nat) :
    s.discardBeats p n = s.setAsm p (.discarding n) := by
  unfold State.discardBeats Assembly.discarding
  rw [if_neg h]
  split
  · next hn => simp [hn, Assembly.initial]
  · rfl

end

section
variable {s : State} {p : PortId} {t : TagId} {body : BitVec 64} {rest : List Message} {r : Request}

/-- A refusal does not read the assembly records. -/
theorem State.refuse_setAsm (s : State) (p q : PortId) (t : TagId) (a : Assembly) (st : Status) :
    (s.setAsm p a).refuse q t st = (s.refuse q t st).setAsm p a := by
  unfold State.refuse
  rw [show (s.setAsm p a).tagRec q t = s.tagRec q t from rfl]
  split <;> rfl

/-- A request put in use on the tag it names (R142). -/
theorem State.useTag_of_takesIn (h : s.takesIn p (.request t body) rest) (r : Request) (ph : Phase) :
    (s.popInbound p).useTag p t r ph = s.takenIn p rest t r ph := by
  rw [State.popInbound_of_takesIn h]
  unfold State.useTag State.takenIn State.setTagRec
  rw [State.unit_setUnit_self, State.setUnit_setUnit]
  rfl

/-- What the refusal of a request of a kind leaves of its port's assembly record (R68). -/
def State.asmRefusing (s : State) (p : PortId) (r : Request) : Assembly :=
  if r.kind = .put then .discarding r.argA.toNat else s.asm p

/-- The record that meets the refusal of a PUT, which the refusal overwrites (R69). -/
theorem State.endAssemblyWork_popInbound (h : s.takesIn p (.request t body) rest)
    (hassemble : (s.asm p).state ≠ .assembling) :
    ∃ a : Assembly, a.state = .idle ∧ (s.popInbound p).endAssemblyWork p = (s.popInbound p).setAsm p a :=
  State.endAssemblyWork_of_not_assembling (s := s.popInbound p) h.2.1 hassemble

/-- Check 2 of R141: a BUSY answer on an orphaned tag. -/
theorem State.takeInRequest_of_orphan (h : s.takesIn p (.request t body) rest) (own : State → State)
    (hstatus : (s.tagRec p t).status = .orphaned) (hbusy : (s.tagRec p t).busyAnswer = false)
    (hassemble : r.kind = .put → (s.asm p).state ≠ .assembling) :
    s.takeInRequest p t r own =
      (s.setUnit p ((((s.unit p).afterTakeIn rest).setTag t { s.tagRec p t with busyAnswer := true }).place
        (if r.kind.endsByEnd then .endMsg t .busy 0 .busyAnswer else .response t .busy .none .busyAnswer))).setAsm p
          (s.asmRefusing p r) := by
  have htaken : ¬ (s.tagRec p t).taken = true := by simp [TagRecord.taken, hstatus, hbusy]
  have hanswer : (s.popInbound p).answerBusyOrphan p t r =
      s.setUnit p ((((s.unit p).afterTakeIn rest).setTag t { s.tagRec p t with busyAnswer := true }).place
        (if r.kind.endsByEnd then .endMsg t .busy 0 .busyAnswer else .response t .busy .none .busyAnswer)) := by
    unfold State.answerBusyOrphan
    rw [State.tagRec_popInbound h, State.popInbound_of_takesIn h]
    simp only [State.setTagRec, State.place, State.unit_setUnit_self, State.setUnit_setUnit]
  unfold State.takeInRequest State.asmRefusing
  dsimp only
  rw [State.tagRec_popInbound h, if_neg htaken]
  by_cases hput : r.kind = .put
  · obtain ⟨a, hidle, hend⟩ := State.endAssemblyWork_popInbound h (hassemble hput)
    have hnot : ((((s.popInbound p).setAsm p a).answerBusyOrphan p t r).asm p).state ≠ .assembling := by
      change ((((s.popInbound p).setAsm p a).asm p).state ≠ .assembling)
      rw [State.asm_setAsm_self, hidle]
      decide
    have hsame : ((s.popInbound p).setAsm p a).answerBusyOrphan p t r =
      ((s.popInbound p).answerBusyOrphan p t r).setAsm p a := rfl
    simp only [hput, decide_true, if_true, hend]
    rw [if_pos (show (((s.popInbound p).setAsm p a).tagRec p t).status = .orphaned from
      (congrArg TagRecord.status (State.tagRec_popInbound h t)).trans hstatus),
      State.discardBeats_of_not_assembling hnot, hsame, State.setAsm_setAsm, hanswer, hput]
  · simp only [hput, decide_false, Bool.false_eq_true, if_false]
    rw [if_pos ((congrArg TagRecord.status (State.tagRec_popInbound h t)).trans hstatus), hanswer]
    exact (State.setAsm_asm _ p).symm

/-- Check 3 of R141: a device that is not RUNNING refuses. -/
theorem State.takeInRequest_of_not_running (h : s.takesIn p (.request t body) rest) (own : State → State)
    (hstatus : (s.tagRec p t).status = .free) (hcurrent : (s.unit p).current ≠ some t)
    (hdevice : s.mgmt.device ≠ .running) (hassemble : r.kind = .put → (s.asm p).state ≠ .assembling) :
    s.takeInRequest p t r own =
      (s.takenAndPlaced p rest t r .responding (refusal r.kind t .notReady)).setAsm p (s.asmRefusing p r) := by
  have htaken : ¬ (s.tagRec p t).taken = true := by simp [TagRecord.taken, hstatus]
  have hfree : ((s.popInbound p).tagRec p t).status ≠ .orphaned := by
    rw [State.tagRec_popInbound h, hstatus]
    decide
  unfold State.takeInRequest State.asmRefusing
  dsimp only
  rw [State.tagRec_popInbound h, if_neg htaken]
  by_cases hput : r.kind = .put
  · obtain ⟨a, hidle, hend⟩ := State.endAssemblyWork_popInbound h (hassemble hput)
    have hsame : ((s.popInbound p).setAsm p a).useTag p t r .taken =
        (s.takenIn p rest t r .taken).setAsm p a := by rw [← State.useTag_of_takesIn h]; rfl
    simp only [hput, decide_true, if_true, hend]
    rw [if_neg (show (((s.popInbound p).setAsm p a).tagRec p t).status ≠ .orphaned from hfree), hsame,
      if_pos (show ((s.takenIn p rest t r .taken).setAsm p a).mgmt.device ≠ .running from hdevice)]
    have hrefuse : ((s.takenIn p rest t r .taken).setAsm p a).refuse p t .notReady =
        ((s.takenIn p rest t r .taken).refuse p t .notReady).setAsm p a := State.refuse_setAsm _ _ _ _ _ _
    have hargA : (((s.takenIn p rest t r .taken).setAsm p a).tagRec p t).request.argA = r.argA :=
      congrArg (fun g => g.request.argA) (State.tagRec_takenIn (s := s) .taken)
    have hnot : (((s.takenAndPlaced p rest t r .responding (refusal r.kind t .notReady)).setAsm p a).asm p).state ≠
        .assembling := by
      rw [State.asm_setAsm_self, hidle]
      decide
    rw [State.refusePut, hrefuse, hargA, State.refuse_takenIn _ _ hcurrent,
      State.discardBeats_of_not_assembling hnot, State.setAsm_setAsm, hput]
  · simp only [hput, decide_false, Bool.false_eq_true, if_false]
    rw [if_neg hfree, State.useTag_of_takesIn h,
      if_pos (show (s.takenIn p rest t r .taken).mgmt.device ≠ .running from hdevice),
      State.refuse_takenIn _ _ hcurrent]
    exact (State.setAsm_asm _ p).symm

/-- Assembly records are no part of a state's quiet. -/
theorem State.quiet_setAsm (s : State) (p : PortId) (a : Assembly) : (s.setAsm p a).quiet = s.quiet :=
  State.quiet_congr rfl rfl rfl (fun _ => .refl _)

theorem PortUnit.sameQuiet_taken (u : PortUnit) (rest : List Message) (t : TagId) (v : TagRecord) :
    u.SameQuiet ((u.afterTakeIn rest).setTag t v) := ⟨rfl, rfl, rfl⟩

/-- The end of an event that has placed one message that is no beat, and written an assembly record. -/
theorem State.finish_placed_setAsm {u : PortUnit} {a : Assembly} {m : OutMsg} (hquiet : s.quiet = true)
    (hu : (s.unit p).SameQuiet u) (hm : m.NotBeat) :
    ((s.setUnit p (u.place m)).setAsm p a).finish = (s.setUnit p (u.place m)).setAsm p a := by
  refine State.finish_of_quiet ?_
  rw [State.quiet_setAsm, ← hquiet]
  exact State.quiet_congr rfl rfl rfl (State.sameQuiet_setUnit (hu.trans (PortUnit.sameQuiet_place m hm u)))

end

theorem ReqKind.endsByEnd_iff (k : ReqKind) : k.endsByEnd = true ↔ k = .take ∨ k = .peek := by cases k <;> simp [ReqKind.endsByEnd]

/-- Settles O31. -/
theorem genericChecksRefuse : Obligations.GenericChecksRefuse := by
  unfold Obligations.GenericChecksRefuse
  intro s p t body rest k hquiet htakes hk hcurrent hassemble
  obtain ⟨own, hexec⟩ := exec_requestCommand k p s
  have hstall (hput : k = .put) : s.putStalled p t = false := by
    simp [State.putStalled, State.putWaits, hassemble hput]
  have hassemble' : (Request.ofBody body).kind = .put → (s.asm p).state ≠ .assembling := fun h => hassemble (hk ▸ h)
  subst hk
  refine ⟨fun horphan hbusy => ?_, fun hfree hdevice => ?_, fun hfree hdevice hundefined => ?_⟩
  · rw [hexec, State.takeIn_of_takesIn htakes rfl hstall, State.takeInRequest_of_orphan htakes _ horphan hbusy hassemble',
      State.concluded, State.finish_placed_setAsm hquiet (PortUnit.sameQuiet_taken _ _ _ _)]
    · simp only [ReqKind.endsByEnd_iff, State.asmRefusing]
    · split <;> trivial
  · rw [hexec, State.takeIn_of_takesIn htakes rfl hstall,
      State.takeInRequest_of_not_running htakes _ hfree hcurrent hdevice hassemble', State.concluded]
    exact congrArg _ (State.finish_placed_setAsm hquiet (PortUnit.sameQuiet_taken _ _ _ _) (refusal_notBeat _ _))
  · have htakes' : s.takesRequest p t body rest .undefined := ⟨htakes, hundefined, hfree, hcurrent, hdevice⟩
    have hrefuse := State.takeIn_request (own := fun s t _ => s.refuse p t .badArg) htakes' (by decide)
    rw [State.refuse_takenIn _ _ hcurrent, State.finish_takenAndPlaced hquiet _ _ (refusal_notBeat _ _)] at hrefuse
    exact hrefuse

end Sys2Proof.Machine

/-! SUPPORT. The notices at a port unit: what waits and in which order it is placed, what a raising does, and what a
displacement puts back. -/

namespace Sys2Proof.Machine

namespace PortUnit

/-! ## What waits, and its placement (R147) -/

/-- The notices that wait at a port unit, in the order in which they are placed (R147). -/
def waiting (u : PortUnit) : List (Notice × Bool) :=
  u.readyWaiting.toList.map (fun o => (Notice.ready, o)) ++ u.poolLowWaiting.toList.map (fun o => (Notice.poolLow, o)) ++
    u.noticeQueue

/-- The messages of waiting notices: the first has overflow yes where the flag is yes (R147). -/
def placedAs (overflow : Bool) : List (Notice × Bool) → List OutMsg
  | [] => []
  | (n, o) :: rest => .notice n (o || overflow) :: rest.map (fun w => .notice w.1 w.2)

/-- The port unit when every waiting notice has been placed. -/
def allPlaced (u : PortUnit) : PortUnit :=
  { u with
    readyWaiting := none, poolLowWaiting := none, noticeQueue := [], overflow := u.overflow && u.waiting.isEmpty
    outbound := u.outbound ++ placedAs u.overflow u.waiting }

theorem placedAs_false (l : List (Notice × Bool)) : placedAs false l = l.map (fun w => OutMsg.notice w.1 w.2) := by
  cases l <;> simp [placedAs]

variable {u : PortUnit} {w : Notice × Bool} {rest : List (Notice × Bool)}

/-- Nothing waits exactly where READY, POOL_LOW and the notice queue are empty. -/
theorem none_waits_of_waiting_eq_nil (h : u.waiting = []) :
    u.readyWaiting = none ∧ u.poolLowWaiting = none ∧ u.noticeQueue = [] := by
  simpa [waiting, List.append_eq_nil_iff, Option.toList_eq_nil_iff, and_assoc] using h

theorem allPlaced_of_none_waits (h : u.waiting = []) : u.allPlaced = u := by
  obtain ⟨hready, hpool, hqueue⟩ := none_waits_of_waiting_eq_nil h
  unfold allPlaced
  rw [h]
  cases u
  simp_all [placedAs]

/-- The port unit when the first of the waiting notices has been placed, with what waits behind it. -/
def onePlaced (u : PortUnit) (w : Notice × Bool) (ready poolLow : Option Bool) (queue : List (Notice × Bool)) :
    PortUnit :=
  { u with
    readyWaiting := ready, poolLowWaiting := poolLow, noticeQueue := queue, overflow := false
    outbound := u.outbound ++ [.notice w.1 (w.2 || u.overflow)] }

theorem allPlaced_onePlaced {ready poolLow : Option Bool} {queue : List (Notice × Bool)} (h : u.waiting = w :: rest)
    (hrest : (u.onePlaced w ready poolLow queue).waiting = rest) :
    (u.onePlaced w ready poolLow queue).allPlaced = u.allPlaced := by
  unfold allPlaced
  rw [h, hrest, show (u.onePlaced w ready poolLow queue).overflow = false from rfl, placedAs_false]
  simp [onePlaced, placedAs]

/-- The placement of one notice takes the first of those that wait: READY, then POOL_LOW, then the notice queue. -/
theorem placeOneNotice_of_waiting (h : u.waiting = w :: rest) : ∃ ready poolLow queue,
    u.placeOneNotice = some (u.onePlaced w ready poolLow queue) ∧
      (u.onePlaced w ready poolLow queue).waiting = rest := by
  unfold waiting at h
  unfold placeOneNotice
  cases hready : u.readyWaiting with
  | some kept =>
    rw [hready] at h
    obtain ⟨rfl, hrest⟩ := List.cons.inj h
    exact ⟨none, u.poolLowWaiting, u.noticeQueue, rfl, hrest⟩
  | none =>
    rw [hready] at h
    cases hpool : u.poolLowWaiting with
    | some kept =>
      rw [hpool] at h
      obtain ⟨rfl, hrest⟩ := List.cons.inj h
      exact ⟨none, none, u.noticeQueue, by cases u; simp_all [onePlaced], hrest⟩
    | none =>
      rw [hpool] at h
      cases hqueue : u.noticeQueue with
      | nil =>
        rw [hqueue] at h
        cases h
      | cons x queue =>
        rw [hqueue] at h
        obtain ⟨rfl, hrest⟩ := List.cons.inj h
        exact ⟨none, none, queue, by cases u; simp_all [onePlaced], hrest⟩

/-- Where the queue has room for every waiting notice, all of them are placed (R147). -/
theorem placeNotices_of_room (n : Nat) (hn : u.waiting.length ≤ n)
    (hroom : u.outbound.length + u.waiting.length ≤ 64) : u.placeNotices n = u.allPlaced := by
  induction n generalizing u with
  | zero =>
    have hnone : u.waiting = [] := List.length_eq_zero_iff.1 (Nat.le_zero.1 hn)
    rw [allPlaced_of_none_waits hnone]
    rfl
  | succ n ih =>
    cases h : u.waiting with
    | nil =>
      obtain ⟨hready, hpool, hqueue⟩ := none_waits_of_waiting_eq_nil h
      rw [allPlaced_of_none_waits h]
      exact placeNotices_of_none_waits hpool hqueue _ hready
    | cons w rest =>
      obtain ⟨ready, poolLow, queue, hone, hrest⟩ := placeOneNotice_of_waiting h
      rw [h, List.length_cons] at hn hroom
      have hlength : (u.onePlaced w ready poolLow queue).outbound.length = u.outbound.length + 1 := by simp [onePlaced]
      rw [placeNotices, if_pos (by omega), hone]
      dsimp only
      rw [ih (by rw [hrest]; omega) (by rw [hrest, hlength]; omega), allPlaced_onePlaced h hrest]

/-- At most a READY and a POOL_LOW wait beside the notice queue. -/
theorem length_waiting_le (u : PortUnit) : u.waiting.length ≤ u.noticeQueue.length + 2 := by
  have hready : u.readyWaiting.toList.length ≤ 1 := by cases u.readyWaiting <;> simp
  have hpool : u.poolLowWaiting.toList.length ≤ 1 := by cases u.poolLowWaiting <;> simp
  simp only [waiting, List.length_append, List.length_map]
  omega

theorem noticesPlaced_of_room (hroom : u.outbound.length + u.waiting.length ≤ 64) : u.noticesPlaced = u.allPlaced :=
  placeNotices_of_room _ u.length_waiting_le hroom

/-- Nothing is placed in a full queue (R147). -/
theorem noticesPlaced_of_full (hfull : 64 ≤ u.outbound.length) : u.noticesPlaced = u := by
  rw [noticesPlaced, placeNotices]
  exact if_neg (by omega)

/-! ## Raising (R146) -/

theorem raise_of_not_up (h : u.state ≠ .up) (n : Notice) : u.raise n = u := if_pos h

theorem place_of_not_up (h : u.state ≠ .up) (m : OutMsg) : u.place m = u := if_pos h

theorem raise_ready (hup : u.state = .up) :
    u.raise .ready = { u with readyWaiting := some (u.readyWaiting.getD false) }.noticesPlaced :=
  if_neg (not_not_intro hup)

theorem raise_poolLow (hup : u.state = .up) :
    u.raise .poolLow = { u with poolLowWaiting := some (u.poolLowWaiting.getD false) }.noticesPlaced :=
  if_neg (not_not_intro hup)

theorem raise_flowBearing {n : Notice} (hup : u.state = .up) (hn : n.flowBearing = true) : u.raise n =
    if 8 ≤ u.flowBearing then { u with overflow := true }.noticesPlaced
    else { u with noticeQueue := u.noticeQueue ++ [(n, false)] }.noticesPlaced := by
  cases n with
  | ready => cases hn
  | poolLow => cases hn
  | _ => exact if_neg (not_not_intro hup)

/-- A notice raised where the queue has room and none waits is placed at once. -/
theorem raise_of_room {n : Notice} (hup : u.state = .up) (hroom : u.outbound.length < 64) (hready : u.readyWaiting = none)
    (hpool : u.poolLowWaiting = none) (hqueue : u.noticeQueue = [])
    (hn : n.flowBearing = false ∨ u.flowBearing < 8) :
    u.raise n = { u with outbound := u.outbound ++ [.notice n u.overflow], overflow := false } := by
  have hplaced (v : PortUnit) (hv : v.waiting = [(n, false)]) (hout : v.outbound = u.outbound) :
      v.noticesPlaced = v.allPlaced := noticesPlaced_of_room (by rw [hv, hout]; exact hroom)
  cases hbears : n.flowBearing with
  | true =>
    have hless : ¬ 8 ≤ u.flowBearing := Nat.not_le.2 (hn.resolve_left (by rw [hbears]; decide))
    have hv : ({ u with noticeQueue := u.noticeQueue ++ [(n, false)] } : PortUnit).waiting = [(n, false)] := by
      simp [waiting, hready, hpool, hqueue]
    rw [raise_flowBearing hup hbears, if_neg hless, hplaced _ hv rfl, allPlaced, hv]
    cases u
    simp_all [placedAs]
  | false =>
    cases n with
    | ready =>
      have hv : ({ u with readyWaiting := some (u.readyWaiting.getD false) } : PortUnit).waiting = [(.ready, false)] := by
        simp [waiting, hready, hpool, hqueue]
      rw [raise_ready hup, hplaced _ hv rfl, allPlaced, hv]
      cases u
      simp_all [placedAs]
    | poolLow =>
      have hv : ({ u with poolLowWaiting := some (u.poolLowWaiting.getD false) } : PortUnit).waiting =
          [(.poolLow, false)] := by
        simp [waiting, hready, hpool, hqueue]
      rw [raise_poolLow hup, hplaced _ hv rfl, allPlaced, hv]
      cases u
      simp_all [placedAs]
    | _ => cases hbears

/-! ## Displacement (R147) -/

theorem lastNotice_eq_none {q : List OutMsg} (h : ∀ k b, .notice k b ∉ q) : lastNotice q = none := by
  induction q with
  | nil => rfl
  | cons m q ih =>
    have hq : lastNotice q = none := ih fun k b hmem => h k b (List.mem_cons_of_mem m hmem)
    cases m with
    | notice n o => exact absurd List.mem_cons_self (h n o)
    | _ => simp only [lastNotice, hq]

/-- The notice nearest the tail is the one behind which no notice stands. -/
theorem lastNotice_append {before after : List OutMsg} {n : Notice} {o : Bool} (h : ∀ k b, .notice k b ∉ after) :
    lastNotice (before ++ .notice n o :: after) = some (n, o, before ++ after) := by
  induction before with
  | nil => simp only [List.nil_append, lastNotice, lastNotice_eq_none h]
  | cons m before ih => simp only [List.cons_append, lastNotice, ih]

/-- A message placed in a full queue takes the place of the notice nearest the tail, which waits again. -/
theorem place_of_full {m : OutMsg} (hup : u.state = .up) (hfull : u.outbound.length = 64) :
    u.place m = { u.displaced with outbound := u.displaced.outbound ++ [m] }.noticesPlaced := by
  unfold place
  rw [if_neg (not_not_intro hup), if_neg (by omega)]

theorem place_of_room {m : OutMsg} (hup : u.state = .up) (hroom : u.outbound.length < 64) :
    u.place m = { u with outbound := u.outbound ++ [m] } := by
  unfold place
  rw [if_neg (not_not_intro hup), if_pos hroom]

end PortUnit

/-- Settles O29. -/
theorem waitingNoticesArePlacedInOrder : Obligations.WaitingNoticesArePlacedInOrder := by
  unfold Obligations.WaitingNoticesArePlacedInOrder
  refine ⟨fun u hroom => ?_, fun u n m hdown => ⟨PortUnit.raise_of_not_up hdown n, PortUnit.place_of_not_up hdown m⟩,
    fun u hup hfull => ⟨PortUnit.noticesPlaced_of_full hfull, ?_, ?_, fun n hn => ⟨fun hless => ?_, fun hmore => ?_⟩⟩,
    fun u n hup hroom hready hpool hqueue => ⟨fun hn hmore => ?_, PortUnit.raise_of_room hup hroom hready hpool hqueue⟩,
    fun u m => PortUnit.place_of_room, fun u m before after n o hup hout hlength hlast => ?_⟩
  · have hle := u.length_waiting_le
    exact PortUnit.noticesPlaced_of_room (by omega)
  · rw [PortUnit.raise_ready hup]
    exact PortUnit.noticesPlaced_of_full hfull
  · rw [PortUnit.raise_poolLow hup]
    exact PortUnit.noticesPlaced_of_full hfull
  · rw [PortUnit.raise_flowBearing hup hn, if_neg (Nat.not_le.2 hless)]
    exact PortUnit.noticesPlaced_of_full hfull
  · rw [PortUnit.raise_flowBearing hup hn, if_pos hmore]
    exact PortUnit.noticesPlaced_of_full hfull
  · rw [PortUnit.raise_flowBearing hup hn, if_pos hmore]
    exact PortUnit.noticesPlaced_of_none_waits (u := { u with overflow := true }) hready hpool hqueue
  · have hnotice := PortUnit.lastNotice_append (before := before) (n := n) (o := o) hlast
    have hshort : (before ++ after ++ [m]).length = 64 := by
      rw [hout] at hlength
      simp only [List.length_append, List.length_cons, List.length_nil] at hlength ⊢
      omega
    rw [PortUnit.place_of_full hup hlength, PortUnit.displaced, hout, hnotice]
    refine ⟨fun hn => ?_, fun hn => ?_, fun hn => ?_⟩
    · subst hn
      exact PortUnit.noticesPlaced_of_full hshort.ge
    · subst hn
      exact PortUnit.noticesPlaced_of_full hshort.ge
    · cases n with
      | ready => cases hn
      | poolLow => cases hn
      | _ => exact PortUnit.noticesPlaced_of_full hshort.ge

end Sys2Proof.Machine

/-! SUPPORT. CLEAR_HALT: what it meets at the cache controller, its service, and the end of its event. -/

namespace Sys2Proof.Machine

/-! ## A second write to an entry of the flow map -/

theorem Table.insert_insert {α : Type} (t : List (Nat × α)) (i : Nat) (x y : α) :
    Table.insert (Table.insert t i x) i y = Table.insert t i y := by
  induction t with
  | nil => simp [Table.insert]
  | cons e t ih =>
    obtain ⟨k, v⟩ := e
    rcases Nat.lt_trichotomy i k with hlt | heq | hgt
    · simp [Table.insert, hlt]
    · simp [Table.insert, heq]
    · simp [Table.insert, hgt.ne', Nat.not_lt.2 hgt.le, ih]

theorem Table.erase_insert {α : Type} (t : List (Nat × α)) (i : Nat) (x : α) :
    Table.erase (Table.insert t i x) i = Table.erase t i := by
  induction t with
  | nil => simp [Table.insert, Table.erase]
  | cons e t ih =>
    obtain ⟨k, v⟩ := e
    rcases Nat.lt_trichotomy i k with hlt | heq | hgt
    · simp [Table.insert, Table.erase, hlt]
    · simp [Table.insert, Table.erase, heq]
    · simp [Table.insert, Table.erase, hgt.ne', Nat.not_lt.2 hgt.le, ih]

/-- The second of two writes to a flow stands, where the first has listed the flow. -/
theorem State.setFlow_setFlow {e : FlowEntry} (s : State) (f : FlowId) (h : e ≠ FlowEntry.initial) (e' : FlowEntry) :
    (s.setFlow f e).setFlow f e' = s.setFlow f e' := by
  simp only [State.setFlow, Table.put, if_neg h, Table.insert_insert, Table.erase_insert]

theorem FlowEntry.ne_initial_of_open {e : FlowEntry} (h : e.state ≠ .closed) : e ≠ FlowEntry.initial :=
  fun hinitial => h (by rw [hinitial]; rfl)

/-! ## CLEAR_HALT at the cache controller -/

section
variable {s : State} {f : FlowId} {S : SlotId}

theorem exec_clearHalt_accepted {arg : BitVec 16} (hidle : s.mgmt.command ≠ .inFlight) :
    exec (.clearHalt arg) s = ((s.setMgmt (s.mgmt.acceptedNow .clearHalt)).clearHaltAct arg).concluded := by
  rw [exec_clearHalt, State.command_accepted hidle]

theorem State.clearHaltAct_of_flow {arg : BitVec 16} (hrunning : s.mgmt.device = .running) (hf : f.val = arg.toNat) :
    s.clearHaltAct arg = s.arrive (.clearHalt f) := by
  have hlt : arg.toNat < 4096 := hf ▸ f.isLt
  have hflow : (⟨arg.toNat, hlt⟩ : FlowId) = f := Fin.ext hf.symm
  rw [State.clearHaltAct, if_neg (not_not_intro hrunning), dif_pos hlt, hflow]

/-- CLEAR_HALT at the slot that serves its flow (R48). -/
theorem State.arrive_clearHalt_of_serving (hopen : (s.flow f).state ≠ .closed) (hhalt : (s.flow f).halt ≠ some .ctxErr)
    (hS : s.servingSlot f = some S) : s.arrive (.clearHalt f) = s.serveClearHalt S f := by
  obtain ⟨hres, hstate, -⟩ := State.servingSlot_eq_some_iff.1 hS
  have hmet : s.metStatus (.clearHalt f) = none := by
    simp [State.metStatus, State.reqFlow, FlowEntry.lost, hopen, hhalt]
  simp [State.arrive, hmet, State.reqFlow, hres, hstate, State.serveAny, State.isLink, State.serve]

/-- CLEAR_HALT, refused by what it meets (R10, R22). -/
theorem State.arrive_clearHalt_of_met {st : Status} (h : s.metStatus (.clearHalt f) = some st) :
    s.arrive (.clearHalt f) = s.commandDone st.asResult noWords := by
  simp [State.arrive, h, State.turnAway, State.isLink, State.answerReq, noWords]

/-- A listing, a withdrawal and a READY leave what is due at a port unit. -/
theorem State.sameQuiet_relist (s : State) (f : FlowId) (q : PortId) : (s.unit q).SameQuiet ((s.relist f).unit q) := by
  have hlist : (s.unit q).SameQuiet ((s.listFlow f).unit q) := by
    have hraised : (s.unit (s.flow f).consumer).SameQuiet
        (PortUnit.raise .ready { s.unit (s.flow f).consumer with readyArmed := false }) :=
      PortUnit.SameQuiet.trans ⟨rfl, rfl, rfl⟩ (PortUnit.sameQuiet_raise ..)
    unfold State.unit
    rw [State.units_listFlow]
    split
    · exact State.sameQuiet_setUnit hraised q
    · exact .refl _
  have hwithdraw : (s.unit q).SameQuiet ((s.withdrawFlow f).unit q) := by
    unfold State.unit
    rw [State.units_withdrawFlow]
    exact .refl _
  unfold State.relist
  dsimp only
  split <;> split
  · exact .refl _
  · exact hlist
  · exact hwithdraw
  · exact .refl _

/-- The comparison of R111 is no part of a state's quiet. -/
theorem State.quiet_relist (s : State) (f : FlowId) : (s.relist f).quiet = s.quiet := by
  have hframe := s.inRelist_relist f
  exact State.quiet_congr (by rw [hframe]) (by rw [hframe]) (by rw [hframe]) (s.sameQuiet_relist f)

theorem State.quiet_setFlow (s : State) (f : FlowId) (e : FlowEntry) : (s.setFlow f e).quiet = s.quiet :=
  State.quiet_congr rfl rfl rfl (fun _ => .refl _)

/-- The flow when its halt and its dispatch have ended and its readiness has been found to be `b` (R171). -/
def FlowEntry.resumed (e : FlowEntry) (b : Bool) : FlowEntry := { e with halt := none, dispatched := false, ready := b }

/-- The service of CLEAR_HALT at a slot whose flow is halted (R171). -/
theorem State.serveClearHalt_of_halted (hopen : (s.flow f).state ≠ .closed) (hhalt : (s.flow f).halt.isSome = true) :
    s.serveClearHalt S f = (((s.used S).setFlow f ((s.flow f).resumed
      (readyCondition { s.flow f with halt := none } (s.slot S).context))).relist f).commandDone .ok noWords := by
  unfold State.serveClearHalt
  dsimp only
  rw [State.flow_setSlot, if_pos hhalt]
  have hnot (h : Option HaltCause) (d : Bool) : ({ s.flow f with halt := h, dispatched := d } : FlowEntry) ≠ .initial :=
    FlowEntry.ne_initial_of_open hopen
  simp only [State.undispatchAndReevaluate, State.reevaluate, State.setReady, State.flow_setFlow_self]
  rw [State.setFlow_setFlow _ _ (hnot none (s.flow f).dispatched), State.setFlow_setFlow _ _ (hnot none false),
    State.slot_setFlow, State.slot_setSlot_self]
  rfl

theorem State.serveClearHalt_of_notHalted (hhalt : (s.flow f).halt = none) :
    s.serveClearHalt S f = (s.used S).commandDone .notHalted noWords := by
  unfold State.serveClearHalt
  dsimp only
  rw [State.flow_setSlot, hhalt]
  rfl

end

/-- A flow that stands in no list and is not to be listed stays as it is. -/
theorem State.relist_of_unlisted {s : State} {f : FlowId} (hlisted : (s.flow f).listed = false)
    (hready : (s.flow f).ready = false ∨ (s.flow f).dispatched = true) : s.relist f = s := by
  rw [State.relist_of_notDue hready, hlisted]
  rfl

/-- The end of an event that has answered a command and left nothing due. -/
theorem State.concluded_commandDone {s : State} (hquiet : s.quiet = true) (r : MgmtResult) (ws : Vector Word32 16) :
    (s.commandDone r ws).concluded = .next (s.commandDone r ws) := by
  rw [State.concluded, State.commandDone, State.finish_setMgmt hquiet]

/-- Settles O20: what CLEAR_HALT meets first, then its service, whose listing is the comparison of R111. -/
theorem clearHaltEndsADataError : Obligations.ClearHaltEndsADataError := by
  unfold Obligations.ClearHaltEndsADataError
  intro s arg hquiet hidle
  set m := s.mgmt.acceptedNow .clearHalt with hm
  have hquietm : (s.setMgmt m).quiet = true := by rw [State.quiet_setMgmt, hquiet]
  have hrefused (r : MgmtResult) (h : (s.setMgmt m).clearHaltAct arg = (s.setMgmt m).commandDone r noWords) :
      exec (.clearHalt arg) s = .next (s.setMgmt (s.mgmt.answeredNow .clearHalt r noWords)) := by
    rw [exec_clearHalt_accepted hidle, h, State.concluded_commandDone hquietm, State.commandDone_accepted]
  refine ⟨fun hdown => hrefused _ (if_pos hdown), fun hrunning hlarge => hrefused _ ?_, fun f hf hrunning => ?_⟩
  · rw [State.clearHaltAct, if_neg (show ¬ (s.setMgmt m).mgmt.device ≠ _ from not_not_intro hrunning),
      dif_neg (Nat.not_lt.2 hlarge)]
    rfl
  have hact : (s.setMgmt m).clearHaltAct arg = (s.setMgmt m).arrive (.clearHalt f) :=
    State.clearHaltAct_of_flow hrunning hf
  refine ⟨fun hclosed => hrefused .closed ?_, fun hopen hlost => hrefused .ctxErr ?_, fun S hopen hS => ?_⟩
  · rw [hact]
    exact State.arrive_clearHalt_of_met (st := .closed) (by simp [State.metStatus, State.reqFlow, State.isOpen, hclosed])
  · rw [hact]
    exact State.arrive_clearHalt_of_met (st := .ctxErr)
      (by simp [State.metStatus, State.reqFlow, FlowEntry.lost, hopen, hlost])
  have hserved (hhalt : (s.flow f).halt ≠ some .ctxErr) :
      exec (.clearHalt arg) s = ((s.setMgmt m).serveClearHalt S f).concluded := by
    rw [exec_clearHalt_accepted hidle, hact]
    exact congrArg _ (State.arrive_clearHalt_of_serving hopen hhalt hS)
  have hquietu : ((s.setMgmt m).used S).quiet = true := by rw [State.used, State.quiet_setSlot, hquietm]
  have hserved' (hhalt : (s.flow f).halt = some .dataErr) := (hserved (by simp [hhalt])).trans
    (congrArg _ (State.serveClearHalt_of_halted (s := s.setMgmt m) (S := S) hopen (by simp [hhalt])))
  refine ⟨fun hhalt => ?_, fun hhalt hlisted hnot => ?_, fun hhalt hlisted hready => ?_⟩
  · rw [hserved (by simp [hhalt]), State.serveClearHalt_of_notHalted (s := s.setMgmt m) hhalt,
      State.concluded_commandDone hquietu]
    rfl
  · rw [hserved' hhalt, State.concluded_commandDone (by rw [State.quiet_relist, State.quiet_setFlow, hquietu])]
    have hnotready : readyCondition { (s.setMgmt m).flow f with halt := none } ((s.setMgmt m).slot S).context = false :=
      hnot
    rw [hnotready, State.relist_of_unlisted (by simpa [FlowEntry.resumed] using hlisted) (by simp [FlowEntry.resumed])]
    rfl
  · have hisready : readyCondition { (s.setMgmt m).flow f with halt := none } ((s.setMgmt m).slot S).context = true :=
      hready
    rw [hserved' hhalt, State.concluded_commandDone (by rw [State.quiet_relist, State.quiet_setFlow, hquietu]), hisready]
    set u := ((s.setMgmt m).used S).setFlow f (((s.setMgmt m).flow f).resumed true) with hu
    have hentry : u.flow f = (s.flow f).resumed true := by simp [hu, State.used]
    have hlists : u.relist f = u.listFlow f := by
      rw [State.relist_of_due (by rw [hentry]; rfl) (by rw [hentry]; rfl), hentry]
      exact if_neg (by simp [FlowEntry.resumed, hlisted])
    have hframe : u.InRelist (u.listFlow f) := u.inRelist_listFlow f
    rw [hlists]
    refine ⟨_, rfl, ?_, ?_, ?_, ?_, ?_⟩
    · rw [State.commandDone, hframe]
      rfl
    · have hself := u.flow_relist_self f
      rw [hlists] at hself
      unfold FlowEntry.SameButPlace at hself
      have hf : ((u.listFlow f).commandDone .ok noWords).flow f = (u.listFlow f).flow f := rfl
      rw [hf, hself, hentry]
      exact ⟨rfl, rfl, rfl, rfl⟩
    · have htail := u.readyList_listFlow_self f
      rw [hentry] at htail
      exact (congrArg (·.tail) htail)
    · rw [State.commandDone, hframe]
      rfl
    · rw [State.commandDone, hframe]
      rfl

end Sys2Proof.Machine

/-! SUPPORT. The services at a slot that answer a request and write its slot, its hold or the count: what they leave due,
and the requests HOLD, RELEASE and UNPIN. -/

namespace Sys2Proof.Machine

/-! ## Writes that are no part of a state's quiet -/

section
variable {s : State} {p : PortId} {t : TagId}

theorem State.quiet_setUnit {u : PortUnit} (h : (s.unit p).SameQuiet u) : (s.setUnit p u).quiet = s.quiet :=
  State.quiet_congr rfl rfl rfl (State.sameQuiet_setUnit h)

theorem State.quiet_setHold (s : State) (p : PortId) (v : Hold) : (s.setHold p v).quiet = s.quiet :=
  State.quiet_congr rfl rfl rfl (fun _ => .refl _)

theorem State.quiet_setPhase (s : State) (p : PortId) (t : TagId) (ph : Phase) : (s.setPhase p t ph).quiet = s.quiet :=
  State.quiet_setUnit ⟨rfl, rfl, rfl⟩

theorem State.quiet_raise (s : State) (p : PortId) (n : Notice) : (s.raise p n).quiet = s.quiet :=
  State.quiet_setUnit (PortUnit.sameQuiet_raise ..)

/-- The final response of a request that is no consumer request leaves its port's current request (R86). -/
theorem State.quiet_respond (hkind : (s.tagRec p t).request.kind.isConsumer = false) (st : Status) (res : Result) :
    (s.respond p t st res).quiet = s.quiet := by
  have hkept (u : PortUnit) (hu : (u.tag t).request.kind.isConsumer = false) : u.currentEnded t = u :=
    if_neg (by simp [hu])
  unfold State.respond State.answered
  dsimp only
  rw [hkept _ (by rw [PortUnit.tag_setTag_self]; exact hkind)]
  refine State.quiet_setUnit (PortUnit.SameQuiet.trans ?_ (PortUnit.sameQuiet_place (.response t st res .final) trivial _))
  exact ⟨rfl, rfl, rfl⟩

variable {rest : List Message} {r : Request} {body : BitVec 64}

theorem State.quiet_takenIn (ph : Phase) : (s.takenIn p rest t r ph).quiet = s.quiet :=
  State.quiet_setUnit (PortUnit.sameQuiet_taken ..)

theorem State.dueRetry_dueRetry (s : State) : s.dueRetry.dueRetry = s.dueRetry := rfl

/-- The retry that is due finds nothing to do where nothing waits (R62). -/
theorem State.finish_dueRetry (hquiet : s.quiet = true) (hwaits : s.noWaits) : s.dueRetry.finish = s := by
  have hretry : s.retryDue = false := (s.quiet_iff.1 hquiet).1
  have hsame : ({ s.dueRetry with retryDue := false } : State) = s := by rw [← hretry]; rfl
  exact (State.finish_of_retry (s := s.dueRetry) (by rw [hsame, hquiet]) hwaits.1 hwaits.2).trans hsame

theorem State.finish_refuse_takenIn (ph : Phase) (st : Status) (hquiet : s.quiet = true)
    (hcurrent : (s.unit p).current ≠ some t) :
    ((s.takenIn p rest t (Request.ofBody body) ph).refuse p t st).finish = s.refused p rest t body st := by
  rw [State.refuse_takenIn ph st hcurrent]
  exact State.finish_takenAndPlaced hquiet _ _ (refusal_notBeat ..)

theorem State.flowRefusal_of_closed {f : FlowId} (h : (s.flow f).state = .closed) :
    s.flowRefusal f = some .closed := if_pos h

theorem State.flowRefusal_of_lost {f : FlowId} (hopen : (s.flow f).state ≠ .closed) (h : (s.flow f).halt = some .ctxErr) :
    s.flowRefusal f = some .ctxErr := by
  rw [State.flowRefusal, if_neg hopen]
  exact if_pos (decide_eq_true h)

end

/-! ## HOLD (R121 to R125) -/

section
variable {s : State} {p : PortId} {t : TagId} {S : SlotId} {f : FlowId}

theorem exec_holdReq (p : PortId) (s : State) : exec (.holdReq p) s =
    s.takeIn p .hold (fun s t r => s.checked p t (s.holdRefusal p r) (fun s => s.arrive (.request p t))) := rfl

theorem State.holdRefusal_of_zero {r : Request} (h : r.argA = 0) : s.holdRefusal p r = some .badArg := if_pos h

theorem State.holdRefusal_of_flowRefusal {r : Request} {st : Status} (hlease : r.argA ≠ 0)
    (h : s.flowRefusal r.flow = some st) : s.holdRefusal p r = some st := by
  rw [State.holdRefusal, if_neg hlease, h]

theorem State.holdRefusal_of_passed {r : Request} (hlease : r.argA ≠ 0) (h : s.flowRefusal r.flow = none) :
    s.holdRefusal p r =
      if (s.hold p).state ≠ .empty ∧ (s.hold p).flow ≠ r.flow then some .holding else none := by
  rw [State.holdRefusal, if_neg hlease, h]

/-- A renewal (R123). -/
theorem State.serveHoldHere_of_held (hstate : (s.hold p).state = .held) (hflow : (s.hold p).flow = f) :
    s.serveHoldHere S p t f = (s.setHold p { s.hold p with lease := (s.tagRec p t).request.argA.toNat }).respond p t .ok
      (.lease (s.tagRec p t).request.argA.toNat) := by
  unfold State.serveHoldHere
  dsimp only
  rw [if_pos ⟨hstate, hflow⟩]

/-- A HOLD that a hold or an admission in flight blocks (R123, R124). -/
theorem State.serveHoldHere_of_blocked (hstate : (s.hold p).state ≠ .held)
    (hown : (s.hold p).state = .empty ∨ (s.hold p).flow = f) (hblocked : s.isHeld f ∨ 0 < (s.flow f).admittedUnits) :
    s.serveHoldHere S p t f = s.parkOrHeld S p t := by
  have hother : ¬ ((s.hold p).state ≠ .empty ∧ (s.hold p).flow ≠ f) := by tauto
  unfold State.serveHoldHere
  dsimp only
  rw [if_neg (fun h => hstate h.1), if_neg hother]
  by_cases hheld : s.isHeld f
  · rw [if_pos ((s.holder_isSome_iff f).2 hheld)]
  · rw [if_neg (fun h => hheld ((s.holder_isSome_iff f).1 h)), if_pos (hblocked.resolve_left hheld)]

/-- A HOLD of a port with none, on a flow that nothing blocks (R123, R124). -/
theorem State.serveHoldHere_of_free (hempty : (s.hold p).state = .empty) (hfree : ¬ s.isHeld f)
    (hadmitted : (s.flow f).admittedUnits = 0) : s.serveHoldHere S p t f =
      if (s.slot S).pins = 0 ∧ 48 ≤ s.pinnedOrHeld then s.respond p t .pinFull .none else s.grantHold S p t f := by
  unfold State.serveHoldHere
  dsimp only
  rw [if_neg (by simp [hempty]), if_neg (by simp [hempty]), if_neg (fun h => hfree ((s.holder_isSome_iff f).1 h)),
    if_neg (by omega)]

/-- The grant of a hold, in one write (R124). -/
def State.holdGranted (s : State) (p : PortId) (S : SlotId) (v : Hold) : State :=
  { s with pinnedOrHeld := s.pinnedOrHeld + (if (s.slot S).pins = 0 then 1 else 0) }.setHold p v

theorem State.grantHold_eq (s : State) (S : SlotId) (p : PortId) (t : TagId) (f : FlowId) :
    s.grantHold S p t f =
      (s.holdGranted p S { state := .held, flow := f, lease := (s.tagRec p t).request.argA.toNat }).respond p t .ok
        (.lease (s.tagRec p t).request.argA.toNat) := by
  unfold State.grantHold State.holdGranted
  by_cases hpins : (s.slot S).pins = 0
  · simp only [if_pos hpins]
  · simp only [if_neg hpins, Nat.add_zero]

variable {body : BitVec 64} {rest : List Message}

section
variable (htakes : s.takesRequest p t body rest .hold)
include htakes

theorem exec_holdReq_of_refusal {st : Status} (hquiet : s.quiet = true)
    (h : s.holdRefusal p (Request.ofBody body) = some st) :
    exec (.holdReq p) s = .next (s.refused p rest t body st) := by
  have ⟨_, _, _, hcurrent, _⟩ := htakes
  have hcheck : (s.takenIn p rest t (Request.ofBody body) .taken).holdRefusal p (Request.ofBody body) = some st := h
  rw [exec_holdReq, State.takeIn_request htakes (by decide), hcheck]
  exact congrArg _ (State.finish_refuse_takenIn _ _ hquiet hcurrent)

/-- A HOLD past its take-in checks (R122) is served at the slot of its flow. -/
theorem exec_holdReq_of_serving (hopen : (s.flow (Request.ofBody body).flow).state ≠ .closed)
    (hhalt : (s.flow (Request.ofBody body).flow).halt ≠ some .ctxErr)
    (hpass : s.holdRefusal p (Request.ofBody body) = none) (hS : s.servingSlot (Request.ofBody body).flow = some S) :
    exec (.holdReq p) s = .next (((s.used S).takenIn p rest t (Request.ofBody body) .inService).serveHoldHere S p t
      (Request.ofBody body).flow).finish := by
  have ⟨_, hkind, _⟩ := htakes
  have hcheck : (s.takenIn p rest t (Request.ofBody body) .taken).holdRefusal p (Request.ofBody body) = none := hpass
  rw [exec_holdReq, State.takeIn_request htakes (by decide), hcheck]
  simp only [State.checked, State.arrive_takenIn _ hopen hhalt hS, State.serveRequest, State.tagRec_takenIn,
    TagRecord.using, hkind, State.startService_takenIn]

end

/-- Settles O41: the take-in checks, then the rows of R123 by the port's own record, what blocks the flow, and the room
in the count. -/
theorem holdIsGrantedInOrder : Obligations.HoldIsGrantedInOrder := by
  unfold Obligations.HoldIsGrantedInOrder
  intro s p t body rest hquiet htakes r f h
  have ⟨_, hkind, _, hcurrent, _⟩ := htakes
  have hanswer (st : Status) : refusal (Request.ofBody body).kind t st = .response t st .none .final := by
    rw [hkind]
    rfl
  refine ⟨fun hzero => exec_holdReq_of_refusal htakes hquiet (State.holdRefusal_of_zero hzero),
    fun hlease hclosed => exec_holdReq_of_refusal htakes hquiet
      (State.holdRefusal_of_flowRefusal hlease (State.flowRefusal_of_closed hclosed)),
    fun hlease hopen hlost => exec_holdReq_of_refusal htakes hquiet
      (State.holdRefusal_of_flowRefusal hlease (State.flowRefusal_of_lost hopen hlost)),
    fun hlease hopen hhalt => ?_⟩
  have hpasses := State.holdRefusal_of_passed (s := s) (p := p) hlease (State.flowRefusal_eq_none hopen hhalt)
  refine ⟨fun hstate hflow => exec_holdReq_of_refusal htakes hquiet (hpasses.trans (if_pos ⟨hstate, hflow⟩)),
    fun hown S hS => ?_⟩
  have hserved := exec_holdReq_of_serving htakes hopen hhalt (hpasses.trans (if_neg (by tauto))) hS
  have hquietu : (s.used S).quiet = true := by rw [State.used, State.quiet_setSlot, hquiet]
  set u := (s.used S).takenIn p rest t (Request.ofBody body) .inService with hu
  have htag : u.tagRec p t = .using r .inService := State.tagRec_takenIn _
  have hempty (hunheld : ¬ s.isHeld f) : h.state = .empty :=
    by_contra fun hne => hunheld ⟨p, hne, hown.resolve_left hne⟩
  refine ⟨fun hstate hflow => ?_, fun hstate hblocked hwait => ?_, fun hstate hblocked hwait => ?_,
    fun hstate hfree hpins hfull => ?_, fun hstate hfree hroom => ?_⟩
  · rw [hserved, State.serveHoldHere_of_held (s := u) hstate hflow, htag]
    exact congrArg _ (State.finish_respond_ok (s := (s.used S).setHold p { h with lease := r.argA.toNat }) _ _
      (by rw [State.quiet_setHold, hquietu]) hcurrent)
  · rw [hserved, State.serveHoldHere_of_blocked (s := u) hstate hown hblocked, State.parkOrHeld, htag,
      if_neg (by simpa [TagRecord.using] using hwait)]
    exact congrArg _ (State.finish_refuse_takenIn _ _ hquietu hcurrent)
  · rw [hserved, State.serveHoldHere_of_blocked (s := u) hstate hown hblocked, State.parkOrHeld, htag,
      if_pos (by simpa [TagRecord.using] using hwait), State.park, hu, State.setSlot_takenIn, State.setPhase_takenIn,
      State.setSlot_used, State.slot_takenIn, State.slot_used,
      State.finish_of_quiet (by rw [State.quiet_takenIn, State.quiet_setSlot, hquiet])]
  · obtain ⟨hunheld, hadmitted⟩ := not_or.1 hfree
    rw [hserved, State.serveHoldHere_of_free (s := u) (hempty hunheld) hunheld (Nat.eq_zero_of_not_pos hadmitted),
      if_pos ⟨by simpa [hu, State.slot_used] using hpins, hfull⟩]
    exact congrArg _ (State.finish_respond_refused _ _ hquietu hcurrent (hanswer _))
  · obtain ⟨hunheld, hadmitted⟩ := not_or.1 hfree
    have hcan : ¬ ((u.slot S).pins = 0 ∧ 48 ≤ u.pinnedOrHeld) := by
      have hpins : (u.slot S).pins = (s.slot S).pins := by rw [hu, State.slot_takenIn, State.slot_used]
      have hcount : u.pinnedOrHeld = s.pinnedOrHeld := rfl
      omega
    rw [hserved, State.serveHoldHere_of_free (s := u) (hempty hunheld) hunheld (Nat.eq_zero_of_not_pos hadmitted),
      if_neg hcan, State.grantHold_eq, htag]
    have hgranted : u.holdGranted p S { state := .held, flow := f, lease := r.argA.toNat } =
        ((s.used S).holdGranted p S { state := .held, flow := f, lease := r.argA.toNat }).takenIn p rest t
          (Request.ofBody body) .inService := rfl
    have hquietg (v : Hold) : ((s.used S).holdGranted p S v).quiet = true := by
      rw [State.holdGranted, State.quiet_setHold, State.quiet_setCount, hquietu]
    refine congrArg _ ((congrArg (fun v => (v.respond p t .ok (.lease r.argA.toNat)).finish) hgranted).trans ?_)
    rw [State.finish_respond_ok _ _ (hquietg _) hcurrent, State.holdGranted, State.slot_used]
    rfl

/-! ## A pass over a parked list with one HOLD (R126) -/

/-- The state when the one HOLD of a parked list has been granted (R124, R126). -/
def State.parkedGranted (s : State) (S : SlotId) (q : PortId) (g : TagId) (f : FlowId) : State :=
  ((((s.setParked S []).startService S q g).holdGranted q S
    { state := .held, flow := f, lease := (s.tagRec q g).request.argA.toNat }).respond q g .ok
      (.lease (s.tagRec q g).request.argA.toNat))

section
variable {q : PortId} {g : TagId}

@[simp] theorem State.slot_parkedGranted (s : State) (S : SlotId) (q : PortId) (g : TagId) (f : FlowId) :
    (s.parkedGranted S q g f).slot S = { s.slot S with parkedList := [], ref := true } := by
  have hslot : (s.parkedGranted S q g f).slot S =
    ((s.setParked S []).setSlot S { (s.setParked S []).slot S with ref := true }).slot S := rfl
  rw [hslot, State.slot_setSlot_self, State.setParked, State.slot_setSlot_self]

theorem State.tagRec_startService (s : State) (S : SlotId) (q : PortId) (g : TagId) :
    (s.startService S q g).tagRec q g = { s.tagRec q g with phase := .inService } := by
  simp [State.startService, State.setPhase, State.setTagRec, State.tagRec]

theorem State.hold_parkedGranted (s : State) (S : SlotId) (q o : PortId) (g : TagId) (f : FlowId) :
    (s.parkedGranted S q g f).hold o = if o = q then
      { state := .held, flow := f, lease := (s.tagRec q g).request.argA.toNat } else s.hold o :=
  State.hold_setHold ..

/-- What the grant writes beside the slot, the hold records and the port units is the count (R47). -/
theorem State.parkedGranted_eq (s : State) (S : SlotId) (q : PortId) (g : TagId) (f : FlowId) :
    s.parkedGranted S q g f = { s with
      slots := (s.parkedGranted S q g f).slots, holds := (s.parkedGranted S q g f).holds
      units := (s.parkedGranted S q g f).units
      pinnedOrHeld := s.pinnedOrHeld + (if (s.slot S).pins = 0 then 1 else 0) } := by
  have hpins : (((s.setParked S []).startService S q g).slot S).pins = (s.slot S).pins := by
    simp [State.startService, State.setParked, State.setPhase, State.setTagRec]
  have hcount : (s.parkedGranted S q g f).pinnedOrHeld =
      s.pinnedOrHeld + (if (((s.setParked S []).startService S q g).slot S).pins = 0 then 1 else 0) := rfl
  rw [hpins] at hcount
  rw [← hcount]
  rfl

theorem State.noWaits_parkedGranted (s : State) : (s.parkedGranted S q g f).noWaits ↔ s.noWaits := Iff.rfl

theorem State.unit_parkedGranted_ne (s : State) (S : SlotId) {q o : PortId} (h : o ≠ q) (g : TagId) (f : FlowId) :
    (s.parkedGranted S q g f).unit o = s.unit o := by
  have hstarted : ((s.setParked S []).startService S q g).unit o = s.unit o :=
    State.unit_setUnit_ne ((s.setParked S []).setSlot S _) _ h
  have hgranted (v : Hold) : (((s.setParked S []).startService S q g).holdGranted q S v).unit o = s.unit o := hstarted
  exact (State.unit_setUnit_ne _ _ h).trans (hgranted _)

theorem State.quiet_parkedGranted (hkind : (s.tagRec q g).request.kind = .hold) :
    (s.parkedGranted S q g f).quiet = s.quiet := by
  have htag (v : Hold) : ((((s.setParked S []).startService S q g).holdGranted q S v).tagRec q g).request.kind.isConsumer
      = false := by
    rw [show (((s.setParked S []).startService S q g).holdGranted q S v).tagRec q g =
      ((s.setParked S []).startService S q g).tagRec q g from rfl, State.tagRec_startService]
    exact congrArg ReqKind.isConsumer hkind
  rw [State.parkedGranted, State.quiet_respond (htag _), State.holdGranted, State.quiet_setHold, State.quiet_setCount,
    State.startService, State.quiet_setPhase, State.quiet_setSlot, State.setParked, State.quiet_setSlot]

/-- The service of a HOLD that nothing blocks, out of the parked list. -/
theorem State.serve_parked_hold (hkind : (s.tagRec q g).request.kind = .hold) (hflow : (s.tagRec q g).request.flow = f)
    (hempty : (s.hold q).state = .empty) (hfree : ¬ s.isHeld f) (hadmitted : (s.flow f).admittedUnits = 0)
    (hroom : ¬ ((s.slot S).pins = 0 ∧ 48 ≤ s.pinnedOrHeld)) :
    (s.setParked S []).serve S (.request q g) = s.parkedGranted S q g f := by
  set u := (s.setParked S []).startService S q g with hu
  have htag : u.tagRec q g = { s.tagRec q g with phase := .inService } := State.tagRec_startService ..
  have hslot : (u.slot S).pins = (s.slot S).pins := by
    simp [hu, State.startService, State.setParked, State.setPhase, State.setTagRec]
  have hserve : (s.setParked S []).serve S (.request q g) = u.serveHoldHere S q g f := by
    have hkind' : ((s.setParked S []).tagRec q g).request.kind = .hold := hkind
    simp only [State.serve, State.serveRequest, hkind']
    rw [show ((s.setParked S []).tagRec q g).request.flow = f from hflow]
  rw [hserve, State.serveHoldHere_of_free (s := u) hempty hfree hadmitted, if_neg (by rw [hslot]; exact hroom),
    State.grantHold_eq, htag]
  rfl

theorem State.parkedPass_of_hold (hserving : s.servingSlot f = some S) (hparked : (s.slot S).parkedList = [.request q g])
    (hkind : (s.tagRec q g).request.kind = .hold) (hflow : (s.tagRec q g).request.flow = f)
    (hempty : (s.hold q).state = .empty) (hfree : ¬ s.isHeld f) (hadmitted : (s.flow f).admittedUnits = 0)
    (hroom : ¬ ((s.slot S).pins = 0 ∧ 48 ≤ s.pinnedOrHeld)) :
    s.parkedPass f = (s.parkedGranted S q g f).dueRetry := by
  obtain ⟨_, hstate, hnames⟩ := State.servingSlot_eq_some_iff.1 hserving
  have hserve := State.serve_parked_hold hkind hflow hempty hfree hadmitted hroom
  have hresident : (s.parkedGranted S q g f).residentWith S f = true := by
    simp [State.residentWith, hstate, hnames]
  unfold State.parkedPass
  simp [hserving, hparked, State.serveParked, hserve, hresident]

end

theorem State.frame_of_holdWritten {w x : State}
    (hw : w = { s with holds := w.holds, units := w.units, pinnedOrHeld := w.pinnedOrHeld })
    (hx : x = { w with slots := x.slots, holds := x.holds, units := x.units, pinnedOrHeld := s.pinnedOrHeld }) :
    x = { s with slots := x.slots, holds := x.holds, units := x.units } := by
  rw [hw] at hx
  exact hx

/-! ## RELEASE (R128, R130) -/

theorem exec_releaseReq (p : PortId) (s : State) :
    exec (.releaseReq p) s = s.takeIn p .release (fun s t r => s.releaseGo p t r.flow) := rfl

section
variable (hquiet : s.quiet = true) (htakes : s.takesRequest p t body rest .release)
include hquiet htakes

theorem exec_releaseReq_of_notHeld
    (h : ¬ ((s.hold p).state = .held ∧ (s.hold p).flow = (Request.ofBody body).flow)) :
    exec (.releaseReq p) s = .next (s.refused p rest t body .notHeld) := by
  have ⟨_, hkind, _, hcurrent, _⟩ := htakes
  rw [exec_releaseReq, State.takeIn_request htakes (by decide), State.releaseGo]
  refine congrArg _ ((congrArg State.finish (if_neg h)).trans ?_)
  exact State.finish_respond_refused _ _ hquiet hcurrent (by rw [hkind]; rfl)

omit hquiet in
theorem exec_releaseReq_of_held (hstate : (s.hold p).state = .held)
    (hflow : (s.hold p).flow = (Request.ofBody body).flow) :
    exec (.releaseReq p) s = .next ((s.granted p rest t body .none).endHold p none).finish := by
  have ⟨_, _, _, hcurrent, _⟩ := htakes
  rw [exec_releaseReq, State.takeIn_request htakes (by decide), State.releaseGo]
  refine congrArg _ (congrArg State.finish ((if_pos ⟨hstate, hflow⟩).trans ?_))
  rw [State.respond_takenIn _ _ _ hcurrent]
  rfl

end

/-- Settles O42: a RELEASE of the port's own hold ends it, and the pass of R126 grants a HOLD that stands first. -/
theorem releaseEndsTheHold : Obligations.ReleaseEndsTheHold := by
  unfold Obligations.ReleaseEndsTheHold
  intro s p t body rest hquiet htakes f
  refine ⟨exec_releaseReq_of_notHeld hquiet htakes, fun hstate hflow hwaits S hS => ?_⟩
  set v := s.granted p rest t body .none with hv
  have hquietv : v.quiet = true := (State.quiet_takenAndPlaced _ (.response t .ok .none .final) trivial).trans hquiet
  have hquietw : (v.holdEnded p S).quiet = true := by
    rw [State.holdEnded, State.quiet_setHold, State.quiet_setCount, hquietv]
  have hexec := exec_releaseReq_of_held htakes hstate hflow
  refine ⟨fun hparked => ?_, fun q g hqp hparked hkind hreq _ hempty hex hadmitted hleast hmost => ?_⟩
  · rw [hexec, State.endHold_of_none_parked (s := v) hS hflow hparked]
    exact congrArg _ (State.finish_dueRetry hquietw hwaits)
  · have htag : (v.holdEnded p S).tagRec q g = s.tagRec q g :=
      congrArg (PortUnit.tag · g) (State.unit_setUnit_ne s _ hqp)
    have hfree : ¬ (v.holdEnded p S).isHeld f := by
      have hnot : (s.hold p).state ≠ .empty := by rw [hstate]; decide
      exact fun hheld => ((State.isHeld_cleared hex hnot f).1 hheld).1 hflow.symm
    have hroom : ¬ (((v.holdEnded p S).slot S).pins = 0 ∧ 48 ≤ (v.holdEnded p S).pinnedOrHeld) := by
      rintro ⟨hpins, hcount⟩
      have hcount' : 48 ≤ s.pinnedOrHeld - if (s.slot S).pins = 0 then 1 else 0 := hcount
      rw [if_pos (show (s.slot S).pins = 0 from hpins)] at hcount'
      omega
    have hq : (v.holdEnded p S).hold q = s.hold q := State.hold_setHold_ne _ _ hqp
    have hpass := State.parkedPass_of_hold (s := v.holdEnded p S) hS hparked (by rw [htag, hkind]) (by rw [htag, hreq])
      (by rw [hq, hempty]) hfree hadmitted hroom
    have hquietg := (State.quiet_parkedGranted (s := v.holdEnded p S) (S := S) (f := f) (by rw [htag, hkind])).trans hquietw
    set w := v.holdEnded p S with hw
    have hrun : exec (.releaseReq p) s = .next (w.parkedGranted S q g f) := by
      rw [hexec, State.endHold_of_serving (s := v) hS hflow]
      change Host.Outcome.next (w.parkedPass f).dueRetry.finish = _
      rw [hpass, State.dueRetry_dueRetry, State.finish_dueRetry hquietg (w.noWaits_parkedGranted.2 hwaits)]
    refine ⟨_, hrun, ?_, ?_, ?_, ?_, ?_⟩
    · rw [State.hold_parkedGranted, if_neg hqp.symm, hw, State.holdEnded, State.hold_setHold_self]
      rfl
    · rw [State.hold_parkedGranted, if_pos rfl, htag]
    · rw [State.slot_parkedGranted]
    · exact State.unit_parkedGranted_ne w S hqp.symm g f
    · have hcount : s.pinnedOrHeld - (if (s.slot S).pins = 0 then 1 else 0) + (if (s.slot S).pins = 0 then 1 else 0) =
          s.pinnedOrHeld := by split <;> omega
      have hw' : w.parkedGranted S q g f = { w with
          slots := (w.parkedGranted S q g f).slots, holds := (w.parkedGranted S q g f).holds
          units := (w.parkedGranted S q g f).units, pinnedOrHeld := s.pinnedOrHeld } := by
        rw [← hcount]
        exact w.parkedGranted_eq S q g f
      exact State.frame_of_holdWritten rfl hw'

end

end Sys2Proof.Machine

/-! SUPPORT. A retry of the waits by what its head meets, and the service of UNPIN. -/

namespace Sys2Proof.Machine

/-! ## A retry (R62, R63) -/

section
variable {s s' : State} {n : Nat} {r : Req} {rest : List Req}

theorem State.headOfWaits_of_linkWait (h : s.linkWait = r :: rest) :
    s.headOfWaits = some (r, { s with linkWait := rest }) := by
  unfold State.headOfWaits
  rw [h]

theorem State.headOfWaits_of_missWait (hlink : s.linkWait = []) (h : s.missWait = r :: rest) :
    s.headOfWaits = some (r, { s with missWait := rest }) := by
  unfold State.headOfWaits
  rw [hlink, h]

theorem State.retryWaits_of_noWaits (h : s.noWaits) : s.retryWaits = { s with retryDue := false } := by
  obtain ⟨hmiss, hlink⟩ := h
  unfold State.retryWaits
  rw [hmiss, hlink]
  rfl

theorem State.metStatus_isSome_iff : (s.metStatus r).isSome = true ↔
    ((s.flow (s.reqFlow r)).state = .closed ∧ s.isOpen r = false) ∨
      ((s.flow (s.reqFlow r)).state ≠ .closed ∧ (s.flow (s.reqFlow r)).halt = some .ctxErr) := by
  unfold State.metStatus
  by_cases hclosed : (s.flow (s.reqFlow r)).state = .closed
  · cases hopen : s.isOpen r <;> simp [hclosed]
  · by_cases hlost : (s.flow (s.reqFlow r)).halt = some .ctxErr <;> simp [hclosed, FlowEntry.lost, hlost]

/-- A head that needs no slot is taken as one that newly arrives (R63). -/
theorem State.retry_of_arrives (hhead : s.headOfWaits = some (r, s'))
    (h : (s.flow (s.reqFlow r)).residency.isSome ∨ (s.metStatus r).isSome) :
    State.retry (n + 1) s = State.retry n (s'.arrive r) := by
  simp only [State.retry, hhead]
  rw [if_pos h]

/-- A head that no slot can be found for ends the retry (R63). -/
theorem State.retry_of_none (hhead : s.headOfWaits = some (r, s'))
    (h : ¬ ((s.flow (s.reqFlow r)).residency.isSome ∨ (s.metStatus r).isSome)) (hsearch : s.search = (none, s)) :
    State.retry (n + 1) s = s := by
  simp only [State.retry, hhead]
  rw [if_neg h, hsearch]

theorem State.retry_of_victim {V : SlotId} {t t' : State} (hhead : s.headOfWaits = some (r, s'))
    (h : ¬ ((s.flow (s.reqFlow r)).residency.isSome ∨ (s.metStatus r).isSome)) (hsearch : s.search = (some V, t))
    (hhead' : t.headOfWaits = some (r, t')) : State.retry (n + 1) s = State.retry n (t'.takeFor V r) := by
  simp only [State.retry, hhead]
  rw [if_neg h, hsearch]
  simp only [hhead']

end

/-! ## UNPIN (R134) -/

section
variable {s : State} {p : PortId} {t : TagId} {S : SlotId} {f : FlowId}

/-- The mark of a used slot leaves what it serves. -/
theorem State.servingSlot_used (h : s.servingSlot f = some S) : (s.used S).servingSlot f = some S := by
  obtain ⟨hres, hstate, hflow⟩ := State.servingSlot_eq_some_iff.1 h
  refine State.servingSlot_eq_some_iff.2 ⟨hres, ?_⟩
  rw [State.slot_used]
  exact ⟨hstate, hflow⟩

theorem State.serveUnpinHere_of_none (h : (s.slot S).pins = 0) :
    s.serveUnpinHere S p t = s.respond p t .badArg .none := if_pos h

/-- The last pin of a slot that no one holds (R134). -/
theorem State.serveUnpinHere_of_last (hpins : (s.slot S).pins = 1) (hheld : s.slotHeld S = false) :
    s.serveUnpinHere S p t = ((({ s with pinnedOrHeld := s.pinnedOrHeld - 1 } : State).setSlot S
      { s.slot S with pins := 0 }).respond p t .ok (.pins 0)).dueRetry := by
  simp [State.serveUnpinHere, hpins, hheld]

theorem State.serveUnpinHere_of_last_held (hpins : (s.slot S).pins = 1) (hheld : s.slotHeld S = true) :
    s.serveUnpinHere S p t = ((s.setSlot S { s.slot S with pins := 0 }).respond p t .ok (.pins 0)).dueRetry := by
  simp [State.serveUnpinHere, hpins, hheld]

theorem State.serveUnpinHere_of_more (hpins : 2 ≤ (s.slot S).pins) :
    s.serveUnpinHere S p t = (s.setSlot S { s.slot S with pins := (s.slot S).pins - 1 }).respond p t .ok
      (.pins ((s.slot S).pins - 1)) := by
  have hnone : (s.slot S).pins ≠ 0 := by omega
  have hlast : (s.slot S).pins ≠ 1 := by omega
  simp [State.serveUnpinHere, hnone, hlast]

variable {body : BitVec 64} {rest : List Message}

theorem exec_unpinReq (p : PortId) (s : State) : exec (.unpinReq p) s =
    s.takeIn p .unpin (fun s t r => s.checked p t (s.pinRefusal p r) (fun s => s.arrive (.request p t))) := rfl

section
variable (htakes : s.takesRequest p t body rest .unpin) (hadmin : s.config.adminRole[p] = true)
  (hopen : (s.flow (Request.ofBody body).flow).state ≠ .closed)
  (hhalt : (s.flow (Request.ofBody body).flow).halt ≠ some .ctxErr)
  (hS : s.servingSlot (Request.ofBody body).flow = some S)
include htakes hadmin hopen hhalt hS

/-- An UNPIN past its take-in checks (R132) is served at the slot of its flow. -/
theorem exec_unpinReq_of_serving : exec (.unpinReq p) s =
    .next (((s.used S).takenIn p rest t (Request.ofBody body) .inService).serveUnpinHere S p t).finish := by
  have ⟨_, hkind, _⟩ := htakes
  have hpass : (s.takenIn p rest t (Request.ofBody body) .taken).pinRefusal p (Request.ofBody body) = none :=
    State.pinRefusal_eq_none hadmin hopen hhalt
  rw [exec_unpinReq, State.takeIn_request htakes (by decide), hpass]
  simp only [State.checked, State.arrive_takenIn _ hopen hhalt hS, State.serveRequest, State.tagRec_takenIn,
    TagRecord.using, hkind, State.startService_takenIn]

/-- An UNPIN whose service writes slots and the count alone, and answers OK. -/
theorem exec_unpinReq_of_granted {u : State} {res : Result} (hu : u.quiet = true) (hunits : u.units = s.units)
    (h : ((s.used S).takenIn p rest t (Request.ofBody body) .inService).serveUnpinHere S p t =
      (u.takenIn p rest t (Request.ofBody body) .inService).respond p t .ok res) :
    exec (.unpinReq p) s = .next (u.granted p rest t body res) := by
  have ⟨_, _, _, hcurrent, _⟩ := htakes
  have hcurrent' : (u.unit p).current ≠ some t := by rwa [State.unit, hunits]
  rw [exec_unpinReq_of_serving htakes hadmin hopen hhalt hS, h, State.finish_respond_ok _ _ hu hcurrent']

/-- The same of an UNPIN that takes the last pin, where the retry that it brings finds nothing to do. -/
theorem exec_unpinReq_of_last {u : State} {res : Result} (hu : u.quiet = true) (hunits : u.units = s.units)
    (hwaits : u.noWaits)
    (h : ((s.used S).takenIn p rest t (Request.ofBody body) .inService).serveUnpinHere S p t =
      ((u.takenIn p rest t (Request.ofBody body) .inService).respond p t .ok res).dueRetry) :
    exec (.unpinReq p) s = .next (u.granted p rest t body res) := by
  have ⟨_, _, _, hcurrent, _⟩ := htakes
  have hcurrent' : (u.unit p).current ≠ some t := by rwa [State.unit, hunits]
  have hquiet : (u.granted p rest t body res).quiet = true :=
    (State.quiet_takenAndPlaced _ (.response t .ok res .final) trivial).trans hu
  rw [exec_unpinReq_of_serving htakes hadmin hopen hhalt hS, h, State.respond_takenIn _ _ _ hcurrent']
  exact congrArg _ (State.finish_dueRetry hquiet hwaits)

theorem exec_unpinReq_of_none (hquiet : s.quiet = true) (hpins : (s.slot S).pins = 0) :
    exec (.unpinReq p) s = .next ((s.used S).refused p rest t body .badArg) := by
  have ⟨_, hkind, _, hcurrent, _⟩ := htakes
  have hused : (s.used S).quiet = true := (s.quiet_setSlot S _).trans hquiet
  rw [exec_unpinReq_of_serving htakes hadmin hopen hhalt hS, State.serveUnpinHere_of_none,
    State.finish_respond_refused _ _ hused hcurrent (by rw [hkind]; rfl)]
  rw [State.slot_takenIn, State.slot_used, hpins]

end

end

/-- Settles O44: a retry by its head, and the rows of UNPIN by the slot's pins and whether its flow is held. -/
theorem unpinCountsAtTheSlot : Obligations.UnpinCountsAtTheSlot := by
  unfold Obligations.UnpinCountsAtTheSlot
  refine ⟨fun s n r s' => ⟨fun rest hlink hs' => ?_, fun rest hlink hmiss hs' => ?_, State.retryWaits_of_noWaits,
    fun hhead => ?_⟩, ?_⟩
  · rw [hs', State.headOfWaits_of_linkWait hlink]
  · rw [hs', State.headOfWaits_of_missWait hlink hmiss]
  · refine ⟨fun hmeets => State.retry_of_arrives hhead ?_, fun hres hopen hhalt => ?_⟩
    · rw [State.metStatus_isSome_iff, Option.isSome_iff_ne_none]
      exact hmeets
    have hneeds : ¬ ((s.flow (s.reqFlow r)).residency.isSome ∨ (s.metStatus r).isSome) := by
      rw [State.metStatus_isSome_iff, Option.isSome_iff_ne_none]
      tauto
    exact ⟨fun hnone => State.retry_of_none hhead hneeds
        (State.search_of_no_candidate fun T => State.not_candidate_iff.2 (hnone T)),
      fun V t t' hsearch hhead' => State.retry_of_victim hhead hneeds hsearch hhead'⟩
  intro s p t body rest hquiet htakes hadmin f hopen hhalt S hS v isHeld
  set u := (s.used S).takenIn p rest t (Request.ofBody body) .inService with hu
  have hslot : u.slot S = { v with ref := true } := by rw [hu, State.slot_takenIn, State.slot_used]
  have hheld : u.slotHeld S = true ↔ isHeld :=
    State.slotHeld_serving (s := u) (State.servingSlot_used hS)
  refine ⟨exec_unpinReq_of_none htakes hadmin hopen hhalt hS hquiet, fun hpins hfree hwaits => ?_,
    fun hpins hkept hwaits => ?_, fun hpins => ?_⟩
  · refine exec_unpinReq_of_last htakes hadmin hopen hhalt hS (by rw [State.quiet_setSlot, State.quiet_setCount, hquiet])
      rfl hwaits ?_
    rw [State.serveUnpinHere_of_last (by rw [hslot, hpins]) (Bool.eq_false_iff.2 fun h => hfree (hheld.1 h)), hslot, hu,
      State.setCount_takenIn, State.setSlot_takenIn, State.setSlot_setCount_used]
    rfl
  · refine exec_unpinReq_of_last htakes hadmin hopen hhalt hS (by rw [State.quiet_setSlot, hquiet]) rfl hwaits ?_
    rw [State.serveUnpinHere_of_last_held (by rw [hslot, hpins]) (hheld.2 hkept), hslot, hu, State.setSlot_takenIn,
      State.setSlot_used]
  · refine exec_unpinReq_of_granted htakes hadmin hopen hhalt hS (by rw [State.quiet_setSlot, hquiet]) rfl ?_
    rw [State.serveUnpinHere_of_more (by rw [hslot]; exact hpins), hslot, State.setSlot_takenIn, State.setSlot_used]

end Sys2Proof.Machine

/-! SUPPORT. The hand-on of a consumer request (R86, R88): its port's current request, the end of an event that hands
one on, and the take-in checks of the requests. -/

namespace Sys2Proof.Machine

/-! ## A port's current request, beside its queue and its notices -/

namespace PortUnit

theorem placeOneNotice_current (u : PortUnit) (c : Option TagId) :
    ({ u with current := c } : PortUnit).placeOneNotice = u.placeOneNotice.map (fun v => { v with current := c }) := by
  unfold placeOneNotice
  dsimp only
  split
  · rfl
  · split
    · rfl
    · split <;> rfl

theorem placeNotices_current (n : Nat) (u : PortUnit) (c : Option TagId) :
    ({ u with current := c } : PortUnit).placeNotices n = { u.placeNotices n with current := c } := by
  induction n generalizing u with
  | zero => rfl
  | succ n ih =>
    rw [placeNotices, placeNotices, placeOneNotice_current]
    dsimp only
    split
    · cases u.placeOneNotice with
      | none => rfl
      | some v => exact ih v
    · rfl

theorem noticesPlaced_current (u : PortUnit) (c : Option TagId) :
    ({ u with current := c } : PortUnit).noticesPlaced = { u.noticesPlaced with current := c } :=
  placeNotices_current _ u c

theorem displaced_current (u : PortUnit) (c : Option TagId) :
    ({ u with current := c } : PortUnit).displaced = { u.displaced with current := c } := by
  unfold displaced
  dsimp only
  split <;> rfl

theorem place_current (u : PortUnit) (m : OutMsg) (c : Option TagId) :
    ({ u with current := c } : PortUnit).place m = { u.place m with current := c } := by
  unfold place
  dsimp only
  split
  · rfl
  · split
    · rfl
    · rw [displaced_current]
      exact noticesPlaced_current { u.displaced with outbound := u.displaced.outbound ++ [m] } c

theorem raise_current (u : PortUnit) (n : Notice) (c : Option TagId) :
    ({ u with current := c } : PortUnit).raise n = { u.raise n with current := c } := by
  unfold raise
  dsimp only
  split
  · rfl
  · split
    · exact noticesPlaced_current { u with readyWaiting := some (u.readyWaiting.getD false) } c
    · exact noticesPlaced_current { u with poolLowWaiting := some (u.poolLowWaiting.getD false) } c
    · have hbears : ({ u with current := c } : PortUnit).flowBearing = u.flowBearing := rfl
      rw [hbears]
      split
      · exact noticesPlaced_current { u with overflow := true } c
      · exact noticesPlaced_current { u with noticeQueue := u.noticeQueue ++ [(n, false)] } c

end PortUnit

/-! ## The end of an event that hands one request on -/

/-- Hand-ons and a retry that finds nothing waiting, once no request is to be handed on. -/
theorem State.settle_of_none_due {s : State} (hhand : ∀ p, s.handOnDue p = false) (hwaits : s.retryDue = true → s.noWaits)
    (n : Nat) : State.settle (n + 1) s = { s with retryDue := false } := by
  cases hretry : s.retryDue with
  | false => rw [State.settle_quiet _ _ hhand hretry, ← hretry]
  | true =>
    have hnone : allPorts.find? s.handOnDue = none := List.find?_eq_none.2 (fun p _ => by simp [hhand p])
    rw [State.settle, hnone]
    dsimp only
    rw [if_pos hretry, State.retryWaits_of_noWaits (hwaits hretry)]
    exact State.settle_quiet _ _ hhand rfl

/-- An event that ends with one hand-on ends as if the request had been handed on in it. -/
theorem State.finish_of_handOn {s : State} {p : PortId} (hdue : allPorts.find? s.handOnDue = some p)
    (hhand : ∀ q, (s.handOn p).handOnDue q = false) (hwaits : (s.handOn p).retryDue = true → (s.handOn p).noWaits) :
    s.finish = (s.handOn p).finish := by
  have hstep (n : Nat) : State.settle (n + 1) s = State.settle n (s.handOn p) := by
    rw [State.settle, hdue]
  unfold State.finish
  rw [show 4 * s.waiting + 4 = 4 * s.waiting + 2 + 1 + 1 from rfl, hstep, State.settle_of_none_due hhand hwaits,
    show 4 * (s.handOn p).waiting + 4 = 4 * (s.handOn p).waiting + 3 + 1 from rfl,
    State.settle_of_none_due hhand hwaits]

/-! ## Take-in checks -/

section
variable {s : State} {p : PortId} {t : TagId} {body : BitVec 64} {rest : List Message} {k : ReqKind}

/-- A request other than a PUT that fails its own checks. -/
theorem State.takeIn_checked_of_refusal {check : State → TagId → Request → Option Status}
    {go : TagId → Request → State → State} {st : Status} (hquiet : s.quiet = true) (htakes : s.takesRequest p t body rest k)
    (hk : k ≠ .put)
    (h : check (s.takenIn p rest t (Request.ofBody body) .taken) t (Request.ofBody body) = some st) :
    s.takeIn p k (fun s t r => s.checked p t (check s t r) (go t r)) = .next (s.refused p rest t body st) := by
  have ⟨_, _, _, hcurrent, _⟩ := htakes
  rw [State.takeIn_request htakes hk, h]
  exact congrArg _ (State.finish_refuse_takenIn _ _ hquiet hcurrent)

/-- A request other than a PUT that passes its own checks. -/
theorem State.takeIn_checked_of_passed {check : State → TagId → Request → Option Status}
    {go : TagId → Request → State → State} (htakes : s.takesRequest p t body rest k) (hk : k ≠ .put)
    (h : check (s.takenIn p rest t (Request.ofBody body) .taken) t (Request.ofBody body) = none) :
    s.takeIn p k (fun s t r => s.checked p t (check s t r) (go t r)) =
      .next (go t (Request.ofBody body) (s.takenIn p rest t (Request.ofBody body) .taken)).finish := by
  rw [State.takeIn_request htakes hk, h]
  rfl

/-- PIN and UNPIN (R132) stand behind the same checks. -/
theorem exec_pinOrUnpin (hk : k = .pin ∨ k = .unpin) (p : PortId) (s : State) : exec (k.command p) s =
    s.takeIn p k (fun s t r => s.checked p t (s.pinRefusal p r) (fun s => s.arrive (.request p t))) := by
  obtain rfl | rfl := hk <;> rfl

theorem State.pinRefusal_of_denied {r : Request} (h : s.config.adminRole[p] = false) :
    s.pinRefusal p r = some .denied := by
  simp [State.pinRefusal, h]

theorem State.pinRefusal_of_flowRefusal {r : Request} (h : s.config.adminRole[p] = true) :
    s.pinRefusal p r = s.flowRefusal r.flow := by
  simp [State.pinRefusal, h]

/-- The argument range of a consumer request (R87). -/
def ReqKind.inRange (k : ReqKind) (r : Request) : Bool :=
  match k with
  | .take => decide (r.argA.toNat ≤ 16384)
  | .peek => decide (1 ≤ r.argA.toNat ∧ r.argA.toNat ≤ 4096)
  | _ => true

/-- TAKE, PEEK and DROP stand behind the same checks (R87). -/
theorem exec_consumer (hk : k = .take ∨ k = .peek ∨ k = .drop) (p : PortId) (s : State) : exec (k.command p) s =
    s.takeIn p k (fun s t r => s.checked p t (s.consumerRefusal p r (k.inRange r)) (fun s => s.queueConsumer p t)) := by
  obtain rfl | rfl | rfl := hk <;> rfl

theorem State.consumerRefusal_of_outOfRange {r : Request} : s.consumerRefusal p r false = some .badArg := rfl

theorem State.consumerRefusal_of_flowRefusal {r : Request} {st : Status} (h : s.flowRefusal r.flow = some st) :
    s.consumerRefusal p r true = some st := by
  simp [State.consumerRefusal, h]

theorem State.consumerRefusal_of_passed {r : Request} (h : s.flowRefusal r.flow = none) :
    s.consumerRefusal p r true = if (s.flow r.flow).consumer ≠ p then some .notCons else none := by
  simp [State.consumerRefusal, h]

end

/-! ## A consumer request handed on at once (R86, R88) -/

section
variable {s : State} {p : PortId} {t : TagId} {rest : List Message} {r : Request} {body : BitVec 64} {k : ReqKind} {S : SlotId}

/-- The port with a request as its current one. -/
def State.withCurrent (s : State) (p : PortId) (t : TagId) : State := s.setUnit p { s.unit p with current := some t }

theorem State.takenIn_withCurrent (ph : Phase) : (s.withCurrent p t).takenIn p rest t r ph = s.setUnit p
    { ((s.unit p).afterTakeIn rest).setTag t (.using r ph) with current := some t } := by
  rw [State.takenIn, State.withCurrent, State.unit_setUnit_self, State.setUnit_setUnit]
  rfl

theorem State.queueConsumer_takenIn : (s.takenIn p rest t r .taken).queueConsumer p t =
    (s.takenIn p rest t r .queuedAtPort).setUnit p { (s.takenIn p rest t r .queuedAtPort).unit p with
      consumerQueue := (s.unit p).consumerQueue ++ [t] } := by
  have hunit : (s.takenIn p rest t r .queuedAtPort).unit p =
      ((s.unit p).afterTakeIn rest).setTag t (.using r .queuedAtPort) := State.unit_setUnit_self ..
  unfold State.queueConsumer
  dsimp only
  rw [State.setPhase_takenIn, hunit]
  rfl

theorem PortUnit.currentEnded_current {u : PortUnit} (hcurrent : u.current = none)
    (hkind : (u.tag t).request.kind.isConsumer = true) :
    ({ u with current := some t } : PortUnit).currentEnded t = u := by
  rw [PortUnit.currentEnded, if_pos ⟨rfl, hkind⟩, ← hcurrent]

/-- The hand-on of the one request of a port's queue. -/
theorem State.handOn_queued (hqueue : (s.unit p).consumerQueue = []) :
    ((s.takenIn p rest t r .taken).queueConsumer p t).handOn p =
      ((s.withCurrent p t).takenIn p rest t r .queuedAtPort).arrive (.request p t) := by
  have hqueued : ((s.takenIn p rest t r .queuedAtPort).setUnit p { (s.takenIn p rest t r .queuedAtPort).unit p with
      consumerQueue := [t] }).unit p = { (s.takenIn p rest t r .queuedAtPort).unit p with consumerQueue := [t] } :=
    State.unit_setUnit_self ..
  have htaken : (s.takenIn p rest t r .queuedAtPort).unit p =
      ((s.unit p).afterTakeIn rest).setTag t (.using r .queuedAtPort) := State.unit_setUnit_self ..
  have hempty : ({ ((s.unit p).afterTakeIn rest).setTag t (.using r .queuedAtPort) with
      consumerQueue := [], current := some t } : PortUnit) =
      { ((s.unit p).afterTakeIn rest).setTag t (.using r .queuedAtPort) with current := some t } := by
    rw [← hqueue]
    rfl
  rw [State.queueConsumer_takenIn, hqueue, List.nil_append, State.handOn, hqueued, State.takenIn_withCurrent]
  dsimp only
  rw [State.setUnit_setUnit, htaken, hempty, State.takenIn, State.setUnit_setUnit]

/-- The final response of a consumer request that was handed on at once leaves its port without a current one. -/
theorem State.answered_withCurrent (hcurrent : (s.unit p).current = none) (hkind : r.kind.isConsumer = true) (ph : Phase)
    (m : OutMsg) :
    ((s.withCurrent p t).takenIn p rest t r ph).answered p t m = s.takenAndPlaced p rest t r .responding m := by
  have hended := PortUnit.currentEnded_current (u := ((s.unit p).afterTakeIn rest).setTag t (.using r .responding))
    (t := t) hcurrent (by rw [PortUnit.tag_setTag_self]; exact hkind)
  rw [State.takenIn_withCurrent, State.answered, State.unit_setUnit_self, State.setUnit_setUnit]
  set u := ((s.unit p).afterTakeIn rest).setTag t (.using r ph) with hu
  have hresponding : u.setTag t { u.tag t with phase := .responding } =
      ((s.unit p).afterTakeIn rest).setTag t (.using r .responding) := by
    rw [hu, PortUnit.tag_setTag_self, PortUnit.setTag_setTag]
    rfl
  rw [← hresponding] at hended
  change s.setUnit p ((PortUnit.currentEnded
    { u.setTag t { u.tag t with phase := .responding } with current := some t } t).place m) = _
  rw [hended, hresponding]
  rfl

theorem State.refuse_withCurrent (hcurrent : (s.unit p).current = none) (hkind : (Request.ofBody body).kind.isConsumer = true)
    (ph : Phase) (st : Status) :
    ((s.withCurrent p t).takenIn p rest t (Request.ofBody body) ph).refuse p t st = s.refused p rest t body st := by
  unfold State.refuse
  rw [State.tagRec_takenIn]
  unfold State.respondEnd State.respond
  rw [State.answered_withCurrent hcurrent hkind, State.answered_withCurrent hcurrent hkind]
  unfold State.refused
  cases hr : (Request.ofBody body).kind <;> simp [TagRecord.using, ReqKind.endsByEnd, refusal, hr]

theorem ReqKind.isConsumer_of (hk : k = .take ∨ k = .peek ∨ k = .drop) : k.isConsumer = true ∧ k ≠ .put := by
  obtain rfl | rfl | rfl := hk <;> decide

section
variable (hquiet : s.quiet = true) (hk : k = .take ∨ k = .peek ∨ k = .drop) (htakes : s.takesRequest p t body rest k)
  (hrange : k.inRange (Request.ofBody body) = true) (hopen : (s.flow (Request.ofBody body).flow).state ≠ .closed)
  (hhalt : (s.flow (Request.ofBody body).flow).halt ≠ some .ctxErr)
  (hconsumer : (s.flow (Request.ofBody body).flow).consumer = p)
include hk htakes hrange hopen hhalt hconsumer

/-- A consumer request that passes its checks joins its port's queue. -/
theorem exec_consumer_of_passed : exec (k.command p) s =
    .next ((s.takenIn p rest t (Request.ofBody body) .taken).queueConsumer p t).finish := by
  have hpass : (s.takenIn p rest t (Request.ofBody body) .taken).consumerRefusal p (Request.ofBody body)
      (k.inRange (Request.ofBody body)) = none := by
    have hflow : (s.takenIn p rest t (Request.ofBody body) .taken).flowRefusal (Request.ofBody body).flow = none :=
      State.flowRefusal_eq_none hopen hhalt
    rw [hrange, State.consumerRefusal_of_passed hflow]
    exact if_neg (not_not_intro hconsumer)
  rw [exec_consumer hk]
  exact State.takeIn_checked_of_passed htakes (ReqKind.isConsumer_of hk).2
    (check := fun s _ r => s.consumerRefusal p r (k.inRange r)) hpass

include hquiet

/-- A consumer request of a port with no other is handed on at once to the slot that serves its flow. -/
theorem exec_consumer_of_serving (hcurrent : (s.unit p).current = none) (hqueue : (s.unit p).consumerQueue = [])
    (hS : s.servingSlot (Request.ofBody body).flow = some S) {y : State}
    (hy : ((s.withCurrent p t).takenIn p rest t (Request.ofBody body) .queuedAtPort).serveRequest S p t = y)
    (hhand : ∀ q, y.handOnDue q = false) (hwaits : y.retryDue = true → y.noWaits) :
    exec (k.command p) s = .next y.finish := by
  have hserve : ((s.takenIn p rest t (Request.ofBody body) .taken).queueConsumer p t).handOn p = y := by
    rw [State.handOn_queued hqueue, State.arrive_takenIn (s := s.withCurrent p t) _ hopen hhalt hS, hy]
  have hdue : allPorts.find? ((s.takenIn p rest t (Request.ofBody body) .taken).queueConsumer p t).handOnDue = some p := by
    have hnone (q : PortId) : s.handOnDue q = false := ((s.quiet_iff.1 hquiet).2.1 q).1
    rw [State.queueConsumer_takenIn]
    refine find?_allPorts_of_first ?_ fun q hq => ?_
    · rw [State.handOnDue, State.unit_setUnit_self, State.takenIn, State.unit_setUnit_self]
      exact Bool.and_eq_true_iff.2 ⟨Option.isNone_iff_eq_none.2 hcurrent, by simp⟩
    · rw [← hnone q]
      unfold State.handOnDue
      rw [State.unit_setUnit_ne _ _ hq.ne, State.takenIn, State.unit_setUnit_ne _ _ hq.ne]
  rw [exec_consumer_of_passed hk htakes hrange hopen hhalt hconsumer]
  exact congrArg _ (by rw [State.finish_of_handOn hdue (by rwa [hserve]) (by rwa [hserve]), hserve])

/-- The same, where the service leaves nothing due. -/
theorem exec_consumer_of_quiet (hcurrent : (s.unit p).current = none) (hqueue : (s.unit p).consumerQueue = [])
    (hS : s.servingSlot (Request.ofBody body).flow = some S) {y : State}
    (hy : ((s.withCurrent p t).takenIn p rest t (Request.ofBody body) .queuedAtPort).serveRequest S p t = y)
    (hyquiet : y.quiet = true) : exec (k.command p) s = .next y := by
  obtain ⟨hretry, hdue, -⟩ := y.quiet_iff.1 hyquiet
  rw [exec_consumer_of_serving hquiet hk htakes hrange hopen hhalt hconsumer hcurrent hqueue hS hy (fun q => (hdue q).1)
    (fun h => absurd h (by simp [hretry])), State.finish_of_quiet hyquiet]

end

/-- Another port's hold comes first (R125). -/
theorem State.serveRequest_of_heldAgainst (hk : r.kind = .take ∨ r.kind = .peek ∨ r.kind = .drop ∨ r.kind = .closeFlow)
    (hheld : s.heldAgainst r.flow p = true) (ph : Phase) : (s.takenIn p rest t r ph).serveRequest S p t =
      ((s.used S).takenIn p rest t r .inService).parkOrHeld S p t := by
  have hheld' : ((s.used S).takenIn p rest t r .inService).heldAgainst r.flow p = true := hheld
  unfold State.serveRequest
  rw [State.tagRec_takenIn, State.startService_takenIn]
  obtain hk | hk | hk | hk := hk <;> simp [TagRecord.using, hk, State.unlessHeld, hheld']

theorem State.parkOrHeld_of_refused (hwait : r.wait = false) (ph : Phase) :
    (s.takenIn p rest t r ph).parkOrHeld S p t = (s.takenIn p rest t r ph).refuse p t .held := by
  rw [State.parkOrHeld, State.tagRec_takenIn]
  exact if_neg (by simp [TagRecord.using, hwait])

theorem State.parkOrHeld_of_parks (hwait : r.wait = true) (ph : Phase) :
    ((s.used S).takenIn p rest t r ph).parkOrHeld S p t = s.parks S p rest t r := by
  rw [State.parkOrHeld, State.tagRec_takenIn, if_pos (show (TagRecord.using r ph).request.wait = true from hwait), State.park, State.setSlot_takenIn, State.setPhase_takenIn,
    State.setSlot_used, State.slot_takenIn, State.slot_used]
  rfl

theorem State.parks_withCurrent : (s.withCurrent p t).parks S p rest t r =
    (s.parks S p rest t r).setUnit p { (s.parks S p rest t r).unit p with current := some t } := by
  have hparks := State.takenIn_withCurrent (s := s.setSlot S { s.slot S with
    ref := true, parkedList := (s.slot S).parkedList ++ [.request p t] }) (p := p) (t := t) (rest := rest) (r := r) .parked
  refine hparks.trans ?_
  rw [State.parks, State.takenIn, State.unit_setUnit_self, State.setUnit_setUnit]

theorem State.quiet_parks : (s.parks S p rest t r).quiet = s.quiet := by
  rw [State.parks, State.quiet_takenIn, State.quiet_setSlot]

theorem State.quiet_refused (st : Status) : (s.refused p rest t body st).quiet = s.quiet :=
  State.quiet_takenAndPlaced _ _ (refusal_notBeat ..)

/-- A state that differs from a quiet one where no request is to be handed on and no beat has joined a queue. -/
theorem State.quiet_of_handOn {s u : State} (hquiet : s.quiet = true) (hretry : u.retryDue = s.retryDue)
    (hdels : u.dels = s.dels) (hmem : u.mem = s.mem) (hhand : ∀ p, u.handOnDue p = false)
    (hbeats : ∀ p, beatsIn (u.unit p).outbound = beatsIn (s.unit p).outbound) : u.quiet = true := by
  obtain ⟨hnoretry, hdue, hgrant, hnone⟩ := s.quiet_iff.1 hquiet
  have hread (p : PortId) : u.readDue p = s.readDue p := by
    unfold State.readDue State.readOutstanding State.del
    rw [hdels, hmem, hbeats]
  refine u.quiet_iff.2 ⟨hretry.trans hnoretry, fun p => ⟨hhand p, (hread p).trans (hdue p).2⟩, ?_, ?_⟩
  · rw [hmem, hgrant]
  · rw [hmem]
    exact hnone

theorem State.quiet_withCurrent (hquiet : s.quiet = true) : (s.withCurrent p t).quiet = true := by
  have hnone (q : PortId) : s.handOnDue q = false := ((s.quiet_iff.1 hquiet).2.1 q).1
  refine State.quiet_of_handOn hquiet rfl rfl rfl (fun q => ?_) (fun q => ?_)
  · rw [State.handOnDue, State.withCurrent, State.unit_setUnit]
    split
    · rfl
    · exact hnone q
  · rw [State.withCurrent, State.unit_setUnit]
    split
    · next h => rw [h]
    · rfl

/-- A request that joins the queue of a port with a current one leaves nothing due. -/
theorem State.quiet_queued (hquiet : s.quiet = true) (hbusy : (s.unit p).current ≠ none) :
    ((s.takenIn p rest t r .queuedAtPort).setUnit p { (s.takenIn p rest t r .queuedAtPort).unit p with
      consumerQueue := (s.unit p).consumerQueue ++ [t] }).quiet = true := by
  have hnone (q : PortId) : s.handOnDue q = false := ((s.quiet_iff.1 hquiet).2.1 q).1
  have htaken : (s.takenIn p rest t r .queuedAtPort).unit p =
      ((s.unit p).afterTakeIn rest).setTag t (.using r .queuedAtPort) := State.unit_setUnit_self ..
  rw [htaken, State.takenIn, State.setUnit_setUnit]
  refine State.quiet_of_handOn hquiet rfl rfl rfl (fun q => ?_) (fun q => ?_)
  · rw [State.handOnDue, State.unit_setUnit]
    split
    · exact Bool.and_eq_false_iff.2 (.inl (Option.isNone_eq_false_iff.2 (Option.isSome_iff_ne_none.2 hbusy)))
    · exact hnone q
  · rw [State.unit_setUnit]
    split
    · next h => rw [h]; rfl
    · rfl

/-- Settles O37: the checks in order, then the queue of the port, and the hold rules where the request is handed on. -/
theorem takeInChecksComeInOrder : Obligations.TakeInChecksComeInOrder := by
  unfold Obligations.TakeInChecksComeInOrder
  refine ⟨fun s p t body rest k hquiet hk htakes => ?_, fun s p t body rest k hquiet hk htakes => ?_⟩
  · have hput : k ≠ .put := by obtain rfl | rfl := hk <;> decide
    have hrefused (st : Status) (h : s.pinRefusal p (Request.ofBody body) = some st) :
        exec (k.command p) s = .next (s.refused p rest t body st) := by
      rw [exec_pinOrUnpin hk]
      exact State.takeIn_checked_of_refusal hquiet htakes hput (check := fun s _ r => s.pinRefusal p r) h
    exact ⟨fun hdenied => hrefused _ (State.pinRefusal_of_denied hdenied),
      fun hadmin hclosed => hrefused _ ((State.pinRefusal_of_flowRefusal hadmin).trans (State.flowRefusal_of_closed hclosed)),
      fun hadmin hopen hlost =>
        hrefused _ ((State.pinRefusal_of_flowRefusal hadmin).trans (State.flowRefusal_of_lost hopen hlost))⟩
  intro f inRange
  obtain ⟨hkind, hput⟩ := ReqKind.isConsumer_of hk
  have hinRange : k.inRange (Request.ofBody body) = true ↔ inRange := by
    obtain rfl | rfl | rfl := hk <;> simp [ReqKind.inRange, inRange]
  have hrefused (st : Status) (h : s.consumerRefusal p (Request.ofBody body) (k.inRange (Request.ofBody body)) = some st) :
      exec (k.command p) s = .next (s.refused p rest t body st) := by
    rw [exec_consumer hk]
    exact State.takeIn_checked_of_refusal hquiet htakes hput (check := fun s _ r => s.consumerRefusal p r (k.inRange r)) h
  refine ⟨fun hout => hrefused _ ?_, fun hin hclosed => hrefused _ ?_, fun hin hopen hlost => hrefused _ ?_,
    fun hin hopen hhalt hother => hrefused _ ?_, fun hin hopen hhalt hconsumer hbusy => ?_,
    fun hin hopen hhalt hconsumer hcurrent hqueue S hS hheld => ?_⟩
  · rw [Bool.eq_false_iff.2 (fun h => hout (hinRange.1 h))]
    exact State.consumerRefusal_of_outOfRange
  · rw [hinRange.2 hin]
    exact State.consumerRefusal_of_flowRefusal (State.flowRefusal_of_closed hclosed)
  · rw [hinRange.2 hin]
    exact State.consumerRefusal_of_flowRefusal (State.flowRefusal_of_lost hopen hlost)
  · rw [hinRange.2 hin, State.consumerRefusal_of_passed (State.flowRefusal_eq_none hopen hhalt)]
    exact if_pos hother
  · rw [exec_consumer_of_passed hk htakes (hinRange.2 hin) hopen hhalt hconsumer, State.queueConsumer_takenIn]
    exact congrArg _ (State.finish_of_quiet (State.quiet_queued hquiet hbusy))
  · have hkind' : (Request.ofBody body).kind = k := htakes.2.1
    have hserve := State.serveRequest_of_heldAgainst (s := s.withCurrent p t) (p := p) (t := t) (rest := rest)
      (r := Request.ofBody body) (S := S) (by rw [hkind']; tauto) hheld .queuedAtPort
    refine ⟨fun hwait => ?_, fun hwait => ?_⟩
    · refine exec_consumer_of_quiet hquiet hk htakes (hinRange.2 hin) hopen hhalt hconsumer hcurrent hqueue hS
        (hserve.trans ?_) ?_
      · rw [State.parkOrHeld_of_refused hwait]
        exact State.refuse_withCurrent (s := s.used S) hcurrent (by rw [hkind', hkind]) _ _
      · rw [State.quiet_refused, State.used, State.quiet_setSlot, hquiet]
    · refine exec_consumer_of_quiet hquiet hk htakes (hinRange.2 hin) hopen hhalt hconsumer hcurrent hqueue hS
        (hserve.trans ?_) ?_
      · rw [State.parkOrHeld_of_parks hwait]
        exact State.parks_withCurrent
      · rw [← State.parks_withCurrent, State.quiet_parks, State.quiet_withCurrent hquiet]

end

end Sys2Proof.Machine

/-! SUPPORT. The expiry of a lease, and the requests that reach the cache controller with no slot: OPEN and QUERY. -/

namespace Sys2Proof.Machine

/-! ## LEASE_EXPIRY (R129, R130) -/

section
variable {s : State} {p : PortId} {S : SlotId}

theorem exec_leaseExpiry_of_running (h : (s.hold p).state ≠ .held ∨ 0 < (s.hold p).lease) :
    exec (.leaseExpiry p) s = .next s := by
  have hdue : s.leaseDue p = false := by
    rw [State.leaseDue, Bool.and_eq_false_iff, decide_eq_false_iff_not, decide_eq_false_iff_not]
    exact h.imp_right Nat.pos_iff_ne_zero.1
  change execLeaseExpiry p s = _
  rw [execLeaseExpiry, hdue]
  rfl

theorem exec_leaseExpiry_of_due (hheld : (s.hold p).state = .held) (hlease : (s.hold p).lease = 0) :
    exec (.leaseExpiry p) s =
      if (s.del p).state = .streaming ∧ (s.del p).flow = (s.hold p).flow then
        .next (s.setHold p { s.hold p with state := .lapsing })
      else (s.endHold p (some (.holdLapsed (s.hold p).flow))).concluded := by
  have hdue : s.leaseDue p = true := by simp [State.leaseDue, hheld, hlease]
  change execLeaseExpiry p s = _
  rw [execLeaseExpiry, hdue]
  rfl

end

/-- Settles O49: a lease that runs, one that has run out behind a delivery, and one whose hold ends. -/
theorem leaseExpiryEndsTheHold : Obligations.LeaseExpiryEndsTheHold := by
  unfold Obligations.LeaseExpiryEndsTheHold
  intro s p hquiet h
  refine ⟨exec_leaseExpiry_of_running, fun hheld hlease hbehind => ?_, fun hheld hlease hnot hwaits S hS hparked => ?_⟩
  · rw [exec_leaseExpiry_of_due hheld hlease, if_pos hbehind, ← hlease]
  · have hquiet' : ((s.holdEnded p S).raise p (.holdLapsed h.flow)).quiet = true := by
      rw [State.quiet_raise, State.holdEnded, State.quiet_setHold, State.quiet_setCount, hquiet]
    rw [exec_leaseExpiry_of_due hheld hlease, if_neg hnot, State.endHold_of_none_parked hS rfl hparked,
      Option.elim_some, State.concluded, State.finish_dueRetry hquiet' hwaits]
    rfl

/-! ## A request that finds its flow without a slot (R48, R50 to R52, R60) -/

section
variable {s : State} {p : PortId} {t : TagId} {body : BitVec 64} {rest : List Message} {r : Request}

theorem State.isLink_takenIn (ph : Phase) : (s.takenIn p rest t r ph).isLink (.request p t) = false := by
  simp [State.isLink, TagRecord.using]

@[simp] theorem State.reqFlow_takenIn (ph : Phase) : (s.takenIn p rest t r ph).reqFlow (.request p t) = r.flow := by
  simp [State.reqFlow, TagRecord.using]

/-- A request whose flow it does not meet CLOSED or lost, and that has no slot, reaches the controller. -/
theorem State.arrive_takenIn_of_absent (ph : Phase) (hmet : (s.takenIn p rest t r ph).metStatus (.request p t) = none)
    (hres : (s.flow r.flow).residency = none) :
    (s.takenIn p rest t r ph).arrive (.request p t) = (s.takenIn p rest t r ph).reach (.request p t) := by
  simp [State.arrive, hmet, hres]

theorem State.reach_takenIn_of_noWaits (ph : Phase) (hwaits : s.noWaits) :
    (s.takenIn p rest t r ph).reach (.request p t) = (s.takenIn p rest t r ph).searchFor (.request p t)
      (fun s => s.joinMiss (.request p t)) := by
  obtain ⟨hmiss, hlink⟩ := hwaits
  have hwaits' : ((s.takenIn p rest t r ph).missWait.isEmpty && (s.takenIn p rest t r ph).linkWait.isEmpty) = true :=
    Bool.and_eq_true_iff.2 ⟨List.isEmpty_iff.2 hmiss, List.isEmpty_iff.2 hlink⟩
  rw [State.reach, State.isLink_takenIn, hwaits']
  rfl

theorem State.reach_takenIn_of_waits (ph : Phase) (hwaits : ¬ s.noWaits) :
    (s.takenIn p rest t r ph).reach (.request p t) = (s.takenIn p rest t r ph).joinMiss (.request p t) := by
  have hwaits' : ((s.takenIn p rest t r ph).missWait.isEmpty && (s.takenIn p rest t r ph).linkWait.isEmpty) = false :=
    Bool.eq_false_iff.2 fun h => hwaits
      ⟨List.isEmpty_iff.1 (Bool.and_eq_true_iff.1 h).1, List.isEmpty_iff.1 (Bool.and_eq_true_iff.1 h).2⟩
  rw [State.reach, State.isLink_takenIn, hwaits']
  rfl

/-- A search that finds the slot at the hand (R50). -/
theorem State.searchFor_of_hand (req : Req) (wait : State → State)
    (h : (s.slot s.hand).state = .free ∨ s.evictable s.hand = true ∧ (s.slot s.hand).ref = false) :
    s.searchFor req wait = s.advanceHand.takeFor s.hand req := by
  have hsearch : s.search = (some s.hand, s.advanceHand) := by
    obtain hfree | ⟨hev, href⟩ := h
    · exact State.inspect_of_free 127 hfree
    · exact State.inspect_of_evictable_unused 127 hev href
  rw [State.searchFor, hsearch]

/-- A FREE victim is placed at once (R51). -/
theorem State.takeFor_of_free {S : SlotId} {req : Req} (hfree : (s.slot S).state = .free) :
    s.takeFor S req = (s.placeHead (s.reqFlow req) S [req]).1 := by
  simp only [State.takeFor, State.victimHead, hfree]

/-- The placement of an OPEN of a CLOSED flow (R12, R52). -/
theorem State.placeHead_of_openRequest {f : FlowId} {S : SlotId} (hclosed : (s.flow f).state = .closed)
    (hisOpen : s.isOpen (.request p t) = true) :
    s.placeHead f S [.request p t] = ((s.serveOpen S p t).dueRetry, []) := by
  have hsplit : s.splitAtOpen [.request p t] = ([], [.request p t]) := by
    simp [State.splitAtOpen, List.span_eq_takeWhile_dropWhile, hisOpen]
  unfold State.placeHead
  rw [if_neg (not_not_intro hclosed), hsplit]
  rfl

/-- The slot that fills for a flow with one request (R52). -/
def Slot.fillingFor (f : FlowId) (req : Req) : Slot :=
  { Slot.initial with state := .filling, flow := some f, pendingList := [req] }

/-- The placement of a flow that is not CLOSED: its slot fills, and the request waits for it (R52). -/
theorem State.placeHead_of_notClosed {f : FlowId} {S : SlotId} {req : Req} (hopen : (s.flow f).state ≠ .closed) :
    (s.placeHead f S [req]).1 = (((s.setSlot S (.fillingFor f req)).setResidency f (some S)).setMem
      { s.mem with fillQueue := s.mem.fillQueue ++ [(S, f)] }).enterPhase .waitingResidency req := by
  unfold State.placeHead
  rw [if_pos hopen]
  rfl

/-! ## OPEN (R11, R12) -/

theorem exec_openReq (p : PortId) (s : State) : exec (.openReq p) s =
    s.takeIn p .openFlow (fun s t r => s.checked p t (s.openRefusal p r) (fun s => s.arrive (.request p t))) := rfl

theorem State.openRefusal_of_denied (h : s.config.adminRole[p] = false) : s.openRefusal p r = some .denied := by
  simp [State.openRefusal, h]

/-- The checks of OPEN behind the role (R11). -/
theorem State.openRefusal_of_admin (h : s.config.adminRole[p] = true) : s.openRefusal p r =
    if r.producers = 0 ∨ r.argB = 0 then some .badArg
    else if (s.flow r.flow).state ≠ .closed then some .existing
    else if (s.flow r.flow).admittedUnits ≠ 0 then some .busy
    else none := by
  simp [State.openRefusal, h]

/-- The flow's entry and the slot that an OPEN writes (R12). -/
def Request.openedEntry (r : Request) (S : SlotId) : FlowEntry :=
  { FlowEntry.initial with state := .opened, consumer := r.consumer, cls := r.cls, residency := some S }

def Request.openedSlot (r : Request) : Slot :=
  { Slot.initial with
    state := .resident, flow := some r.flow, context := r.freshContext, dirty := true, ref := true }

theorem Request.freshContext_eq (r : Request) : r.freshContext = { Context.blank with
    producers := r.producers, consumer := BitVec.ofNat 2 r.consumer.val, cls := BitVec.ofNat 2 r.cls.val
    quota := r.argA, readyThreshold := r.argB } := by
  have hofFin (n : Fin (2 ^ 2)) : BitVec.ofFin n = BitVec.ofNat 2 n.val := BitVec.eq_of_toNat_eq (by simp)
  rw [← hofFin r.consumer, ← hofFin r.cls]
  rfl

/-- The end of an event that has answered a request OK and brought a retry that finds nothing waiting. -/
theorem State.finish_granted_dueRetry {res : Result} (ph : Phase) (hquiet : s.quiet = true)
    (hcurrent : (s.unit p).current ≠ some t) (hwaits : s.noWaits) :
    ((s.takenIn p rest t (Request.ofBody body) ph).respond p t .ok res).dueRetry.finish = s.granted p rest t body res := by
  have hquiet' : (s.granted p rest t body res).quiet = true :=
    (State.quiet_takenAndPlaced _ (.response t .ok res .final) trivial).trans hquiet
  rw [State.respond_takenIn _ _ _ hcurrent]
  exact State.finish_dueRetry hquiet' hwaits

/-- An OPEN of a CLOSED flow takes the FREE slot at the hand (R51, R52). -/
theorem State.takeFor_open (hkind : r.kind = .openFlow) (ph : Phase) (hclosed : (s.flow r.flow).state = .closed)
    {S : SlotId} (hfree : (s.slot S).state = .free) :
    (s.takenIn p rest t r ph).takeFor S (.request p t) =
      ((((s.setSlot S r.openedSlot).setFlow r.flow (r.openedEntry S)).takenIn p rest t r ph).respond p t .ok
        (.state .opened)).dueRetry := by
  have hisOpen : (s.takenIn p rest t r ph).isOpen (.request p t) = true := by
    simp [State.isOpen, TagRecord.using, hkind]
  have htake := State.takeFor_of_free (s := s.takenIn p rest t r ph) (req := .request p t) hfree
  rw [htake, State.reqFlow_takenIn, State.placeHead_of_openRequest (s := s.takenIn p rest t r ph) hclosed hisOpen, State.serveOpen, State.tagRec_takenIn]
  exact congrArg State.dueRetry (if_neg (not_not_intro hclosed))

end

/-- Settles O32: the checks of R11 in order, and the service in the FREE slot at the hand. -/
theorem openIsCheckedAndServed : Obligations.OpenIsCheckedAndServed := by
  unfold Obligations.OpenIsCheckedAndServed
  intro s p t body rest hquiet htakes r
  have ⟨_, hkind, _, hcurrent, _⟩ := htakes
  have hrefused (st : Status) (h : s.openRefusal p r = some st) :
      exec (.openReq p) s = .next (s.refused p rest t body st) := by
    rw [exec_openReq]
    exact State.takeIn_checked_of_refusal hquiet htakes (by decide) (check := fun s _ r => s.openRefusal p r) h
  refine ⟨fun hdenied => hrefused _ (State.openRefusal_of_denied hdenied), fun hadmin hbad => hrefused _ ?_,
    fun hadmin hprod hthreshold hopen => hrefused _ ?_, fun hadmin hprod hthreshold hclosed hbusy => hrefused _ ?_,
    fun hadmin hprod hthreshold hclosed hidle hres hwaits hfree => ?_⟩
  · rw [State.openRefusal_of_admin hadmin, if_pos hbad]
  · rw [State.openRefusal_of_admin hadmin, if_neg (not_or.2 ⟨hprod, hthreshold⟩), if_pos hopen]
  · rw [State.openRefusal_of_admin hadmin, if_neg (not_or.2 ⟨hprod, hthreshold⟩), if_neg (not_not_intro hclosed),
      if_pos hbusy]
  · have hpass : s.openRefusal p r = none := by
      rw [State.openRefusal_of_admin hadmin, if_neg (not_or.2 ⟨hprod, hthreshold⟩), if_neg (not_not_intro hclosed),
        if_neg (not_not_intro hidle)]
    have hmet : (s.takenIn p rest t r .taken).metStatus (.request p t) = none := by
      simp [State.metStatus, hclosed, State.isOpen, TagRecord.using, hkind, r]
    set u := (({ s with hand := s.hand + 1 } : State).setSlot s.hand r.openedSlot).setFlow r.flow (r.openedEntry s.hand)
      with hu
    have harrive : (s.takenIn p rest t r .taken).arrive (.request p t) =
        ((u.takenIn p rest t r .taken).respond p t .ok (.state .opened)).dueRetry := by
      rw [State.arrive_takenIn_of_absent _ hmet hres, State.reach_takenIn_of_noWaits _ hwaits]
      refine (State.searchFor_of_hand (s := s.takenIn p rest t r .taken) _ _ (.inl hfree)).trans ?_
      exact State.takeFor_open (s := s.advanceHand) hkind .taken hclosed hfree
    have hexec : exec (.openReq p) s = .next ((s.takenIn p rest t r .taken).arrive (.request p t)).finish := by
      rw [exec_openReq]
      exact State.takeIn_checked_of_passed htakes (by decide) (check := fun s _ r => s.openRefusal p r)
        (go := fun t _ s => s.arrive (.request p t)) hpass
    have hquietu : u.quiet = true := by
      rw [hu, State.quiet_setFlow, State.quiet_setSlot]
      exact (State.quiet_congr rfl rfl rfl fun _ => .refl _).trans hquiet
    rw [hexec, harrive, State.finish_granted_dueRetry _ hquietu hcurrent hwaits, hu, Request.openedSlot,
      Request.freshContext_eq]
    rfl

end Sys2Proof.Machine

/-! SUPPORT. QUERY at its flow's slot, and the request that waits for its flow's context. -/

namespace Sys2Proof.Machine

section
variable {s : State} {p : PortId} {t : TagId} {body : BitVec 64} {rest : List Message} {r : Request} {S : SlotId}

theorem exec_queryReq (p : PortId) (s : State) : exec (.queryReq p) s =
    s.takeIn p .query (fun s t r => s.checked p t (s.flowRefusal r.flow) (fun s => s.arrive (.request p t))) := rfl

section
variable (htakes : s.takesRequest p t body rest .query)
include htakes

theorem exec_queryReq_of_refusal {st : Status} (hquiet : s.quiet = true)
    (h : s.flowRefusal (Request.ofBody body).flow = some st) :
    exec (.queryReq p) s = .next (s.refused p rest t body st) := by
  rw [exec_queryReq]
  exact State.takeIn_checked_of_refusal hquiet htakes (by decide) (check := fun s _ r => s.flowRefusal r.flow) h

theorem exec_queryReq_of_passed (h : s.flowRefusal (Request.ofBody body).flow = none) :
    exec (.queryReq p) s =
      .next ((s.takenIn p rest t (Request.ofBody body) .taken).arrive (.request p t)).finish := by
  rw [exec_queryReq]
  exact State.takeIn_checked_of_passed htakes (by decide) (check := fun s _ r => s.flowRefusal r.flow)
    (go := fun t _ s => s.arrive (.request p t)) h

/-- A QUERY that finds its flow's context is answered with the flow as it stands (R19). -/
theorem exec_queryReq_of_serving (hquiet : s.quiet = true) (hopen : (s.flow (Request.ofBody body).flow).state ≠ .closed)
    (hhalt : (s.flow (Request.ofBody body).flow).halt ≠ some .ctxErr)
    (hS : s.servingSlot (Request.ofBody body).flow = some S) :
    exec (.queryReq p) s = .next ((s.used S).granted p rest t body (.query (s.flow (Request.ofBody body).flow).state
      (s.flow (Request.ofBody body).flow).halt (s.holder (Request.ofBody body).flow) (s.slot S).context.unitCount.toNat
      (s.flow (Request.ofBody body).flow).segCount (s.flow (Request.ofBody body).flow).admittedUnits
      (s.flow (Request.ofBody body).flow).admittedSegs (s.slot S).context.cursorDone.toNat (s.slot S).pins)) := by
  have ⟨_, hkind, _, hcurrent, _⟩ := htakes
  have hslot := s.slot_used S
  have hserve : (s.takenIn p rest t (Request.ofBody body) .taken).serveRequest S p t =
      ((s.used S).takenIn p rest t (Request.ofBody body) .inService).serveQueryHere S p t (Request.ofBody body).flow := by
    unfold State.serveRequest
    rw [State.tagRec_takenIn, State.startService_takenIn]
    simp [TagRecord.using, hkind]
  rw [exec_queryReq_of_passed htakes (State.flowRefusal_eq_none hopen hhalt), State.arrive_takenIn _ hopen hhalt hS,
    hserve, State.serveQueryHere]
  rw [State.finish_respond_ok (s := s.used S) _ _ (by rw [State.used, State.quiet_setSlot, hquiet]) hcurrent,
    State.slot_takenIn, hslot]
  rfl

end

/-! ## The miss wait (R60) -/

theorem State.quiet_setMissWait (s : State) (q : List Req) : ({ s with missWait := q } : State).quiet = s.quiet :=
  State.quiet_congr rfl rfl rfl fun _ => .refl _

theorem State.joinMiss_of_full (ph : Phase) (hfull : 16 ≤ s.missWait.length) (hkind : r.kind ≠ .put) :
    (s.takenIn p rest t r ph).joinMiss (.request p t) = (s.takenIn p rest t r ph).refuse p t .busy := by
  have hkind' : ¬ ((s.takenIn p rest t r ph).tagRec p t).request.kind = .put := by
    rw [State.tagRec_takenIn]
    exact hkind
  have hfull' : 16 ≤ (s.takenIn p rest t r ph).missWait.length := hfull
  rw [State.joinMiss, if_pos hfull', State.answerReq, if_neg hkind']

theorem State.joinMiss_of_room (ph : Phase) (hroom : s.missWait.length < 16) :
    (s.takenIn p rest t r ph).joinMiss (.request p t) =
      ({ s with missWait := s.missWait ++ [.request p t] } : State).takenIn p rest t r .missWait := by
  have hroom' : ¬ 16 ≤ (s.takenIn p rest t r ph).missWait.length := Nat.not_le.2 hroom
  rw [State.joinMiss, if_neg hroom']
  exact State.setPhase_takenIn (s := { s with missWait := s.missWait ++ [.request p t] }) _ _

/-! ## A fill or a spill that waits (R51, R52, R157) -/

/-- The memory controller when a fill has joined the waiting ones, and is granted where no access is in progress. -/
def MemController.withFill (m : MemController) (S : SlotId) (f : FlowId) : MemController :=
  if m.inProgress = none then { m with inProgress := some (.fill S f) }
  else { m with fillQueue := m.fillQueue ++ [(S, f)] }

/-- The memory controller when a spill has joined the waiting ones, and is granted where no access is in progress. -/
def MemController.withSpill (m : MemController) (S : SlotId) (x : FlowId) : MemController :=
  if m.inProgress = none then { m with inProgress := some (.spill S x) }
  else { m with spillQueue := m.spillQueue ++ [(S, x)] }

/-- The queues of fills and spills are no part of what makes a beat read due. -/
theorem State.readDue_setMem {m : MemController} (hport : m.portQueue = s.mem.portQueue)
    (hprogress : m.inProgress = s.mem.inProgress) (q : PortId) : (s.setMem m).readDue q = s.readDue q := by
  unfold State.readDue State.readOutstanding
  rw [State.mem_setMem, hport, hprogress]
  rfl

theorem State.finish_withFill (hquiet : s.quiet = true) (S : SlotId) (f : FlowId) :
    (s.setMem { s.mem with fillQueue := s.mem.fillQueue ++ [(S, f)] }).finish = s.setMem (s.mem.withFill S f) := by
  rw [State.finish_setMem hquiet _ fun q => (State.readDue_setMem (by rfl) (by rfl) q).trans ((s.quiet_iff.1 hquiet).2.1 q).2]
  unfold MemController.withFill
  split
  · next hnone =>
    have hfills := (State.noneWaits_of_quiet hquiet hnone).1
    refine congrArg s.setMem ((MemController.grant_of_fill (m := { s.mem with
      fillQueue := s.mem.fillQueue ++ [(S, f)] }) (q := []) hnone (by rw [hfills]; rfl)).trans ?_)
    rw [← hfills]
  · next hbusy => rw [MemController.grant_of_busy (m := { s.mem with fillQueue := s.mem.fillQueue ++ [(S, f)] }) hbusy]

theorem State.finish_withSpill (hquiet : s.quiet = true) (S : SlotId) (x : FlowId) :
    (s.setMem { s.mem with spillQueue := s.mem.spillQueue ++ [(S, x)] }).finish = s.setMem (s.mem.withSpill S x) := by
  rw [State.finish_setMem hquiet _ fun q => (State.readDue_setMem (by rfl) (by rfl) q).trans ((s.quiet_iff.1 hquiet).2.1 q).2]
  unfold MemController.withSpill
  split
  · next hnone =>
    obtain ⟨hfills, hspills, -⟩ := State.noneWaits_of_quiet hquiet hnone
    refine congrArg s.setMem ((MemController.grant_of_spill (m := { s.mem with
      spillQueue := s.mem.spillQueue ++ [(S, x)] }) (q := []) hnone hfills (by rw [hspills]; rfl)).trans ?_)
    rw [← hspills]
  · next hbusy => rw [MemController.grant_of_busy (m := { s.mem with spillQueue := s.mem.spillQueue ++ [(S, x)] }) hbusy]

theorem State.flow_setResidency_ne {f g : FlowId} {o : Option SlotId} (h : g ≠ f) :
    (s.setResidency f o).flow g = s.flow g := State.flow_setFlow_ne _ _ h

/-- A slot that fills for a flow with one request, and is the flow's residency (R52). -/
def State.filling (s : State) (S : SlotId) (f : FlowId) (req : Req) : State :=
  (s.setSlot S (.fillingFor f req)).setResidency f (some S)

theorem State.quiet_filling (s : State) (S : SlotId) (f : FlowId) (req : Req) : (s.filling S f req).quiet = s.quiet := by
  rw [State.filling, State.setResidency, State.quiet_setFlow, State.quiet_setSlot]

theorem State.slot_filling (s : State) (S : SlotId) (f : FlowId) (req : Req) :
    ((s.filling S f req).slot S).state = .filling ∧ ((s.filling S f req).slot S).flow = some f ∧
      ((s.filling S f req).slot S).pendingList = [req] ∧ ((s.filling S f req).slot S).returnList = [] ∧
      ((s.filling S f req).slot S).parkedList = [] ∧ ((s.filling S f req).slot S).pins = 0 := by
  have hslot : (s.filling S f req).slot S = .fillingFor f req := State.slot_setSlot_self ..
  rw [hslot]
  exact ⟨rfl, rfl, rfl, rfl, rfl, rfl⟩

theorem State.slot_filling_ne (s : State) {S T : SlotId} (h : T ≠ S) (f : FlowId) (req : Req) :
    (s.filling S f req).slot T = s.slot T := State.slot_setSlot_ne _ _ h

theorem State.flow_filling_self (s : State) (S : SlotId) (f : FlowId) (req : Req) :
    (s.filling S f req).flow f = { s.flow f with residency := some S } := State.flow_setFlow_self ..

theorem State.flow_filling_ne (s : State) (S : SlotId) {f g : FlowId} (h : g ≠ f) (req : Req) :
    (s.filling S f req).flow g = s.flow g := State.flow_setFlow_ne _ _ h

theorem State.quiet_advanceHand (s : State) : s.advanceHand.quiet = s.quiet :=
  State.quiet_congr rfl rfl rfl fun _ => .refl _

/-- A port's request that waits for the slot that fills for its flow, with the memory controller given (R51, R52). -/
def State.filled (s : State) (S : SlotId) (p : PortId) (rest : List Message) (t : TagId) (r : Request)
    (m : MemController) : State :=
  ((s.filling S r.flow (.request p t)).takenIn p rest t r .waitingResidency).setMem m

section
variable {m : MemController}

theorem State.slot_filled : let v := (s.filled S p rest t r m).slot S
    v.state = .filling ∧ v.flow = some r.flow ∧ v.pendingList = [.request p t] ∧ v.returnList = [] ∧
      v.parkedList = [] ∧ v.pins = 0 := s.slot_filling S r.flow (.request p t)

theorem State.slot_filled_ne {T : SlotId} (h : T ≠ S) : (s.filled S p rest t r m).slot T = s.slot T :=
  s.slot_filling_ne h r.flow (.request p t)

theorem State.flow_filled_self : (s.filled S p rest t r m).flow r.flow = { s.flow r.flow with residency := some S } :=
  s.flow_filling_self S r.flow (.request p t)

theorem State.flow_filled_ne {g : FlowId} (h : g ≠ r.flow) : (s.filled S p rest t r m).flow g = s.flow g :=
  s.flow_filling_ne S h (.request p t)

theorem State.frame_filled {u : State} {h : SlotId} {fl : List (Nat × FlowEntry)}
    (hu : u = { s with hand := h, flows := fl }) : u.filled S p rest t r m = { s with
      hand := h, slots := (u.filled S p rest t r m).slots, flows := (u.filled S p rest t r m).flows, mem := m
      units := (s.takenIn p rest t r .waitingResidency).units } := by
  subst hu
  rfl

theorem State.finish_filled (hquiet : s.quiet = true) :
    (s.filled S p rest t r { s.mem with fillQueue := s.mem.fillQueue ++ [(S, r.flow)] }).finish =
      s.filled S p rest t r (s.mem.withFill S r.flow) :=
  State.finish_withFill (s := (s.filling S r.flow (.request p t)).takenIn p rest t r .waitingResidency)
    (by rw [State.quiet_takenIn, State.quiet_filling, hquiet]) S r.flow

end

theorem State.placeHead_takenIn (ph : Phase) (hopen : (s.flow r.flow).state ≠ .closed) :
    ((s.takenIn p rest t r ph).placeHead r.flow S [.request p t]).1 =
      s.filled S p rest t r { s.mem with fillQueue := s.mem.fillQueue ++ [(S, r.flow)] } := by
  rw [State.placeHead_of_notClosed (s := s.takenIn p rest t r ph) hopen]
  exact State.setPhase_takenIn (s := (s.filling S r.flow (.request p t)).setMem
    { s.mem with fillQueue := s.mem.fillQueue ++ [(S, r.flow)] }) _ _

theorem State.takeFor_takenIn_of_free (ph : Phase) (hfree : (s.slot S).state = .free)
    (hopen : (s.flow r.flow).state ≠ .closed) : (s.takenIn p rest t r ph).takeFor S (.request p t) =
      s.filled S p rest t r { s.mem with fillQueue := s.mem.fillQueue ++ [(S, r.flow)] } := by
  have htake := State.takeFor_of_free (s := s.takenIn p rest t r ph) (req := .request p t) hfree
  rw [State.reqFlow_takenIn] at htake
  exact htake.trans (State.placeHead_takenIn ph hopen)

/-- A clean victim gives its slot up at once (R51). -/
theorem State.takeFor_of_clean {x : FlowId} {req : Req} (hstate : (s.slot S).state = .resident)
    (hflow : (s.slot S).flow = some x) (hclean : (s.slot S).dirty = false) :
    s.takeFor S req = ((s.setResidency x none).placeHead (s.reqFlow req) S [req]).1 := by
  simp [State.takeFor, State.victimHead, hstate, hflow, hclean]

/-- The state when a dirty victim spills for a request's flow (R51). -/
def State.spillingFor (s : State) (S : SlotId) (f : FlowId) (req : Req) : State :=
  (s.setSlot S { s.slot S with state := .spilling, incoming := some f, pendingList := [req] }).setResidency f (some S)

theorem State.finish_spilling {u : State} {m : MemController} {f x : FlowId} {req : Req} {ph : Phase}
    (hquiet : u.quiet = true) (hmem : m = u.mem) :
    (((u.spillingFor S f req).takenIn p rest t r ph).setMem { m with spillQueue := m.spillQueue ++ [(S, x)] }).finish =
      ((u.spillingFor S f req).takenIn p rest t r ph).setMem (m.withSpill S x) := by
  subst hmem
  refine State.finish_withSpill ?_ S x
  rw [State.quiet_takenIn, State.spillingFor, State.setResidency, State.quiet_setFlow, State.quiet_setSlot, hquiet]

theorem State.setMem_spillingFor {m : MemController} {f : FlowId} {req : Req} {ph : Phase} :
    ((s.spillingFor S f req).takenIn p rest t r ph).setMem m = ((({ s with mem := m } : State).setSlot S { s.slot S with
      state := .spilling, incoming := some f, pendingList := [req] }).setFlow f { s.flow f with
        residency := some S }).takenIn p rest t r ph := rfl

theorem State.takeFor_of_dirty {x : FlowId} {req : Req} (hstate : (s.slot S).state = .resident)
    (hflow : (s.slot S).flow = some x) (hdirty : (s.slot S).dirty = true) :
    s.takeFor S req = ((s.spillingFor S (s.reqFlow req) req).setMem
      { s.mem with spillQueue := s.mem.spillQueue ++ [(S, x)] }).enterPhase .waitingResidency req := by
  unfold State.takeFor State.victimHead
  dsimp only
  split
  · next x' _ hflow' =>
    obtain rfl := Option.some.inj (hflow'.symm.trans hflow)
    rw [if_pos hdirty]
    rfl
  · next hnot => exact absurd hflow (hnot x hstate)

theorem State.takeFor_takenIn_of_clean {x : FlowId} (ph : Phase) (hstate : (s.slot S).state = .resident)
    (hflow : (s.slot S).flow = some x) (hclean : (s.slot S).dirty = false) (hne : x ≠ r.flow)
    (hopen : (s.flow r.flow).state ≠ .closed) : (s.takenIn p rest t r ph).takeFor S (.request p t) =
      (s.setResidency x none).filled S p rest t r { s.mem with fillQueue := s.mem.fillQueue ++ [(S, r.flow)] } := by
  have hopen' : ((s.setResidency x none).flow r.flow).state ≠ .closed := by
    rw [State.setResidency, State.flow_setFlow_ne _ _ hne.symm]
    exact hopen
  have htake := State.takeFor_of_clean (s := s.takenIn p rest t r ph) (req := .request p t) hstate hflow hclean
  rw [State.reqFlow_takenIn] at htake
  exact htake.trans (State.placeHead_takenIn (s := s.setResidency x none) ph hopen')

theorem State.takeFor_takenIn_of_dirty {x : FlowId} (ph : Phase) (hstate : (s.slot S).state = .resident)
    (hflow : (s.slot S).flow = some x) (hdirty : (s.slot S).dirty = true) :
    (s.takenIn p rest t r ph).takeFor S (.request p t) =
      ((s.spillingFor S r.flow (.request p t)).takenIn p rest t r .waitingResidency).setMem
        { s.mem with spillQueue := s.mem.spillQueue ++ [(S, x)] } := by
  have htake := State.takeFor_of_dirty (s := s.takenIn p rest t r ph) (req := .request p t) hstate hflow hdirty
  rw [State.reqFlow_takenIn] at htake
  exact htake.trans (State.setPhase_takenIn (s := (s.spillingFor S r.flow (.request p t)).setMem
    { s.mem with spillQueue := s.mem.spillQueue ++ [(S, x)] }) _ _)

theorem State.resident_of_evictable (h : s.evictable S = true) : (s.slot S).state = .resident := by
  simp only [State.evictable, Bool.and_eq_true, decide_eq_true_eq] at h
  obtain ⟨⟨⟨⟨⟨⟨hstate, -⟩, -⟩, -⟩, -⟩, -⟩, -⟩ := h
  exact hstate

end

/-- Settles O34: the checks, the service at the slot, and the ways of a request whose flow has none. -/
theorem queryReportsTheFlow : Obligations.QueryReportsTheFlow := by
  unfold Obligations.QueryReportsTheFlow
  intro s p t body rest hquiet htakes f
  have ⟨_, hkind, _, hcurrent, _⟩ := htakes
  refine ⟨fun hclosed => exec_queryReq_of_refusal htakes hquiet (State.flowRefusal_of_closed hclosed),
    fun hopen hlost => exec_queryReq_of_refusal htakes hquiet (State.flowRefusal_of_lost hopen hlost),
    fun hopen hhalt S hS => ?_, fun hopen hhalt hres => ?_⟩
  · exact ⟨s.holder f, exec_queryReq_of_serving htakes hquiet hopen hhalt hS, fun q hq => State.hold_of_holder hq,
      fun hnone q hq hflow => (s.holder_eq_none_iff f).1 hnone ⟨q, hq, hflow⟩⟩
  have hpassed := exec_queryReq_of_passed htakes (State.flowRefusal_eq_none hopen hhalt)
  have hmet : (s.takenIn p rest t (Request.ofBody body) .taken).metStatus (.request p t) = none := by
    simp [State.metStatus, FlowEntry.lost, hopen, hhalt, f]
  rw [State.arrive_takenIn_of_absent .taken hmet hres] at hpassed
  have hsearched (hwaits : s.noWaits)
      (hhand : (s.slot s.hand).state = .free ∨ s.evictable s.hand = true ∧ (s.slot s.hand).ref = false) :
      exec (.queryReq p) s = .next ((s.advanceHand.takenIn p rest t (Request.ofBody body) .taken).takeFor s.hand
        (.request p t)).finish := by
    rw [hpassed, State.reach_takenIn_of_noWaits _ hwaits]
    exact congrArg _ (congrArg State.finish
      (State.searchFor_of_hand (s := s.takenIn p rest t (Request.ofBody body) .taken) _ _ hhand))
  refine ⟨fun hwaits hfree => ?_, fun x hwaits hev href hx hxf hclean => ?_, fun x hwaits hev href hx hxf hdirty => ?_,
    fun hwaits hnone => ?_, fun hwaits hroom => ?_, fun hfull => ?_⟩
  · have hexec : exec (.queryReq p) s =
        .next (s.advanceHand.filled s.hand p rest t (Request.ofBody body) (s.mem.withFill s.hand f)) := by
      rw [hsearched hwaits (.inl hfree), State.takeFor_takenIn_of_free (s := s.advanceHand) _ hfree hopen]
      exact congrArg _ (State.finish_filled (s := s.advanceHand) (by rw [State.quiet_advanceHand, hquiet]))
    exact ⟨_, hexec, State.slot_filled, fun T hT => State.slot_filled_ne hT, State.flow_filled_self,
      fun g hg => State.flow_filled_ne hg, State.frame_filled rfl⟩
  · have hexec : exec (.queryReq p) s = .next ((s.advanceHand.setResidency x none).filled s.hand p rest t
        (Request.ofBody body) (s.mem.withFill s.hand f)) := by
      rw [hsearched hwaits (.inr ⟨hev, href⟩), State.takeFor_takenIn_of_clean (s := s.advanceHand) _
        (State.resident_of_evictable hev) hx hclean hxf hopen]
      exact congrArg _ (State.finish_filled (s := s.advanceHand.setResidency x none)
        (by rw [State.setResidency, State.quiet_setFlow, State.quiet_advanceHand, hquiet]))
    refine ⟨_, hexec, State.slot_filled, fun T hT => State.slot_filled_ne hT, ?_, ?_, fun g hg hgx => ?_,
      State.frame_filled rfl⟩
    · rw [State.flow_filled_self, State.flow_setResidency_ne hxf.symm]
      rfl
    · rw [State.flow_filled_ne hxf, State.setResidency, State.flow_setFlow_self]
      rfl
    · rw [State.flow_filled_ne hg, State.flow_setResidency_ne hgx]
      rfl
  · rw [hsearched hwaits (.inr ⟨hev, href⟩), State.takeFor_takenIn_of_dirty (s := s.advanceHand) _
      (State.resident_of_evictable hev) hx hdirty,
      State.finish_spilling (by rw [State.quiet_advanceHand, hquiet]) rfl, State.setMem_spillingFor]
    rfl
  · have hsearch : (s.takenIn p rest t (Request.ofBody body) .taken).search =
        (none, s.takenIn p rest t (Request.ofBody body) .taken) :=
      State.search_of_no_candidate fun T => State.not_candidate_iff.2 (hnone T)
    rw [hpassed, State.reach_takenIn_of_noWaits _ hwaits, State.searchFor, hsearch]
    dsimp only
    rw [State.joinMiss_of_room _ (by rw [hwaits.1]; decide), hwaits.1, List.nil_append,
      State.finish_of_quiet (by rw [State.quiet_takenIn, State.quiet_setMissWait, hquiet])]
  · rw [hpassed, State.reach_takenIn_of_waits _ hwaits, State.joinMiss_of_room _ hroom,
      State.finish_of_quiet (by rw [State.quiet_takenIn, State.quiet_setMissWait, hquiet])]
  · have hwaits : ¬ s.noWaits := fun h => by simp [h.1] at hfull
    rw [hpassed, State.reach_takenIn_of_waits _ hwaits, State.joinMiss_of_full _ hfull (by rw [hkind]; decide)]
    exact congrArg _ (State.finish_refuse_takenIn _ _ hquiet hcurrent)

end Sys2Proof.Machine

/-! SUPPORT. A flow enters CLOSED (R16): what it writes at the flow map, the slot, the hold records and the count, and
CLOSE. -/

namespace Sys2Proof.Machine

/-- What a flow's entering CLOSED leaves, where a slot serves it and nothing is parked there (R16). -/
structure State.Closes (s u : State) (f : FlowId) (S : SlotId) : Prop where
  units : u.units = s.units
  flow_self : u.flow f = { s.flow f with
    state := .closed, halt := none, ready := false, listed := false, dispatched := false, residency := none
    prev := (u.flow f).prev, next := (u.flow f).next }
  place_self : (s.flow f).listed = true → (u.flow f).prev = none ∧ (u.flow f).next = none
  flow_ne : ∀ g, g ≠ f → (s.flow g).SameButPlace (u.flow g)
  readyList_ne : ∀ q d, (q, d) ≠ ((s.flow f).consumer, (s.flow f).cls) → u.readyList q d = s.readyList q d
  slot_self : u.slot S = Slot.initial
  slot_ne : ∀ T, T ≠ S → u.slot T = s.slot T
  hold_flow : ∀ q, (u.hold q).state ≠ .empty → (u.hold q).flow ≠ f
  hold_ne : ∀ q, (s.hold q).state = .empty ∨ (s.hold q).flow ≠ f → u.hold q = s.hold q
  count : u.pinnedOrHeld = s.pinnedOrHeld - if s.counted S then 1 else 0
  frame : u = { s with
    slots := u.slots, flows := u.flows, lists := u.lists, holds := u.holds, pinnedOrHeld := u.pinnedOrHeld
    retryDue := true }

section
variable {s : State} {f : FlowId} {S : SlotId}

/-- The flow's entry when it has entered CLOSED, but for its slot and its place in a ready list. -/
def FlowEntry.closing (e : FlowEntry) : FlowEntry :=
  { e with state := .closed, halt := none, ready := false, dispatched := false }

theorem State.closeFlow_eq (s : State) (f : FlowId) : s.closeFlow f =
    if (s.flow f).listed then (s.setFlow f (s.flow f).closing).withdrawFlow f else s.setFlow f (s.flow f).closing := by
  have hrelist := State.relist_of_notDue (s := s.setFlow f (s.flow f).closing) (f := f)
    (.inl (by rw [State.flow_setFlow_self]; rfl))
  rw [State.flow_setFlow_self] at hrelist
  exact hrelist

theorem State.units_closeFlow (s : State) (f : FlowId) : (s.closeFlow f).units = s.units := by
  rw [State.closeFlow_eq]
  split
  · rw [State.units_withdrawFlow]
    rfl
  · rfl

theorem State.inLists_closeFlow (s : State) (f : FlowId) : s.InLists (s.closeFlow f) := by
  rw [State.closeFlow_eq]
  split
  · exact State.InLists.trans (t := s.setFlow f (s.flow f).closing) rfl (State.inLists_withdrawFlow _ f)
  · rfl

theorem State.flow_closeFlow_self (s : State) (f : FlowId) : (s.closeFlow f).flow f = { (s.flow f).closing with
    listed := false, prev := ((s.closeFlow f).flow f).prev, next := ((s.closeFlow f).flow f).next } := by
  have hself := (s.setFlow f (s.flow f).closing).flow_relist_self f
  rw [State.flow_setFlow_self] at hself
  exact hself

theorem State.place_closeFlow (hlisted : (s.flow f).listed = true) :
    ((s.closeFlow f).flow f).prev = none ∧ ((s.closeFlow f).flow f).next = none := by
  rw [State.closeFlow_eq, if_pos hlisted, State.flow_withdrawFlow_self]
  exact ⟨rfl, rfl⟩

theorem State.flow_closeFlow_ne {g : FlowId} (h : g ≠ f) : (s.flow g).SameButPlace ((s.closeFlow f).flow g) := by
  have hne := (s.setFlow f (s.flow f).closing).flow_relist_ne h
  rw [State.flow_setFlow_ne _ _ h] at hne
  exact hne

theorem State.readyList_closeFlow {q : PortId} {d : ClassId} (h : (q, d) ≠ ((s.flow f).consumer, (s.flow f).cls)) :
    (s.closeFlow f).readyList q d = s.readyList q d := by
  rw [State.closeFlow_eq]
  split
  · rw [State.readyList_withdrawFlow, State.flow_setFlow_self, if_neg]
    · rfl
    · simpa [FlowEntry.closing] using h
  · rfl

/-- A record that names another flow, or none, stays when a flow's hold ends. -/
theorem State.hold_dropHold_of_ne {q : PortId} (h : (s.hold q).state = .empty ∨ (s.hold q).flow ≠ f) :
    (s.dropHold f).hold q = s.hold q := by
  unfold State.dropHold
  split
  · next p hp =>
    obtain ⟨hstate, hflow⟩ := State.hold_of_holder hp
    have hqp : q ≠ p := by
      rintro rfl
      exact h.elim hstate (fun hne => hne hflow)
    exact State.hold_setHold_ne _ _ hqp
  · rfl

theorem State.hold_slotClosed (s : State) (f : FlowId) (S : SlotId) (q : PortId) :
    (s.slotClosed f S).hold q = (s.dropHold f).hold q := rfl

theorem State.frame_slotClosed (s : State) (f : FlowId) (S : SlotId) : s.slotClosed f S = { s with
    slots := (s.slotClosed f S).slots, flows := (s.slotClosed f S).flows, holds := (s.slotClosed f S).holds
    pinnedOrHeld := (s.slotClosed f S).pinnedOrHeld, retryDue := true } := by
  unfold State.slotClosed
  rw [State.dropHold_holds]
  rfl

theorem State.frame_of_closed {v u : State} (hv : s.InLists v) (hu : u = { v with
    slots := u.slots, flows := u.flows, holds := u.holds, pinnedOrHeld := u.pinnedOrHeld, retryDue := true }) :
    u = { s with
      slots := u.slots, flows := u.flows, lists := u.lists, holds := u.holds, pinnedOrHeld := u.pinnedOrHeld
      retryDue := true } := by
  unfold State.InLists at hv
  rw [hv] at hu
  rw [hu]

/-- What a flow's entering CLOSED writes, where a slot serves it and nothing is parked there (R16). -/
theorem State.closes_enterClosed (hex : s.holdsExclusive) (hS : s.servingSlot f = some S)
    (hparked : (s.slot S).parkedList = []) : s.Closes (s.enterClosed f) f S := by
  have hlists := s.inLists_closeFlow f
  set v := s.closeFlow f with hv
  have hslots : v.slots = s.slots := by rw [hlists]
  have hholds : v.holds = s.holds := by rw [hlists]
  have hserving : v.servingSlot f = some S := (State.servingSlot_congr hslots (s.residency_closeFlow f f)).trans hS
  have hclosed : s.enterClosed f = v.slotClosed f S := by
    have hnone : (v.slot S).parkedList = [] := by rw [State.slot, hslots]; exact hparked
    rw [State.enterClosed_eq, ← hv, State.closeSlot_of_serving hserving, hnone]
    rfl
  rw [hclosed]
  have hslot (T : SlotId) : (v.slotClosed f S).slot T = if T = S then Slot.initial else s.slot T := by
    have hold : v.slot T = s.slot T := by rw [State.slot, hslots]; rfl
    rw [← hold, State.slotClosed, State.slot_setFlow, State.dropHold_holds]
    exact State.slot_setSlot _ _ _ _
  have hflow (g : FlowId) (hg : g ≠ f) : (v.slotClosed f S).flow g = v.flow g :=
    (State.flow_setFlow_ne _ _ hg).trans (by rw [State.dropHold_holds]; rfl)
  have hself : (v.slotClosed f S).flow f = { v.flow f with residency := none } := State.flow_setFlow_self ..
  have hcounted : v.counted S = s.counted S := State.counted_congr hslots hholds S
  have hexv : v.holdsExclusive := by
    unfold State.holdsExclusive State.hold
    rw [hholds]
    exact hex
  have hhold (q : PortId) : v.hold q = s.hold q := by rw [State.hold, hholds]; rfl
  have hunits : v.units = s.units := s.units_closeFlow f
  have hcount : v.pinnedOrHeld = s.pinnedOrHeld := by rw [hlists]
  have hframe := v.frame_slotClosed f S
  refine ⟨?_, ?_, fun hlisted => ?_, fun g hg => ?_, fun q d hqd => ?_, ?_, fun T hT => ?_, fun q hq hqf => ?_,
    fun q hq => ?_, ?_, ?_⟩
  · rw [hframe]
    exact hunits
  · rw [hself, s.flow_closeFlow_self f]
    rfl
  · rw [hself]
    exact State.place_closeFlow hlisted
  · rw [hflow g hg]
    exact State.flow_closeFlow_ne hg
  · have hread := State.readyList_closeFlow hqd
    rw [State.readyList, hframe]
    exact hread
  · rw [hslot, if_pos rfl]
  · rw [hslot, if_neg hT]
  · rw [State.hold_slotClosed] at hq hqf
    exact ((State.isHeld_dropHold hexv f f).1 ⟨q, hq, hqf⟩).1 rfl
  · rw [← hhold q, State.hold_slotClosed]
    exact State.hold_dropHold_of_ne (by rwa [hhold q])
  · rw [← hcounted, ← hcount]
    rfl
  · exact State.frame_of_closed hlists hframe

end

end Sys2Proof.Machine

/-! SUPPORT. What a message or a notice leaves at a port unit; re-evaluation of readiness; CLOSE. -/

namespace Sys2Proof.Machine

/-! ## What a message placed and a notice raised leave -/

namespace PortUnit

/-- A port unit that differs from another in its outbound queue and its notices alone. -/
def InNotices (u v : PortUnit) : Prop := v = { u with
  outbound := v.outbound, readyWaiting := v.readyWaiting, poolLowWaiting := v.poolLowWaiting
  noticeQueue := v.noticeQueue, overflow := v.overflow }

theorem InNotices.refl (u : PortUnit) : u.InNotices u := rfl

theorem InNotices.trans {u v w : PortUnit} (h : u.InNotices v) (k : v.InNotices w) : u.InNotices w := by
  unfold InNotices at *
  rw [k, h]

theorem inNotices_placeOneNotice {u v : PortUnit} (h : u.placeOneNotice = some v) : u.InNotices v := by
  unfold placeOneNotice at h
  split at h
  · cases h; rfl
  · split at h
    · cases h; rfl
    · split at h
      · cases h
      · cases h; rfl

theorem inNotices_placeNotices (n : Nat) (u : PortUnit) : u.InNotices (u.placeNotices n) := by
  induction n generalizing u with
  | zero => rfl
  | succ n ih =>
    unfold placeNotices
    split
    · split
      · next v hone => exact (inNotices_placeOneNotice hone).trans (ih v)
      · rfl
    · rfl

theorem inNotices_noticesPlaced (u : PortUnit) : u.InNotices u.noticesPlaced := inNotices_placeNotices _ u

theorem inNotices_displaced (u : PortUnit) : u.InNotices u.displaced := by
  unfold displaced
  split <;> rfl

theorem inNotices_place (u : PortUnit) (m : OutMsg) : u.InNotices (u.place m) := by
  unfold place
  split
  · rfl
  · split
    · rfl
    · exact u.inNotices_displaced.trans (InNotices.trans (v := { u.displaced with
        outbound := u.displaced.outbound ++ [m] }) rfl (inNotices_noticesPlaced _))

theorem inNotices_raise (u : PortUnit) (n : Notice) : u.InNotices (u.raise n) := by
  unfold raise
  split
  · rfl
  · split
    · exact InNotices.trans (v := { u with readyWaiting := some (u.readyWaiting.getD false) }) rfl
        (inNotices_noticesPlaced _)
    · exact InNotices.trans (v := { u with poolLowWaiting := some (u.poolLowWaiting.getD false) }) rfl
        (inNotices_noticesPlaced _)
    · split
      · exact InNotices.trans (v := { u with overflow := true }) rfl (inNotices_noticesPlaced _)
      · exact InNotices.trans (v := { u with noticeQueue := u.noticeQueue ++ [(n, false)] }) rfl
          (inNotices_noticesPlaced _)

@[simp] theorem readyArmed_place (u : PortUnit) (m : OutMsg) : (u.place m).readyArmed = u.readyArmed := by
  rw [u.inNotices_place m]

@[simp] theorem readyArmed_raise (u : PortUnit) (n : Notice) : (u.raise n).readyArmed = u.readyArmed := by
  rw [u.inNotices_raise n]

end PortUnit

theorem State.readyArmed_takenAndPlaced (s : State) (p : PortId) (rest : List Message) (t : TagId) (r : Request)
    (ph : Phase) (m : OutMsg) (q : PortId) :
    ((s.takenAndPlaced p rest t r ph m).unit q).readyArmed = (s.unit q).readyArmed := by
  rw [State.takenAndPlaced, State.unit_setUnit]
  split
  · next h =>
    rw [PortUnit.readyArmed_place, h]
    rfl
  · rfl

/-! ## Re-evaluation of readiness (R107, R108, R111) -/

section
variable {s : State} {f : FlowId} {S : SlotId}

theorem State.setReady_of_open (b : Bool) {e : FlowEntry} (hopen : e.state ≠ .closed) :
    (s.setFlow f e).setReady f b = (s.setFlow f { e with ready := b }).relist f := by
  rw [State.setReady, State.flow_setFlow_self, State.setFlow_setFlow _ _ (FlowEntry.ne_initial_of_open hopen)]

theorem State.readyList_listFlow_ne {q : PortId} {d : ClassId} (h : (q, d) ≠ ((s.flow f).consumer, (s.flow f).cls)) :
    (s.listFlow f).readyList q d = s.readyList q d := by
  rw [State.listFlow_eq, apply_ite (State.readyList · _ _), State.readyList_listsFilled, ite_self]
  have hne : ¬ (q = (s.flow f).consumer ∧ d = (s.flow f).cls) := fun ⟨hq, hd⟩ => h (by rw [hq, hd])
  simp [State.putAtTail, State.readyList_setReadyList, hne]

/-- The comparison of a flow writes no list but the flow's. -/
theorem State.readyList_relist_ne {q : PortId} {d : ClassId} (h : (q, d) ≠ ((s.flow f).consumer, (s.flow f).cls)) :
    (s.relist f).readyList q d = s.readyList q d := by
  have hne : ¬ (q = (s.flow f).consumer ∧ d = (s.flow f).cls) := fun ⟨hq, hd⟩ => h (by rw [hq, hd])
  have hwithdraw : (s.withdrawFlow f).readyList q d = s.readyList q d := by
    rw [State.readyList_withdrawFlow, if_neg hne]
  unfold State.relist
  dsimp only
  split <;> split
  · rfl
  · exact State.readyList_listFlow_ne h
  · exact hwithdraw
  · rfl

/-- READY is raised where the comparison lists a flow in lists that were all empty, with READY armed (R111, R117). -/
def State.fillsLists (s : State) (f : FlowId) : Prop :=
  (s.flow f).listed = false ∧ ((s.relist f).flow f).listed = true ∧ s.listedFlows (s.flow f).consumer = 0 ∧
    (s.unit (s.flow f).consumer).readyArmed = true

theorem State.listed_relist (s : State) (f : FlowId) :
    ((s.relist f).flow f).listed = ((s.flow f).ready && !(s.flow f).dispatched) := by
  have hself := s.flow_relist_self f
  unfold FlowEntry.SameButPlace at hself
  rw [hself]

/-- The comparison that lists a flow is the one that can raise READY. -/
theorem State.relist_of_listing (hlisted : (s.flow f).listed = false) (hlists : ((s.relist f).flow f).listed = true) :
    s.relist f = s.listFlow f := by
  rw [State.listed_relist, Bool.and_eq_true, Bool.not_eq_true'] at hlists
  rw [State.relist_of_due hlists.1 hlists.2, hlisted]
  rfl

theorem State.units_relist_of_not_listing (h : (s.flow f).listed = true ∨ ((s.relist f).flow f).listed = false) :
    (s.relist f).units = s.units := by
  by_cases hdue : (s.flow f).ready = true ∧ (s.flow f).dispatched = false
  · have hlists : ((s.relist f).flow f).listed = true := by simp [State.listed_relist, hdue]
    have hlisted : (s.flow f).listed = true := h.resolve_right (by simp [hlists])
    rw [State.relist_of_due hdue.1 hdue.2, hlisted]
    rfl
  · rw [State.relist_of_notDue (by simpa [imp_iff_not_or] using hdue)]
    split
    · exact State.units_withdrawFlow ..
    · rfl

theorem State.units_relist_of_not (h : ¬ s.fillsLists f) : (s.relist f).units = s.units := by
  by_cases hlisting : (s.flow f).listed = false ∧ ((s.relist f).flow f).listed = true
  · rw [State.relist_of_listing hlisting.1 hlisting.2, State.units_listFlow, if_neg]
    exact fun hfills => h ⟨hlisting.1, hlisting.2, hfills⟩
  · refine State.units_relist_of_not_listing ?_
    cases hlisted : (s.flow f).listed with
    | true => exact .inl rfl
    | false => exact .inr (Bool.eq_false_iff.2 fun hlists => hlisting ⟨hlisted, hlists⟩)

theorem State.units_relist_of_fills (h : s.fillsLists f) : (s.relist f).units =
    (s.setUnit (s.flow f).consumer
      (PortUnit.raise .ready { s.unit (s.flow f).consumer with readyArmed := false })).units := by
  obtain ⟨hlisted, hlists, hempty, harmed⟩ := h
  rw [State.relist_of_listing hlisted hlists, State.units_listFlow, if_pos ⟨hempty, harmed⟩]

theorem State.Closes.frame_done {u : State} (h : s.Closes u f S) (hretry : s.retryDue = false) :
    { u with retryDue := false } = { s with
      slots := u.slots, flows := u.flows, lists := u.lists, holds := u.holds, pinnedOrHeld := u.pinnedOrHeld } := by
  have hframe := h.frame
  rw [← hretry]
  rw [hframe]

/-- A flow that stands in no list, has no slot and is not held enters CLOSED at the flow map alone (R16, R23). -/
theorem State.enterClosed_of_absent (hlisted : (s.flow f).listed = false) (hserving : s.servingSlot f = none)
    (hholder : s.holder f = none) : s.enterClosed f = s.setFlow f (s.flow f).closing := by
  have hflow : s.closeFlow f = s.setFlow f (s.flow f).closing := by
    rw [State.closeFlow_eq, hlisted]
    rfl
  have hserving' : (s.setFlow f (s.flow f).closing).servingSlot f = none := by
    have hres : ((s.setFlow f (s.flow f).closing).flow f).residency = (s.flow f).residency := by
      rw [State.flow_setFlow_self]
      rfl
    exact (State.servingSlot_congr (s := s) (t := s.setFlow f (s.flow f).closing) rfl hres).trans hserving
  have hholder' : (s.setFlow f (s.flow f).closing).holder f = none := hholder
  rw [State.enterClosed_eq, hflow, State.closeSlot, hserving']
  dsimp only
  rw [State.dropHold, hholder']

theorem State.servingSlot_of_absent (h : (s.flow f).residency = none) : s.servingSlot f = none := by
  rw [State.servingSlot, h]

/-- The end of an event in which a flow has entered CLOSED and nothing waits (R62). -/
theorem State.Closes.finish {u : State} (h : s.Closes u f S) (hquiet : s.quiet = true) (hwaits : s.noWaits) :
    u.finish = { u with retryDue := false } := by
  have hframe := h.frame
  refine State.finish_of_retry ?_ (by rw [hframe]; exact hwaits.1) (by rw [hframe]; exact hwaits.2)
  rw [← hquiet]
  refine State.quiet_congr (s := s) (s.quiet_iff.1 hquiet).1.symm ?_ ?_ fun p => ?_
  · rw [hframe]
  · rw [hframe]
  · have hunit : ({ u with retryDue := false } : State).unit p = s.unit p :=
      congrArg (fun us : Vector PortUnit 4 => us[p]) h.units
    rw [hunit]
    exact .refl _

end

/-! ## CLOSE (R13, R14, R16, R23) -/

section
variable {s : State} {p : PortId} {t : TagId} {body : BitVec 64} {rest : List Message} {S : SlotId} {f : FlowId}

theorem State.quiet_granted (res : Result) : (s.granted p rest t body res).quiet = s.quiet :=
  State.quiet_takenAndPlaced _ (.response t .ok res .final) trivial

theorem exec_closeReq (p : PortId) (s : State) : exec (.closeReq p) s =
    s.takeIn p .closeFlow (fun s t r => s.checked p t (s.closeRefusal p r) (fun s => s.closeGo p t r.flow)) := rfl

theorem State.closeRefusal_of_denied {r : Request} (h : s.config.adminRole[p] = false) :
    s.closeRefusal p r = some .denied := by
  simp [State.closeRefusal, h]

theorem State.closeRefusal_of_admin {r : Request} (h : s.config.adminRole[p] = true) :
    s.closeRefusal p r = if (s.flow r.flow).state = .closed then some .closed else none := by
  simp [State.closeRefusal, h]

theorem State.closeGo_of_not_lost (h : (s.flow f).halt ≠ some .ctxErr) : s.closeGo p t f = s.arrive (.request p t) :=
  if_neg (Bool.eq_false_iff.1 (decide_eq_false h))

theorem State.closeGo_of_lost (h : (s.flow f).halt = some .ctxErr) :
    s.closeGo p t f = (s.respond p t .ok (.state .closed)).enterClosed f := if_pos (decide_eq_true h)

section
variable (htakes : s.takesRequest p t body rest .closeFlow)
include htakes

theorem exec_closeReq_of_refusal {st : Status} (hquiet : s.quiet = true)
    (h : s.closeRefusal p (Request.ofBody body) = some st) :
    exec (.closeReq p) s = .next (s.refused p rest t body st) := by
  rw [exec_closeReq]
  exact State.takeIn_checked_of_refusal hquiet htakes (by decide) (check := fun s _ r => s.closeRefusal p r) h

theorem exec_closeReq_of_passed (hadmin : s.config.adminRole[p] = true)
    (hopen : (s.flow (Request.ofBody body).flow).state ≠ .closed) : exec (.closeReq p) s =
      .next ((s.takenIn p rest t (Request.ofBody body) .taken).closeGo p t (Request.ofBody body).flow).finish := by
  rw [exec_closeReq]
  exact State.takeIn_checked_of_passed htakes (by decide) (check := fun s _ r => s.closeRefusal p r)
    (go := fun t r s => s.closeGo p t r.flow) ((State.closeRefusal_of_admin hadmin).trans (if_neg hopen))

/-- A CLOSE of a flow that is not lost, at the slot that serves it. -/
theorem exec_closeReq_of_serving (hadmin : s.config.adminRole[p] = true)
    (hopen : (s.flow (Request.ofBody body).flow).state ≠ .closed)
    (hhalt : (s.flow (Request.ofBody body).flow).halt ≠ some .ctxErr)
    (hS : s.servingSlot (Request.ofBody body).flow = some S) : exec (.closeReq p) s =
      .next ((s.takenIn p rest t (Request.ofBody body) .taken).serveRequest S p t).finish := by
  rw [exec_closeReq_of_passed htakes hadmin hopen, State.closeGo_of_not_lost (s := s.takenIn ..) hhalt,
    State.arrive_takenIn _ hopen hhalt hS]

theorem State.serveRequest_close (hheld : s.heldAgainst (Request.ofBody body).flow p = false) (ph : Phase) :
    (s.takenIn p rest t (Request.ofBody body) ph).serveRequest S p t =
      ((s.used S).takenIn p rest t (Request.ofBody body) .inService).serveCloseHere S p t
        (Request.ofBody body).flow := by
  have ⟨_, hkind, _⟩ := htakes
  have hheld' : ((s.used S).takenIn p rest t (Request.ofBody body) .inService).heldAgainst (Request.ofBody body).flow p =
    false := hheld
  unfold State.serveRequest
  rw [State.tagRec_takenIn, State.startService_takenIn]
  simp [TagRecord.using, hkind, State.unlessHeld, hheld']

end

theorem State.serveCloseHere_of_draining (h : (s.flow f).state = .draining) :
    s.serveCloseHere S p t f = s.respond p t .ok (.state .draining) := by
  simp [State.serveCloseHere, h]

theorem State.serveCloseHere_of_drained (h : (s.flow f).state = .opened) (hsegs : (s.flow f).segCount = 0)
    (hunits : (s.flow f).admittedUnits = 0) :
    s.serveCloseHere S p t f = (s.respond p t .ok (.state .closed)).enterClosed f := by
  simp [State.serveCloseHere, h, hsegs, hunits]

theorem State.serveCloseHere_of_drains (h : (s.flow f).state = .opened)
    (hleft : ¬ ((s.flow f).segCount = 0 ∧ (s.flow f).admittedUnits = 0)) :
    s.serveCloseHere S p t f = ((s.setFlow f { s.flow f with state := .draining }).respond p t .ok
      (.state .draining)).reevaluate f S := by
  simp [State.serveCloseHere, h, hleft]

/-- An entry that a CLOSE has taken to DRAINING, with its readiness re-evaluated (R14, R108). -/
def FlowEntry.drains (e : FlowEntry) (c : Context) : FlowEntry :=
  { e with state := .draining, ready := readyCondition { e with state := .draining } c }

theorem FlowEntry.ready_drains (e : FlowEntry) (c : Context) :
    (e.drains c).ready = true ↔ e.halt = none ∧ 1 ≤ c.unitCount.toNat := by
  simp [FlowEntry.drains, readyCondition]

/-- The state when a CLOSE has taken its flow to DRAINING (R14). -/
def State.drains (s : State) (p : PortId) (rest : List Message) (t : TagId) (body : BitVec 64) (S : SlotId) (f : FlowId) :
    State :=
  ((s.used S).granted p rest t body (.state .draining)).setFlow f ((s.flow f).drains (s.slot S).context)

theorem State.serveCloseHere_takenIn_of_drains (hcurrent : (s.unit p).current ≠ some t) (h : (s.flow f).state = .opened)
    (hleft : ¬ ((s.flow f).segCount = 0 ∧ (s.flow f).admittedUnits = 0)) :
    ((s.used S).takenIn p rest t (Request.ofBody body) .inService).serveCloseHere S p t f =
      (s.drains p rest t body S f).relist f := by
  have hserve := State.serveCloseHere_of_drains (s := (s.used S).takenIn p rest t (Request.ofBody body) .inService)
    (S := S) (p := p) (t := t) h hleft
  have hrespond := State.respond_takenIn (s := (s.used S).setFlow f { s.flow f with state := .draining }) (p := p)
    (t := t) (rest := rest) (r := Request.ofBody body) .inService .ok (.state .draining) hcurrent
  have hready := State.setReady_of_open (s := (s.used S).granted p rest t body (.state .draining)) (f := f)
    (readyCondition { s.flow f with state := .draining } (s.slot S).context)
    (e := { s.flow f with state := .draining }) (fun h => by cases h)
  refine hserve.trans ((congrArg (State.reevaluate · f S) hrespond).trans (Eq.trans ?_ hready))
  have hflow : (((s.used S).granted p rest t body (.state .draining)).setFlow f
      { s.flow f with state := .draining }).flow f = { s.flow f with state := .draining } := State.flow_setFlow_self ..
  have hslot : (((s.used S).granted p rest t body (.state .draining)).slot S).context = (s.slot S).context :=
    congrArg (fun v => v.context) (s.slot_used S)
  change (((s.used S).granted p rest t body (.state .draining)).setFlow f
    { s.flow f with state := .draining }).reevaluate f S = _
  rw [State.reevaluate, hflow, State.slot_setFlow, hslot]

/-- A CLOSE of an OPEN flow with neither segments nor admitted units takes it to CLOSED (R14, R16). -/
theorem exec_closeReq_of_drained (hquiet : s.quiet = true) (htakes : s.takesRequest p t body rest .closeFlow)
    (hserved : exec (.closeReq p) s = .next (((s.used S).takenIn p rest t (Request.ofBody body) .inService).serveCloseHere S p t
      f).finish) (h : (s.flow f).state = .opened) (hsegs : (s.flow f).segCount = 0) (hunits : (s.flow f).admittedUnits = 0)
    (hwaits : s.noWaits) (hex : s.holdsExclusive) (hS : s.servingSlot f = some S) (hparked : (s.slot S).parkedList = []) :
    ∃ u, exec (.closeReq p) s = .next { u with retryDue := false } ∧
      ((s.used S).granted p rest t body (.state .closed)).Closes u f S := by
  have ⟨_, _, _, hcurrent, _⟩ := htakes
  have hquietx : ((s.used S).granted p rest t body (.state .closed)).quiet = true := by
    rw [State.quiet_granted, State.used, State.quiet_setSlot, hquiet]
  have hnone : (((s.used S).granted p rest t body (.state .closed)).slot S).parkedList = [] :=
    (congrArg (fun v => v.parkedList) (s.slot_used S)).trans hparked
  have hcloses := State.closes_enterClosed (s := (s.used S).granted p rest t body (.state .closed)) (f := f) hex
    (State.servingSlot_used hS) hnone
  have hrespond := State.respond_takenIn (s := s.used S) (p := p) (t := t) (rest := rest) (r := Request.ofBody body)
    .inService .ok (.state .closed) hcurrent
  refine ⟨_, ?_, hcloses⟩
  rw [hserved, State.serveCloseHere_of_drained (s := (s.used S).takenIn ..) h hsegs hunits, hrespond]
  exact congrArg _ (hcloses.finish hquietx hwaits)

end

/-- Settles O33: the checks, then the rows by the flow's state and what is left of it. -/
theorem closeDrainsOrCloses : Obligations.CloseDrainsOrCloses := by
  unfold Obligations.CloseDrainsOrCloses
  intro s p t body rest hquiet htakes f
  have ⟨_, hkind, _, hcurrent, _⟩ := htakes
  refine ⟨fun hdenied => exec_closeReq_of_refusal htakes hquiet (State.closeRefusal_of_denied hdenied),
    fun hadmin hclosed => exec_closeReq_of_refusal htakes hquiet ((State.closeRefusal_of_admin hadmin).trans (if_pos hclosed)),
    fun hadmin hopen hhalt S hS hheld => ?_, fun hadmin hopen hhalt S hS hheld => ?_,
    fun hadmin hopen hlost hres hlisted hholder => ?_⟩
  · have hserved := exec_closeReq_of_serving htakes hadmin hopen hhalt hS
    rw [State.serveRequest_close htakes hheld] at hserved
    have hquietu : (s.used S).quiet = true := by rw [State.used, State.quiet_setSlot, hquiet]
    refine ⟨fun hdraining => ?_, fun hopened hleft => ?_, fun hopened hsegs hunits hwaits hparked hex => ?_⟩
    · rw [hserved, State.serveCloseHere_of_draining (s := (s.used S).takenIn ..) hdraining]
      exact congrArg _ (State.finish_respond_ok _ _ hquietu hcurrent)
    · have hquietd : (s.drains p rest t body S f).quiet = true := by
        rw [State.drains, State.quiet_setFlow, State.quiet_granted, hquietu]
      have hexec : exec (.closeReq p) s = .next ((s.drains p rest t body S f).relist f) := by
        rw [hserved, State.serveCloseHere_takenIn_of_drains hcurrent hopened hleft,
          State.finish_of_quiet (by rw [State.quiet_relist, hquietd])]
      set y := s.drains p rest t body S f with hy
      have hself : y.flow f = (s.flow f).drains (s.slot S).context := State.flow_setFlow_self ..
      have hne (g : FlowId) (hg : g ≠ f) : y.flow g = s.flow g := State.flow_setFlow_ne _ _ hg
      have hplaced := y.flow_relist_self f
      rw [hself] at hplaced
      unfold FlowEntry.SameButPlace at hplaced
      have hfills : y.fillsLists f ↔ (s.flow f).listed = false ∧ ((y.relist f).flow f).listed = true ∧
          s.listedFlows (s.flow f).consumer = 0 ∧ (s.unit (s.flow f).consumer).readyArmed = true := by
        have harmed : (y.unit (s.flow f).consumer).readyArmed = (s.unit (s.flow f).consumer).readyArmed :=
          State.readyArmed_takenAndPlaced ..
        have hlisted : ((s.flow f).drains (s.slot S).context).listed = (s.flow f).listed := rfl
        have hconsumer : ((s.flow f).drains (s.slot S).context).consumer = (s.flow f).consumer := rfl
        have hlists : y.listedFlows (s.flow f).consumer = s.listedFlows (s.flow f).consumer := rfl
        rw [State.fillsLists, hself, hlisted, hconsumer, harmed, hlists]
      refine ⟨_, hexec, ?_, ?_, fun g hg => ?_, fun q d hqd => ?_, ⟨fun hnot => ?_, fun hfill => ?_⟩, ?_⟩
      · rw [hplaced]
        rfl
      · rw [hplaced]
        exact FlowEntry.ready_drains ..
      · have hplace := y.flow_relist_ne hg
        rw [hne g hg] at hplace
        exact hplace
      · rw [State.readyList_relist_ne (by rw [hself]; exact hqd)]
        rfl
      · rw [State.units_relist_of_not (fun h => hnot (hfills.1 h))]
        rfl
      · rw [State.units_relist_of_fills (hfills.2 hfill), hself]
        rfl
      · rw [y.inRelist_relist f]
        rfl
    · obtain ⟨u, hexec, hcloses⟩ := exec_closeReq_of_drained hquiet htakes hserved hopened hsegs hunits hwaits hex hS hparked
      have hslot (T : SlotId) (hT : T ≠ S) : ((s.used S).granted p rest t body (.state .closed)).slot T = s.slot T :=
        State.slot_setSlot_ne _ _ hT
      have hcount := hcloses.count
      have hcounted : ((s.used S).granted p rest t body (.state .closed)).counted S = s.counted S := s.counted_used S
      rw [hcounted] at hcount
      refine ⟨{ u with retryDue := false }, hexec, hcloses.units, hcloses.flow_self, hcloses.place_self, hcloses.flow_ne,
        hcloses.readyList_ne, ?_, ?_, ?_, ?_, fun T hT => (hcloses.slot_ne T hT).trans (hslot T hT), hcloses.hold_flow,
        hcloses.hold_ne, hcount, ?_⟩
      · exact congrArg (fun v => v.state) hcloses.slot_self
      · exact congrArg (fun v => v.flow) hcloses.slot_self
      · exact congrArg (fun v => v.pins) hcloses.slot_self
      · exact congrArg (fun v => v.dirty) hcloses.slot_self
      · rw [hcloses.frame_done (s.quiet_iff.1 hquiet).1]
        rfl
  · have hserved := exec_closeReq_of_serving htakes hadmin hopen hhalt hS
    rw [State.serveRequest_of_heldAgainst (by rw [hkind]; decide) hheld] at hserved
    refine ⟨fun hwait => ?_, fun hwait => ?_⟩
    · rw [hserved, State.parkOrHeld_of_refused hwait]
      exact congrArg _ (State.finish_refuse_takenIn _ _ (by rw [State.used, State.quiet_setSlot, hquiet]) hcurrent)
    · rw [hserved, State.parkOrHeld_of_parks hwait, State.finish_of_quiet (by rw [State.quiet_parks, hquiet])]
  · have hclosing : (s.granted p rest t body (.state .closed)).enterClosed f = (s.setFlow f { s.flow f with
        state := .closed, halt := none, ready := false, dispatched := false }).granted p rest t body (.state .closed) :=
      State.enterClosed_of_absent hlisted (State.servingSlot_of_absent hres) hholder
    have hrespond := State.respond_takenIn (s := s) (p := p) (t := t) (rest := rest) (r := Request.ofBody body)
      .taken .ok (.state .closed) hcurrent
    rw [exec_closeReq_of_passed htakes hadmin hopen, State.closeGo_of_lost (s := s.takenIn ..) hlost, hrespond]
    refine congrArg _ ((congrArg State.finish hclosing).trans (State.finish_of_quiet ?_))
    rw [State.quiet_granted, State.quiet_setFlow, hquiet]

end Sys2Proof.Machine

/-! SUPPORT. PUT: a free tag whose record still names a HOLD refutes the two statements of its admission. -/

namespace Sys2Proof.Machine

/-- A PUT of 129 bytes for flow 5. -/
def staleHoldBody : BitVec 64 := 0x0400000500810000

/-- A port that is UP, with the messages given in its inbound buffer, and a HOLD of flow 5 on the tag given. -/
def portWithHold (inbound : List Message) (t : TagId) (status : TagStatus) : PortUnit :=
  { PortUnit.initial with state := .up, inbound := inbound, inboundCredits := 31, outboundCredits := 4 }.setTag t
    { TagRecord.initial with status := status, request := { Request.blank with kind := .hold, flow := 5 } }

/-- Port 1 is told a PUT on tag 3, which is free, but whose record still names a HOLD; that tag stands in the parked
list of the flow's slot behind the HOLD of port 0 on tag 4. The pool has as many free segments as given. -/
def staleHold (free : Nat) : State :=
  ({ State.reset with
    mgmt := { Management.initial with device := .running }
    pool := { Pool.initial with free := free }
    units := #v[portWithHold [] 4 .inUse, portWithHold [.request 3 staleHoldBody] 3 .free, PortUnit.initial,
      PortUnit.initial] }.setFlow 5 { FlowEntry.initial with state := .opened, residency := some 2 }).setSlot 2
    { Slot.initial with
      state := .resident, flow := some 5, context := { Context.blank with producers := 15 }
      parkedList := [.request 0 4, .request 1 3] }

theorem quiet_staleHold (free : Nat) : (staleHold free).quiet = true := rfl

theorem takesRequest_staleHold (free : Nat) : (staleHold free).takesRequest 1 3 staleHoldBody [] .put :=
  ⟨⟨rfl, show AsmState.idle ≠ .admitting by decide, rfl⟩, by decide +kernel, rfl,
    show (none : Option TagId) ≠ some 3 by decide, rfl⟩

theorem noneHold_staleHold (free : Nat) (q : PortId) : ((staleHold free).hold q).state = .empty := by
  fin_cases q <;> rfl

theorem flow_staleHold (free : Nat) :
    (staleHold free).flow 5 = { FlowEntry.initial with state := .opened, residency := some 2 } := rfl

/-- Seen from the state before the take-in, the port itself has a HOLD parked, so that nothing blocks its PUT. -/
theorem not_putBlocked_staleHold (free : Nat) : ¬ (staleHold free).putBlocked 5 2 1 := by
  rintro (⟨q, -, hq, -⟩ | ⟨-, -, hnone⟩)
  · exact hq (noneHold_staleHold free q)
  · have hparked : Req.request 1 3 ∈ [Req.request 0 4, .request 1 3] := by decide
    exact hnone ⟨3, hparked, rfl⟩

/-- What the outcome of the PUT shows: whether the port discards its beats, and what it is told. -/
def discardsAndTells (o : Step) : Option (Bool × List OutMsg) :=
  match o with
  | .next u => some (decide ((u.asm 1).state = .discarding), (u.unit 1).outbound)
  | _ => none

/-- The PUT, taken in on the tag, is no HOLD: the HOLD of port 0 stands alone and blocks it. -/
theorem staleHold_is_refused (free : Nat) (u : State) (hu : exec (.putReq 1) (staleHold free) = .next u)
    (hsees : discardsAndTells (exec (.putReq 1) (staleHold free)) = some (true, [.response 3 .held .none .final])) :
    (u.asm 1).state = .discarding ∧ (u.unit 1).outbound = [.response 3 .held .none .final] := by
  rw [hu] at hsees
  have hpair : (decide ((u.asm 1).state = .discarding), (u.unit 1).outbound) = _ := Option.some.inj hsees
  obtain ⟨hasm, hout⟩ := Prod.mk.inj hpair
  exact ⟨of_decide_eq_true hasm, hout⟩

theorem not_overQuota_staleHold (free : Nat) : ¬ (staleHold free).overQuota 5 2 2 := fun h => h.1 rfl

/-- Refutes O36: the parked HOLD that the statement reads at the PUT's own tag is not there any more when the PUT is
admitted. -/
theorem not_putIsAdmitted : ¬ Obligations.PutIsAdmitted := by
  unfold Obligations.PutIsAdmitted
  intro h
  have hflow : (Request.ofBody staleHoldBody).flow = 5 := by decide +kernel
  have hlen : (Request.ofBody staleHoldBody).argA.toNat = 129 := by decide +kernel
  obtain ⟨u, hu, hasm, -⟩ := h (staleHold 8192) 1 3 staleHoldBody [] (quiet_staleHold _) (takesRequest_staleHold _)
    (show AsmState.idle ≠ .assembling by decide) (by rw [hlen]; decide) (by rw [hlen]; decide) (by rw [hflow]; rfl)
    (by rw [hflow]; rfl) 2 (by rw [hflow]; rfl) rfl (by rw [hflow]; exact not_putBlocked_staleHold _)
    (by rw [hflow, hlen]; exact not_overQuota_staleHold _) (by decide +kernel)
  obtain ⟨hdiscards, -⟩ := staleHold_is_refused 8192 u hu (by decide +kernel)
  rw [hasm] at hdiscards
  cases hdiscards

/-- Refutes O35: the same PUT where the pool has no room is refused HELD, not NOSPACE. -/
theorem not_putIsRefusedInOrder : ¬ Obligations.PutIsRefusedInOrder := by
  unfold Obligations.PutIsRefusedInOrder
  intro h
  have hflow : (Request.ofBody staleHoldBody).flow = 5 := by decide +kernel
  have hlen : (Request.ofBody staleHoldBody).argA.toNat = 129 := by decide +kernel
  have hex : (staleHold 0).holdsExclusive := fun p q _ hp _ => absurd (noneHold_staleHold 0 p) hp
  obtain ⟨-, -, -, hrefuses⟩ := h.2 (staleHold 0) 1 3 staleHoldBody [] (quiet_staleHold _) (takesRequest_staleHold _)
    (show AsmState.idle ≠ .assembling by decide) hex
  have hnospace := hrefuses (by rw [hlen]; decide) (by rw [hlen]; decide) (by rw [hflow]; decide +kernel)
    (by rw [hflow]; decide +kernel) 2 (by rw [hflow]; rfl) .nospace (.inr (.inr ⟨by decide +kernel,
      by decide +kernel, .inr (.inr ⟨rfl, hflow ▸ not_putBlocked_staleHold _, .inr ⟨rfl,
      fun hquota => hquota.1 (by decide +kernel), by decide +kernel⟩⟩)⟩))
  obtain ⟨-, hheld⟩ := staleHold_is_refused 0 _ hnospace (by decide +kernel)
  revert hheld
  decide +kernel

end Sys2Proof.Machine

/-! SUPPORT. What a re-evaluation of readiness and a release of segments write; DROP. -/

namespace Sys2Proof.Machine

/-! ## Re-evaluation, and the release of a chain (R30, R41, R107, R111) -/

section
variable {s u : State} {f : FlowId} {S : SlotId}

/-- What the comparison of R111 leaves, where flow `f`'s entry has been written as `e`. -/
structure State.Relists (s u : State) (f : FlowId) (e : FlowEntry) : Prop where
  frame : s.InRelist u
  flow_self : u.flow f = { e with
    listed := (u.flow f).listed, prev := (u.flow f).prev, next := (u.flow f).next }
  units : e.ready = false ∨ (s.unit e.consumer).readyArmed = false → u.units = s.units
  quiet : u.quiet = s.quiet

theorem State.relists (s : State) (f : FlowId) (e : FlowEntry) : s.Relists ((s.setFlow f e).relist f) f e := by
  refine ⟨State.InRelist.trans (t := s.setFlow f e) rfl (State.inRelist_relist _ f), ?_, fun h => ?_, ?_⟩
  · have hflow := (s.setFlow f e).flow_relist f f
    rw [State.flow_setFlow_self] at hflow
    exact hflow
  · obtain hnotReady | hunarmed := h
    · refine (State.units_relist_of_not_listing (.inr ?_)).trans rfl
      rw [State.listed_relist, State.flow_setFlow_self, hnotReady, Bool.false_and]
    · refine (State.units_relist_of_not ?_).trans rfl
      rintro ⟨-, -, -, harmed⟩
      rw [State.flow_setFlow_self, State.unit_setFlow, hunarmed] at harmed
      cases harmed
  · rw [State.quiet_relist, State.quiet_setFlow]

/-- A flow's entry when its dispatch has ended and its readiness has been re-evaluated (R96, R104). -/
def FlowEntry.reevaluated (e : FlowEntry) (c : Context) : FlowEntry :=
  { e with dispatched := false, ready := readyCondition e c }

theorem FlowEntry.ne_initial_of_residency {e : FlowEntry} (h : e.residency = some S) : e ≠ FlowEntry.initial := by
  rintro rfl
  cases h

theorem State.undispatchAndReevaluate_eq (h : (s.flow f).residency = some S) : s.undispatchAndReevaluate f S =
    (s.setFlow f ((s.flow f).reevaluated (s.slot S).context)).relist f := by
  have hne : ({ s.flow f with dispatched := false } : FlowEntry) ≠ .initial := FlowEntry.ne_initial_of_residency h
  rw [State.undispatchAndReevaluate, State.reevaluate, State.setReady, State.flow_setFlow_self,
    State.setFlow_setFlow _ _ hne]
  rfl

theorem State.foundEmpty_eq (h : (s.flow f).residency = some S) : s.foundEmpty f =
    (s.setFlow f { s.flow f with dispatched := false, ready := false }).relist f := by
  have hne : ({ s.flow f with dispatched := false } : FlowEntry) ≠ .initial := FlowEntry.ne_initial_of_residency h
  rw [State.foundEmpty, State.setReady, State.flow_setFlow_self, State.setFlow_setFlow _ _ hne]

/-- The re-arm test, as what it leaves of the flag (R41). -/
theorem State.rearm_eq (s : State) :
    s.rearm = s.setPool { s.pool with lowArmed := s.pool.lowArmed || s.poolRearmed } := by
  unfold State.rearm
  split
  · next h =>
    have hrearmed : s.poolRearmed = true := (Bool.and_eq_true_iff.1 h).2
    rw [hrearmed, Bool.or_true]
  · next h =>
    have hsame : (s.pool.lowArmed || s.poolRearmed) = s.pool.lowArmed := by
      cases hlow : s.pool.lowArmed <;> simp_all
    rw [hsame]
    rfl

theorem Pool.lowArmed_release (P : Pool) (first last n : Nat) : (P.release first last n).lowArmed = P.lowArmed := by
  unfold Pool.release
  split
  · rfl
  · dsimp only
    split <;> rfl

/-- The release of a list of segments writes the pool alone (R30, R41). -/
theorem State.releaseSegs_eq (s : State) (segs : List Nat) : s.releaseSegs segs = s.setPool (s.poolReleasing segs) := by
  unfold State.releaseSegs State.release
  split
  · next hnone =>
    obtain rfl := List.length_eq_zero_iff.1 hnone
    simp [State.poolReleasing, Pool.release, State.setPool]
  · next hsome =>
    have hsegs : segs ≠ [] := fun h => hsome (by rw [h]; rfl)
    obtain ⟨hreserved, hfree⟩ := s.pool.release_counts (segs.head?.getD 0) (segs.getLast?.getD 0) segs.length
    have hlow : ((s.pool.release (segs.head?.getD 0) (segs.getLast?.getD 0) segs.length).lowArmed ||
        (s.setPool (s.pool.release (segs.head?.getD 0) (segs.getLast?.getD 0) segs.length)).poolRearmed) =
        (s.pool.lowArmed || decide (segs ≠ [] ∧
          s.config.warning.toNat + 64 ≤ s.pool.free + segs.length - s.pool.reserved)) := by
      rw [State.poolRearmed, State.pool_setPool, State.config_setPool, hfree, hreserved, Pool.lowArmed_release,
        decide_eq_decide.2 (and_iff_right hsegs)]
    rw [State.rearm_eq, State.pool_setPool, hlow]
    rfl

/-! ## The drain end test (R17) -/

theorem State.drainTest_of_not (h : ¬ ((s.flow f).state = .draining ∧ (s.flow f).segCount = 0 ∧
    (s.flow f).admittedUnits = 0)) : s.drainTest f = s := by
  unfold State.drainTest
  rw [if_neg]
  simpa [FlowEntry.drainEnded, and_assoc] using h

theorem State.drainTest_of_ends (h : (s.flow f).state = .draining ∧ (s.flow f).segCount = 0 ∧
    (s.flow f).admittedUnits = 0) : s.drainTest f = (s.enterClosed f).raise (s.flow f).consumer (.drained f) := by
  unfold State.drainTest
  rw [if_pos]
  simpa [FlowEntry.drainEnded, and_assoc] using h

/-- A flow that has entered CLOSED, and a notice raised behind it, leave nothing due but the retry (R62). -/
theorem State.Closes.quiet_raise (h : s.Closes u f S) (hquiet : ({ s with retryDue := false } : State).quiet = true)
    (q : PortId) (n : Notice) : ({ u.raise q n with retryDue := false } : State).quiet = true := by
  have hframe := h.frame
  have hquietu : ({ u with retryDue := false } : State).quiet = true := by
    rw [← hquiet]
    refine State.quiet_congr rfl ?_ ?_ fun p => ?_
    · rw [hframe]
    · rw [hframe]
    · have hunit : ({ u with retryDue := false } : State).unit p = s.unit p :=
        congrArg (fun us : Vector PortUnit 4 => us[p]) h.units
      rw [hunit]
      exact .refl _
  exact (State.quiet_raise (s := { u with retryDue := false }) q n).trans hquietu

theorem State.Closes.noWaits_raise (h : s.Closes u f S) (hwaits : s.noWaits) (q : PortId) (n : Notice) :
    (u.raise q n).noWaits := by
  rw [State.raise, State.noWaits, State.missWait_setUnit, State.linkWait_setUnit, h.frame]
  exact hwaits

end

/-! ## DROP (R103, R104) -/

section
variable {s : State} {p : PortId} {t : TagId} {body : BitVec 64} {rest : List Message} {S : SlotId} {f : FlowId}

/-- How many units a DROP removes from a flow of `n` units (R103). -/
def dropCount (count n : Nat) : Nat := if count = 0 then n else min count n

/-- The segments that leave flow `f` with `k` units from its head (R103). -/
def State.headSegs (s : State) (S : SlotId) (f : FlowId) (k : Nat) : List Nat :=
  s.pool.unitsFrom (s.flow f).segCount k (s.slot S).context.headSeg.toNat

/-- A slot whose context has lost `k` units from its head, with `next` at the head now (R103). -/
def Slot.dropped (v : Slot) (k next : Nat) : Slot :=
  { v with
    dirty := true
    context := { v.context.headRemoved next with
      unitCount := v.context.unitCount - BitVec.ofNat 16 k, drops := v.context.drops + BitVec.ofNat 32 k } }

/-- The state when `k` units have left the head of a flow, whose halt has ended (R103, R104). -/
def State.dropped (s : State) (S : SlotId) (f : FlowId) (k : Nat) : State :=
  ((s.setSlot S ((s.slot S).dropped k (s.pool.after (s.headSegs S f k)))).setFlow f
    { s.flow f with segCount := (s.flow f).segCount - (s.headSegs S f k).length, halt := none }).setPool
      (s.poolReleasing (s.headSegs S f k))

theorem State.serveDropHere_of_units (hconsumer : (s.flow f).consumer = p) (hunits : (s.slot S).context.unitCount ≠ 0)
    {k : Nat} (hk : k = dropCount (s.tagRec p t).request.argB.toNat (s.slot S).context.unitCount.toNat) :
    s.serveDropHere S p t f =
      (((s.respond p t .ok (.dropped k)).dropped S f k).undispatchAndReevaluate f S).drainTest f := by
  subst hk
  unfold State.serveDropHere
  dsimp only
  rw [if_neg (not_not_intro hconsumer), if_neg hunits, State.releaseSegs_eq]
  rfl

theorem State.serveDropHere_of_none (hconsumer : (s.flow f).consumer = p) (hunits : (s.slot S).context.unitCount = 0) :
    s.serveDropHere S p t f = (s.refuse p t .empty).foundEmpty f := by
  unfold State.serveDropHere
  dsimp only
  rw [if_neg (not_not_intro hconsumer), if_pos hunits]

theorem State.serveRequest_drop (hkind : (Request.ofBody body).kind = .drop)
    (hheld : s.heldAgainst (Request.ofBody body).flow p = false) :
    ((s.withCurrent p t).takenIn p rest t (Request.ofBody body) .queuedAtPort).serveRequest S p t =
      (((s.used S).withCurrent p t).takenIn p rest t (Request.ofBody body) .inService).serveDropHere S p t
        (Request.ofBody body).flow := by
  have hheld' : (((s.withCurrent p t).used S).takenIn p rest t (Request.ofBody body) .inService).heldAgainst
    (Request.ofBody body).flow p = false := hheld
  unfold State.serveRequest
  rw [State.tagRec_takenIn, State.startService_takenIn]
  simp only [TagRecord.using, hkind, State.unlessHeld, hheld', Bool.false_eq_true, if_false]
  rfl

section
variable (x : State) (k : Nat)

theorem State.slot_dropped (T : SlotId) : (x.dropped S f k).slot T =
    if T = S then (x.slot S).dropped k (x.pool.after (x.headSegs S f k)) else x.slot T :=
  State.slot_setSlot _ _ _ _

theorem State.frame_dropped : x.dropped S f k =
    { x with slots := (x.dropped S f k).slots, flows := (x.dropped S f k).flows, pool := x.poolReleasing (x.headSegs S f k) } := rfl

theorem State.quiet_dropped : (x.dropped S f k).quiet = x.quiet := rfl

theorem State.flow_dropped : (x.dropped S f k).flow f =
    { x.flow f with segCount := (x.flow f).segCount - (x.headSegs S f k).length, halt := none } :=
  State.flow_setFlow_self ..

/-- What a DROP of `k` units leaves at its flow, its slot and the pool, from `s` to `u` (R103, R104). -/
structure State.Drops (s u : State) (S : SlotId) (f : FlowId) (k : Nat) : Prop where
  units : u.units = s.units
  slot_self : u.slot S = (s.slot S).dropped k (s.pool.after (s.headSegs S f k))
  slot_ne : ∀ T, T ≠ S → u.slot T = s.slot T
  flow_self : u.flow f = { s.flow f with
    segCount := (s.flow f).segCount - (s.headSegs S f k).length, halt := none, dispatched := false
    ready := (u.flow f).ready, listed := (u.flow f).listed, prev := (u.flow f).prev, next := (u.flow f).next }
  ready_iff : (u.flow f).ready = true ↔ if (s.flow f).state = .opened
    then (s.slot S).context.readyThreshold.toNat ≤ (s.slot S).context.unitCount.toNat - k
    else 1 ≤ (s.slot S).context.unitCount.toNat - k
  pool : u.pool = s.poolReleasing (s.headSegs S f k)
  frame : u = { s with slots := u.slots, flows := u.flows, lists := u.lists, units := u.units, pool := u.pool }
  quiet : u.quiet = s.quiet

theorem Slot.unitCount_dropped (v : Slot) {k next : Nat} (hk : k ≤ v.context.unitCount.toNat) :
    (v.dropped k next).context.unitCount.toNat = v.context.unitCount.toNat - k := by
  have hsub : (v.context.unitCount - BitVec.ofNat 16 k).toNat = v.context.unitCount.toNat - k := by bv_omega
  exact hsub

theorem FlowEntry.ready_reevaluated {e : FlowEntry} (c : Context) (hhalt : e.halt = none) (hopen : e.state ≠ .closed) :
    (e.reevaluated c).ready = true ↔ if e.state = .opened then c.readyThreshold.toNat ≤ c.unitCount.toNat
      else 1 ≤ c.unitCount.toNat := by
  cases hstate : e.state with
  | opened => simp [FlowEntry.reevaluated, readyCondition, hhalt, hstate]
  | draining => simp [FlowEntry.reevaluated, readyCondition, hhalt, hstate]
  | closed => exact absurd hstate hopen

theorem State.drops_dropped (hS : x.servingSlot f = some S) (hopen : (x.flow f).state ≠ .closed)
    (hk : k ≤ (x.slot S).context.unitCount.toNat) (hunarmed : (x.unit (x.flow f).consumer).readyArmed = false) :
    x.Drops ((x.dropped S f k).undispatchAndReevaluate f S) S f k := by
  obtain ⟨hres, -⟩ := State.servingSlot_eq_some_iff.1 hS
  have hflow := x.flow_dropped (S := S) (f := f) k
  have hslot := x.slot_dropped (S := S) (f := f) k
  have hself : (x.dropped S f k).slot S = (x.slot S).dropped k (x.pool.after (x.headSegs S f k)) := by
    rw [hslot, if_pos rfl]
  have hrelists := (x.dropped S f k).relists f (((x.dropped S f k).flow f).reevaluated ((x.dropped S f k).slot S).context)
  rw [← State.undispatchAndReevaluate_eq (by rw [hflow]; exact hres), hself, hflow] at hrelists
  have hframed := x.frame_dropped (S := S) (f := f) k
  have hquiet := x.quiet_dropped (S := S) (f := f) k
  generalize x.dropped S f k = d at *
  generalize d.undispatchAndReevaluate f S = u at *
  have hunits : d.units = x.units := by rw [hframed]
  have hframe := hrelists.frame
  unfold State.InRelist at hframe
  have hslots (T : SlotId) : u.slot T = d.slot T := by
    rw [hframe]
    rfl
  refine ⟨?_, ?_, fun T hT => ?_, ?_, ?_, ?_, ?_, ?_⟩
  · have hunit : d.unit (x.flow f).consumer = x.unit (x.flow f).consumer :=
      congrArg (fun us : Vector PortUnit 4 => us[(x.flow f).consumer]) hunits
    exact (hrelists.units (.inr (by rw [← hunarmed, ← hunit]; rfl))).trans hunits
  · rw [hslots, hself]
  · rw [hslots, hslot, if_neg hT]
  · rw [hrelists.flow_self]
    rfl
  · have hready := FlowEntry.ready_reevaluated (e := { x.flow f with
      segCount := (x.flow f).segCount - (x.headSegs S f k).length, halt := none })
      ((x.slot S).dropped k (x.pool.after (x.headSegs S f k))).context rfl hopen
    rw [Slot.unitCount_dropped _ hk] at hready
    rw [hrelists.flow_self]
    exact hready
  · rw [hframe, hframed]
  · rw [hframe, hframed]
  · exact hrelists.quiet.trans hquiet

end

end

end Sys2Proof.Machine

/-! SUPPORT. DROP: what it leaves, and the flow that it drains. -/

namespace Sys2Proof.Machine

section
variable {s : State} {p : PortId} {t : TagId} {body : BitVec 64} {rest : List Message} {S : SlotId} {f : FlowId} {k : ReqKind}

/-- A consumer request handed on at once, whose service leaves nothing due but a retry, where nothing waits. -/
theorem exec_consumer_of_done (hquiet : s.quiet = true) (hk : k = .take ∨ k = .peek ∨ k = .drop)
    (htakes : s.takesRequest p t body rest k) (hrange : k.inRange (Request.ofBody body) = true)
    (hopen : (s.flow (Request.ofBody body).flow).state ≠ .closed)
    (hhalt : (s.flow (Request.ofBody body).flow).halt ≠ some .ctxErr)
    (hconsumer : (s.flow (Request.ofBody body).flow).consumer = p) (hcurrent : (s.unit p).current = none)
    (hqueue : (s.unit p).consumerQueue = []) (hS : s.servingSlot (Request.ofBody body).flow = some S) {y : State}
    (hy : ((s.withCurrent p t).takenIn p rest t (Request.ofBody body) .queuedAtPort).serveRequest S p t = y)
    (hyquiet : ({ y with retryDue := false } : State).quiet = true) (hwaits : y.noWaits) :
    exec (k.command p) s = .next { y with retryDue := false } := by
  rw [exec_consumer_of_serving hquiet hk htakes hrange hopen hhalt hconsumer hcurrent hqueue hS hy
    (fun q => ((State.quiet_iff _).1 hyquiet).2.1 q |>.1) (fun _ => hwaits)]
  exact congrArg _ (State.finish_of_retry hyquiet hwaits.1 hwaits.2)

/-- The state when a consumer request at slot `S` has been answered OK. -/
def State.servedAt (s : State) (S : SlotId) (p : PortId) (rest : List Message) (t : TagId) (body : BitVec 64)
    (res : Result) : State :=
  (s.used S).granted p rest t body res

section
variable (res : Result)

theorem State.servingSlot_servedAt (h : s.servingSlot f = some S) :
    (s.servedAt S p rest t body res).servingSlot f = some S := State.servingSlot_used h

theorem State.slot_servedAt_self : (s.servedAt S p rest t body res).slot S = { s.slot S with ref := true } := s.slot_used S

theorem State.slot_servedAt_ne {T : SlotId} (h : T ≠ S) : (s.servedAt S p rest t body res).slot T = s.slot T :=
  State.slot_setSlot_ne _ _ h

theorem State.frame_servedAt : s.servedAt S p rest t body res =
    { s with slots := (s.used S).slots, units := (s.granted p rest t body res).units } := rfl

theorem State.quiet_servedAt : (s.servedAt S p rest t body res).quiet = s.quiet := by
  rw [State.servedAt, State.quiet_granted, State.used, State.quiet_setSlot]

theorem State.headSegs_servedAt (k : Nat) : (s.servedAt S p rest t body res).headSegs S f k = s.headSegs S f k := by
  rw [State.headSegs, State.slot_servedAt_self]
  rfl

theorem State.poolReleasing_servedAt (segs : List Nat) :
    (s.servedAt S p rest t body res).poolReleasing segs = s.poolReleasing segs := rfl

theorem State.readyArmed_servedAt (q : PortId) :
    ((s.servedAt S p rest t body res).unit q).readyArmed = (s.unit q).readyArmed :=
  (s.used S).readyArmed_takenAndPlaced p rest t _ _ _ q

theorem State.counted_servedAt : (s.servedAt S p rest t body res).counted S = s.counted S := s.counted_used S

end

/-- The service of a DROP whose flow has units. -/
theorem State.serveRequest_drop_of_units (htakes : s.takesRequest p t body rest .drop)
    (hconsumer : (s.flow (Request.ofBody body).flow).consumer = p)
    (hheld : s.heldAgainst (Request.ofBody body).flow p = false) (hcurrent : (s.unit p).current = none)
    (hunits : (s.slot S).context.unitCount ≠ 0) {k : Nat}
    (hk : k = dropCount (Request.ofBody body).argB.toNat (s.slot S).context.unitCount.toNat) :
    ((s.withCurrent p t).takenIn p rest t (Request.ofBody body) .queuedAtPort).serveRequest S p t =
      (((s.servedAt S p rest t body (.dropped k)).dropped S (Request.ofBody body).flow k).undispatchAndReevaluate
        (Request.ofBody body).flow S).drainTest (Request.ofBody body).flow := by
  have ⟨_, hkind, _⟩ := htakes
  have hcontext : ((((s.used S).withCurrent p t).takenIn p rest t (Request.ofBody body) .inService).slot S).context =
      (s.slot S).context := congrArg (fun v => v.context) (s.slot_used S)
  rw [State.serveRequest_drop hkind hheld, State.serveDropHere_of_units
      (s := ((s.used S).withCurrent p t).takenIn p rest t (Request.ofBody body) .inService) (k := k) hconsumer
    (by rw [hcontext]; exact hunits) (by rw [hcontext, State.tagRec_takenIn]; exact hk), State.respond,
    State.answered_withCurrent (s := s.used S) hcurrent (by rw [hkind]; rfl)]
  rfl

theorem State.serveRequest_drop_of_none (htakes : s.takesRequest p t body rest .drop)
    (hconsumer : (s.flow (Request.ofBody body).flow).consumer = p)
    (hheld : s.heldAgainst (Request.ofBody body).flow p = false) (hcurrent : (s.unit p).current = none)
    (hunits : (s.slot S).context.unitCount = 0) :
    ((s.withCurrent p t).takenIn p rest t (Request.ofBody body) .queuedAtPort).serveRequest S p t =
      ((s.used S).refused p rest t body .empty).foundEmpty (Request.ofBody body).flow := by
  have ⟨_, hkind, _⟩ := htakes
  have hcontext : ((((s.used S).withCurrent p t).takenIn p rest t (Request.ofBody body) .inService).slot S).context =
      (s.slot S).context := congrArg (fun v => v.context) (s.slot_used S)
  rw [State.serveRequest_drop hkind hheld, State.serveDropHere_of_none
      (s := ((s.used S).withCurrent p t).takenIn p rest t (Request.ofBody body) .inService) hconsumer (by rw [hcontext]; exact hunits),
    State.refuse_withCurrent (s := s.used S) hcurrent (by rw [hkind]; rfl)]

/-- What DROP leaves, where its flow has units and is not closed by it. -/
theorem exec_dropReq_of_units (hquiet : s.quiet = true) (htakes : s.takesRequest p t body rest .drop)
    (hopen : (s.flow (Request.ofBody body).flow).state ≠ .closed)
    (hhalt : (s.flow (Request.ofBody body).flow).halt ≠ some .ctxErr)
    (hconsumer : (s.flow (Request.ofBody body).flow).consumer = p)
    (hheld : s.heldAgainst (Request.ofBody body).flow p = false) (hcurrent : (s.unit p).current = none)
    (hqueue : (s.unit p).consumerQueue = []) (hunarmed : (s.unit p).readyArmed = false)
    (hS : s.servingSlot (Request.ofBody body).flow = some S) (hunits : (s.slot S).context.unitCount ≠ 0) {k : Nat}
    (hk : k = dropCount (Request.ofBody body).argB.toNat (s.slot S).context.unitCount.toNat) :
    ∃ w, (s.servedAt S p rest t body (.dropped k)).Drops w S (Request.ofBody body).flow k ∧
      ((w.drainTest (Request.ofBody body).flow = w → exec (.dropReq p) s = .next w)) ∧
      ∀ y, w.drainTest (Request.ofBody body).flow = y → ({ y with retryDue := false } : State).quiet = true → y.noWaits →
        exec (.dropReq p) s = .next { y with retryDue := false } := by
  have hle : k ≤ ((s.servedAt S p rest t body (.dropped k)).slot S).context.unitCount.toNat := by
    rw [State.slot_servedAt_self, hk, dropCount]
    split
    · exact le_refl _
    · exact min_le_right _ _
  have hdrops := State.drops_dropped (x := s.servedAt S p rest t body (.dropped k)) (k := k)
    (State.servingSlot_servedAt _ hS) hopen hle
    ((State.readyArmed_servedAt _ _).trans (show (s.unit (s.flow (Request.ofBody body).flow).consumer).readyArmed = false by
      rw [hconsumer]; exact hunarmed))
  have hserve := State.serveRequest_drop_of_units htakes hconsumer hheld hcurrent hunits hk
  refine ⟨_, hdrops, fun hsame => ?_, fun y hy hyquiet hwaits => ?_⟩
  · exact exec_consumer_of_quiet hquiet (.inr (.inr rfl)) htakes rfl hopen hhalt hconsumer hcurrent hqueue hS
      (hserve.trans hsame) (by rw [hdrops.quiet, State.quiet_servedAt, hquiet])
  · exact exec_consumer_of_done hquiet (.inr (.inr rfl)) htakes rfl hopen hhalt hconsumer hcurrent hqueue hS
      (hserve.trans hy) hyquiet hwaits

/-- What counts a slot rests on its pins, its flow and the hold records alone (R47). -/
theorem State.counted_of_same {s u : State} (hpins : (u.slot S).pins = (s.slot S).pins) (hflow : (u.slot S).flow = (s.slot S).flow)
    (hholds : u.holds = s.holds) : u.counted S = s.counted S := by
  have hholder (g : FlowId) : u.holder g = s.holder g := by
    unfold State.holder State.hold
    rw [hholds]
  simp only [State.counted, State.slotHeld, hpins, hflow, hholder]

theorem State.Drops.closes {u : State} {k : Nat} (h : s.Drops u S f k) (hS : s.servingSlot f = some S) (hex : s.holdsExclusive)
    (hparked : (s.slot S).parkedList = []) : u.Closes (u.enterClosed f) f S := by
  obtain ⟨hres, hstate, hflow⟩ := State.servingSlot_eq_some_iff.1 hS
  have hself := h.flow_self
  refine State.closes_enterClosed ?_ (State.servingSlot_eq_some_iff.2 ⟨?_, ?_, ?_⟩) ?_
  · rw [h.frame]
    exact hex
  · rw [hself]
    exact hres
  · rw [h.slot_self]
    exact hstate
  · rw [h.slot_self]
    exact hflow
  · rw [h.slot_self]
    exact hparked

theorem State.Drops.counted {u : State} {k : Nat} (h : s.Drops u S f k) : u.counted S = s.counted S :=
  State.counted_of_same (by rw [h.slot_self]; rfl) (by rw [h.slot_self]; rfl) (by rw [h.frame])

/-- What a DROP leaves that takes the last segment of a DRAINING flow (R16, R17, R104). -/
theorem State.Drops.drained {w : State} {k : Nat} (h : s.Drops w S f k) (hS : s.servingSlot f = some S)
    (hex : s.holdsExclusive) (hparked : (s.slot S).parkedList = []) (hends : (s.flow f).state = .draining ∧
      (s.flow f).segCount - (s.headSegs S f k).length = 0 ∧ (s.flow f).admittedUnits = 0) :
    ∃ u, w.Closes u f S ∧ w.drainTest f = u.raise (s.flow f).consumer (.drained f) := by
  refine ⟨_, h.closes hS hex hparked, ?_⟩
  have hself := h.flow_self
  rw [State.drainTest_of_ends (by rw [hself]; exact hends), hself]

/-- Settles O39: the units leave the head of the flow, and the drain end test follows. -/
theorem dropRemovesUnits : Obligations.DropRemovesUnits := by
  unfold Obligations.DropRemovesUnits
  intro s p t body rest hquiet htakes f e count hopen hhalt hconsumer hheld hcurrent hqueue hunarmed S hS c n k segs next ends
  obtain ⟨hres, -⟩ := State.servingSlot_eq_some_iff.1 hS
  have hnone : n = 0 ↔ (s.slot S).context.unitCount = 0 := by
    rw [← BitVec.toNat_inj]
    rfl
  have hdropped (hn : 1 ≤ n) := exec_dropReq_of_units hquiet htakes hopen hhalt hconsumer hheld hcurrent hqueue hunarmed hS
    (fun h => by have := hnone.2 h; omega) (k := k) rfl
  refine ⟨fun hn hnot => ?_, fun hn hends hwaits hparked hex => ?_, fun hn => ?_⟩
  · obtain ⟨w, hdrops, hexec, -⟩ := hdropped hn
    have hself := hdrops.flow_self
    have hready := hdrops.ready_iff
    rw [State.headSegs_servedAt] at hself
    rw [State.slot_servedAt_self] at hready
    have hsame : w.drainTest f = w := State.drainTest_of_not (by rw [hself]; exact hnot)
    refine ⟨w, hexec hsame, hdrops.units.trans rfl, ?_, fun T hT => ?_, ⟨?_, ?_, ?_, ?_, ?_, ?_, ?_, hready⟩, ?_, ?_⟩
    · rw [hdrops.slot_self, State.slot_servedAt_self, State.headSegs_servedAt]
      rfl
    · rw [hdrops.slot_ne T hT, State.slot_servedAt_ne _ hT]
    · rw [hself]; rfl
    · rw [hself]
    · rw [hself]
    · rw [hself]; rfl
    · rw [hself]; rfl
    · rw [hself]; rfl
    · rw [hself]; rfl
    · rw [hdrops.pool, State.headSegs_servedAt, State.poolReleasing_servedAt]; rfl
    · rw [hdrops.frame, State.frame_servedAt]
  · obtain ⟨w, hdrops, -, hexec⟩ := hdropped hn
    have hself := hdrops.flow_self
    rw [State.headSegs_servedAt] at hself
    obtain ⟨u, hcloses, hdrains⟩ := hdrops.drained (State.servingSlot_servedAt _ hS) hex
      (by rw [State.slot_servedAt_self]; exact hparked) (by rw [State.headSegs_servedAt]; exact hends)
    have hquietw : ({ w with retryDue := false } : State).quiet = true := by
      have hw : w.quiet = true := by rw [hdrops.quiet, State.quiet_servedAt, hquiet]
      have hretry := (w.quiet_iff.1 hw).1
      rw [← hretry]
      exact hw
    have hwaitsw : w.noWaits := by rw [hdrops.frame]; exact hwaits
    have hunits : u.units = (s.granted p rest t body (.dropped k)).units := hcloses.units.trans (hdrops.units.trans rfl)
    have hunit (q : PortId) : u.unit q = (s.granted p rest t body (.dropped k)).unit q :=
      congrArg (fun us : Vector PortUnit 4 => us[q]) hunits
    have hflow := hcloses.flow_self
    have hconsumer' : ((s.servedAt S p rest t body (.dropped k)).flow f).consumer = p := hconsumer
    rw [hconsumer'] at hdrains
    refine ⟨_, hexec _ hdrains (hcloses.quiet_raise hquietw _ _) (hcloses.noWaits_raise hwaitsw _ _), ?_, fun q hq => ?_,
      ⟨?_, ?_, ?_, ?_, ?_, ?_, ?_⟩, ⟨?_, ?_, fun T hT => ?_⟩, hcloses.hold_flow, ?_, ?_, ?_⟩
    · exact (State.unit_setUnit_self ..).trans (congrArg _ (hunit p))
    · exact (State.unit_setUnit_ne _ _ hq).trans ((hunit q).trans (State.unit_setUnit_ne _ _ hq))
    · exact congrArg FlowEntry.state hflow
    · rw [show ({ u.raise p (.drained f) with retryDue := false } : State).flow f = u.flow f from rfl, hflow, hself]
      exact hends.2.1
    · exact congrArg FlowEntry.halt hflow
    · exact congrArg FlowEntry.ready hflow
    · exact congrArg FlowEntry.listed hflow
    · exact congrArg FlowEntry.dispatched hflow
    · exact congrArg FlowEntry.residency hflow
    · exact congrArg Slot.state hcloses.slot_self
    · exact congrArg Slot.flow hcloses.slot_self
    · exact (hcloses.slot_ne T hT).trans ((hdrops.slot_ne T hT).trans (State.slot_servedAt_ne _ hT))
    · refine hcloses.count.trans ?_
      rw [hdrops.counted, State.counted_servedAt, hdrops.frame]
      rfl
    · rw [show ({ u.raise p (.drained f) with retryDue := false } : State).pool = u.pool from rfl, hcloses.frame,
        hdrops.pool, State.headSegs_servedAt]
      rfl
    · have hretry := (s.quiet_iff.1 hquiet).1
      rw [State.raise, hcloses.frame, hdrops.frame, State.frame_servedAt, ← hretry]
      rfl
  · have hunits := hnone.1 hn
    have hempty := State.foundEmpty_eq (s := (s.used S).refused p rest t body .empty) (f := f) hres
    have hrelists := ((s.used S).refused p rest t body .empty).relists f { s.flow f with dispatched := false, ready := false }
    have hself := hrelists.flow_self
    have hserve := State.serveRequest_drop_of_none htakes hconsumer hheld hcurrent hunits
    refine ⟨_, exec_consumer_of_quiet hquiet (.inr (.inr rfl)) htakes rfl hopen hhalt hconsumer hcurrent hqueue hS
      (hserve.trans hempty) ?_, ?_, ?_, ?_, ?_⟩
    · refine hrelists.quiet.trans ?_
      rw [State.quiet_refused, State.used, State.quiet_setSlot, hquiet]
    · exact (hrelists.units (.inl rfl)).trans rfl
    · exact congrArg FlowEntry.dispatched hself
    · exact congrArg FlowEntry.ready hself
    · exact hrelists.frame.trans rfl

end

end Sys2Proof.Machine

/-! SUPPORT. The end of an event of one port that may bring its next beat read; the start of a delivery. -/

namespace Sys2Proof.Machine

/-! ## Where the bytes of a read lie (R92) -/

theorem Pool.readBytes_succ (P : Pool) (n seg off : Nat) : P.readBytes (n + 1) seg off =
    let past := if off + 1 < (P.link seg).fill then (seg, off + 1) else ((P.link seg).next, 0)
    ((seg, off) :: (P.readBytes n past.1 past.2).1, (P.readBytes n past.1 past.2).2) := rfl

theorem map_range_succ_offset (seg off n : Nat) : (List.range (n + 1)).map (fun i => (seg, off + i)) =
    (seg, off) :: (List.range n).map (fun i => (seg, off + 1 + i)) := by
  simp [List.range_succ_eq_map, Function.comp_def, Nat.add_right_comm, Nat.add_assoc]

/-- A read that stays in its segment. -/
theorem Pool.readBytes_within (P : Pool) {n seg off : Nat} (h : n < (P.link seg).fill - off) :
    P.readBytes n seg off = ((List.range n).map (fun i => (seg, off + i)), seg, off + n) := by
  induction n generalizing off with
  | zero => rfl
  | succ n ih =>
    rw [Pool.readBytes_succ, if_pos (show off + 1 < (P.link seg).fill by omega)]
    dsimp only
    rw [ih (by omega), map_range_succ_offset, Nat.add_assoc off 1 n, Nat.add_comm 1 n]

/-- A read that reaches the end of its segment's fill goes on at the start of the next segment. -/
theorem Pool.readBytes_beyond (P : Pool) {n seg off : Nat} (hoff : off < (P.link seg).fill)
    (h : (P.link seg).fill - off ≤ n) : P.readBytes n seg off =
      ((List.range ((P.link seg).fill - off)).map (fun i => (seg, off + i)) ++
        (P.readBytes (n - ((P.link seg).fill - off)) (P.link seg).next 0).1,
      (P.readBytes (n - ((P.link seg).fill - off)) (P.link seg).next 0).2) := by
  induction n generalizing off with
  | zero => omega
  | succ n ih =>
    rw [Pool.readBytes_succ]
    by_cases hwithin : off + 1 < (P.link seg).fill
    · have hleft : (P.link seg).fill - off = ((P.link seg).fill - (off + 1)) + 1 := by omega
      rw [if_pos hwithin]
      dsimp only
      rw [ih hwithin (by omega), hleft, map_range_succ_offset, Nat.add_sub_add_right]
      rfl
    · have hleft : (P.link seg).fill - off = 1 := by omega
      rw [if_neg hwithin, hleft]
      rfl

/-! ## The end of an event of one port (R92) -/

section
variable {s u : State} {p : PortId}

/-- The room for a beat rests on the beats in the outbound queue alone. -/
theorem MemController.mayRead_congr {m : MemController} {d : Delivery} {q q' : List OutMsg}
    (h : beatsIn q' = beatsIn q) : m.mayRead p d q' ↔ m.mayRead p d q := by
  simp only [MemController.mayRead, h]

theorem State.readFollows_congr {d : Delivery} {m : MemController} {q q' : List OutMsg} (h : beatsIn q' = beatsIn q)
    (hu : u.readFollows p d m q') : u.readFollows p d m q :=
  ⟨fun hmay => hu.1 ((MemController.mayRead_congr h).2 hmay), fun hnot => hu.2 fun hmay => hnot ((MemController.mayRead_congr h).1 hmay)⟩

/-- An event that hands nothing on at its own port hands nothing on. -/
theorem State.handOnDue_of_port (hquiet : s.quiet = true) (hhand : u.handOnDue p = false)
    (hothers : ∀ q, q ≠ p → (s.unit q).SameQuiet (u.unit q)) (q : PortId) : u.handOnDue q = false := by
  obtain ⟨-, hports, -⟩ := s.quiet_iff.1 hquiet
  by_cases hq : q = p
  · rw [hq, hhand]
  · obtain ⟨hqueue, hcurrent, -⟩ := hothers q hq
    rw [← (hports q).1, State.handOnDue, hqueue, hcurrent]
    rfl

/-- An event whose effects are at one port and away from the memory controller ends with that port's next beat read, if
it is due. -/
theorem State.finish_of_port (hquiet : s.quiet = true) (hhand : u.handOnDue p = false)
    (hwaits : u.retryDue = true → u.noWaits) (hmem : u.mem = s.mem)
    (hothers : ∀ q, q ≠ p → (s.unit q).SameQuiet (u.unit q) ∧ u.del q = s.del q) :
    u.finish.readFollows p (u.del p) s.mem (u.unit p).outbound ∧ (∀ q, q ≠ p → u.finish.del q = s.del q) ∧
      u.finish = { u with retryDue := false, dels := u.finish.dels, mem := u.finish.mem } := by
  obtain ⟨-, hports, -, haccess⟩ := s.quiet_iff.1 hquiet
  have hhands := State.handOnDue_of_port hquiet hhand fun q hq => (hothers q hq).1
  have hreads (q : PortId) (hq : q ≠ p) : u.readDue q = false := by
    obtain ⟨⟨-, -, hbeats⟩, hdel⟩ := hothers q hq
    rw [← (hports q).2, State.readDue, State.readOutstanding, hbeats, hdel, hmem]
    rfl
  obtain ⟨hfollows, hdels, hframe⟩ := State.readFollows_finish (p := p) hhands hwaits hreads
    (by rw [hmem]; exact haccess.imp_left Option.isSome_iff_ne_none.1)
  rw [hmem] at hfollows
  exact ⟨hfollows, fun q hq => (hdels q hq).trans (hothers q hq).2, hframe⟩

end

/-! ## The start of a delivery (R90, R91) -/

section
variable {s : State} {p : PortId} {t : TagId} {body : BitVec 64} {rest : List Message} {S : SlotId} {f : FlowId} {k : DelKind}

theorem State.serveTakeHere_of_units (hconsumer : (s.flow f).consumer = p) (hhalt : (s.flow f).halt = none)
    (hunits : (s.slot S).context.unitCount ≠ 0) : s.serveTakeHere S p t f k = s.startDelivery S p t f k := by
  unfold State.serveTakeHere
  dsimp only
  rw [if_neg (not_not_intro hconsumer), hhalt, if_neg hunits]
  rfl

theorem State.serveRequest_deliver (hkind : (Request.ofBody body).kind = k.request)
    (hheld : s.heldAgainst (Request.ofBody body).flow p = false) :
    ((s.withCurrent p t).takenIn p rest t (Request.ofBody body) .queuedAtPort).serveRequest S p t =
      (((s.used S).withCurrent p t).takenIn p rest t (Request.ofBody body) .inService).serveTakeHere S p t
        (Request.ofBody body).flow k := by
  have hheld' : (((s.withCurrent p t).used S).takenIn p rest t (Request.ofBody body) .inService).heldAgainst
    (Request.ofBody body).flow p = false := hheld
  unfold State.serveRequest
  rw [State.tagRec_takenIn, State.startService_takenIn]
  cases k <;>
    · simp only [DelKind.request] at hkind
      simp only [TagRecord.using, hkind, State.unlessHeld, hheld', Bool.false_eq_true, if_false]
      rfl

/-- The delivery record of a TAKE or PEEK at its start (R91). -/
def State.delivery (s : State) (S : SlotId) (t : TagId) (f : FlowId) (k : DelKind) (limit : Nat) : Delivery :=
  { state := .streaming, kind := k, tag := t, flow := f
    planned := plannedBytes k limit (s.remaining (s.slot S).context)
    startSeg := (s.slot S).context.headSeg.toNat, startOff := (s.slot S).context.cursorOff.toNat
    startDone := (s.slot S).context.cursorDone.toNat, readSeg := (s.slot S).context.headSeg.toNat
    readOff := (s.slot S).context.cursorOff.toNat, sent := 0, readInFlight := false }

/-- The header of a delivery (R90). -/
def State.header (s : State) (S : SlotId) (t : TagId) (f : FlowId) (planned : Nat) : OutMsg :=
  .response t .ok (.header f (s.remaining (s.slot S).context + (s.slot S).context.cursorDone.toNat)
    (s.slot S).context.cursorDone.toNat planned) .header

/-- The state when a TAKE or PEEK handed on at once has begun its delivery (R91). -/
def State.delivers (s : State) (S : SlotId) (p : PortId) (rest : List Message) (t : TagId) (r : Request) (f : FlowId)
    (k : DelKind) : State :=
  ((s.setDel p (s.delivery S t f k r.argA.toNat)).setSlot S { s.slot S with ref := true, delivering := true }).setUnit p
    { (s.takenAndPlaced p rest t r .streaming (s.header S t f (s.delivery S t f k r.argA.toNat).planned)).unit p with
      current := some t }

theorem State.startDelivery_takenIn (r : Request) :
    (((s.used S).withCurrent p t).takenIn p rest t r .inService).startDelivery S p t f k = s.delivers S p rest t r f k := by
  have hslot : (((s.used S).withCurrent p t).takenIn p rest t r .inService).slot S = { s.slot S with ref := true } :=
    s.slot_used S
  have hplaced (d : Delivery) (m : OutMsg) : ((((((s.used S).withCurrent p t).takenIn p rest t r .inService).setDel p d).setSlot S
      { s.slot S with ref := true, delivering := true }).setPhase p t .streaming).place p m =
      ((s.setDel p d).setSlot S { s.slot S with ref := true, delivering := true }).setUnit p
        { (s.takenAndPlaced p rest t r .streaming m).unit p with current := some t } := by
    have hslots : ((((s.used S).withCurrent p t).takenIn p rest t r .inService).setDel p d).setSlot S
        { s.slot S with ref := true, delivering := true } = (((s.setDel p d).setSlot S
          { s.slot S with ref := true, delivering := true }).withCurrent p t).takenIn p rest t r .inService :=
      congrArg (fun v => (State.withCurrent v p t).takenIn p rest t r .inService) ((s.setDel p d).setSlot_used S _)
    rw [hslots, State.setPhase_takenIn, State.takenIn_withCurrent, State.place, State.unit_setUnit_self,
      State.setUnit_setUnit, PortUnit.place_current, State.takenAndPlaced, State.unit_setUnit_self]
    rfl
  unfold State.startDelivery
  dsimp only
  rw [State.slot_setDel, hslot, State.tagRec_takenIn]
  exact hplaced (s.delivery S t f k r.argA.toNat) (s.header S t f (s.delivery S t f k r.argA.toNat).planned)

/-- A delivery `d` of port `p` from slot `S` has begun, from `s` to `u`, the port unit being `v` (R91). -/
structure State.Begins (s u : State) (S : SlotId) (p : PortId) (d : Delivery) (v : PortUnit) : Prop where
  unit_self : u.unit p = v
  del_self : u.del p = d
  ne : ∀ q, q ≠ p → u.unit q = s.unit q ∧ u.del q = s.del q
  frame : u = { s with
    slots := (s.setSlot S { s.slot S with ref := true, delivering := true }).slots, dels := u.dels, units := u.units }

theorem State.begins_delivers (r : Request) : s.Begins (s.delivers S p rest t r f k) S p (s.delivery S t f k r.argA.toNat)
    { (s.takenAndPlaced p rest t r .streaming (s.header S t f (s.delivery S t f k r.argA.toNat).planned)).unit p with
      current := some t } :=
  ⟨State.unit_setUnit_self _ _ _, State.del_setDel_self _ _ _,
    fun _ hq => ⟨State.unit_setUnit_ne _ _ hq, State.del_setDel_ne _ _ hq⟩, rfl⟩

theorem State.beatsIn_takenAndPlaced {r : Request} {ph : Phase} {m : OutMsg} (hm : m.NotBeat) :
    beatsIn ((s.takenAndPlaced p rest t r ph m).unit p).outbound = beatsIn (s.unit p).outbound := by
  rw [State.takenAndPlaced, State.unit_setUnit_self]
  exact (PortUnit.sameQuiet_place _ hm _).2.2

section
variable {u : State} {d : Delivery} {v : PortUnit} (h : s.Begins u S p d v) (hquiet : s.quiet = true)
  (hcurrent : v.current.isSome = true)
include h hquiet hcurrent

theorem State.Begins.handOnDue (q : PortId) : u.handOnDue q = false := by
  refine State.handOnDue_of_port (p := p) hquiet ?_ (fun q hq => by rw [(h.ne q hq).1]; exact .refl _) q
  rw [State.handOnDue, h.unit_self]
  exact Bool.and_eq_false_iff.2 (.inl (Option.isNone_eq_false_iff.2 hcurrent))

/-- The end of the event in which a delivery has begun brings its first beat read, if it is due (R91, R92). -/
theorem State.Begins.finish (hbeats : beatsIn v.outbound = beatsIn (s.unit p).outbound) :
    u.finish.unit p = v ∧ u.finish.readFollows p d s.mem (s.unit p).outbound ∧
      (∀ q, q ≠ p → u.finish.unit q = s.unit q ∧ u.finish.del q = s.del q) ∧
      u.finish = { s with
        slots := (s.setSlot S { s.slot S with ref := true, delivering := true }).slots, dels := u.finish.dels
        units := u.finish.units, mem := u.finish.mem } := by
  have hnoretry := (s.quiet_iff.1 hquiet).1
  have hretry : u.retryDue = false := by rw [h.frame, hnoretry]
  have hmem : u.mem = s.mem := by rw [h.frame]
  obtain ⟨hfollows, hdels, hframe⟩ := State.finish_of_port (u := u) hquiet (h.handOnDue hquiet hcurrent p)
    (fun hdue => absurd hdue (by simp [hretry])) hmem
    fun q hq => ⟨by rw [(h.ne q hq).1]; exact .refl _, (h.ne q hq).2⟩
  have hsame : u.finish.units = u.units := by rw [hframe]
  have hunits (q : PortId) : u.finish.unit q = u.unit q := congrArg (fun us : Vector PortUnit 4 => us[q]) hsame
  rw [h.del_self, h.unit_self] at hfollows
  refine ⟨(hunits p).trans h.unit_self, State.readFollows_congr hbeats hfollows,
    fun q hq => ⟨(hunits q).trans (h.ne q hq).1, hdels q hq⟩, ?_⟩
  rw [hframe, h.frame, ← hnoretry]

end

/-- A delivery handed on at once ends its event with its first beat read, if it is due (R88, R91, R92). -/
theorem exec_delivery (hquiet : s.quiet = true) (htakes : s.takesRequest p t body rest k.request)
    (hrange : k.request.inRange (Request.ofBody body) = true)
    (hopen : (s.flow (Request.ofBody body).flow).state ≠ .closed) (hhalt : (s.flow (Request.ofBody body).flow).halt = none)
    (hconsumer : (s.flow (Request.ofBody body).flow).consumer = p)
    (hheld : s.heldAgainst (Request.ofBody body).flow p = false) (hcurrent : (s.unit p).current = none)
    (hqueue : (s.unit p).consumerQueue = []) (hS : s.servingSlot (Request.ofBody body).flow = some S)
    (hunits : (s.slot S).context.unitCount ≠ 0) : exec (k.command p) s =
      .next (s.delivers S p rest t (Request.ofBody body) (Request.ofBody body).flow k).finish := by
  have ⟨_, hkind, _⟩ := htakes
  have hkinds : k.request = .take ∨ k.request = .peek ∨ k.request = .drop := by cases k <;> simp [DelKind.request]
  have hcommand : k.command p = k.request.command p := by cases k <;> rfl
  have hcontext : ((((s.used S).withCurrent p t).takenIn p rest t (Request.ofBody body) .inService).slot S).context =
      (s.slot S).context := congrArg (fun v => v.context) (s.slot_used S)
  have hserve := State.serveRequest_deliver (t := t) (S := S) (rest := rest) hkind hheld
  rw [State.serveTakeHere_of_units (s := ((s.used S).withCurrent p t).takenIn p rest t (Request.ofBody body) .inService)
    hconsumer hhalt (by rw [hcontext]; exact hunits), State.startDelivery_takenIn] at hserve
  rw [hcommand]
  have hbegins := s.begins_delivers (p := p) (rest := rest) (t := t) (S := S) (f := (Request.ofBody body).flow) (k := k)
    (Request.ofBody body)
  exact exec_consumer_of_serving hquiet hkinds htakes hrange hopen (by rw [hhalt]; decide) hconsumer hcurrent hqueue hS
    hserve (hbegins.handOnDue hquiet rfl) fun hretry => by
      rw [hbegins.frame, (s.quiet_iff.1 hquiet).1] at hretry
      cases hretry

/-- Settles O38: a read goes on through the chain, and a delivery begins with its header and, if it may, its first read. -/
theorem deliveryBegins : Obligations.DeliveryBegins := by
  unfold Obligations.DeliveryBegins
  refine ⟨fun P n seg off hoff => ⟨P.readBytes_within, P.readBytes_beyond hoff⟩, ?_⟩
  intro s p t body rest k hquiet htakes f limit htake hpeek hopen hhalt hconsumer hheld hcurrent hqueue S hS c hunits rem planned
  have hrange : k.request.inRange (Request.ofBody body) = true := by
    cases k with
    | take => exact decide_eq_true (htake rfl)
    | peek => exact decide_eq_true (hpeek rfl)
  have hplanned : plannedBytes k limit (s.remaining (s.slot S).context) = planned := by
    cases k <;> simp [plannedBytes, planned, rem, State.remaining, c]
  have hnotZero : (s.slot S).context.unitCount ≠ 0 := by
    intro hzero
    have hcount : c.unitCount.toNat = 0 := by rw [show c.unitCount = 0 from hzero]; rfl
    omega
  have hexec := exec_delivery hquiet htakes hrange hopen hhalt hconsumer hheld hcurrent hqueue hS hnotZero
  have hbegins := s.begins_delivers (p := p) (rest := rest) (t := t) (S := S) (f := f) (k := k) (Request.ofBody body)
  rw [State.header, State.delivery, hplanned] at hbegins
  obtain ⟨hunit, hfollows, hne, hframe⟩ := hbegins.finish hquiet rfl (State.beatsIn_takenAndPlaced trivial)
  generalize (s.delivers S p rest t (Request.ofBody body) f k).finish = u at *
  have hslots : u.slots = (s.setSlot S { s.slot S with ref := true, delivering := true }).slots := by rw [hframe]
  exact ⟨u, hexec, hunit, hfollows, hslots, hne, by rw [hslots]; exact hframe⟩

end

end Sys2Proof.Machine

/-! SUPPORT. The end of a delivery: its END, the hold that lapses with it, and what is left due (R94, R97, R129). -/

namespace Sys2Proof.Machine

/-! ## The end of an event of one port that leaves it no delivery -/

section
variable {s u : State} {p : PortId}

/-- An event whose effects are at one port, and whose port reads no beat after it, leaves nothing due but a retry. -/
theorem State.quiet_of_port (hquiet : s.quiet = true) (hretry : u.retryDue = false) (hhand : u.handOnDue p = false)
    (hread : u.readDue p = false) (hmem : u.mem.inProgress ≠ none ∨ u.mem.noneWaits)
    (hreads : ∀ q, q ≠ p → u.readOutstanding q = s.readOutstanding q)
    (hothers : ∀ q, q ≠ p → (s.unit q).SameQuiet (u.unit q) ∧ u.del q = s.del q) : u.quiet = true := by
  obtain ⟨-, hports, -⟩ := s.quiet_iff.1 hquiet
  refine u.quiet_iff.2 ⟨hretry, fun q => ⟨State.handOnDue_of_port hquiet hhand (fun q hq => (hothers q hq).1) q, ?_⟩,
    MemController.grant_of_settled hmem, hmem.imp_left Option.isSome_iff_ne_none.2⟩
  by_cases hq : q = p
  · rw [hq, hread]
  · obtain ⟨⟨-, -, hbeats⟩, hdel⟩ := hothers q hq
    rw [← (hports q).2, State.readDue, hbeats, hdel, hreads q hq]
    rfl

theorem State.readDue_of_idle (h : (u.del p).state = .idle) : u.readDue p = false := by
  simp [State.readDue, h]

theorem State.handOnDue_of_empty (h : (u.unit p).consumerQueue = []) : u.handOnDue p = false := by
  simp [State.handOnDue, h]

end

/-! ## The END of a delivery (R94, R97, R102) -/

/-- A port unit whose request on a tag has been answered (R142). -/
def PortUnit.answering (u : PortUnit) (t : TagId) (m : OutMsg) : PortUnit :=
  (u.setTag t { u.tag t with phase := .responding }).place m

section
variable {s x : State} {p : PortId} {t : TagId} {S : SlotId} {f : FlowId}

/-- The answer of a port's current consumer request leaves it without one (R86). -/
theorem State.answered_current {m : OutMsg} (hcurrent : (s.unit p).current = some t)
    (hkind : (s.tagRec p t).request.kind.isConsumer = true) :
    s.answered p t m = s.setUnit p { (s.unit p).answering t m with current := none } := by
  have hrec : (((s.unit p).setTag t { (s.unit p).tag t with phase := .responding }).tag t).request.kind.isConsumer = true := by
    rw [PortUnit.tag_setTag_self]
    exact hkind
  have hcurrent' : ((s.unit p).setTag t { (s.unit p).tag t with phase := .responding }).current = some t := hcurrent
  rw [State.answered]
  dsimp only
  rw [PortUnit.currentEnded, if_pos ⟨hcurrent', hrec⟩, PortUnit.place_current]
  rfl

/-- The state when port `p`'s delivery from slot `S` has ended, and its port unit is `v` (R94, R97). -/
def State.deliveryEnded (s : State) (p : PortId) (S : SlotId) (v : PortUnit) : State :=
  (((s.setDel p Delivery.initial).setSlot S { s.slot S with ref := true, delivering := false }).setUnit p v).dueRetry

theorem State.deliveryEnded_eq {st : Status} {n : Nat} (hcurrent : (s.unit p).current = some t)
    (hkind : (s.tagRec p t).request.kind.isConsumer = true) :
    (((s.endDelivery p S).respondEnd p t st n).setSlot S
      { ((s.endDelivery p S).respondEnd p t st n).slot S with ref := true }) =
      s.deliveryEnded p S { (s.unit p).answering t (.endMsg t st n .final) with current := none } := by
  have hanswered := State.answered_current (s := s.endDelivery p S) (m := .endMsg t st n .final) hcurrent hkind
  have hslot : (s.endDelivery p S).slot S = { s.slot S with delivering := false } := State.slot_setSlot_self _ _ _
  rw [State.respondEnd, hanswered, State.slot_setUnit, hslot]
  exact congrArg (fun y => (State.setUnit y p _).dueRetry) ((s.setDel p Delivery.initial).setSlot_setSlot S _ _)

/-! ## The hold that lapses with a delivery (R129, R130) -/

/-- What the end of port `p`'s delivery leaves of the holds, from `x` to `u`, the delivery being that of `s` (R129). -/
structure State.EndsHold (s x u : State) (p : PortId) (S : SlotId) : Prop where
  unit_self : u.unit p = s.lapseRaised p (x.unit p)
  unit_ne : ∀ q, q ≠ p → u.unit q = x.unit q
  lapsesTo : s.lapsesTo u p S
  frame : u = { x with units := u.units, holds := u.holds, pinnedOrHeld := u.pinnedOrHeld }

theorem State.endsHold_lapse (hholds : x.holds = s.holds) (hcount : x.pinnedOrHeld = s.pinnedOrHeld)
    (hpins : (x.slot S).pins = (s.slot S).pins) (hretry : x.retryDue = true) (hS : x.servingSlot (s.del p).flow = some S)
    (hparked : s.lapses p = true → (x.slot S).parkedList = []) : s.EndsHold x (x.lapse p (s.del p).flow) p S := by
  have hhold (q : PortId) : x.hold q = s.hold q := by rw [State.hold, hholds]; rfl
  have hlapses : s.lapses p = true ↔ (x.hold p).state = .lapsing ∧ (x.hold p).flow = (s.del p).flow := by
    rw [hhold, State.lapses, Bool.and_eq_true, decide_eq_true_eq, decide_eq_true_eq]
  unfold State.lapse
  split
  · next h =>
    have htrue := hlapses.2 h
    have hends := State.endHold_of_none_parked hS h.2 (hparked htrue) (some (.holdLapsed (s.del p).flow))
    have hsame : ((x.holdEnded p S).raise p (.holdLapsed (s.del p).flow)).dueRetry =
        (x.holdEnded p S).raise p (.holdLapsed (s.del p).flow) := by
      rw [State.dueRetry, ← hretry]
      rfl
    rw [hends]
    dsimp only [Option.elim]
    rw [hsame]
    refine ⟨?_, fun q hq => State.unit_setUnit_ne _ _ hq, ⟨fun _ => ?_, fun hfalse => ?_, fun q hq => ?_, ?_⟩, rfl⟩
    · rw [State.lapseRaised, if_pos htrue]
      exact State.unit_setUnit_self _ _ _
    · exact congrArg Hold.state (State.hold_setHold_self _ _ _)
    · rw [htrue] at hfalse
      cases hfalse
    · exact (State.hold_setHold_ne _ _ hq).trans (hhold q)
    · refine Eq.trans (b := x.pinnedOrHeld - if (x.slot S).pins = 0 then 1 else 0) rfl ?_
      rw [hcount, hpins]
      simp [htrue]
  · next h =>
    have hfalse : s.lapses p = false := Bool.eq_false_iff.2 fun htrue => h (hlapses.1 htrue)
    refine ⟨?_, fun q hq => rfl, ⟨fun htrue => ?_, fun _ => hhold p, fun q _ => hhold q, ?_⟩, rfl⟩
    · rw [State.lapseRaised, if_neg (Bool.eq_false_iff.1 hfalse)]
    · rw [hfalse] at htrue
      cases htrue
    · rw [hcount]
      simp [hfalse]

theorem State.sameQuiet_lapseRaised (v : PortUnit) : v.SameQuiet (s.lapseRaised p v) := by
  unfold State.lapseRaised
  split
  · exact PortUnit.sameQuiet_raise _ _
  · exact .refl _

/-- The end of a delivery leaves nothing due but a retry (R62, R94). -/
theorem State.EndsHold.quiet_done {y u : State} (h : s.EndsHold x u p S) (hquiet : y.quiet = true)
    (hidle : (x.del p).state = .idle) (hqueue : (x.unit p).consumerQueue = [])
    (hmem : x.mem.inProgress ≠ none ∨ x.mem.noneWaits) (hreads : ∀ q, q ≠ p → x.readOutstanding q = y.readOutstanding q)
    (hothers : ∀ q, q ≠ p → (y.unit q).SameQuiet (x.unit q) ∧ x.del q = y.del q) :
    ({ u with retryDue := false } : State).quiet = true := by
  have hframe := h.frame
  have hdels : u.dels = x.dels := by rw [hframe]
  have hmemu : u.mem = x.mem := by rw [hframe]
  have hdel (q : PortId) : u.del q = x.del q := congrArg (fun ds : Vector Delivery 4 => ds[q]) hdels
  refine State.quiet_of_port (p := p) hquiet rfl ?_ ?_ ?_ ?_ ?_
  · refine State.handOnDue_of_empty ((congrArg PortUnit.consumerQueue h.unit_self).trans ?_)
    rw [(s.sameQuiet_lapseRaised _).1, hqueue]
  · exact State.readDue_of_idle ((congrArg Delivery.state (hdel p)).trans hidle)
  · exact (congrArg (fun m : MemController => m.inProgress ≠ none ∨ m.noneWaits) hmemu).mpr hmem
  · intro q hq
    refine Eq.trans ?_ (hreads q hq)
    exact congrArg (fun m : MemController => State.readOutstanding { u with mem := m } q) hmemu
  · intro q hq
    obtain ⟨hsame, hsamedel⟩ := hothers q hq
    refine ⟨?_, (hdel q).trans hsamedel⟩
    have hunit : ({ u with retryDue := false } : State).unit q = x.unit q := h.unit_ne q hq
    rw [hunit]
    exact hsame

/-- The end of a PEEK's delivery (R97). -/
theorem State.finishPeek_eq {st : Status} {n : Nat} (hcurrent : (s.unit p).current = some (s.del p).tag)
    (hkind : (s.tagRec p (s.del p).tag).request.kind.isConsumer = true) : s.finishPeek p S st n =
      (s.deliveryEnded p S { (s.unit p).answering (s.del p).tag (.endMsg (s.del p).tag st n .final) with
        current := none }).lapse p (s.del p).flow := by
  rw [State.finishPeek, State.deliveryEnded_eq hcurrent hkind]

end

end Sys2Proof.Machine

/-! SUPPORT. BEAT_READ_COMPLETION: the counters, the beat, the end of a PEEK, and the data error. -/

namespace Sys2Proof.Machine

section
variable {s : State} {p : PortId} {r : BeatRead} {e0 e1 e2 : ErrorPattern} {S : SlotId}
  {ws : List ((Nat × Nat) × WordReport)}

/-- How many words of a beat read were uncorrectable (R155). -/
def badWords (ws : List ((Nat × Nat) × WordReport)) : Nat := ws.countP (fun w => decide (w.2.outcome = .uncorrectable))

/-- The state when a beat read has ended and its words have been counted (R155). -/
def State.beatCounted (s : State) (ws : List ((Nat × Nat) × WordReport)) : State :=
  s.setMem { s.mem with
    inProgress := none
    corrected := min (s.mem.corrected + ws.countP (fun w => decide (w.2.outcome = .corrected))) 4294967295
    uncorrectableData := min (s.mem.uncorrectableData + badWords ws) 4294967295 }

theorem State.beatCounted_eq : (s.accessEnded.countCorrected (ws.map (fun w => w.2))).setMem
    { (s.accessEnded.countCorrected (ws.map (fun w => w.2))).mem with
      uncorrectableData := saturating (s.accessEnded.countCorrected (ws.map (fun w => w.2))).mem.uncorrectableData
        (badWords ws) } = s.beatCounted ws := by
  unfold State.countCorrected
  rw [List.countP_map]
  rfl

theorem exec_beatReadCompletion (hprogress : s.mem.inProgress = some (.beatRead p r)) :
    exec (.beatReadCompletion e0 e1 e2) s =
      .next (s.accessEnded.beatReported p r (s.readBeat r [e0, e1, e2])).finish := by
  have hexec : exec (.beatReadCompletion e0 e1 e2) s = execBeatReadCompletion e0 e1 e2 s := rfl
  rw [hexec, execBeatReadCompletion, hprogress]
  rfl

theorem State.beatReported_of_abandoned (hlive : r.live = false) :
    s.accessEnded.beatReported p r ws = s.beatCounted ws := by
  unfold State.beatReported
  rw [hlive]
  exact State.beatCounted_eq

theorem State.beatReported_of_live (hlive : r.live = true) (hS : s.servingSlot (s.del p).flow = some S) :
    s.accessEnded.beatReported p r ws = if badWords ws = 0 then (s.beatCounted ws).placeBeat p S (beatBytes r ws)
      else (s.beatCounted ws).dataError p S := by
  have hserving : (s.beatCounted ws).servingSlot ((s.beatCounted ws).del p).flow = some S := hS
  unfold State.beatReported
  dsimp only
  rw [show ws.countP (fun w => decide (w.2.outcome = .uncorrectable)) = badWords ws from rfl, State.beatCounted_eq, hlive,
    hserving]

theorem length_beatBytes : (beatBytes r ws).length = r.bytes.length := List.length_map _

/-- The counters have no part in what is due. -/
theorem State.quiet_beatCounted (hlast : s.lastAccess) : (s.beatCounted ws).quiet = true := hlast

theorem State.noneWaits_of_lastAccess (hlast : s.lastAccess) : ({ s.mem with inProgress := none } : MemController).noneWaits := by
  obtain ⟨-, -, -, haccess⟩ := (State.quiet_iff _).1 hlast
  exact haccess.resolve_left (by simp)

theorem State.noneWaits_beatCounted (hlast : s.lastAccess) : (s.beatCounted ws).mem.noneWaits :=
  State.noneWaits_of_lastAccess hlast

/-- An abandoned read only counts, and may bring the read that waited for it to end (R92, R162). -/
theorem finish_beatCounted (hquiet : s.quiet = true) (hnone : s.mem.noneWaits)
    (hprogress : s.mem.inProgress = some (.beatRead p r)) :
    (s.beatCounted ws).finish.readFollows p (s.del p) (s.beatCounted ws).mem (s.unit p).outbound ∧
      (∀ q, q ≠ p → (s.beatCounted ws).finish.del q = s.del q) ∧
      (s.beatCounted ws).finish = { s with dels := (s.beatCounted ws).finish.dels, mem := (s.beatCounted ws).finish.mem } := by
  obtain ⟨hnoretry, hports, -⟩ := s.quiet_iff.1 hquiet
  have hreads (q : PortId) (hq : q ≠ p) : (s.beatCounted ws).readDue q = false := by
    have hout : (s.beatCounted ws).readOutstanding q = s.readOutstanding q := by
      unfold State.readOutstanding
      rw [hprogress]
      simp [State.beatCounted, hq.symm]
    rw [← (hports q).2, State.readDue, hout]
    rfl
  obtain ⟨hfollows, hdels, hframe⟩ := State.readFollows_finish (s := s.beatCounted ws) (p := p) (fun q => (hports q).1)
    (fun hretry => absurd hretry (by simp [State.beatCounted, hnoretry])) hreads (.inr hnone)
  refine ⟨hfollows, hdels, hframe.trans ?_⟩
  rw [← hnoretry]
  rfl

/-! ## A beat placed, and what follows (R92) -/

/-- A delivery that has placed `n` more bytes (R92). -/
def Delivery.placed (d : Delivery) (n : Nat) : Delivery := { d with sent := d.sent + n, readInFlight := false }

/-- The state when a beat has been placed (R92). -/
def State.beatPlaced (s : State) (p : PortId) (bytes : List Byte) : State :=
  (s.place p (.data bytes)).setDel p ((s.del p).placed bytes.length)

theorem State.placeBeat_eq {bytes : List Byte} : s.placeBeat p S bytes =
    if (s.del p).sent + bytes.length = (s.del p).planned then (s.beatPlaced p bytes).completeDelivery p S
    else s.beatPlaced p bytes := rfl

theorem State.del_beatPlaced {bytes : List Byte} : (s.beatPlaced p bytes).del p = (s.del p).placed bytes.length :=
  State.del_setDel_self _ _ _

theorem State.unit_beatPlaced {bytes : List Byte} : (s.beatPlaced p bytes).unit p = (s.unit p).place (.data bytes) :=
  State.unit_setUnit_self _ _ _

theorem State.beatPlaced_ne {bytes : List Byte} {q : PortId} (h : q ≠ p) :
    (s.beatPlaced p bytes).unit q = s.unit q ∧ (s.beatPlaced p bytes).del q = s.del q :=
  ⟨State.unit_setUnit_ne _ _ h, State.del_setDel_ne _ _ h⟩

theorem State.frame_beatPlaced {bytes : List Byte} : s.beatPlaced p bytes =
    { s with units := (s.beatPlaced p bytes).units, dels := (s.beatPlaced p bytes).dels } := rfl

theorem PortUnit.current_place (u : PortUnit) (m : OutMsg) : (u.place m).current = u.current := by rw [u.inNotices_place m]

theorem PortUnit.consumerQueue_place (u : PortUnit) (m : OutMsg) : (u.place m).consumerQueue = u.consumerQueue := by
  rw [u.inNotices_place m]

/-- A beat that is not the last one may bring the next read (R92). -/
theorem finish_beatPlaced {bytes : List Byte} (hquiet : s.quiet = true) (hcurrent : (s.unit p).current.isSome = true) :
    (s.beatPlaced p bytes).finish.unit p = (s.unit p).place (.data bytes) ∧
      (s.beatPlaced p bytes).finish.readFollows p ((s.del p).placed bytes.length) s.mem
        ((s.beatPlaced p bytes).finish.unit p).outbound ∧
      (∀ q, q ≠ p → (s.beatPlaced p bytes).finish.unit q = s.unit q ∧ (s.beatPlaced p bytes).finish.del q = s.del q) ∧
      (s.beatPlaced p bytes).finish = { s with
        dels := (s.beatPlaced p bytes).finish.dels, units := (s.beatPlaced p bytes).finish.units
        mem := (s.beatPlaced p bytes).finish.mem } := by
  have hnoretry := (s.quiet_iff.1 hquiet).1
  have hdel : (s.beatPlaced p bytes).del p = (s.del p).placed bytes.length := State.del_beatPlaced
  have hunit : (s.beatPlaced p bytes).unit p = (s.unit p).place (.data bytes) := State.unit_beatPlaced
  have hne (q : PortId) (hq : q ≠ p) := State.beatPlaced_ne (s := s) (bytes := bytes) hq
  have hplaced := State.frame_beatPlaced (s := s) (p := p) (bytes := bytes)
  generalize s.beatPlaced p bytes = y at *
  have hhand : y.handOnDue p = false := by
    rw [State.handOnDue, hunit, PortUnit.current_place]
    exact Bool.and_eq_false_iff.2 (.inl (Option.isNone_eq_false_iff.2 hcurrent))
  have hretry : y.retryDue = false := by rw [hplaced, hnoretry]
  obtain ⟨hfollows, hdels, hframe⟩ := State.finish_of_port (p := p) (u := y) hquiet hhand (fun h => absurd h (by simp [hretry]))
    (by rw [hplaced]) fun q hq => ⟨by rw [(hne q hq).1]; exact .refl _, (hne q hq).2⟩
  have hsame : y.finish.units = y.units := by rw [hframe]
  have hunits (q : PortId) : y.finish.unit q = y.unit q := congrArg (fun us : Vector PortUnit 4 => us[q]) hsame
  rw [hdel] at hfollows
  refine ⟨(hunits p).trans hunit, by rw [hunits]; exact hfollows, fun q hq => ⟨(hunits q).trans (hne q hq).1, hdels q hq⟩, ?_⟩
  rw [hframe, hplaced, ← hnoretry]

/-! ## The end of a delivery with its last beat (R94, R97) -/

/-- The status of the END of a delivery that completes (R94, R97). -/
def State.endStatus (s : State) (d : Delivery) : Status := if s.plansToEnd d then .ended else .part

/-- A port unit that has placed an answer on a tag, with its current request ended (R86, R142). -/
def PortUnit.ending (u : PortUnit) (t : TagId) (m : OutMsg) : PortUnit := { u.answering t m with current := none }

theorem PortUnit.sameQuiet_answering {u : PortUnit} {t : TagId} {m : OutMsg} (hm : m.NotBeat) :
    u.SameQuiet (u.answering t m) := PortUnit.SameQuiet.trans (v := u.setTag t _) ⟨rfl, rfl, rfl⟩ (PortUnit.sameQuiet_place _ hm _)

theorem PortUnit.consumerQueue_ending (u : PortUnit) (t : TagId) (m : OutMsg) :
    (u.ending t m).consumerQueue = u.consumerQueue := PortUnit.consumerQueue_place _ _

theorem State.lapseRaised_current (v : PortUnit) :
    s.lapseRaised p { v with current := none } = { s.lapseRaised p v with current := none } := by
  unfold State.lapseRaised
  split
  · exact PortUnit.raise_current _ _ _
  · rfl

/-- A streaming delivery of the current request of port `p`, which a slot serves, with nothing else waiting. -/
structure State.Streams (s : State) (p : PortId) (S : SlotId) : Prop where
  current : (s.unit p).current = some (s.del p).tag
  queue : (s.unit p).consumerQueue = []
  kind : (s.tagRec p (s.del p).tag).request.kind.isConsumer = true
  serving : s.servingSlot (s.del p).flow = some S

theorem State.Streams.beatPlaced {bytes : List Byte} (h : s.Streams p S) : (s.beatPlaced p bytes).Streams p S := by
  have hdel : (s.beatPlaced p bytes).del p = (s.del p).placed bytes.length := State.del_beatPlaced
  have hunit : (s.beatPlaced p bytes).unit p = (s.unit p).place (.data bytes) := State.unit_beatPlaced
  have htag (g : TagId) : (s.beatPlaced p bytes).tagRec p g = s.tagRec p g := by
    rw [State.tagRec, hunit, PortUnit.tag, PortUnit.tags_place]
    rfl
  refine ⟨?_, ?_, ?_, ?_⟩
  · rw [hdel, hunit, PortUnit.current_place]
    exact h.current
  · rw [hunit, PortUnit.consumerQueue_place]
    exact h.queue
  · rw [hdel, htag]
    exact h.kind
  · rw [hdel]
    exact h.serving

end

/-! ## What is common to the ends of a delivery -/

section
variable {y m : State} {p : PortId} {S : SlotId} {v : PortUnit}

/-- Port `p`'s delivery from slot `S` has ended, from `y` to `m`, its port unit being `v`; the hold is looked at next
(R94, R97, R102). -/
structure State.DeliveryDone (y m : State) (p : PortId) (S : SlotId) (v : PortUnit) : Prop where
  unit_self : m.unit p = v
  idle : (m.del p).state = .idle
  ne : ∀ q, q ≠ p → m.unit q = y.unit q ∧ m.del q = y.del q
  slot_self : m.slot S = { y.slot S with
    context := (m.slot S).context, dirty := (m.slot S).dirty, ref := true, delivering := false }
  slot_ne : ∀ T, T ≠ S → m.slot T = y.slot T
  residency : (m.flow (y.del p).flow).residency = (y.flow (y.del p).flow).residency
  frame : m = { y with
    slots := m.slots, flows := m.flows, lists := m.lists, dels := m.dels, units := m.units, pool := m.pool
    retryDue := true }

theorem State.DeliveryDone.serving (h : y.DeliveryDone m p S v) (hS : y.servingSlot (y.del p).flow = some S) :
    m.servingSlot (y.del p).flow = some S := by
  obtain ⟨hres, hstate, hflow⟩ := State.servingSlot_eq_some_iff.1 hS
  refine State.servingSlot_eq_some_iff.2 ⟨h.residency.trans hres, ?_, ?_⟩
  · rw [h.slot_self]
    exact hstate
  · rw [h.slot_self]
    exact hflow

/-- The hold that lapses with the delivery. -/
theorem State.DeliveryDone.endsHold (h : y.DeliveryDone m p S v) (hS : y.servingSlot (y.del p).flow = some S)
    (hparked : y.lapses p = true → (y.slot S).parkedList = []) : y.EndsHold m (m.lapse p (y.del p).flow) p S := by
  refine State.endsHold_lapse ?_ ?_ ?_ ?_ (h.serving hS) fun hlapses => ?_
  · rw [h.frame]
  · rw [h.frame]
  · rw [h.slot_self]
  · rw [h.frame]
  · rw [h.slot_self]
    exact hparked hlapses

/-- The end of a delivery leaves nothing due but a retry (R62, R94). -/
theorem State.DeliveryDone.quiet_done {u : State} (h : y.DeliveryDone m p S v) (hends : y.EndsHold m u p S)
    (hquiet : y.quiet = true) (hqueue : v.consumerQueue = []) : ({ u with retryDue := false } : State).quiet = true := by
  have hmem : m.mem = y.mem := by rw [h.frame]
  obtain ⟨-, -, -, haccess⟩ := y.quiet_iff.1 hquiet
  refine hends.quiet_done hquiet h.idle (by rw [h.unit_self, hqueue]) ?_ (fun q _ => ?_) fun q hq => ?_
  · rw [hmem]
    exact haccess.imp_left Option.isSome_iff_ne_none.1
  · rw [State.readOutstanding, hmem]
    rfl
  · obtain ⟨hunit, hdel⟩ := h.ne q hq
    rw [hunit]
    exact ⟨.refl _, hdel⟩

theorem State.DeliveryDone.noWaits {u : State} (h : y.DeliveryDone m p S v) (hends : y.EndsHold m u p S)
    (hwaits : y.noWaits) : u.noWaits := by
  have hframe := h.frame
  rw [hends.frame, hframe]
  exact hwaits

/-- What the end of a delivery leaves, where its flow does not end with it. -/
theorem State.DeliveryDone.result (h : y.DeliveryDone m p S v) (hS : y.servingSlot (y.del p).flow = some S)
    (hparked : y.lapses p = true → (y.slot S).parkedList = []) (hquiet : y.quiet = true) (hwaits : y.noWaits)
    (hqueue : v.consumerQueue = []) :
    ∃ u, (m.lapse p (y.del p).flow).finish = u ∧ (u.del p).state = .idle ∧ u.unit p = y.lapseRaised p v ∧
      y.lapsesTo u p S ∧ u.slots = m.slots ∧ u.flows = m.flows ∧ u.lists = m.lists ∧ u.pool = m.pool ∧
      (∀ q, q ≠ p → u.unit q = y.unit q ∧ u.del q = y.del q) ∧
      u = { y with
        slots := u.slots, dels := u.dels, units := u.units, flows := u.flows, lists := u.lists, pool := u.pool
        holds := u.holds, pinnedOrHeld := u.pinnedOrHeld } := by
  have hends := h.endsHold hS hparked
  have hwaitsu := h.noWaits hends hwaits
  have hfinish := State.finish_of_retry (h.quiet_done hends hquiet hqueue) hwaitsu.1 hwaitsu.2
  have hframe := hends.frame
  have hmframe := h.frame
  have hnoretry := (y.quiet_iff.1 hquiet).1
  generalize m.lapse p (y.del p).flow = u at *
  have hdels : u.dels = m.dels := by rw [hframe]
  have hdel (q : PortId) : u.del q = m.del q := congrArg (fun ds : Vector Delivery 4 => ds[q]) hdels
  refine ⟨_, hfinish, ?_, ?_, hends.lapsesTo, ?_, ?_, ?_, ?_, fun q hq => ⟨?_, ?_⟩, ?_⟩
  · exact (congrArg Delivery.state (hdel p)).trans h.idle
  · exact hends.unit_self.trans (by rw [h.unit_self])
  · rw [hframe]
  · rw [hframe]
  · rw [hframe]
  · rw [hframe]
  · exact (hends.unit_ne q hq).trans (h.ne q hq).1
  · exact (hdel q).trans (h.ne q hq).2
  · rw [hframe, hmframe, ← hnoretry]

end

end Sys2Proof.Machine

/-! SUPPORT. The ends of a delivery with its last beat and by a data error; BEAT_READ_COMPLETION. -/

namespace Sys2Proof.Machine

section
variable {y x m u : State} {p : PortId} {S : SlotId} {v : PortUnit} {f : FlowId} {e : FlowEntry}

/-- The END of a delivery, in a state `x` that differs from `y` at port `p` alone. -/
theorem State.deliveryDone_ended (hframe : x = { y with units := x.units, dels := x.dels })
    (hne : ∀ q, q ≠ p → x.unit q = y.unit q ∧ x.del q = y.del q) (v : PortUnit) :
    y.DeliveryDone (x.deliveryEnded p S v) p S v := by
  have hslots (T : SlotId) : x.slot T = y.slot T := by rw [State.slot, hframe]; rfl
  have hflows : x.flows = y.flows := by rw [hframe]
  refine ⟨State.unit_setUnit_self _ _ _, ?_, fun q hq => ⟨?_, ?_⟩, ?_, fun T hT => ?_, ?_, ?_⟩
  · exact congrArg Delivery.state (State.del_setDel_self _ _ _)
  · exact (State.unit_setUnit_ne _ _ hq).trans (hne q hq).1
  · exact (State.del_setDel_ne _ _ hq).trans (hne q hq).2
  · rw [show (x.deliveryEnded p S v).slot S = { x.slot S with ref := true, delivering := false } from
      State.slot_setSlot_self _ _ _, hslots]
  · exact (State.slot_setSlot_ne _ _ hT).trans (hslots T)
  · exact congrArg (fun fs : List (Nat × FlowEntry) => (State.flow { y with flows := fs } (y.del p).flow).residency) hflows
  · rw [State.deliveryEnded, hframe]
    rfl

theorem State.DeliveryDone.raise (h : y.DeliveryDone m p S v) (n : Notice) : y.DeliveryDone (m.raise p n) p S (v.raise n) := by
  refine ⟨?_, h.idle, fun q hq => ⟨?_, (h.ne q hq).2⟩, h.slot_self, h.slot_ne, h.residency, ?_⟩
  · exact (State.unit_setUnit_self _ _ _).trans (by rw [h.unit_self])
  · exact (State.unit_setUnit_ne _ _ hq).trans (h.ne q hq).1
  · have hframe := h.frame
    rw [State.raise, hframe]
    rfl

theorem State.DeliveryDone.setFlow (h : y.DeliveryDone m p S v) (hres : e.residency = (m.flow f).residency) :
    y.DeliveryDone (m.setFlow f e) p S v := by
  have hframe := h.frame
  refine ⟨h.unit_self, h.idle, h.ne, h.slot_self, h.slot_ne, ?_, by rw [hframe]; rfl⟩
  rw [← h.residency, State.flow_setFlow]
  split
  · next hf => rw [hres, hf]
  · rfl

theorem State.DeliveryDone.relists (h : y.DeliveryDone m p S v) (hrelists : m.Relists u f e) (hunits : u.units = m.units)
    (hres : (u.flow (y.del p).flow).residency = (m.flow (y.del p).flow).residency) : y.DeliveryDone u p S v := by
  have hframe := hrelists.frame
  unfold State.InRelist at hframe
  have hunit (q : PortId) : u.unit q = m.unit q := congrArg (fun us : Vector PortUnit 4 => us[q]) hunits
  have hdels : u.dels = m.dels := by rw [hframe]
  have hdel (q : PortId) : u.del q = m.del q := congrArg (fun ds : Vector Delivery 4 => ds[q]) hdels
  have hslots : u.slots = m.slots := by rw [hframe]
  have hslot (T : SlotId) : u.slot T = m.slot T := congrArg (fun vs : Vector Slot 64 => vs[T]) hslots
  refine ⟨(hunit p).trans h.unit_self, (congrArg Delivery.state (hdel p)).trans h.idle,
    fun q hq => ⟨(hunit q).trans (h.ne q hq).1, (hdel q).trans (h.ne q hq).2⟩, ?_, fun T hT => (hslot T).trans (h.slot_ne T hT),
    hres.trans h.residency, ?_⟩
  · rw [hslot, h.slot_self]
  · have hmframe := h.frame
    rw [hframe, hmframe]

/-- The end of a PEEK's delivery (R97). -/
theorem State.Streams.finishPeek (h : x.Streams p S) (st : Status) (n : Nat) : x.finishPeek p S st n =
    (x.deliveryEnded p S ((x.unit p).ending (x.del p).tag (.endMsg (x.del p).tag st n .final))).lapse p (x.del p).flow :=
  State.finishPeek_eq h.current h.kind

/-- The state when a data error has ended a delivery, but for the hold that lapses with it (R20, R102). -/
def State.dataErred (y : State) (p : PortId) (S : SlotId) : State :=
  (((y.deliveryEnded p S ((y.unit p).ending (y.del p).tag (.endMsg (y.del p).tag .dataErr (y.del p).sent .final))).raise p
    (.halted (y.del p).flow .dataErr)).setFlow (y.del p).flow
      { y.flow (y.del p).flow with halt := some .dataErr, ready := false }).relist (y.del p).flow

theorem State.Streams.dataError (h : y.Streams p S) (hconsumer : (y.flow (y.del p).flow).consumer = p) :
    y.dataError p S = (y.dataErred p S).lapse p (y.del p).flow := by
  obtain ⟨hres, -⟩ := State.servingSlot_eq_some_iff.1 h.serving
  have hended := State.deliveryEnded_eq (s := y) (S := S) (st := .dataErr) (n := (y.del p).sent) h.current h.kind
  have hne : ({ y.flow (y.del p).flow with halt := some .dataErr } : FlowEntry) ≠ .initial :=
    FlowEntry.ne_initial_of_residency hres
  unfold State.dataError
  dsimp only
  rw [hended]
  have hready (z : State) (hz : z.flow (y.del p).flow = y.flow (y.del p).flow) :
      ((z.setFlow (y.del p).flow { z.flow (y.del p).flow with halt := some .dataErr }).raise
        ((z.setFlow (y.del p).flow { z.flow (y.del p).flow with halt := some .dataErr }).flow (y.del p).flow).consumer
        (.halted (y.del p).flow .dataErr)).setReady (y.del p).flow false =
      ((z.raise p (.halted (y.del p).flow .dataErr)).setFlow (y.del p).flow
        { y.flow (y.del p).flow with halt := some .dataErr, ready := false }).relist (y.del p).flow := by
    have hraise : (z.setFlow (y.del p).flow { y.flow (y.del p).flow with halt := some .dataErr }).raise p
        (.halted (y.del p).flow .dataErr) = (z.raise p (.halted (y.del p).flow .dataErr)).setFlow (y.del p).flow
          { y.flow (y.del p).flow with halt := some .dataErr } := rfl
    rw [hz, State.flow_setFlow_self, hconsumer, hraise, State.setReady, State.flow_setFlow_self,
      State.setFlow_setFlow _ _ hne]
  exact congrArg (State.lapse · p (y.del p).flow) (hready _ rfl)

theorem State.deliveryDone_dataErred (y : State) (p : PortId) (S : SlotId) : y.DeliveryDone (y.dataErred p S) p S
    (((y.unit p).ending (y.del p).tag (.endMsg (y.del p).tag .dataErr (y.del p).sent .final)).raise
      (.halted (y.del p).flow .dataErr)) := by
  have hdone := (State.deliveryDone_ended (x := y) (y := y) (p := p) (S := S) rfl (fun _ _ => ⟨rfl, rfl⟩)
    ((y.unit p).ending (y.del p).tag (.endMsg (y.del p).tag .dataErr (y.del p).sent .final))).raise
      (.halted (y.del p).flow .dataErr)
  have hrelists := ((y.deliveryEnded p S ((y.unit p).ending (y.del p).tag (.endMsg (y.del p).tag .dataErr
    (y.del p).sent .final))).raise p (.halted (y.del p).flow .dataErr)).relists (y.del p).flow
      { y.flow (y.del p).flow with halt := some .dataErr, ready := false }
  refine hdone.relists hrelists (hrelists.units (.inl rfl)) ?_
  exact (congrArg FlowEntry.residency hrelists.flow_self).trans rfl

/-- The flow that a data error has halted (R20, R102). -/
theorem State.flow_dataErred (y : State) (p : PortId) (S : SlotId) :
    (y.dataErred p S).flow (y.del p).flow = { y.flow (y.del p).flow with
      halt := some .dataErr, ready := false, listed := false
      prev := ((y.dataErred p S).flow (y.del p).flow).prev, next := ((y.dataErred p S).flow (y.del p).flow).next } := by
  have hself := State.flow_relist_self (((y.deliveryEnded p S ((y.unit p).ending (y.del p).tag
    (.endMsg (y.del p).tag .dataErr (y.del p).sent .final))).raise p (.halted (y.del p).flow .dataErr)).setFlow
      (y.del p).flow { y.flow (y.del p).flow with halt := some .dataErr, ready := false }) (y.del p).flow
  rw [State.flow_setFlow_self] at hself
  exact hself

theorem State.slots_dataErred (y : State) (p : PortId) (S : SlotId) : (y.dataErred p S).slots =
    (y.setSlot S { y.slot S with ref := true, delivering := false }).slots := by
  rw [State.dataErred, State.slots_relist]
  rfl

theorem State.pool_dataErred (y : State) (p : PortId) (S : SlotId) : (y.dataErred p S).pool = y.pool := by
  rw [State.dataErred, State.inRelist_relist]
  rfl

end

section
variable {y : State} {p : PortId} {S : SlotId}

theorem State.completeDelivery_of_peek (h : (y.del p).kind = .peek) :
    y.completeDelivery p S = y.finishPeek p S (y.endStatus (y.del p)) (y.del p).planned := by
  unfold State.completeDelivery
  dsimp only
  rw [h]
  rfl

theorem State.completeDelivery_of_take (h : (y.del p).kind = .take) :
    y.completeDelivery p S = y.finishTake p S (y.endStatus (y.del p)) (y.del p).planned := by
  unfold State.completeDelivery
  dsimp only
  rw [h]
  rfl

theorem State.endStatus_eq (s : State) (d : Delivery) : s.endStatus d =
    if s.pool.fills (s.pool.unitFrom 128 d.startSeg) - d.startOff ≤ d.planned then .ended else .part := by
  simp [State.endStatus, State.plansToEnd]

theorem PortUnit.answering_place (v : PortUnit) (t : TagId) (m m' : OutMsg) : (v.place m).answering t m' =
    ((v.place m).setTag t { v.tag t with phase := .responding }).place m' := by
  rw [PortUnit.answering, PortUnit.tag, PortUnit.tags_place]
  rfl

theorem State.endStatus_beatPlaced {bytes : List Byte} (n : Nat) :
    (y.beatPlaced p bytes).endStatus ((y.del p).placed n) = y.endStatus (y.del p) := rfl

/-- What the end of a PEEK's delivery leaves, in a state `x` that differs from a quiet one at port `p` alone (R97, R129). -/
theorem State.Streams.peekEnds {x : State} (h : x.Streams p S) (hframe : x = { y with units := x.units, dels := x.dels })
    (hne : ∀ q, q ≠ p → x.unit q = y.unit q ∧ x.del q = y.del q) (hflow : (x.del p).flow = (y.del p).flow)
    (hS : y.servingSlot (y.del p).flow = some S) (hquiet : y.quiet = true) (hwaits : y.noWaits)
    (hparked : y.lapses p = true → (y.slot S).parkedList = []) (st : Status) (n : Nat) :
    ∃ u, (x.finishPeek p S st n).finish = u ∧ (u.del p).state = .idle ∧
      u.unit p = { y.lapseRaised p ((x.unit p).answering (x.del p).tag (.endMsg (x.del p).tag st n .final)) with
        current := none } ∧
      y.lapsesTo u p S ∧ u.slots = (y.setSlot S { y.slot S with ref := true, delivering := false }).slots ∧
      (∀ q, q ≠ p → u.unit q = y.unit q ∧ u.del q = y.del q) ∧
      u = { y with
        slots := u.slots, dels := u.dels, units := u.units, holds := u.holds, pinnedOrHeld := u.pinnedOrHeld } := by
  have hdone := State.deliveryDone_ended (S := S) hframe hne
    ((x.unit p).ending (x.del p).tag (.endMsg (x.del p).tag st n .final))
  obtain ⟨u, hu, hidle, hunit, hlapses, hslotsu, hflowsu, hlistsu, hpoolu, hneu, hframeu⟩ := hdone.result hS hparked hquiet hwaits
    ((PortUnit.consumerQueue_ending _ _ _).trans h.queue)
  have hslots : x.slots = y.slots := by rw [hframe]
  have hflows : x.flows = y.flows := by rw [hframe]
  have hlists : x.lists = y.lists := by rw [hframe]
  have hpool : x.pool = y.pool := by rw [hframe]
  rw [h.finishPeek, hflow]
  refine ⟨u, hu, hidle, hunit.trans (State.lapseRaised_current _), hlapses, hslotsu.trans ?_, hneu, ?_⟩
  · rw [State.deliveryEnded, State.slot, State.setSlot, State.setSlot, State.slot, ← hslots]
    rfl
  · have hflowsu' : u.flows = y.flows := hflowsu.trans hflows
    have hlistsu' : u.lists = y.lists := hlistsu.trans hlists
    have hpoolu' : u.pool = y.pool := hpoolu.trans hpool
    rw [hframeu, hflowsu', hlistsu', hpoolu']

/-- What the last beat of a PEEK leaves (R97, R129). -/
theorem State.Streams.lastBeatOfPeek {bytes : List Byte} (h : y.Streams p S) (hquiet : y.quiet = true) (hwaits : y.noWaits)
    (hpeek : (y.del p).kind = .peek) (hparked : y.lapses p = true → (y.slot S).parkedList = []) :
    ∃ u, ((y.beatPlaced p bytes).completeDelivery p S).finish = u ∧ (u.del p).state = .idle ∧
      u.unit p = { y.lapseRaised p (((y.unit p).place (.data bytes)).answering (y.del p).tag
        (.endMsg (y.del p).tag (y.endStatus (y.del p)) (y.del p).planned .final)) with current := none } ∧
      y.lapsesTo u p S ∧ u.slots = (y.setSlot S { y.slot S with ref := true, delivering := false }).slots ∧
      (∀ q, q ≠ p → u.unit q = y.unit q ∧ u.del q = y.del q) ∧
      u = { y with
        slots := u.slots, dels := u.dels, units := u.units, holds := u.holds, pinnedOrHeld := u.pinnedOrHeld } := by
  have hdel : (y.beatPlaced p bytes).del p = (y.del p).placed bytes.length := State.del_beatPlaced
  have hends := (h.beatPlaced (bytes := bytes)).peekEnds State.frame_beatPlaced (fun q hq => State.beatPlaced_ne hq)
    ((congrArg (fun d : Delivery => d.flow) hdel).trans rfl) h.serving hquiet hwaits hparked (y.endStatus (y.del p)) (y.del p).planned
  rw [hdel, State.unit_beatPlaced] at hends
  rw [State.completeDelivery_of_peek (by rw [hdel]; exact hpeek), hdel]
  exact hends

end

/-- Settles O53: the counters, then the beat, the end of a PEEK, or the data error. -/
theorem beatReadPlacesTheBeat : Obligations.BeatReadPlacesTheBeat := by
  unfold Obligations.BeatReadPlacesTheBeat
  constructor
  · intro s p r e0 e1 e2 hquiet hnone hprogress hlive ws counted
    have hexec := exec_beatReadCompletion (e0 := e0) (e1 := e1) (e2 := e2) hprogress
    rw [State.beatReported_of_abandoned hlive] at hexec
    exact ⟨_, hexec, finish_beatCounted hquiet hnone hprogress⟩
  intro s p r e0 e1 e2 hlast hwaits hprogress ws bad counted d
  have hexec := exec_beatReadCompletion (e0 := e0) (e1 := e1) (e2 := e2) hprogress
  have hquiet : (s.beatCounted ws).quiet = true := State.quiet_beatCounted hlast
  refine ⟨fun hlive => ?_, fun hlive hstate hflight hcurrent hqueue hkind S hS => ?_⟩
  · rw [hexec, State.beatReported_of_abandoned hlive, State.finish_of_quiet hquiet]
    rfl
  have hstreams : (s.beatCounted ws).Streams p S :=
    ⟨hcurrent, hqueue, by obtain h | h := hkind <;> exact (congrArg ReqKind.isConsumer h).trans rfl, hS⟩
  rw [State.beatReported_of_live hlive hS] at hexec
  have hlength : (beatBytes r ws).length = r.bytes.length := length_beatBytes
  refine ⟨fun hbad hmore => ?_, fun hbad hpeek hlastBeat hparked => ?_, fun hbad hconsumer hparked => ?_⟩
  · have hnotLast : ¬ ((s.beatCounted ws).del p).sent + (beatBytes r ws).length = ((s.beatCounted ws).del p).planned := by
      rw [hlength]
      exact Nat.ne_of_lt hmore
    rw [if_pos (show badWords (s.readBeat r [e0, e1, e2]) = 0 from hbad), State.placeBeat_eq, if_neg hnotLast] at hexec
    obtain ⟨hunit, hfollows, hne, hframe⟩ := finish_beatPlaced (p := p) (bytes := beatBytes r ws) hquiet
      (by rw [hstreams.current]; rfl)
    rw [hlength] at hfollows
    exact ⟨_, hexec, hunit, hfollows, hne, hframe⟩
  · have hisLast : ((s.beatCounted ws).del p).sent + (beatBytes r ws).length = ((s.beatCounted ws).del p).planned := by
      rw [hlength]
      exact hlastBeat
    rw [if_pos (show badWords (s.readBeat r [e0, e1, e2]) = 0 from hbad), State.placeBeat_eq, if_pos hisLast] at hexec
    obtain ⟨u, hu, hidle, hunit, hlapses, hslots, hne, hframe⟩ :=
      hstreams.lastBeatOfPeek (bytes := beatBytes r ws) hquiet hwaits hpeek hparked
    rw [PortUnit.answering_place, State.endStatus_eq] at hunit
    exact ⟨u, hexec.trans (congrArg Host.Outcome.next hu), hidle, hunit, hlapses, hslots, hne, hframe⟩
  · rw [if_neg (show ¬ badWords (s.readBeat r [e0, e1, e2]) = 0 from Nat.ne_of_gt hbad), hstreams.dataError hconsumer] at hexec
    obtain ⟨u, hu, hidle, hunit, hlapses, hslots, hflows, hlists, hpool, hne, hframe⟩ :=
      (State.deliveryDone_dataErred (s.beatCounted ws) p S).result hS hparked hquiet hwaits
        ((PortUnit.sameQuiet_raise _ _).1.trans ((PortUnit.consumerQueue_ending _ _ _).trans hqueue))
    have hflow := (s.beatCounted ws).flow_dataErred p S
    have hsame : u.flow d.flow = ((s.beatCounted ws).dataErred p S).flow d.flow :=
      congrArg (fun fs : List (Nat × FlowEntry) => Table.get FlowEntry.initial fs d.flow.val) hflows
    refine ⟨u, hexec.trans (congrArg Host.Outcome.next hu), hidle, ?_, hlapses, ?_, ?_, hne, ?_⟩
    · rw [hunit, PortUnit.ending, PortUnit.raise_current, State.lapseRaised_current]
      rfl
    · rw [hslots, State.slots_dataErred]
      rfl
    · rw [hsame]
      exact ⟨congrArg FlowEntry.halt hflow, congrArg FlowEntry.ready hflow, congrArg FlowEntry.listed hflow,
        (congrArg (fun e : FlowEntry => e.dispatched) hflow).trans rfl,
        (congrArg (fun e : FlowEntry => e.segCount) hflow).trans rfl⟩
    · have hpool' : u.pool = s.pool := hpool.trans (State.pool_dataErred ..)
      rw [hframe, hpool']
      rfl

end Sys2Proof.Machine

/-! SUPPORT. The walk of a commit, and the end of a TAKE's delivery (R94 to R96, R129). -/

namespace Sys2Proof.Machine

/-! ## The walk of a commit (R95) -/

section
variable {P : Pool} {after seg first off into c n next : Nat} {before rest : List Nat}

theorem Pool.chained_cons {a b : Nat} (h : P.chained after (a :: rest)) (hb : rest.head? = some b) :
    (P.link a).next = b ∧ P.chained after rest := by
  cases rest with
  | nil => cases hb
  | cons x xs =>
    obtain rfl : x = b := Option.some.inj hb
    exact h.2

theorem Pool.fills_cons (P : Pool) (a : Nat) (l : List Nat) : P.fills (a :: l) = (P.link a).fill + P.fills l := by
  simp [Pool.fills]

/-- One step of the walk through a segment that is not the unit's last. -/
theorem Pool.commitWalk_through (h : (P.link seg).fill - off ≤ c) (hlast : (P.link seg).last = false) :
    P.commitWalk (n + 1) seg off c = (seg :: (P.commitWalk n (P.link seg).next 0 (c - ((P.link seg).fill - off))).1,
      (P.commitWalk n (P.link seg).next 0 (c - ((P.link seg).fill - off))).2) := by
  rw [Pool.commitWalk, if_pos h, hlast]
  rfl

/-- The walk that stops inside a segment. -/
theorem Pool.commitWalk_into (hchain : P.chained next (before ++ seg :: rest)) (hlen : before.length < n)
    (hnotLast : ∀ m ∈ before, (P.link m).last = false) (hinto : into < (P.link seg).fill)
    (hfirst : (before ++ seg :: rest).head? = some first) (hoff : off ≤ (P.link first).fill)
    (hc : c + off = P.fills before + into) : P.commitWalk n first off c = (before, some (seg, into)) := by
  induction before generalizing n first off c with
  | nil =>
    obtain rfl : seg = first := Option.some.inj hfirst
    obtain ⟨n, rfl⟩ : ∃ m, n = m + 1 := ⟨n - 1, by simp at hlen; omega⟩
    have hsum : c + off = into := by simpa [Pool.fills] using hc
    rw [Pool.commitWalk]
    dsimp only
    rw [if_neg (by omega), ← hsum, Nat.add_comm]
  | cons a before ih =>
    obtain rfl : a = first := Option.some.inj hfirst
    obtain ⟨n, rfl⟩ : ∃ m, n = m + 1 := ⟨n - 1, by simp at hlen; omega⟩
    obtain ⟨b, hb⟩ : ∃ b, (before ++ seg :: rest).head? = some b := by cases before <;> exact ⟨_, rfl⟩
    obtain ⟨hnext, hchain'⟩ := Pool.chained_cons hchain hb
    rw [Pool.fills_cons] at hc
    have hwalk := ih (n := n) (off := 0) (c := c - ((P.link a).fill - off)) hchain' (by simpa using hlen)
      (fun m hm => hnotLast m (List.mem_cons_of_mem _ hm)) hb (Nat.zero_le _) (by omega)
    rw [Pool.commitWalk_through (by omega) (hnotLast a List.mem_cons_self), hnext, hwalk]

/-- The walk that takes the rest of the unit. -/
theorem Pool.commitWalk_whole (hchain : P.chained next (before ++ [seg])) (hlen : before.length < n)
    (hnotLast : ∀ m ∈ before, (P.link m).last = false) (hlast : (P.link seg).last = true)
    (hfirst : (before ++ [seg]).head? = some first) (hoff : off ≤ (P.link first).fill)
    (hc : c + off = P.fills (before ++ [seg])) : P.commitWalk n first off c = (before ++ [seg], none) := by
  induction before generalizing n first off c with
  | nil =>
    obtain rfl : seg = first := Option.some.inj hfirst
    obtain ⟨n, rfl⟩ : ∃ m, n = m + 1 := ⟨n - 1, by simp at hlen; omega⟩
    have hsum : c + off = (P.link seg).fill := by simpa [Pool.fills] using hc
    rw [Pool.commitWalk, if_pos (by omega), if_pos hlast]
    rfl
  | cons a before ih =>
    obtain rfl : a = first := Option.some.inj hfirst
    obtain ⟨n, rfl⟩ : ∃ m, n = m + 1 := ⟨n - 1, by simp at hlen; omega⟩
    obtain ⟨b, hb⟩ : ∃ b, (before ++ [seg]).head? = some b := by cases before <;> exact ⟨_, rfl⟩
    obtain ⟨hnext, hchain'⟩ := Pool.chained_cons hchain hb
    rw [List.cons_append, Pool.fills_cons] at hc
    have hwalk := ih (n := n) (off := 0) (c := c - ((P.link a).fill - off)) hchain' (by simpa using hlen)
      (fun m hm => hnotLast m (List.mem_cons_of_mem _ hm)) hb (Nat.zero_le _) (by omega)
    rw [Pool.commitWalk_through (by omega) (hnotLast a List.mem_cons_self), hnext, hwalk]
    rfl

end

/-! ## The commit (R95) -/

section
variable {y x m : State} {p : PortId} {S : SlotId} {v : PortUnit} {f : FlowId} {d : Delivery} {c : Nat}

/-- The segments that the commit of `c` bytes walks over, and where it stops (R95). -/
def State.walk (s : State) (d : Delivery) (c : Nat) : List Nat × Option (Nat × Nat) :=
  s.pool.commitWalk 128 d.startSeg d.startOff c

theorem State.commit_none : m.commit f S d 0 = m := rfl

theorem State.commit_some (hc : 1 ≤ c) : m.commit f S d c =
    ((m.setSlot S { m.slot S with
      context := (m.slot S).context.committed c (m.pool.after (m.walk d c).1) (m.walk d c).2, dirty := true }).setFlow f
        { m.flow f with segCount := (m.flow f).segCount - (m.walk d c).1.length }).setPool
          (m.poolReleasing (m.walk d c).1) := by
  unfold State.commit
  dsimp only
  rw [if_neg (by omega), State.releaseSegs_eq]
  rfl

theorem State.DeliveryDone.commit (h : y.DeliveryDone m p S v) : y.DeliveryDone (m.commit f S d c) p S v := by
  obtain rfl | hc := Nat.eq_zero_or_pos c
  · exact h
  rw [State.commit_some hc]
  have hslot := h.slot_self
  have hframe := h.frame
  refine ⟨h.unit_self, h.idle, h.ne, ?_, fun T hT => (State.slot_setSlot_ne _ _ hT).trans (h.slot_ne T hT), ?_, ?_⟩
  · have hself : ((m.setSlot S { m.slot S with
        context := (m.slot S).context.committed c (m.pool.after (m.walk d c).1) (m.walk d c).2
        dirty := true }).slot S) = _ := State.slot_setSlot_self _ _ _
    rw [State.slot_setPool, State.slot_setFlow, hself, hslot]
  · rw [← h.residency]
    refine (congrArg (fun e : FlowEntry => e.residency) (State.flow_setFlow _ f (y.del p).flow _)).trans ?_
    split
    · next hf => rw [hf]
    · rfl
  · rw [hframe]
    rfl

/-- How many segments the commit of `c` bytes releases (R95). -/
def State.released (s : State) (d : Delivery) (c : Nat) : Nat := if c = 0 then 0 else (s.walk d c).1.length

theorem State.flow_commit : (m.commit f S d c).flow f =
    { m.flow f with segCount := (m.flow f).segCount - m.released d c } := by
  obtain rfl | hc := Nat.eq_zero_or_pos c
  · rfl
  · rw [State.commit_some hc, State.released, if_neg (by omega)]
    exact State.flow_setFlow_self _ _ _

theorem State.slot_commit (hc : 1 ≤ c) : (m.commit f S d c).slot S = { m.slot S with
    context := (m.slot S).context.committed c (m.pool.after (m.walk d c).1) (m.walk d c).2, dirty := true } := by
  rw [State.commit_some hc]
  exact State.slot_setSlot_self _ _ _

theorem State.pool_commit (hc : 1 ≤ c) : (m.commit f S d c).pool = m.poolReleasing (m.walk d c).1 := by
  rw [State.commit_some hc]
  rfl

/-- The state when a TAKE's delivery has ended with the commit of `c` bytes, but for the hold that lapses with it and the
drain end test (R94 to R96). -/
def State.takeEnded (x : State) (p : PortId) (S : SlotId) (st : Status) (c : Nat) : State :=
  ((x.deliveryEnded p S ((x.unit p).ending (x.del p).tag (.endMsg (x.del p).tag st c .final))).commit (x.del p).flow S
    (x.del p) c).undispatchAndReevaluate (x.del p).flow S

theorem State.Streams.finishTake (h : x.Streams p S) (st : Status) (c : Nat) : x.finishTake p S st c =
    if x.commitRemoves (x.del p) c then ((x.takeEnded p S st c).lapse p (x.del p).flow).drainTest (x.del p).flow
    else (x.takeEnded p S st c).lapse p (x.del p).flow := by
  have hended := State.deliveryEnded_eq (s := x) (S := S) (st := st) (n := c) h.current h.kind
  unfold State.finishTake
  dsimp only
  rw [hended]
  rfl

/-- What the end of a TAKE's delivery `d` with the commit of `c` bytes leaves, from `y` to `m`, before the hold is looked
at (R94 to R96). -/
structure State.TakeDone (y m : State) (p : PortId) (S : SlotId) (d : Delivery) (c : Nat) (v : PortUnit) : Prop where
  done : y.DeliveryDone m p S v
  commits : 1 ≤ c → y.commits m S d c
  none : c = 0 → m.slots = (y.setSlot S { y.slot S with ref := true, delivering := false }).slots ∧ m.pool = y.pool
  flow_self : m.flow d.flow = { y.flow d.flow with
    segCount := (y.flow d.flow).segCount - y.released d c, dispatched := false
    ready := (m.flow d.flow).ready, listed := (m.flow d.flow).listed, prev := (m.flow d.flow).prev
    next := (m.flow d.flow).next }

/-- A TAKE's commit reads the flow's slot and the pool, which the end of the delivery has left. -/
theorem State.commits_of_ended {ed k : State} (hc : 1 ≤ c)
    (hslot : ed.slot S = { y.slot S with ref := true, delivering := false }) (hpool : ed.pool = y.pool)
    (hconfig : ed.config = y.config) (hflow : ed.flow d.flow = y.flow d.flow)
    (hkslot : k.slot S = (ed.commit d.flow S d c).slot S) (hkpool : k.pool = (ed.commit d.flow S d c).pool)
    (hkflow : (k.flow d.flow).segCount = ((ed.commit d.flow S d c).flow d.flow).segCount)
    (hdispatched : (k.flow d.flow).dispatched = false) : y.commits k S d c := by
  have hwalk : ed.walk d c = y.walk d c := by rw [State.walk, hpool]; rfl
  rw [State.slot_commit hc, hslot, hpool, hwalk] at hkslot
  have hreleasing : ed.poolReleasing (y.walk d c).1 = y.poolReleasing (y.walk d c).1 := by
    rw [State.poolReleasing, hpool, hconfig]
    rfl
  rw [State.pool_commit hc, hwalk, hreleasing] at hkpool
  rw [State.flow_commit, hflow, State.released, if_neg (by omega), hwalk] at hkflow
  refine ⟨fun seg into hstop => ?_, fun hwhole => ?_, ⟨?_, ?_, ?_⟩, ⟨hkflow, hdispatched⟩, hkpool⟩
  · rw [hkslot, show (y.walk d c).2 = some (seg, into) from hstop]
    rfl
  · rw [hkslot, show (y.walk d c).2 = none from hwhole]
    rfl
  · rw [hkslot]
  · rw [hkslot]
  · rw [hkslot]

/-- The commit, and the re-evaluation behind it, where the delivery has ended and READY is not armed (R95, R96). -/
theorem State.takeDone_of_ended {ed : State} (hended : y.DeliveryDone ed p S v)
    (hslots : ed.slots = (y.setSlot S { y.slot S with ref := true, delivering := false }).slots)
    (hself : ed.flow d.flow = y.flow d.flow) (hpool : ed.pool = y.pool) (hflow : d.flow = (y.del p).flow)
    (hres : (y.flow d.flow).residency = some S) (hconsumer : (y.flow d.flow).consumer = p) (harmed : v.readyArmed = false) :
    y.TakeDone ((ed.commit d.flow S d c).undispatchAndReevaluate d.flow S) p S d c v := by
  have hslot : ed.slot S = { y.slot S with ref := true, delivering := false } :=
    (congrArg (fun vs : Vector Slot 64 => vs[S]) hslots).trans (State.slot_setSlot_self _ _ _)
  have hconfig : ed.config = y.config := by rw [hended.frame]
  have hcommitted := hended.commit (f := d.flow) (d := d) (c := c)
  have hkflow := State.flow_commit (m := ed) (f := d.flow) (S := S) (d := d) (c := c)
  rw [hself] at hkflow
  have hreleased : ed.released d c = y.released d c := by
    rw [State.released, State.walk, hpool]
    rfl
  have hrelists := (ed.commit d.flow S d c).relists d.flow
    (((ed.commit d.flow S d c).flow d.flow).reevaluated ((ed.commit d.flow S d c).slot S).context)
  rw [← State.undispatchAndReevaluate_eq (S := S) (by rw [hkflow]; exact hres), hkflow] at hrelists
  have hunits := hrelists.units (.inr (by
    rw [show (({ y.flow d.flow with segCount := (y.flow d.flow).segCount - ed.released d c } : FlowEntry).reevaluated
      ((ed.commit d.flow S d c).slot S).context).consumer = p from hconsumer, hcommitted.unit_self, harmed]))
  have hmframe := hrelists.frame
  have hmflow := hrelists.flow_self
  unfold State.InRelist at hmframe
  have hmslots : ((ed.commit d.flow S d c).undispatchAndReevaluate d.flow S).slots = (ed.commit d.flow S d c).slots := by
    rw [hmframe]
  have hmpool : ((ed.commit d.flow S d c).undispatchAndReevaluate d.flow S).pool = (ed.commit d.flow S d c).pool := by
    rw [hmframe]
  generalize hm : (ed.commit d.flow S d c).undispatchAndReevaluate d.flow S = m at *
  refine ⟨hcommitted.relists hrelists hunits ?_, fun hc => ?_, fun hc => ?_, ?_⟩
  · rw [← hflow, hkflow]
    exact (congrArg (fun e : FlowEntry => e.residency) hmflow).trans rfl
  · refine State.commits_of_ended hc hslot hpool hconfig hself ?_ hmpool ?_ (congrArg (fun e : FlowEntry => e.dispatched) hmflow)
    · exact congrArg (fun vs : Vector Slot 64 => vs[S]) hmslots
    · rw [hkflow]
      exact (congrArg (fun e : FlowEntry => e.segCount) hmflow).trans rfl
  · subst hc
    exact ⟨hmslots.trans hslots, hmpool.trans hpool⟩
  · have hready := congrArg (fun e : FlowEntry => e.ready) hmflow
    dsimp only at hready
    rw [← hreleased, hready]
    exact hmflow

theorem State.takeDone_takeEnded (hframe : x = { y with units := x.units, dels := x.dels })
    (hne : ∀ q, q ≠ p → x.unit q = y.unit q ∧ x.del q = y.del q) (hflow : (x.del p).flow = (y.del p).flow)
    (hS : y.servingSlot (y.del p).flow = some S) (hconsumer : (y.flow (y.del p).flow).consumer = p)
    (hunarmed : (x.unit p).readyArmed = false) (st : Status) (c : Nat) : y.TakeDone (x.takeEnded p S st c) p S (x.del p) c
      ((x.unit p).ending (x.del p).tag (.endMsg (x.del p).tag st c .final)) := by
  obtain ⟨hres, -⟩ := State.servingSlot_eq_some_iff.1 hS
  have hended := State.deliveryDone_ended (S := S) hframe hne
    ((x.unit p).ending (x.del p).tag (.endMsg (x.del p).tag st c .final))
  have harmed : ((x.unit p).ending (x.del p).tag (.endMsg (x.del p).tag st c .final)).readyArmed = false := by
    rw [PortUnit.ending, PortUnit.answering]
    exact (PortUnit.readyArmed_place _ _).trans hunarmed
  refine State.takeDone_of_ended hended ?_ ?_ ?_ hflow (by rw [hflow]; exact hres) (by rw [hflow]; exact hconsumer) harmed
  · rw [hframe]
    rfl
  · rw [hframe]
    rfl
  · rw [hframe]
    rfl

end

end Sys2Proof.Machine

/-! SUPPORT. The end of a TAKE: the flow that goes on, and the flow that its last unit drains. -/

namespace Sys2Proof.Machine

section
variable {y x m u : State} {p : PortId} {S : SlotId} {v : PortUnit} {d : Delivery} {c : Nat}

theorem State.commits_congr (h : y.commits m S d c) (hslots : u.slots = m.slots) (hflows : u.flows = m.flows)
    (hpool : u.pool = m.pool) : y.commits u S d c := by
  have hslot : u.slot S = m.slot S := congrArg (fun vs : Vector Slot 64 => vs[S]) hslots
  have hflow : u.flow d.flow = m.flow d.flow :=
    congrArg (fun fs : List (Nat × FlowEntry) => Table.get FlowEntry.initial fs d.flow.val) hflows
  unfold State.commits at *
  rw [hslot, hflow, hpool]
  exact h

/-- The flow that the end of a TAKE's delivery drains (R17, R96). -/
def State.takeDrains (s : State) (d : Delivery) (c : Nat) : Prop :=
  (s.flow d.flow).state = .draining ∧ (s.flow d.flow).segCount - s.released d c = 0 ∧ (s.flow d.flow).admittedUnits = 0

theorem State.TakeDone.flow_lapse (h : y.TakeDone m p S d c v) (hends : y.EndsHold m u p S) : u.flow d.flow =
    { y.flow d.flow with
      segCount := (y.flow d.flow).segCount - y.released d c, dispatched := false
      ready := (m.flow d.flow).ready, listed := (m.flow d.flow).listed, prev := (m.flow d.flow).prev
      next := (m.flow d.flow).next } := by
  have hflows : u.flows = m.flows := by rw [hends.frame]
  have hflow : u.flow d.flow = m.flow d.flow :=
    congrArg (fun fs : List (Nat × FlowEntry) => Table.get FlowEntry.initial fs d.flow.val) hflows
  exact hflow.trans h.flow_self

/-- The end of a TAKE's delivery that drains no flow makes no drain end (R17, R96). -/
theorem State.TakeDone.drainTest_of_not (h : y.TakeDone m p S d c v) (hends : y.EndsHold m u p S)
    (hnot : ¬ y.takeDrains d c) : u.drainTest d.flow = u := by
  refine State.drainTest_of_not ?_
  rw [h.flow_lapse hends]
  exact hnot

/-- The lapse of a hold leaves at most one on each flow (R121). -/
theorem State.EndsHold.holdsExclusive (hends : y.EndsHold m u p S) (hex : y.holdsExclusive) : u.holdsExclusive := by
  obtain ⟨hempty, hstays, hothers, -⟩ := hends.lapsesTo
  have hhold (q : PortId) (hq : (u.hold q).state ≠ .empty) : u.hold q = y.hold q := by
    by_cases hqp : q = p
    · subst hqp
      cases hlapses : y.lapses q with
      | true => exact absurd (hempty hlapses) hq
      | false => exact hstays hlapses
    · exact hothers q hqp
  intro a b hab ha hb
  have hsamea := hhold a ha
  have hsameb := hhold b hb
  rw [hsamea, hsameb]
  exact hex a b hab (hsamea ▸ ha) (hsameb ▸ hb)

/-- The count falls once where a flow whose hold lapses enters CLOSED (R47, R130). -/
theorem State.EndsHold.count_closed (hends : y.EndsHold m u p S) (hS : y.servingSlot (y.del p).flow = some S)
    (hserving : u.servingSlot (y.del p).flow = some S) (hpins : (u.slot S).pins = (y.slot S).pins) (hex : y.holdsExclusive) :
    (u.pinnedOrHeld - if u.counted S then 1 else 0) = y.pinnedOrHeld - if y.counted S then 1 else 0 := by
  obtain ⟨hempty, hstays, hothers, hcount⟩ := hends.lapsesTo
  have hcountedu := State.counted_serving hserving
  have hcountedy := State.counted_serving hS
  rw [hcount]
  cases hlapses : y.lapses p with
  | false =>
    have hhold (q : PortId) : u.hold q = y.hold q := by
      by_cases hq : q = p
      · rw [hq, hstays hlapses]
      · exact hothers q hq
    have hheld : u.isHeld (y.del p).flow ↔ y.isHeld (y.del p).flow := by simp only [State.isHeld, hhold]
    have hsame : u.counted S = y.counted S := by
      rw [Bool.eq_iff_iff, hcountedu, hcountedy, hpins, hheld]
    simp [hsame]
  | true =>
    have hholder : (y.hold p).state = .lapsing ∧ (y.hold p).flow = (y.del p).flow := by
      rw [State.lapses, Bool.and_eq_true, decide_eq_true_eq, decide_eq_true_eq] at hlapses
      exact hlapses
    have hlive : (y.hold p).state ≠ .empty := by rw [hholder.1]; decide
    have hnotHeld : ¬ u.isHeld (y.del p).flow := by
      rintro ⟨q, hq, hqf⟩
      have hqp : q ≠ p := fun e => hq (by rw [e]; exact hempty hlapses)
      rw [hothers q hqp] at hq hqf
      exact hex q p hqp hq hlive (hqf.trans hholder.2.symm)
    have hbefore : y.counted S = true := hcountedy.2 (.inr ⟨p, hlive, hholder.2⟩)
    rw [hbefore]
    by_cases hpinned : (y.slot S).pins = 0
    · have hafter : u.counted S = false := by
        rw [Bool.eq_false_iff, ne_eq, hcountedu, hpins, hpinned]
        simp [hnotHeld]
      simp [hafter, hpinned]
    · have hafter : u.counted S = true := hcountedu.2 (.inl (by rw [hpins]; omega))
      simp [hafter, hpinned]

/-- What the end of a TAKE's delivery leaves, where its flow goes on (R94 to R96, R129). -/
theorem State.Streams.takeEnds (h : x.Streams p S) (hframe : x = { y with units := x.units, dels := x.dels })
    (hne : ∀ q, q ≠ p → x.unit q = y.unit q ∧ x.del q = y.del q) (hflow : (x.del p).flow = (y.del p).flow)
    (hS : y.servingSlot (y.del p).flow = some S) (hquiet : y.quiet = true) (hwaits : y.noWaits)
    (hparked : y.lapses p = true → (y.slot S).parkedList = []) (hconsumer : (y.flow (y.del p).flow).consumer = p)
    (hunarmed : (x.unit p).readyArmed = false) (st : Status) {c : Nat}
    (hnot : x.commitRemoves (x.del p) c = true → ¬ y.takeDrains (x.del p) c) :
    ∃ u, (x.finishTake p S st c).finish = u ∧ (u.del p).state = .idle ∧
      u.unit p = { y.lapseRaised p ((x.unit p).answering (x.del p).tag (.endMsg (x.del p).tag st c .final)) with
        current := none } ∧
      (1 ≤ c → y.commits u S (x.del p) c) ∧
      (c = 0 → u.slots = (y.setSlot S { y.slot S with ref := true, delivering := false }).slots ∧ u.pool = y.pool) ∧
      (u.flow (y.del p).flow).dispatched = false ∧
      y.lapsesTo u p S ∧ (∀ q, q ≠ p → u.unit q = y.unit q ∧ u.del q = y.del q) ∧
      u = { y with
        slots := u.slots, dels := u.dels, units := u.units, flows := u.flows, lists := u.lists, pool := u.pool
        holds := u.holds, pinnedOrHeld := u.pinnedOrHeld } := by
  have htaken := State.takeDone_takeEnded hframe hne hflow hS hconsumer hunarmed st c
  have hends := htaken.done.endsHold hS hparked
  have hfinishTake : x.finishTake p S st c = (x.takeEnded p S st c).lapse p (y.del p).flow := by
    rw [h.finishTake, ← hflow]
    split
    · next hremoves => exact htaken.drainTest_of_not (hflow ▸ hends) (hnot hremoves)
    · rfl
  obtain ⟨u, hu, hidle, hunit, hlapses, hslots, hflows, hlists, hpool, hneu, hframeu⟩ :=
    htaken.done.result hS hparked hquiet hwaits ((PortUnit.consumerQueue_ending _ _ _).trans h.queue)
  have hself : u.flow (x.del p).flow = (x.takeEnded p S st c).flow (x.del p).flow :=
    congrArg (fun fs : List (Nat × FlowEntry) => Table.get FlowEntry.initial fs (x.del p).flow.val) hflows
  refine ⟨u, by rw [hfinishTake, hu], hidle, hunit.trans (State.lapseRaised_current _),
    fun hc => State.commits_congr (htaken.commits hc) hslots hflows hpool, fun hc => ⟨hslots.trans (htaken.none hc).1,
    hpool.trans (htaken.none hc).2⟩, ?_, hlapses, hneu, hframeu⟩
  rw [← hflow, hself, htaken.flow_self]

/-- What is left where the end of a TAKE's delivery drains its flow, from `y` to `u` (R16, R17, R96). -/
structure State.TakeCloses (y u : State) (p : PortId) (S : SlotId) (d : Delivery) (c : Nat) (v : PortUnit) : Prop where
  idle : (u.del p).state = .idle
  unit_self : u.unit p = (y.lapseRaised p v).raise (.drained d.flow)
  ne : ∀ q, q ≠ p → u.unit q = y.unit q ∧ u.del q = y.del q
  flow_self : (u.flow d.flow).state = .closed ∧ (u.flow d.flow).segCount = 0 ∧ (u.flow d.flow).halt = none ∧
    (u.flow d.flow).ready = false ∧ (u.flow d.flow).listed = false ∧ (u.flow d.flow).dispatched = false ∧
    (u.flow d.flow).residency = none
  slots : (u.slot S).state = .free ∧ (u.slot S).flow = none ∧ ∀ T, T ≠ S → u.slot T = y.slot T
  holds : ∀ q, (u.hold q).state ≠ .empty → (u.hold q).flow ≠ d.flow
  count : u.pinnedOrHeld = y.pinnedOrHeld - if y.counted S then 1 else 0
  pool : u.pool = y.poolReleasing (y.walk d c).1
  frame : u = { y with
    slots := u.slots, dels := u.dels, units := u.units, flows := u.flows, lists := u.lists, pool := u.pool
    holds := u.holds, pinnedOrHeld := u.pinnedOrHeld }

/-- The drain end behind the end of a TAKE's delivery (R16, R17, R96). -/
theorem State.TakeDone.closes (h : y.TakeDone m p S d c v) (hends : y.EndsHold m u p S) (hflow : d.flow = (y.del p).flow)
    (hS : y.servingSlot (y.del p).flow = some S) (hquiet : y.quiet = true) (hwaits : y.noWaits)
    (hqueue : v.consumerQueue = []) (hparked : (y.slot S).parkedList = []) (hex : y.holdsExclusive)
    (hconsumer : (y.flow d.flow).consumer = p) (hc : 1 ≤ c) (hdrains : y.takeDrains d c) :
    ∃ w, (u.drainTest d.flow).finish = w ∧ y.TakeCloses w p S d c v := by
  have hself := h.flow_lapse hends
  have hslots : u.slots = m.slots := by rw [hends.frame]
  have hslot (T : SlotId) : u.slot T = m.slot T := congrArg (fun vs : Vector Slot 64 => vs[T]) hslots
  have hslotS := (hslot S).trans h.done.slot_self
  have hdels : u.dels = m.dels := by rw [hends.frame]
  have hpool : u.pool = m.pool := by rw [hends.frame]
  have hserving : u.servingSlot d.flow = some S := by
    obtain ⟨hres, hstate, hsflow⟩ := State.servingSlot_eq_some_iff.1 hS
    refine State.servingSlot_eq_some_iff.2 ⟨?_, ?_, ?_⟩
    · rw [hself, hflow]
      exact hres
    · rw [hslotS]
      exact hstate
    · rw [hslotS, hflow]
      exact hsflow
  have hcloses := State.closes_enterClosed (hends.holdsExclusive hex) hserving (by rw [hslotS]; exact hparked)
  have hdrain : u.drainTest d.flow = (u.enterClosed d.flow).raise p (.drained d.flow) := by
    rw [State.drainTest_of_ends (by rw [hself]; exact hdrains), hself]
    exact congrArg (fun q => (u.enterClosed d.flow).raise q (.drained d.flow)) hconsumer
  have hquietu := h.done.quiet_done hends hquiet hqueue
  have hwaitsu := hcloses.noWaits_raise (h.done.noWaits hends hwaits) p (.drained d.flow)
  have hfinish := State.finish_of_retry (hcloses.quiet_raise hquietu p (.drained d.flow)) hwaitsu.1 hwaitsu.2
  rw [hdrain]
  refine ⟨_, hfinish, ?_⟩
  have hcount := hends.count_closed hS (hflow ▸ hserving) (by rw [hslotS]) hex
  have hpoolm := (h.commits hc).2.2.2.2
  have hnoretry := (y.quiet_iff.1 hquiet).1
  have hmframe := h.done.frame
  generalize u.enterClosed d.flow = w at *
  have hwflow := hcloses.flow_self
  have hunits (q : PortId) : w.unit q = u.unit q := congrArg (fun us : Vector PortUnit 4 => us[q]) hcloses.units
  have hwdels : w.dels = m.dels := by rw [hcloses.frame]; exact hdels
  have hdel (q : PortId) : w.del q = m.del q := congrArg (fun ds : Vector Delivery 4 => ds[q]) hwdels
  refine ⟨?_, ?_, fun q hq => ⟨?_, ?_⟩, ⟨?_, ?_, ?_, ?_, ?_, ?_, ?_⟩, ⟨?_, ?_, fun T hT => ?_⟩, hcloses.hold_flow, ?_, ?_, ?_⟩
  · exact (congrArg (fun d : Delivery => d.state) (hdel p)).trans h.done.idle
  · refine (State.unit_setUnit_self _ _ _).trans (congrArg _ ?_)
    rw [hunits, hends.unit_self, h.done.unit_self]
  · exact (State.unit_setUnit_ne _ _ hq).trans ((hunits q).trans ((hends.unit_ne q hq).trans (h.done.ne q hq).1))
  · exact (hdel q).trans (h.done.ne q hq).2
  · exact congrArg (fun e : FlowEntry => e.state) hwflow
  · refine (congrArg (fun e : FlowEntry => e.segCount) hwflow).trans ?_
    rw [hself]
    exact hdrains.2.1
  · exact congrArg (fun e : FlowEntry => e.halt) hwflow
  · exact congrArg (fun e : FlowEntry => e.ready) hwflow
  · exact congrArg (fun e : FlowEntry => e.listed) hwflow
  · exact congrArg (fun e : FlowEntry => e.dispatched) hwflow
  · exact congrArg (fun e : FlowEntry => e.residency) hwflow
  · exact congrArg (fun v : Slot => v.state) hcloses.slot_self
  · exact congrArg (fun v : Slot => v.flow) hcloses.slot_self
  · exact (hcloses.slot_ne T hT).trans ((hslot T).trans (h.done.slot_ne T hT))
  · exact hcloses.count.trans hcount
  · have hwpool : w.pool = m.pool := by rw [hcloses.frame]; exact hpool
    exact hwpool.trans hpoolm
  · have huframe := hends.frame
    have hwframe := hcloses.frame
    rw [State.raise, hwframe, huframe, hmframe, ← hnoretry]
    rfl

end

end Sys2Proof.Machine

/-! SUPPORT. The last beat of a TAKE. -/

namespace Sys2Proof.Machine

section
variable {y : State} {p : PortId} {S : SlotId} {bytes : List Byte} {d : Delivery} {c n : Nat}

theorem State.commitRemoves_iff (hc : 1 ≤ c) : y.commitRemoves d c = true ↔ (y.walk d c).2 = none := by
  have hsome : decide (c ≠ 0) = true := decide_eq_true (by omega)
  rw [State.commitRemoves, hsome, Bool.true_and, Option.isNone_iff_eq_none]
  rfl

theorem State.takeDrains_iff (hc : 1 ≤ c) : y.takeDrains d c ↔ (y.flow d.flow).state = .draining ∧
    (y.flow d.flow).segCount - (y.walk d c).1.length = 0 ∧ (y.flow d.flow).admittedUnits = 0 := by
  rw [State.takeDrains, State.released, if_neg (by omega)]

theorem State.readyArmed_beatPlaced (h : (y.unit p).readyArmed = false) :
    ((y.beatPlaced p bytes).unit p).readyArmed = false := by
  rw [State.unit_beatPlaced]
  exact (PortUnit.readyArmed_place _ _).trans h

/-- What the last beat of a TAKE leaves, where its flow goes on (R94 to R96, R129). -/
theorem State.Streams.lastBeatOfTake (h : y.Streams p S) (hquiet : y.quiet = true) (hwaits : y.noWaits)
    (htake : (y.del p).kind = .take) (hunarmed : (y.unit p).readyArmed = false)
    (hconsumer : (y.flow (y.del p).flow).consumer = p) (hplanned : 1 ≤ (y.del p).planned)
    (hparked : y.lapses p = true → (y.slot S).parkedList = [])
    (hnot : (y.walk (y.del p) (y.del p).planned).2 = none → ¬ y.takeDrains (y.del p) (y.del p).planned) :
    ∃ u, ((y.beatPlaced p bytes).completeDelivery p S).finish = u ∧ (u.del p).state = .idle ∧
      u.unit p = { y.lapseRaised p (((y.unit p).place (.data bytes)).answering (y.del p).tag
        (.endMsg (y.del p).tag (y.endStatus (y.del p)) (y.del p).planned .final)) with current := none } ∧
      y.commits u S (y.del p) (y.del p).planned ∧ y.lapsesTo u p S ∧
      (∀ q, q ≠ p → u.unit q = y.unit q ∧ u.del q = y.del q) ∧
      u = { y with
        slots := u.slots, dels := u.dels, units := u.units, flows := u.flows, lists := u.lists, pool := u.pool
        holds := u.holds, pinnedOrHeld := u.pinnedOrHeld } := by
  have hdel : (y.beatPlaced p bytes).del p = (y.del p).placed bytes.length := State.del_beatPlaced
  have hends := (h.beatPlaced (bytes := bytes)).takeEnds State.frame_beatPlaced (fun q hq => State.beatPlaced_ne hq)
    ((congrArg (fun d : Delivery => d.flow) hdel).trans rfl) h.serving hquiet hwaits hparked hconsumer
    (State.readyArmed_beatPlaced hunarmed) (y.endStatus (y.del p)) (c := (y.del p).planned) (by
      rw [hdel, State.commitRemoves_iff hplanned]
      exact hnot)
  rw [hdel, State.unit_beatPlaced] at hends
  obtain ⟨u, hu, hidle, hunit, hcommits, -, -, hlapses, hne, hframe⟩ := hends
  refine ⟨u, ?_, hidle, hunit, hcommits hplanned, hlapses, hne, hframe⟩
  rw [State.completeDelivery_of_take (by rw [hdel]; exact htake), hdel]
  exact hu

/-- What the last beat of a TAKE leaves that drains its flow (R16, R17, R96). -/
theorem State.Streams.lastBeatDrains (h : y.Streams p S) (hquiet : y.quiet = true) (hwaits : y.noWaits)
    (htake : (y.del p).kind = .take) (hunarmed : (y.unit p).readyArmed = false)
    (hconsumer : (y.flow (y.del p).flow).consumer = p) (hplanned : 1 ≤ (y.del p).planned)
    (hparked : (y.slot S).parkedList = []) (hex : y.holdsExclusive)
    (hwhole : (y.walk (y.del p) (y.del p).planned).2 = none) (hdrains : y.takeDrains (y.del p) (y.del p).planned) :
    ∃ u, ((y.beatPlaced p bytes).completeDelivery p S).finish = u ∧
      y.TakeCloses u p S (y.del p) (y.del p).planned (((y.unit p).place (.data bytes)).ending (y.del p).tag
        (.endMsg (y.del p).tag (y.endStatus (y.del p)) (y.del p).planned .final)) := by
  have hdel : (y.beatPlaced p bytes).del p = (y.del p).placed bytes.length := State.del_beatPlaced
  have hflow : ((y.beatPlaced p bytes).del p).flow = (y.del p).flow := (congrArg (fun d : Delivery => d.flow) hdel).trans rfl
  have htaken := State.takeDone_takeEnded (S := S) (State.frame_beatPlaced (s := y) (p := p) (bytes := bytes))
    (fun q hq => State.beatPlaced_ne hq) hflow h.serving hconsumer (State.readyArmed_beatPlaced hunarmed)
    (y.endStatus (y.del p)) (y.del p).planned
  have hendsHold := htaken.done.endsHold h.serving fun _ => hparked
  have hfinish := (h.beatPlaced (bytes := bytes)).finishTake (y.endStatus (y.del p)) (y.del p).planned
  have hremoves : (y.beatPlaced p bytes).commitRemoves ((y.beatPlaced p bytes).del p) (y.del p).planned = true := by
    rw [hdel]
    exact (State.commitRemoves_iff hplanned).2 hwhole
  rw [if_pos hremoves, hflow] at hfinish
  obtain ⟨u, hu, hcloses⟩ := htaken.closes hendsHold hflow h.serving hquiet hwaits
    ((PortUnit.consumerQueue_ending _ _ _).trans (h.beatPlaced (bytes := bytes)).queue) hparked hex (by rw [hflow]; exact hconsumer)
    hplanned (by rw [hdel]; exact hdrains)
  rw [hdel, State.unit_beatPlaced] at hcloses
  rw [hflow] at hu
  refine ⟨u, ?_, hcloses.idle, hcloses.unit_self, hcloses.ne, hcloses.flow_self, hcloses.slots, hcloses.holds, hcloses.count,
    hcloses.pool, hcloses.frame⟩
  rw [State.completeDelivery_of_take (by rw [hdel]; exact htake), hdel]
  exact (congrArg State.finish hfinish).trans hu

end

/-- Settles O54: the walk by induction on the segments before its end, then the end of the delivery. -/
theorem takeCommitsItsBytes : Obligations.TakeCommitsItsBytes := by
  unfold Obligations.TakeCommitsItsBytes
  refine ⟨fun P before rest seg off into c next hchain hlen hnotLast hinto => ⟨fun hnone hc => ?_, fun first hfirst hoff hc => ?_⟩,
    fun P before seg first off c next hchain hlen hnotLast hlast hfirst hoff hc =>
      Pool.commitWalk_whole hchain hlen hnotLast hlast hfirst hoff hc, ?_⟩
  · subst hnone
    exact Pool.commitWalk_into (before := []) hchain hlen hnotLast hinto rfl (by omega)
      (by rw [Nat.add_comm, hc]; simp [Pool.fills])
  · refine Pool.commitWalk_into hchain hlen hnotLast hinto ?_ hoff hc
    cases before with
    | nil => cases hfirst
    | cons a before => exact hfirst
  intro s p r e0 e1 e2 hlast hwaits hprogress hlive ws d hbad hstate htake hflight hcurrent hqueue hkind hunarmed hconsumer
    hplanned hlastBeat S hS walk ends told mem
  have hexec := exec_beatReadCompletion (e0 := e0) (e1 := e1) (e2 := e2) hprogress
  have hquiet : (s.beatCounted ws).quiet = true := State.quiet_beatCounted hlast
  have hstreams : (s.beatCounted ws).Streams p S := ⟨hcurrent, hqueue, (congrArg ReqKind.isConsumer hkind).trans rfl, hS⟩
  have hisLast : ((s.beatCounted ws).del p).sent + (beatBytes r ws).length = ((s.beatCounted ws).del p).planned := by
    rw [length_beatBytes]
    exact hlastBeat
  have hmem : (s.beatCounted ws).mem = mem := by
    have hzero : badWords ws = 0 := hbad
    unfold State.beatCounted
    rw [hzero, Nat.add_zero]
    rfl
  rw [State.beatReported_of_live hlive hS, if_pos (show badWords (s.readBeat r [e0, e1, e2]) = 0 from hbad),
    State.placeBeat_eq, if_pos hisLast] at hexec
  refine ⟨fun hnot hparked => ?_, fun hends hparked hex => ?_⟩
  · obtain ⟨u, hu, hidle, hunit, hcommits, hlapses, hne, hframe⟩ := hstreams.lastBeatOfTake (bytes := beatBytes r ws) hquiet
      hwaits htake hunarmed hconsumer hplanned hparked
      fun hwhole hdrains => by
        obtain ⟨hdraining, hsegs, hunits⟩ := (State.takeDrains_iff hplanned).1 hdrains
        exact hnot ⟨hdraining, hwhole, hsegs, hunits⟩
    rw [PortUnit.answering_place, State.endStatus_eq] at hunit
    refine ⟨u, hexec.trans (congrArg Host.Outcome.next hu), hidle, hunit, hcommits, hlapses, hne, ?_⟩
    rw [← hmem]
    exact hframe
  · obtain ⟨hdraining, hwhole, hsegs, hunits⟩ := hends
    obtain ⟨u, hu, hcloses⟩ := hstreams.lastBeatDrains (bytes := beatBytes r ws) hquiet hwaits htake hunarmed hconsumer
      hplanned hparked hex hwhole ((State.takeDrains_iff hplanned).2 ⟨hdraining, hsegs, hunits⟩)
    have hunit := hcloses.unit_self
    rw [PortUnit.ending, State.lapseRaised_current, PortUnit.raise_current, PortUnit.answering_place, State.endStatus_eq] at hunit
    refine ⟨u, hexec.trans (congrArg Host.Outcome.next hu), hcloses.idle, hunit, hcloses.flow_self, hcloses.slots,
      hcloses.holds, hcloses.count, hcloses.pool, hcloses.ne, ?_⟩
    rw [← hmem]
    exact hcloses.frame

end Sys2Proof.Machine

/-! SUPPORT. What taking records out of the lists and waits leaves (R65, R99), and what abandoning a read leaves (R100). -/

namespace Sys2Proof.Machine

/-! ## Taking records out of the lists and the miss wait (R65, R99) -/

section
variable {s : State} {keep : Req → Bool}

/-- A slot without the records not kept. -/
def Slot.purged (v : Slot) (keep : Req → Bool) : Slot :=
  { v with
    pendingList := v.pendingList.filter keep, returnList := v.returnList.filter keep
    parkedList := v.parkedList.filter keep }

/-- A state that differs from another in its slots and in whether a retry is due. -/
def State.InSlots (s u : State) : Prop := u = { s with slots := u.slots, retryDue := u.retryDue }

theorem State.InSlots.trans {t u : State} (h : s.InSlots t) (k : t.InSlots u) : s.InSlots u := by
  unfold State.InSlots at *
  rw [k, h]

theorem State.inSlots_purgeSlot (s : State) (S : SlotId) (keep : Req → Bool) : s.InSlots (s.purgeSlot S keep) := by
  unfold State.purgeSlot
  dsimp only
  split <;> rfl

theorem State.slot_purgeSlot (s : State) (S T : SlotId) (keep : Req → Bool) :
    (s.purgeSlot S keep).slot T = if T = S then (s.slot S).purged keep else s.slot T := by
  have hset (v : Slot) : (s.setSlot S v).slot T = if T = S then v else s.slot T := State.slot_setSlot _ _ _ _
  unfold State.purgeSlot
  dsimp only
  split
  · exact hset _
  · exact hset _

theorem State.inSlots_foldl_purgeSlot (l : List SlotId) (s : State) (keep : Req → Bool) :
    s.InSlots (l.foldl (fun s S => s.purgeSlot S keep) s) := by
  induction l generalizing s with
  | nil => rfl
  | cons S l ih => exact (s.inSlots_purgeSlot S keep).trans (ih _)

theorem State.slot_foldl_purgeSlot (l : List SlotId) (hl : l.Nodup) (s : State) (keep : Req → Bool) (T : SlotId) :
    (l.foldl (fun s S => s.purgeSlot S keep) s).slot T = if T ∈ l then (s.slot T).purged keep else s.slot T := by
  induction l generalizing s with
  | nil => simp
  | cons S l ih =>
    obtain ⟨hS, hl⟩ := List.nodup_cons.1 hl
    rw [List.foldl_cons, ih hl, State.slot_purgeSlot]
    by_cases hTS : T = S
    · subst hTS
      simp [hS]
    · simp [hTS]

theorem State.slot_purge (s : State) (keep : Req → Bool) (T : SlotId) : (s.purge keep).slot T = (s.slot T).purged keep := by
  have hslot := State.slot_foldl_purgeSlot allSlots nodup_allSlots s keep T
  rw [if_pos (mem_allSlots T)] at hslot
  unfold State.purge
  dsimp only
  generalize allSlots.foldl (fun s S => s.purgeSlot S keep) s = z at *
  split
  · exact hslot
  · exact hslot

theorem State.missWait_purge (s : State) (keep : Req → Bool) : (s.purge keep).missWait = s.missWait.filter keep := by
  have hframe := State.inSlots_foldl_purgeSlot allSlots s keep
  unfold State.purge
  dsimp only
  generalize allSlots.foldl (fun s S => s.purgeSlot S keep) s = z at *
  unfold State.InSlots at hframe
  have hmiss : z.missWait = s.missWait := by rw [hframe]
  rw [hmiss]
  split
  · rfl
  · next h =>
    have hlen : (s.missWait.filter keep).length = s.missWait.length :=
      le_antisymm (List.length_filter_le _ _) (Nat.not_lt.1 h)
    rw [List.filter_eq_self.2 (List.length_filter_eq_length_iff.1 hlen)]
    exact hmiss

theorem State.frame_purge (s : State) (keep : Req → Bool) : s.purge keep =
    { s with slots := (s.purge keep).slots, missWait := (s.purge keep).missWait, retryDue := (s.purge keep).retryDue } := by
  have hframe := State.inSlots_foldl_purgeSlot allSlots s keep
  unfold State.purge
  dsimp only
  generalize allSlots.foldl (fun s S => s.purgeSlot S keep) s = z at *
  unfold State.InSlots at hframe
  split
  · rw [hframe]
    rfl
  · rw [hframe]

/-- Where every record of a slot is kept, the slot is left as it is. -/
theorem State.purgeSlot_of_kept {S : SlotId} (h : ∀ r, r ∈ (s.slot S).pendingList ∨ r ∈ (s.slot S).returnList ∨
    r ∈ (s.slot S).parkedList → keep r = true) : s.purgeSlot S keep = s := by
  have hpending : (s.slot S).pendingList.filter keep = (s.slot S).pendingList :=
    List.filter_eq_self.2 fun r hr => h r (.inl hr)
  have hreturn : (s.slot S).returnList.filter keep = (s.slot S).returnList :=
    List.filter_eq_self.2 fun r hr => h r (.inr (.inl hr))
  have hparked : (s.slot S).parkedList.filter keep = (s.slot S).parkedList :=
    List.filter_eq_self.2 fun r hr => h r (.inr (.inr hr))
  have hnone (l : List Req) (hl : l.filter keep = l) : (withoutReq l keep).2 = false := by
    rw [withoutReq, hl]
    exact Bool.not_and_self _
  unfold State.purgeSlot
  dsimp only
  rw [hnone _ hpending, hnone _ hreturn, hnone _ hparked]
  dsimp only [withoutReq]
  rw [hpending, hreturn, hparked]
  exact s.setSlot_slot S

theorem State.purge_of_kept (hslots : ∀ S r, r ∈ (s.slot S).pendingList ∨ r ∈ (s.slot S).returnList ∨
    r ∈ (s.slot S).parkedList → keep r = true) (hmiss : ∀ r ∈ s.missWait, keep r = true) : s.purge keep = s := by
  have hfold (l : List SlotId) : l.foldl (fun s S => s.purgeSlot S keep) s = s := by
    induction l with
    | nil => rfl
    | cons S l ih => rw [List.foldl_cons, State.purgeSlot_of_kept (hslots S), ih]
  unfold State.purge
  dsimp only
  rw [hfold, List.filter_eq_self.2 hmiss, if_neg (Nat.lt_irrefl _)]

end

/-! ## Abandoning a read (R100, R105, R162) -/

section
variable {s : State} {p : PortId}

theorem State.frame_abandonRead (s : State) (p : PortId) : s.abandonRead p = { s with mem := (s.abandonRead p).mem } := rfl

/-- An abandoned read is outstanding until it ends (R92, R162). -/
theorem State.readOutstanding_abandonRead (s : State) (p q : PortId) :
    (s.abandonRead p).readOutstanding q = s.readOutstanding q := by
  have hqueue : (s.abandonRead p).mem.portQueue[q] =
      if q = p then s.mem.portQueue[p].map PortAccess.abandonedRead else s.mem.portQueue[q] := by
    split
    · next h =>
      rw [h]
      exact MemController.portQueue_setQueue_self _ _ _
    · next h => exact MemController.portQueue_setQueue_ne _ _ h
  have hprogress : (match (s.abandonRead p).mem.inProgress with
      | some (.beatRead o _) => decide (o = q)
      | _ => false) = (match s.mem.inProgress with
      | some (.beatRead o _) => decide (o = q)
      | _ => false) := by
    unfold State.abandonRead MemController.setQueue
    dsimp only
    cases s.mem.inProgress with
    | none => rfl
    | some a => cases a <;> rfl
  unfold State.readOutstanding
  rw [hqueue]
  refine congrArg₂ _ ?_ hprogress
  split
  · next h =>
    rw [List.any_map, h]
    refine congrArg (fun f => List.any _ f) (funext fun a => ?_)
    cases a <;> rfl
  · rfl

theorem State.access_abandonRead (haccess : s.mem.inProgress ≠ none ∨ s.mem.noneWaits) :
    (s.abandonRead p).mem.inProgress ≠ none ∨ (s.abandonRead p).mem.noneWaits := by
  refine haccess.imp (fun h => ?_) fun ⟨hfills, hspills, hports, hmgmt⟩ => ⟨hfills, hspills, fun q => ?_, hmgmt⟩
  · unfold State.abandonRead MemController.setQueue
    dsimp only
    cases hprogress : s.mem.inProgress with
    | none => exact absurd hprogress h
    | some a => cases a <;> exact Option.some_ne_none _
  · by_cases hq : q = p
    · subst hq
      refine (MemController.portQueue_setQueue_self _ _ _).trans ?_
      rw [hports q]
      rfl
    · exact (MemController.portQueue_setQueue_ne _ _ hq).trans (hports q)

theorem State.quiet_abandonRead (hquiet : s.quiet = true) : (s.abandonRead p).quiet = true := by
  obtain ⟨hretry, hports, -, haccess⟩ := s.quiet_iff.1 hquiet
  have hmem := State.access_abandonRead (p := p) (haccess.imp_left Option.isSome_iff_ne_none.1)
  refine (State.quiet_iff _).2 ⟨hretry, fun q => ⟨(hports q).1, ?_⟩, MemController.grant_of_settled hmem,
    hmem.imp_left Option.isSome_iff_ne_none.2⟩
  rw [← (hports q).2, State.readDue, State.readOutstanding_abandonRead]
  rfl

end

end Sys2Proof.Machine

/-! SUPPORT. CUT. -/

namespace Sys2Proof.Machine

section
variable {s : State} {p : PortId} {t : TagId} {kept : BitVec 16} {rest : List Message} {n : Nat}

/-- The state when a port has taken its head message in. -/
def State.headTaken (s : State) (p : PortId) (rest : List Message) : State := s.setUnit p ((s.unit p).afterTakeIn rest)

theorem State.unit_headTaken : (s.headTaken p rest).unit p = (s.unit p).afterTakeIn rest := State.unit_setUnit_self _ _ _

theorem State.unit_headTaken_ne {q : PortId} (h : q ≠ p) : (s.headTaken p rest).unit q = s.unit q :=
  State.unit_setUnit_ne _ _ h

theorem State.tagRec_headTaken (g : TagId) : (s.headTaken p rest).tagRec p g = s.tagRec p g := by
  rw [State.tagRec, State.unit_headTaken]
  rfl

theorem State.quiet_headTaken : (s.headTaken p rest).quiet = s.quiet := State.quiet_setUnit ⟨rfl, rfl, rfl⟩

theorem exec_cut (h : s.takesIn p (.cut t kept) rest) :
    exec (.cut p) s = .next ((s.headTaken p rest).cutTag p t (keptCount kept)).finish := by
  have hexec : exec (.cut p) s = execCut p s := rfl
  rw [hexec, execCut, State.nextMessage_of_takesIn h]
  dsimp only
  rw [State.popInbound_of_takesIn h]
  rfl

theorem State.cutTag_of_stray (h : (s.tagRec p t).status ≠ .inUse ∨
    ((s.tagRec p t).request.kind ≠ .take ∧ (s.tagRec p t).request.kind ≠ .peek) ∨ (s.tagRec p t).phase = .responding) :
    s.cutTag p t n = s.strayControl := by
  unfold State.cutTag
  dsimp only
  split
  · next hboth =>
    obtain ⟨hstatus, hkind⟩ := hboth
    have hends : (s.tagRec p t).request.kind = .take ∨ (s.tagRec p t).request.kind = .peek := (ReqKind.endsByEnd_iff _).1 hkind
    have hphase : (s.tagRec p t).phase = .responding := by tauto
    rw [hphase]
  · rfl

section
variable (hstatus : (s.tagRec p t).status = .inUse)
  (hkind : (s.tagRec p t).request.kind = .take ∨ (s.tagRec p t).request.kind = .peek)
include hstatus hkind

theorem State.cutTag_of_unserved (hphase : (s.tagRec p t).phase = .queuedAtPort ∨ (s.tagRec p t).phase = .waitingResidency ∨
    (s.tagRec p t).phase = .missWait ∨ (s.tagRec p t).phase = .parked) : s.cutTag p t n = s.cutUnserved p t := by
  unfold State.cutTag
  dsimp only
  rw [if_pos ⟨hstatus, (ReqKind.endsByEnd_iff _).2 hkind⟩]
  obtain h | h | h | h := hphase <;> rw [h]

theorem State.cutTag_of_streaming (hphase : (s.tagRec p t).phase = .streaming) : s.cutTag p t n = s.cutStreaming p n := by
  unfold State.cutTag
  dsimp only
  rw [if_pos ⟨hstatus, (ReqKind.endsByEnd_iff _).2 hkind⟩, hphase]

end

/-! ## The request waits in its port's consumer queue (R99) -/

/-- A port unit whose consumer queue has lost a tag (R99). -/
def PortUnit.unqueued (u : PortUnit) (t : TagId) : PortUnit :=
  { u with consumerQueue := u.consumerQueue.filter (fun g => decide (g ≠ t)) }

theorem State.cutUnserved_of_queued (hcurrent : (s.unit p).current ≠ some t) (hmiss : .request p t ∉ s.missWait)
    (hlists : ∀ S, .request p t ∉ (s.slot S).pendingList ∧ .request p t ∉ (s.slot S).returnList ∧
      .request p t ∉ (s.slot S).parkedList) :
    s.cutUnserved p t = s.setUnit p (((s.unit p).unqueued t).answering t (.endMsg t .cut 0 .final)) := by
  have hpurge : (s.setUnit p ((s.unit p).unqueued t)).purge (fun r => decide (r ≠ .request p t)) =
      s.setUnit p ((s.unit p).unqueued t) := by
    refine State.purge_of_kept (fun S r hr => decide_eq_true ?_) fun r hr => decide_eq_true ?_
    · obtain ⟨hpending, hreturn, hparked⟩ := hlists S
      rintro rfl
      exact hr.elim hpending fun hr => hr.elim hreturn hparked
    · rintro rfl
      exact hmiss hr
  have hcurrent' : (((s.unit p).unqueued t).setTag t { ((s.unit p).unqueued t).tag t with phase := .responding }).current ≠
      some t := hcurrent
  have hcut : s.cutUnserved p t =
      ((s.setUnit p ((s.unit p).unqueued t)).purge (fun r => decide (r ≠ .request p t))).respondEnd p t .cut 0 := rfl
  rw [hcut, hpurge, State.respondEnd, State.answered, State.unit_setUnit_self, State.setUnit_setUnit,
    PortUnit.currentEnded_of_ne hcurrent']
  rfl

theorem State.quiet_unqueued (hquiet : s.quiet = true) :
    (s.setUnit p (((s.unit p).unqueued t).answering t (.endMsg t .cut 0 .final))).quiet = true := by
  have hsame := PortUnit.sameQuiet_answering (u := (s.unit p).unqueued t) (t := t) (m := .endMsg t .cut 0 .final) trivial
  obtain ⟨hqueue, hcurrent, hbeats⟩ := hsame
  have hports := ((State.quiet_iff s).1 hquiet).2.1
  refine State.quiet_of_handOn hquiet rfl rfl rfl (fun q => ?_) fun q => ?_
  · rw [State.handOnDue, State.unit_setUnit]
    split
    · have hdue := (hports p).1
      rw [State.handOnDue, Bool.and_eq_false_iff] at hdue
      rw [hqueue, hcurrent, Bool.and_eq_false_iff]
      refine hdue.imp id fun hempty => ?_
      have hnil : (s.unit p).consumerQueue = [] := by simpa using hempty
      simp [PortUnit.unqueued, hnil]
    · exact (hports q).1
  · rw [State.unit_setUnit]
    split
    · next h =>
      rw [hbeats, h]
      rfl
    · rfl

/-! ## The request waits at a slot or in the miss wait (R99) -/

theorem State.cutUnserved_of_current (hcurrent : (s.unit p).current = some t)
    (hkind : (s.tagRec p t).request.kind.isConsumer = true) (hqueue : (s.unit p).consumerQueue = []) :
    s.cutUnserved p t = (s.purge (fun r => decide (r ≠ .request p t))).setUnit p
      ((s.unit p).ending t (.endMsg t .cut 0 .final)) := by
  have hsame : s.setUnit p { s.unit p with
      consumerQueue := (s.unit p).consumerQueue.filter (fun g => decide (g ≠ t)) } = s := by
    have hempty : (s.unit p).consumerQueue.filter (fun g => decide (g ≠ t)) = (s.unit p).consumerQueue := by rw [hqueue]; rfl
    rw [hempty]
    exact State.setUnit_unit _ _
  have hframe := s.frame_purge (fun r => decide (r ≠ .request p t))
  have hcut : s.cutUnserved p t = ((s.setUnit p { s.unit p with
      consumerQueue := (s.unit p).consumerQueue.filter (fun g => decide (g ≠ t)) }).purge
        (fun r => decide (r ≠ .request p t))).respondEnd p t .cut 0 := rfl
  rw [hcut, hsame]
  generalize s.purge (fun r => decide (r ≠ .request p t)) = z at *
  have hunits : z.units = s.units := by rw [hframe]
  have hunit : z.unit p = s.unit p := congrArg (fun us : Vector PortUnit 4 => us[p]) hunits
  have htag : z.tagRec p t = s.tagRec p t := by rw [State.tagRec, hunit]; rfl
  rw [State.respondEnd, State.answered_current (by rw [hunit, hcurrent]) (by rw [htag, hkind]), hunit]
  rfl

/-- What a CUT leaves of a request that waits at a slot or in the miss wait (R65, R99). -/
theorem finish_cutUnserved (hquiet : s.quiet = true) (hcurrent : (s.unit p).current = some t)
    (hkind : (s.tagRec p t).request.kind.isConsumer = true) (hqueue : (s.unit p).consumerQueue = [])
    (hlinks : s.linkWait = []) (hmiss : ∀ w ∈ s.missWait, w = .request p t) :
    ∃ u, (s.cutUnserved p t).finish = u ∧ u.missWait = [] ∧
      (∀ S, u.slot S = (s.slot S).purged (fun w => decide (w ≠ .request p t))) ∧
      u.unit p = (s.unit p).ending t (.endMsg t .cut 0 .final) ∧ (∀ q, q ≠ p → u.unit q = s.unit q) ∧
      u = { s with slots := u.slots, units := u.units, missWait := [] } := by
  have hslot := s.slot_purge (fun r => decide (r ≠ .request p t))
  have hmissed := s.missWait_purge (fun r => decide (r ≠ .request p t))
  have hframe := s.frame_purge (fun r => decide (r ≠ .request p t))
  have hnone : s.missWait.filter (fun r => decide (r ≠ .request p t)) = [] :=
    List.filter_eq_nil_iff.2 fun w hw => by simp [hmiss w hw]
  rw [State.cutUnserved_of_current hcurrent hkind hqueue]
  generalize s.purge (fun r => decide (r ≠ .request p t)) = z at *
  have hnoretry := (s.quiet_iff.1 hquiet).1
  have hmissz : z.missWait = [] := hmissed.trans hnone
  have hunits : z.units = s.units := by rw [hframe]
  have hunit (q : PortId) : z.unit q = s.unit q := congrArg (fun us : Vector PortUnit 4 => us[q]) hunits
  have hports := (s.quiet_iff.1 hquiet).2.1
  have hquietu : ({ z.setUnit p ((s.unit p).ending t (.endMsg t .cut 0 .final)) with retryDue := false } : State).quiet = true := by
    refine State.quiet_of_handOn hquiet hnoretry.symm ?_ ?_ (fun q => ?_) fun q => ?_
    · rw [hframe]
      rfl
    · rw [hframe]
      rfl
    · refine State.handOnDue_of_port (p := p) hquiet (State.handOnDue_of_empty ?_) (fun q hq => ?_) q
      · refine (congrArg PortUnit.consumerQueue (State.unit_setUnit_self _ _ _)).trans ?_
        rw [PortUnit.consumerQueue_ending, hqueue]
      · have hother : ({ z.setUnit p ((s.unit p).ending t (.endMsg t .cut 0 .final)) with retryDue := false } : State).unit q =
            s.unit q := (State.unit_setUnit_ne _ _ hq).trans (hunit q)
        rw [hother]
        exact .refl _
    · refine (congrArg (fun u : PortUnit => beatsIn u.outbound) (State.unit_setUnit _ _ _ _)).trans ?_
      split
      · next h =>
        rw [h]
        exact (PortUnit.sameQuiet_answering (u := s.unit p) (t := t) (m := .endMsg t .cut 0 .final) trivial).2.2
      · rw [hunit]
  refine ⟨_, State.finish_of_retry hquietu ?_ ?_, hmissz, hslot, State.unit_setUnit_self _ _ _,
    fun q hq => (State.unit_setUnit_ne _ _ hq).trans (hunit q), ?_⟩
  · exact hmissz
  · rw [State.linkWait_setUnit, hframe, hlinks]
  · rw [hframe, hmissz, ← hnoretry]
    rfl

/-! ## The request's delivery streams (R100) -/

section
variable {S : SlotId}

theorem State.cutStreaming_of_take (hS : s.servingSlot (s.del p).flow = some S) (hkind : (s.del p).kind = .take) :
    s.cutStreaming p n = (s.abandonRead p).finishTake p S .cut (min n (s.del p).sent) := by
  unfold State.cutStreaming
  dsimp only
  rw [hS]
  dsimp only
  rw [hkind]

theorem State.cutStreaming_of_peek (hS : s.servingSlot (s.del p).flow = some S) (hkind : (s.del p).kind = .peek) :
    s.cutStreaming p n = (s.abandonRead p).finishPeek p S .cut (s.del p).sent := by
  unfold State.cutStreaming
  dsimp only
  rw [hS]
  dsimp only
  rw [hkind]

theorem PortUnit.ending_eq (u : PortUnit) (t : TagId) (m : OutMsg) : u.ending t m =
    ({ u with current := none }.setTag t { u.tag t with phase := .responding }).place m :=
  (PortUnit.place_current _ _ _).symm

/-- The state at which a CUT ends a delivery: the message taken in, the read abandoned (R100). -/
def State.cutBase (s : State) (p : PortId) (rest : List Message) : State := (s.headTaken p rest).abandonRead p

theorem State.quiet_cutBase (hquiet : s.quiet = true) : (s.cutBase p rest).quiet = true :=
  State.quiet_abandonRead (State.quiet_headTaken.trans hquiet)

theorem State.frame_cutBase : s.cutBase p rest =
    { s with units := (s.cutBase p rest).units, mem := (s.cutBase p rest).mem } := rfl

theorem State.unit_cutBase : (s.cutBase p rest).unit p = (s.unit p).afterTakeIn rest := State.unit_headTaken

theorem State.cutBase_ne {q : PortId} (h : q ≠ p) : (s.cutBase p rest).unit q = s.unit q := State.unit_headTaken_ne h

theorem State.streams_cutBase (hcurrent : (s.unit p).current = some (s.del p).tag) (hqueue : (s.unit p).consumerQueue = [])
    (hkind : (s.tagRec p (s.del p).tag).request.kind.isConsumer = true) (hS : s.servingSlot (s.del p).flow = some S) :
    (s.cutBase p rest).Streams p S := by
  refine ⟨?_, ?_, ?_, hS⟩
  · rw [State.unit_cutBase]
    exact hcurrent
  · rw [State.unit_cutBase]
    exact hqueue
  · have htag : (s.cutBase p rest).tagRec p (s.del p).tag = s.tagRec p (s.del p).tag := State.tagRec_headTaken _
    exact (congrArg (fun r : TagRecord => r.request.kind.isConsumer) htag).trans hkind

end

end

section
variable {s : State} {p : PortId} {kept : BitVec 16} {rest : List Message} {S : SlotId}
  (htakes : s.takesIn p (.cut (s.del p).tag kept) rest) (hstatus : (s.tagRec p (s.del p).tag).status = .inUse)
  (hkind : (s.tagRec p (s.del p).tag).request.kind = .take ∨ (s.tagRec p (s.del p).tag).request.kind = .peek)
  (hphase : (s.tagRec p (s.del p).tag).phase = .streaming) (hcurrent : (s.unit p).current = some (s.del p).tag)
  (hqueue : (s.unit p).consumerQueue = []) (hwaits : s.noWaits) (hS : s.servingSlot (s.del p).flow = some S)
  (hparked : s.lapses p = true → (s.slot S).parkedList = []) (hquiet : s.quiet = true)
include htakes hstatus hkind hphase

theorem exec_cut_of_streaming :
    exec (.cut p) s = .next ((s.headTaken p rest).cutStreaming p (keptCount kept)).finish := by
  have hrec : (s.headTaken p rest).tagRec p (s.del p).tag = s.tagRec p (s.del p).tag := State.tagRec_headTaken _
  rw [exec_cut htakes, State.cutTag_of_streaming (by rw [hrec]; exact hstatus) (by rw [hrec]; exact hkind)
    (by rw [hrec]; exact hphase)]

include hcurrent hqueue hwaits hS hparked hquiet

/-- What a CUT leaves of a PEEK that streams (R97, R100). -/
theorem exec_cut_of_peek (hpeek : (s.del p).kind = .peek) :
    ∃ u, exec (.cut p) s = .next u ∧ (u.del p).state = .idle ∧
      u.slots = (s.setSlot S { s.slot S with ref := true, delivering := false }).slots ∧
      u.unit p = s.lapseRaised p
        (((s.unit p).afterTakeIn rest).ending (s.del p).tag (.endMsg (s.del p).tag .cut (s.del p).sent .final)) ∧
      s.lapsesTo u p S ∧ (∀ q, q ≠ p → u.unit q = s.unit q ∧ u.del q = s.del q) ∧
      u = { s with
        slots := u.slots, dels := u.dels, units := u.units, mem := u.mem, holds := u.holds
        pinnedOrHeld := u.pinnedOrHeld } := by
  have hexec := exec_cut_of_streaming htakes hstatus hkind hphase
  have hconsumer : (s.tagRec p (s.del p).tag).request.kind.isConsumer = true := by
    obtain h | h := hkind <;> rw [h] <;> rfl
  have hstreams := State.streams_cutBase (rest := rest) hcurrent hqueue hconsumer hS
  rw [State.cutStreaming_of_peek (s := s.headTaken p rest) hS hpeek] at hexec
  obtain ⟨u, hu, hidle, hunit, hlapses, hslots, hne, hframe⟩ := hstreams.peekEnds rfl (fun _ _ => ⟨rfl, rfl⟩) rfl hS
    (State.quiet_cutBase hquiet) hwaits hparked .cut (s.del p).sent
  rw [State.unit_cutBase] at hunit
  refine ⟨u, hexec.trans (congrArg _ hu), hidle, hslots, ?_, hlapses,
    fun q hq => ⟨(hne q hq).1.trans (State.cutBase_ne hq), (hne q hq).2⟩, ?_⟩
  · exact hunit.trans (State.lapseRaised_current (s := s) _).symm
  · have hmem : u.mem = (s.cutBase p rest).mem := by rw [hframe]
    rw [hmem]
    exact hframe

/-- What a CUT leaves of a TAKE that streams, whose flow goes on (R95, R96, R100). -/
theorem exec_cut_of_take (htake : (s.del p).kind = .take) (hunarmed : (s.unit p).readyArmed = false)
    (hconsumer : (s.flow (s.del p).flow).consumer = p)
    (hnot : 1 ≤ min (keptCount kept) (s.del p).sent → (s.walk (s.del p) (min (keptCount kept) (s.del p).sent)).2 = none →
      ¬ s.takeDrains (s.del p) (min (keptCount kept) (s.del p).sent)) :
    ∃ u, exec (.cut p) s = .next u ∧ (u.del p).state = .idle ∧
      (1 ≤ min (keptCount kept) (s.del p).sent → s.commits u S (s.del p) (min (keptCount kept) (s.del p).sent)) ∧
      (min (keptCount kept) (s.del p).sent = 0 →
        u.slots = (s.setSlot S { s.slot S with ref := true, delivering := false }).slots ∧ u.pool = s.pool) ∧
      (u.flow (s.del p).flow).dispatched = false ∧
      u.unit p = s.lapseRaised p (((s.unit p).afterTakeIn rest).ending (s.del p).tag
        (.endMsg (s.del p).tag .cut (min (keptCount kept) (s.del p).sent) .final)) ∧
      s.lapsesTo u p S ∧ (∀ q, q ≠ p → u.unit q = s.unit q ∧ u.del q = s.del q) ∧
      u = { s with
        slots := u.slots, flows := u.flows, lists := u.lists, dels := u.dels, units := u.units, pool := u.pool
        mem := u.mem, holds := u.holds, pinnedOrHeld := u.pinnedOrHeld } := by
  have hexec := exec_cut_of_streaming htakes hstatus hkind hphase
  have hconsumes : (s.tagRec p (s.del p).tag).request.kind.isConsumer = true := by
    obtain h | h := hkind <;> rw [h] <;> rfl
  have hstreams := State.streams_cutBase (rest := rest) hcurrent hqueue hconsumes hS
  rw [State.cutStreaming_of_take (s := s.headTaken p rest) hS htake] at hexec
  obtain ⟨u, hu, hidle, hunit, hcommits, hnone, hdispatched, hlapses, hne, hframe⟩ := hstreams.takeEnds rfl
    (fun _ _ => ⟨rfl, rfl⟩) rfl hS (State.quiet_cutBase hquiet) hwaits hparked hconsumer
    (by rw [State.unit_cutBase]; exact hunarmed) .cut (c := min (keptCount kept) (s.del p).sent) (fun hremoves => by
      obtain hzero | hc := Nat.eq_zero_or_pos (min (keptCount kept) (s.del p).sent)
      · rw [hzero] at hremoves
        cases hremoves
      · exact hnot hc ((State.commitRemoves_iff hc).1 hremoves))
  rw [State.unit_cutBase] at hunit
  refine ⟨u, hexec.trans (congrArg _ hu), hidle, hcommits, hnone, hdispatched, ?_, hlapses,
    fun q hq => ⟨(hne q hq).1.trans (State.cutBase_ne hq), (hne q hq).2⟩, ?_⟩
  · exact hunit.trans (State.lapseRaised_current (s := s) _).symm
  · have hmem : u.mem = (s.cutBase p rest).mem := by rw [hframe]
    rw [hmem]
    exact hframe

end

/-- Settles O47: the stray CUT, the request not yet served, and the delivery that ends. -/
theorem cutEndsItsRequest : Obligations.CutEndsItsRequest := by
  unfold Obligations.CutEndsItsRequest
  intro s p t kept rest hquiet htakes r taken
  have hexec := exec_cut htakes
  have hquiett : (s.headTaken p rest).quiet = true := State.quiet_headTaken.trans hquiet
  have hrec : (s.headTaken p rest).tagRec p t = r := State.tagRec_headTaken t
  have hnow : (s.headTaken p rest).unit p = (s.unit p).afterTakeIn rest := State.unit_headTaken
  refine ⟨fun hstray => ?_, fun hstatus hkind => ⟨fun hphase hcurrent hmiss hlists => ?_,
    fun hphase hcurrent hqueue hwaits hstate htag S hS hparked hkinds => ?_, ?_,
    fun hphase hcurrent hqueue hlinks hmiss => ?_⟩⟩
  · rw [hexec, State.cutTag_of_stray (by rw [hrec]; exact hstray)]
    exact congrArg _ (State.finish_of_quiet hquiett)
  · rw [hexec, State.cutTag_of_unserved (by rw [hrec]; exact hstatus) (by rw [hrec]; exact hkind)
      (by rw [hrec]; exact .inl hphase), State.cutUnserved_of_queued (s := s.headTaken p rest) (by rw [hnow]; exact hcurrent)
      hmiss hlists, State.finish_of_quiet (State.quiet_unqueued hquiett), hnow, State.headTaken, State.setUnit_setUnit]
    rfl
  · subst htag
    obtain hpeek | ⟨htake, hkept, hunarmed, hconsumer⟩ := hkinds
    · obtain ⟨u, hu, hidle, hslots, hunit, hlapses, hne, hframe⟩ := exec_cut_of_peek htakes hstatus hkind hphase hcurrent
        hqueue hwaits hS hparked hquiet hpeek
      have hflows : u.flows = s.flows := by rw [hframe]
      have hlists : u.lists = s.lists := by rw [hframe]
      rw [PortUnit.ending_eq] at hunit
      refine ⟨u, hu, hidle, hslots, ?_, hlapses, hne, fun _ => ⟨hflows, hlists⟩, fun h => ?_, ?_⟩
      · rw [if_pos hpeek]
        exact hunit
      · rw [hpeek] at h
        cases h
      · rw [hflows, hlists]
        exact hframe
    · have hzero : min (keptCount kept) (s.del p).sent = 0 := by
        rw [hkept]
        exact Nat.zero_min _
      obtain ⟨u, hu, hidle, -, hnone, hdispatched, hunit, hlapses, hne, hframe⟩ := exec_cut_of_take htakes hstatus hkind hphase
        hcurrent hqueue hwaits hS hparked hquiet htake hunarmed hconsumer (fun hc => by omega)
      obtain ⟨hslots, hpool⟩ := hnone hzero
      rw [PortUnit.ending_eq, hzero] at hunit
      refine ⟨u, hu, hidle, hslots, ?_, hlapses, hne, fun h => ?_, fun _ => hdispatched, ?_⟩
      · rw [if_neg (by rw [htake]; decide)]
        exact hunit
      · rw [htake] at h
        cases h
      · rw [← hpool]
        exact hframe
  · intro hphase hcurrent hqueue hwaits hstate htag htake hunarmed hconsumer c hnot hc S hS hparked
    subst htag
    obtain ⟨u, hu, hidle, hcommits, -, -, hunit, hlapses, hne, hframe⟩ := exec_cut_of_take htakes hstatus hkind hphase
      hcurrent hqueue hwaits hS hparked hquiet htake hunarmed hconsumer fun _ hwhole hdrains =>
        hnot.elim (fun h => h hdrains.1) fun h => h hwhole
    rw [PortUnit.ending_eq] at hunit
    exact ⟨u, hu, hidle, hcommits hc, hunit, hlapses, hne, hframe⟩
  · have hconsumer : r.request.kind.isConsumer = true := by
      obtain h | h := hkind <;> rw [h] <;> rfl
    obtain ⟨u, hu, hmissu, hslots, hunit, hne, hframe⟩ := finish_cutUnserved (s := s.headTaken p rest) (p := p) (t := t) hquiett
      (by rw [hnow]; exact hcurrent) (by rw [hrec]; exact hconsumer) (by rw [hnow]; exact hqueue) hlinks hmiss
    rw [State.cutTag_of_unserved (by rw [hrec]; exact hstatus) (by rw [hrec]; exact hkind)
      (by rw [hrec]; exact .inr hphase), hu] at hexec
    rw [hnow, PortUnit.ending_eq] at hunit
    exact ⟨u, hexec, hmissu, hslots, hunit, fun q hq => (hne q hq).trans (State.unit_headTaken_ne hq), hframe⟩

end Sys2Proof.Machine

/-! SUPPORT. The abort of an assembly (R38, R82). -/

namespace Sys2Proof.Machine

/-! ## Abandoning the writes (R82, R162) -/

section
variable {s t : State} {p : PortId}

theorem State.mem_abandonWrites (hmem : t.mem = s.mem) (hhanded : t.handed = s.handed) :
    (t.abandonWrites p).mem = (s.abandonWrites p).mem ∧ (t.abandonWrites p).handed = (s.abandonWrites p).handed := by
  unfold State.abandonWrites State.flushGather
  rw [hmem, hhanded]
  cases s.mem.gather[p] with
  | none => exact ⟨by dsimp only; rw [hmem]; rfl, hhanded⟩
  | some g => exact ⟨rfl, rfl⟩

theorem State.frame_abandonWrites (s : State) (p : PortId) : s.abandonWrites p =
    { s with mem := (s.abandonWrites p).mem, handed := (s.abandonWrites p).handed } := by
  unfold State.abandonWrites State.flushGather
  cases s.mem.gather[p] <;> rfl

theorem any_read_map_orphaned (l : List PortAccess) (isRead : PortAccess → Bool)
    (h : ∀ w w', isRead (.write w) = isRead (.write w')) : (l.map PortAccess.orphaned).any isRead = l.any isRead := by
  rw [List.any_map]
  refine congrArg (fun f => List.any l f) (funext fun a => ?_)
  cases a with
  | write w => exact h _ _
  | read r => rfl

/-- The writes of an aborted assembly are no reads (R92). -/
theorem State.readOutstanding_abandonWrites (s : State) (p q : PortId) :
    (s.abandonWrites p).readOutstanding q = s.readOutstanding q := by
  have hflush : (s.flushGather p false).readOutstanding q = s.readOutstanding q := by
    unfold State.flushGather
    cases s.mem.gather[p] with
    | none => rfl
    | some g =>
      by_cases hq : q = p
      · subst hq
        have hqueue (w : WordWrite) : ((s.mem.setQueue q (s.mem.portQueue[q] ++ [.write w])).setGather q none).portQueue[q] =
            s.mem.portQueue[q] ++ [.write w] := MemController.portQueue_setQueue_self _ _ _
        unfold State.readOutstanding
        dsimp only
        rw [hqueue, List.any_append]
        simp
        rfl
      · have hqueue (w : WordWrite) : ((s.mem.setQueue p (s.mem.portQueue[p] ++ [.write w])).setGather p none).portQueue[q] =
            s.mem.portQueue[q] := MemController.portQueue_setQueue_ne _ _ hq
        unfold State.readOutstanding
        dsimp only
        rw [hqueue]
        rfl
  rw [← hflush]
  unfold State.abandonWrites
  generalize s.flushGather p false = z
  have hqueue : ((z.mem.setQueue p (z.mem.portQueue[p].map PortAccess.orphaned)).portQueue[q]) =
      if q = p then z.mem.portQueue[p].map PortAccess.orphaned else z.mem.portQueue[q] := by
    split
    · next h =>
      rw [h]
      exact MemController.portQueue_setQueue_self _ _ _
    · next h => exact MemController.portQueue_setQueue_ne _ _ h
  unfold State.readOutstanding
  dsimp only [State.mem_setMem]
  rw [hqueue]
  refine congrArg₂ _ ?_ ?_
  · split
    · next h =>
      rw [h]
      exact any_read_map_orphaned _ _ fun _ _ => rfl
    · rfl
  · unfold MemController.setQueue
    dsimp only
    cases z.mem.inProgress with
    | none => rfl
    | some a => cases a <;> rfl

end

/-! ## The abort (R38, R82) -/

section
variable {s : State} {p : PortId} {t : TagId} {st : Status}

theorem State.abortPool_eq (s : State) (a : Assembly) : s.abortPool a = (s.setPool (s.poolAborting a)).setFlow a.flow
    { s.flow a.flow with
      admittedSegs := (s.flow a.flow).admittedSegs - a.needed, admittedUnits := (s.flow a.flow).admittedUnits - 1 } := by
  obtain ⟨hreserved, hfree⟩ := s.pool.release_counts a.chainFirst a.chainLast a.allocated
  have harmed := s.pool.lowArmed_release a.chainFirst a.chainLast a.allocated
  unfold State.abortPool State.poolAborting
  dsimp only
  rw [State.rearm_eq, State.poolRearmed]
  generalize s.pool.release a.chainFirst a.chainLast a.allocated = P at *
  rw [← hreserved, ← hfree, ← harmed]
  rfl

theorem State.abortRecord_none : s.abortRecord p none = (({ (s.setFlow (s.asm p).flow { s.flow (s.asm p).flow with
      admittedSegs := (s.flow (s.asm p).flow).admittedSegs - (s.asm p).needed
      admittedUnits := (s.flow (s.asm p).flow).admittedUnits - 1 }).setAsm p Assembly.initial with
    pool := s.poolAborting (s.asm p), mem := (s.abandonWrites p).mem, handed := (s.abandonWrites p).handed } : State)).drainTest
      (s.asm p).flow := by
  obtain ⟨hmem, hhanded⟩ := State.mem_abandonWrites (s := s) (t := s.abortPool (s.asm p)) (p := p)
    (by rw [State.abortPool_eq]; rfl) (by rw [State.abortPool_eq]; rfl)
  unfold State.abortRecord
  dsimp only
  rw [State.frame_abandonWrites, hmem, hhanded, State.abortPool_eq]
  rfl

/-- The abort of an assembly whose PUT is answered (R38, R82). -/
theorem State.abortRecord_some (htag : (s.asm p).tag = some t) (hcurrent : (s.unit p).current ≠ some t) :
    s.abortRecord p (some st) = (s.assemblyAborted p t st).drainTest (s.asm p).flow := by
  obtain ⟨hmem, hhanded⟩ := State.mem_abandonWrites (s := s) (t := s.abortPool (s.asm p)) (p := p)
    (by rw [State.abortPool_eq]; rfl) (by rw [State.abortPool_eq]; rfl)
  have hrespond (z : State) (hz : z.unit p = s.unit p) : z.respond p t st .none = z.setUnit p
      (((s.unit p).setTag t { s.tagRec p t with phase := .responding }).place (.response t st .none .final)) := by
    rw [State.respond, State.answered, hz]
    dsimp only
    rw [PortUnit.currentEnded_of_ne (by exact hcurrent)]
    rfl
  unfold State.abortRecord
  dsimp only
  rw [htag]
  dsimp only
  rw [State.frame_abandonWrites, hmem, hhanded, State.abortPool_eq]
  exact congrArg (State.drainTest · (s.asm p).flow) (hrespond _ rfl)

/-- A state in which an assembly has been aborted and its PUT answered (R38, R82). -/
structure State.Aborts (s u : State) (p : PortId) (v : PortUnit) : Prop where
  unit_self : u.unit p = v
  unit_ne : ∀ q, q ≠ p → u.unit q = s.unit q
  asm_self : u.asm p = Assembly.initial
  asm_ne : ∀ q, q ≠ p → u.asm q = s.asm q
  flow_self : u.flow (s.asm p).flow = { s.flow (s.asm p).flow with
    admittedSegs := (s.flow (s.asm p).flow).admittedSegs - (s.asm p).needed
    admittedUnits := (s.flow (s.asm p).flow).admittedUnits - 1 }
  flow_ne : ∀ g, g ≠ (s.asm p).flow → u.flow g = s.flow g
  pool : u.pool = s.poolAborting (s.asm p)
  mem : u.mem = (s.abandonWrites p).mem
  frame : u = { s with
    flows := u.flows, asms := u.asms, units := u.units, pool := u.pool, mem := u.mem, handed := u.handed }

theorem State.aborts_assemblyAborted (s : State) (p : PortId) (t : TagId) (st : Status) :
    s.Aborts (s.assemblyAborted p t st) p
      (((s.unit p).setTag t { s.tagRec p t with phase := .responding }).place (.response t st .none .final)) :=
  ⟨State.unit_setUnit_self _ _ _, fun _ hq => State.unit_setUnit_ne _ _ hq, State.asm_setAsm_self _ _ _,
    fun _ hq => State.asm_setAsm_ne _ _ hq, State.flow_setFlow_self _ _ _, fun _ hg => State.flow_setFlow_ne _ _ hg, rfl, rfl,
    rfl⟩

section
variable {u : State} {v : PortUnit} (h : s.Aborts u p v)
include h

theorem State.Aborts.servingSlot : u.servingSlot (s.asm p).flow = s.servingSlot (s.asm p).flow := by
  refine State.servingSlot_congr (by rw [h.frame]) ?_
  rw [h.flow_self]

theorem State.Aborts.counted (S : SlotId) : u.counted S = s.counted S :=
  State.counted_congr (by rw [h.frame]) (by rw [h.frame]) S

theorem State.Aborts.readOutstanding (q : PortId) : u.readOutstanding q = s.readOutstanding q := by
  rw [← s.readOutstanding_abandonWrites p q, State.readOutstanding, h.mem]
  rfl

end

end

/-! ## The end of an event that hands accesses alone (R62, R157) -/

section
variable {s : State}

theorem State.finish_of_accesses (hhand : ∀ q, s.handOnDue q = false) (hreads : ∀ q, s.readDue q = false)
    (hwaits : s.retryDue = true → s.noWaits) : s.finish = { s with retryDue := false, mem := s.mem.grant } := by
  have hsame : ({ s with retryDue := false } : State).issueReads = { s with retryDue := false } :=
    State.issueReads_quiet _ hreads
  rw [State.finish_eq hhand hwaits, hsame]
  rfl

/-- The same, where the event differs from a quiet state's in what `SameQuiet` does not look at. -/
theorem State.finish_of_sameQuiet {y : State} (hquiet : y.quiet = true) (hsame : ∀ q, (y.unit q).SameQuiet (s.unit q))
    (hdels : s.dels = y.dels) (hreads : ∀ q, s.readOutstanding q = y.readOutstanding q)
    (hwaits : s.retryDue = true → s.noWaits) : s.finish = { s with retryDue := false, mem := s.mem.grant } := by
  have hports := (y.quiet_iff.1 hquiet).2.1
  refine State.finish_of_accesses (fun q => ?_) (fun q => ?_) hwaits
  · obtain ⟨hqueue, hcurrent, -⟩ := hsame q
    rw [← (hports q).1, State.handOnDue, hqueue, hcurrent]
    rfl
  · obtain ⟨-, -, hbeats⟩ := hsame q
    have hdel : s.del q = y.del q := congrArg (fun ds : Vector Delivery 4 => ds[q]) hdels
    rw [← (hports q).2, State.readDue, hreads, hdel, hbeats]
    rfl

end

end Sys2Proof.Machine

/-! SUPPORT. GAP_TIMEOUT. -/

namespace Sys2Proof.Machine

section
variable {s u w : State} {p : PortId} {t : TagId} {S : SlotId} {f : FlowId} {v : PortUnit}

/-- A flow that no slot serves and no port holds enters CLOSED at the flow map and its ready list alone (R16, R18). -/
theorem State.enterClosed_of_unserved (hserving : s.servingSlot f = none) (hholder : s.holder f = none) :
    s.enterClosed f = s.closeFlow f := by
  have hlists := s.inLists_closeFlow f
  have hres := s.residency_closeFlow f f
  rw [State.enterClosed_eq, State.closeSlot]
  generalize s.closeFlow f = z at *
  have hslots : z.slots = s.slots := by rw [hlists]
  have hholds : z.holds = s.holds := by rw [hlists]
  have hnone : z.holder f = none := by
    rw [← hholder]
    unfold State.holder State.hold
    rw [hholds]
  rw [(State.servingSlot_congr hslots hres).trans hserving]
  dsimp only
  rw [State.dropHold, hnone]

theorem State.admittedFell_of_none_parked (h : ∀ S, s.servingSlot f = some S → (s.slot S).parkedList = []) :
    s.admittedFell f = s := by
  unfold State.admittedFell
  split
  · exact State.parkedPass_of_none_parked h
  · rfl

theorem exec_gapTimeout_of_not (h : ¬ s.gapExpired p) : exec (.gapTimeout p) s = .next s := by
  have hexec : exec (.gapTimeout p) s = execGapTimeout p s := rfl
  rw [hexec, execGapTimeout, if_neg (fun hdue => h ((s.gapDue_iff p).1 hdue))]

theorem exec_gapTimeout_of_discarding (h : s.gapExpired p) (hstate : (s.asm p).state = .discarding) :
    exec (.gapTimeout p) s = .next (s.setAsm p Assembly.initial) := by
  have hexec : exec (.gapTimeout p) s = execGapTimeout p s := rfl
  rw [hexec, execGapTimeout, if_pos ((s.gapDue_iff p).2 h), hstate]

/-- A timeout of an assembly is its abort (R77, R82). -/
theorem exec_gapTimeout_of_assembling (h : s.gapExpired p) (hstate : (s.asm p).state = .assembling)
    (htag : (s.asm p).tag = some t) (hcurrent : (s.unit p).current ≠ some t) : exec (.gapTimeout p) s =
      .next (((s.assemblyAborted p t .timeout).drainTest (s.asm p).flow).admittedFell (s.asm p).flow).finish := by
  have hexec : exec (.gapTimeout p) s = execGapTimeout p s := rfl
  rw [hexec, execGapTimeout, if_pos ((s.gapDue_iff p).2 h), hstate]
  dsimp only
  rw [State.abort, State.abortRecord_some htag hcurrent]
  rfl

section
variable (h : s.Aborts u p v) (hquiet : s.quiet = true) (hv : (s.unit p).SameQuiet v)
include h hquiet hv

/-- The end of an event in which an assembly has been aborted, and what else was done left the port units' queues and the
reads as they were. -/
theorem State.Aborts.finish (hunits : ∀ q, (u.unit q).SameQuiet (w.unit q)) (hdels : w.dels = u.dels) (hmem : w.mem = u.mem)
    (hwaits : w.retryDue = true → w.noWaits) : w.finish = { w with retryDue := false, mem := w.mem.grant } := by
  refine State.finish_of_sameQuiet hquiet (fun q => PortUnit.SameQuiet.trans ?_ (hunits q)) ?_ (fun q => ?_) hwaits
  · by_cases hq : q = p
    · rw [hq, h.unit_self]
      exact hv
    · rw [h.unit_ne q hq]
      exact .refl _
  · rw [hdels, h.frame]
  · rw [← h.readOutstanding q, State.readOutstanding, hmem]
    rfl

/-- An abort that drains no flow (R38, R82). -/
theorem State.Aborts.finish_of_not (hnot : ¬ ((s.flow (s.asm p).flow).state = .draining ∧ (s.flow (s.asm p).flow).segCount = 0 ∧
      (s.flow (s.asm p).flow).admittedUnits - 1 = 0))
    (hparked : ∀ S, s.servingSlot (s.asm p).flow = some S → (s.slot S).parkedList = []) :
    ((u.drainTest (s.asm p).flow).admittedFell (s.asm p).flow).finish = { u with mem := u.mem.grant } := by
  have hdrain : u.drainTest (s.asm p).flow = u := State.drainTest_of_not (by rw [h.flow_self]; exact hnot)
  have hslots : u.slots = s.slots := by rw [h.frame]
  have hfell : u.admittedFell (s.asm p).flow = u := State.admittedFell_of_none_parked fun S hS => by
    rw [h.servingSlot] at hS
    have hslot : u.slot S = s.slot S := congrArg (fun vs : Vector Slot 64 => vs[S]) hslots
    rw [hslot]
    exact hparked S hS
  have hretry : u.retryDue = false := by rw [h.frame]; exact (s.quiet_iff.1 hquiet).1
  rw [hdrain, hfell, h.finish hquiet hv (w := u) (fun _ => .refl _) rfl rfl (fun hdue => by rw [hretry] at hdue; cases hdue)]
  rw [← hretry]

/-- An abort that drains its flow, at a slot (R16, R17). -/
theorem State.Aborts.finish_of_drains (hends : (s.flow (s.asm p).flow).state = .draining ∧ (s.flow (s.asm p).flow).segCount = 0 ∧
      (s.flow (s.asm p).flow).admittedUnits - 1 = 0) (hwaits : s.noWaits) (hex : s.holdsExclusive)
    (hS : s.servingSlot (s.asm p).flow = some S) (hparked : (s.slot S).parkedList = []) :
    ∃ c, u.Closes c (s.asm p).flow S ∧ ((u.drainTest (s.asm p).flow).admittedFell (s.asm p).flow).finish =
      { c.raise (s.flow (s.asm p).flow).consumer (.drained (s.asm p).flow) with retryDue := false, mem := c.mem.grant } := by
  have hslots : u.slots = s.slots := by rw [h.frame]
  have hslot : u.slot S = s.slot S := congrArg (fun vs : Vector Slot 64 => vs[S]) hslots
  have hexu : u.holdsExclusive := by rw [h.frame]; exact hex
  have hcloses := State.closes_enterClosed hexu (h.servingSlot.trans hS) (by rw [hslot]; exact hparked)
  have hdrain : u.drainTest (s.asm p).flow =
      (u.enterClosed (s.asm p).flow).raise (s.flow (s.asm p).flow).consumer (.drained (s.asm p).flow) := by
    rw [State.drainTest_of_ends (by rw [h.flow_self]; exact hends), h.flow_self]
  refine ⟨_, hcloses, ?_⟩
  rw [hdrain]
  have hwaitsu : u.noWaits := by rw [h.frame]; exact hwaits
  have hwaitsc := hcloses.noWaits_raise hwaitsu (s.flow (s.asm p).flow).consumer (.drained (s.asm p).flow)
  generalize u.enterClosed (s.asm p).flow = c at *
  have hfell : (c.raise (s.flow (s.asm p).flow).consumer (.drained (s.asm p).flow)).admittedFell (s.asm p).flow =
      c.raise (s.flow (s.asm p).flow).consumer (.drained (s.asm p).flow) := by
    refine State.admittedFell_of_none_parked fun T hT => ?_
    have hnone : c.servingSlot (s.asm p).flow = none := State.servingSlot_of_absent (by rw [hcloses.flow_self])
    cases hnone.symm.trans hT
  rw [hfell]
  refine h.finish hquiet hv (fun q => ?_) ?_ ?_ fun _ => hwaitsc
  · have hunit : c.unit q = u.unit q := congrArg (fun us : Vector PortUnit 4 => us[q]) hcloses.units
    rw [State.raise, State.unit_setUnit]
    split
    · next hq =>
      rw [← hq, hunit]
      exact PortUnit.sameQuiet_raise _ _
    · rw [hunit]
      exact .refl _
  · rw [State.raise, hcloses.frame]
    rfl
  · rw [State.raise, hcloses.frame]
    rfl

/-- An abort that drains its flow, where no slot serves it and no port holds it (R16 to R18). -/
theorem State.Aborts.finish_of_unserved (hends : (s.flow (s.asm p).flow).state = .draining ∧
      (s.flow (s.asm p).flow).segCount = 0 ∧ (s.flow (s.asm p).flow).admittedUnits - 1 = 0)
    (hS : s.servingSlot (s.asm p).flow = none) (hholder : s.holder (s.asm p).flow = none) :
    ((u.drainTest (s.asm p).flow).admittedFell (s.asm p).flow).finish =
      { (u.closeFlow (s.asm p).flow).raise (s.flow (s.asm p).flow).consumer (.drained (s.asm p).flow) with
        mem := u.mem.grant } := by
  have hservingu : u.servingSlot (s.asm p).flow = none := h.servingSlot.trans hS
  have hholderu : u.holder (s.asm p).flow = none := by
    have hholds : u.holds = s.holds := by rw [h.frame]
    rw [← hholder]
    unfold State.holder State.hold
    rw [hholds]
  have hdrain : u.drainTest (s.asm p).flow =
      (u.closeFlow (s.asm p).flow).raise (s.flow (s.asm p).flow).consumer (.drained (s.asm p).flow) := by
    rw [State.drainTest_of_ends (by rw [h.flow_self]; exact hends), h.flow_self,
      State.enterClosed_of_unserved hservingu hholderu]
  have hlists := u.inLists_closeFlow (s.asm p).flow
  have hunits := u.units_closeFlow (s.asm p).flow
  have hres := u.residency_closeFlow (s.asm p).flow (s.asm p).flow
  rw [hdrain]
  generalize u.closeFlow (s.asm p).flow = c at *
  have hslots : c.slots = u.slots := by rw [hlists]
  have hfell : (c.raise (s.flow (s.asm p).flow).consumer (.drained (s.asm p).flow)).admittedFell (s.asm p).flow =
      c.raise (s.flow (s.asm p).flow).consumer (.drained (s.asm p).flow) :=
    State.admittedFell_of_none_parked fun T hT => by
      cases (((State.servingSlot_congr hslots hres).trans hservingu).symm.trans hT)
  have hretry : c.retryDue = false := by rw [hlists, h.frame]; exact (s.quiet_iff.1 hquiet).1
  have hmem : c.mem = u.mem := by rw [hlists]
  rw [hfell, h.finish hquiet hv (w := c.raise (s.flow (s.asm p).flow).consumer (.drained (s.asm p).flow)) (fun q => ?_)
    (by rw [State.raise, hlists]; rfl) hmem (fun hdue => by
      rw [State.raise, State.retryDue_setUnit, hretry] at hdue
      cases hdue)]
  · rw [← hretry, ← hmem]
    rfl
  · have hunit : c.unit q = u.unit q := congrArg (fun us : Vector PortUnit 4 => us[q]) hunits
    rw [State.raise, State.unit_setUnit]
    split
    · next hq =>
      rw [← hq, hunit]
      exact PortUnit.sameQuiet_raise _ _
    · rw [hunit]
      exact .refl _

end

/-- The units when a notice has been raised to a flow's consumer behind the answer at port `p` (R17). -/
theorem State.Aborts.units_raised (h : s.Aborts u p v) (hunits : w.units = u.units) (q : PortId) (n : Notice) :
    ((w.raise q n).unit q = (if q = p then v else s.unit q).raise n) ∧
      (p ≠ q → (w.raise q n).unit p = v) ∧ ∀ o, o ≠ p → o ≠ q → (w.raise q n).unit o = s.unit o := by
  have hunit (o : PortId) : w.unit o = u.unit o := congrArg (fun us : Vector PortUnit 4 => us[o]) hunits
  refine ⟨?_, fun hpq => ?_, fun o hop hoq => ?_⟩
  · rw [State.raise, State.unit_setUnit_self, hunit]
    split
    · next hqp => rw [hqp, h.unit_self]
    · next hqp => rw [h.unit_ne q hqp]
  · rw [State.raise, State.unit_setUnit_ne _ _ hpq, hunit, h.unit_self]
  · rw [State.raise, State.unit_setUnit_ne _ _ hoq, hunit, h.unit_ne o hop]

end

/-- Settles O48: no timeout before the limit, the end of a discard, and the abort with what it drains. -/
theorem gapTimeoutEndsTheWork : Obligations.GapTimeoutEndsTheWork := by
  unfold Obligations.GapTimeoutEndsTheWork
  intro s p hquiet a e ends
  refine ⟨exec_gapTimeout_of_not, exec_gapTimeout_of_discarding, ?_⟩
  intro hexpired hstate t htag hcurrent hparked answered
  have hexec := exec_gapTimeout_of_assembling hexpired hstate htag hcurrent
  have haborts := s.aborts_assemblyAborted p t .timeout
  have hsame : (s.unit p).SameQuiet answered :=
    PortUnit.SameQuiet.trans (v := (s.unit p).setTag t { s.tagRec p t with phase := .responding }) ⟨rfl, rfl, rfl⟩
      (PortUnit.sameQuiet_place _ (show (OutMsg.response t .timeout .none .final).NotBeat from trivial) _)
  generalize s.assemblyAborted p t .timeout = u at *
  refine ⟨fun hnot => ?_, fun hends hwaits hex S hS => ?_, fun hends hS hholder => ?_⟩
  · refine ⟨_, hexec.trans (congrArg _ (haborts.finish_of_not hquiet hsame hnot hparked)), haborts.asm_self, haborts.unit_self,
      haborts.flow_self, haborts.pool, fun q hq => ⟨haborts.unit_ne q hq, haborts.asm_ne q hq⟩, haborts.flow_ne, ?_⟩
    rw [haborts.frame]
  · obtain ⟨c, hcloses, hfinish⟩ := haborts.finish_of_drains hquiet hsame hends hwaits hex hS (hparked S hS)
    obtain ⟨hconsumer, hself, hothers⟩ := haborts.units_raised hcloses.units e.consumer (.drained a.flow)
    have hasms : c.asms = u.asms := by rw [hcloses.frame]
    have hasm (q : PortId) : c.asm q = u.asm q := congrArg (fun as : Vector Assembly 4 => as[q]) hasms
    have hpool : c.pool = u.pool := by rw [hcloses.frame]
    have hslots : u.slots = s.slots := by rw [haborts.frame]
    have hslot (T : SlotId) : u.slot T = s.slot T := congrArg (fun vs : Vector Slot 64 => vs[T]) hslots
    have hcountu : u.pinnedOrHeld = s.pinnedOrHeld := by rw [haborts.frame]
    have hcount := hcloses.count
    rw [hcountu, haborts.counted] at hcount
    have hflow := hcloses.flow_self
    have hadmitted : (c.flow a.flow).admittedUnits = 0 := by
      rw [hflow, haborts.flow_self]
      exact hends.2.2
    refine ⟨_, hexec.trans (congrArg _ hfinish), (hasm p).trans haborts.asm_self, hconsumer, hself,
      fun q hq => ⟨(hasm q).trans (haborts.asm_ne q hq), hothers q hq⟩,
      ⟨congrArg (fun e : FlowEntry => e.state) hflow, hadmitted, congrArg (fun e : FlowEntry => e.halt) hflow,
        congrArg (fun e : FlowEntry => e.ready) hflow, congrArg (fun e : FlowEntry => e.listed) hflow,
        congrArg (fun e : FlowEntry => e.dispatched) hflow, congrArg (fun e : FlowEntry => e.residency) hflow⟩,
      ⟨congrArg (fun v : Slot => v.state) hcloses.slot_self, congrArg (fun v : Slot => v.flow) hcloses.slot_self,
        fun T hT => (hcloses.slot_ne T hT).trans (hslot T)⟩, hcloses.hold_flow, hcount, hpool.trans haborts.pool, ?_⟩
    have hnoretry := (s.quiet_iff.1 hquiet).1
    have hframe := haborts.frame
    have hcframe := hcloses.frame
    rw [State.raise, hcframe, hframe, ← hnoretry]
    rfl
  · have hfinish := haborts.finish_of_unserved hquiet hsame hends hS hholder
    obtain ⟨hconsumer, hself, hothers⟩ := haborts.units_raised (u.units_closeFlow a.flow) e.consumer (.drained a.flow)
    have hflow := u.flow_closeFlow_self a.flow
    rw [haborts.flow_self] at hflow
    have hlists := u.inLists_closeFlow a.flow
    unfold State.InLists at hlists
    generalize u.closeFlow a.flow = c at *
    have hasms : c.asms = u.asms := by rw [hlists]
    have hasm (q : PortId) : c.asm q = u.asm q := congrArg (fun as : Vector Assembly 4 => as[q]) hasms
    have hpool : c.pool = u.pool := by rw [hlists]
    refine ⟨_, hexec.trans (congrArg _ hfinish), (hasm p).trans haborts.asm_self, hconsumer, hself,
      fun q hq => ⟨(hasm q).trans (haborts.asm_ne q hq), hothers q hq⟩,
      ⟨congrArg (fun e : FlowEntry => e.state) hflow, (congrArg (fun e : FlowEntry => e.admittedUnits) hflow).trans hends.2.2,
        congrArg (fun e : FlowEntry => e.halt) hflow, congrArg (fun e : FlowEntry => e.ready) hflow,
        congrArg (fun e : FlowEntry => e.listed) hflow, congrArg (fun e : FlowEntry => e.dispatched) hflow,
        (congrArg (fun e : FlowEntry => e.residency) hflow).trans rfl⟩, hpool.trans haborts.pool, ?_⟩
    have hframe := haborts.frame
    rw [State.raise, hlists, hframe]
    rfl

end Sys2Proof.Machine

/-! SUPPORT. The free list under an allocation and a release, and the sum of R32 (R26, R28 to R32). -/

namespace Sys2Proof.Machine

/-! ## The link table -/

section
variable {P Q : Pool} {after first last n m : Nat} {segs chain : List Nat}

theorem Pool.link_setLink (P : Pool) (n m : Nat) (e : LinkEntry) :
    (P.setLink n e).link m = if m = n then e else P.link m := by
  unfold Pool.link Pool.setLink
  dsimp only
  by_cases h : m = n
  · rw [if_pos h, h, Table.get_put_self]
  · have hfind (d : LinkEntry) : Table.find? (Table.put d P.links n e) m = Table.find? P.links m := by
      unfold Table.put
      split
      · rw [Table.find?_erase, if_neg h]
      · rw [Table.find?_insert, if_neg h]
    rw [if_neg h, Table.get, hfind, Table.get]

@[simp] theorem Pool.link_setLink_self (P : Pool) (n : Nat) (e : LinkEntry) : (P.setLink n e).link n = e := by
  rw [Pool.link_setLink, if_pos rfl]

theorem Pool.link_setLink_ne (P : Pool) (e : LinkEntry) (h : m ≠ n) : (P.setLink n e).link m = P.link m := by
  rw [Pool.link_setLink, if_neg h]

theorem Pool.link_setNext_ne (P : Pool) (k : Nat) (h : m ≠ n) : (P.setNext n k).link m = P.link m :=
  P.link_setLink_ne _ h

theorem Pool.next_setNext_self (P : Pool) (n k : Nat) : ((P.setNext n k).link n).next = k := by
  rw [Pool.setNext, Pool.link_setLink_self]

/-- A next that is written leaves what an entry says of its own segment. -/
theorem Pool.data_setNext (P : Pool) (n k m : Nat) : ((P.setNext n k).link m).last = (P.link m).last ∧
    ((P.setNext n k).link m).fill = (P.link m).fill := by
  by_cases h : m = n
  · rw [h, Pool.setNext, Pool.link_setLink_self]
    exact ⟨rfl, rfl⟩
  · rw [P.link_setNext_ne k h]
    exact ⟨rfl, rfl⟩

/-! ## Chains -/

theorem Pool.chained_congr (h : ∀ n ∈ chain, Q.link n = P.link n) (hchain : P.chained after chain) :
    Q.chained after chain := by
  induction chain with
  | nil => trivial
  | cons n rest ih =>
    have hn := h n List.mem_cons_self
    cases rest with
    | nil => exact ⟨hchain.1, by rw [hn]; exact hchain.2⟩
    | cons m rest => exact ⟨hchain.1, by rw [hn]; exact hchain.2.1,
        ih (fun k hk => h k (List.mem_cons_of_mem n hk)) hchain.2.2⟩

theorem Pool.chained_setNext_of_not_mem (k : Nat) (h : n ∉ chain) (hchain : P.chained after chain) :
    (P.setNext n k).chained after chain :=
  Pool.chained_congr (fun m hm => P.link_setNext_ne k fun e => h (by rwa [← e])) hchain

/-- The next of a chain's last segment, which names what comes after the chain. -/
theorem Pool.chained_setNext_last (k : Nat) (hnodup : chain.Nodup) (hlast : chain.getLast? = some n)
    (hchain : P.chained after chain) : (P.setNext n k).chained k chain := by
  induction chain with
  | nil => trivial
  | cons m rest ih =>
    cases rest with
    | nil =>
      obtain rfl : m = n := Option.some.inj hlast
      exact ⟨hchain.1, P.next_setNext_self m k⟩
    | cons l rest =>
      have hnotMem := (List.nodup_cons.1 hnodup).1
      have hrest : (l :: rest).getLast? = some n := by rwa [List.getLast?_cons_cons] at hlast
      have hne : m ≠ n := fun e => hnotMem (e ▸ List.mem_of_getLast? hrest)
      exact ⟨hchain.1, by rw [P.link_setNext_ne k hne]; exact hchain.2.1,
        ih (List.nodup_cons.1 hnodup).2 hrest hchain.2.2⟩

/-- Two chains of which the first leads to the second are one. -/
theorem Pool.chained_append (hsegs : P.chained first segs) (hchain : P.chained after chain)
    (hfirst : chain.head? = some first) : P.chained after (segs ++ chain) := by
  obtain ⟨x, rest, rfl⟩ : ∃ x rest, chain = x :: rest := List.exists_cons_of_ne_nil (by rintro rfl; cases hfirst)
  obtain rfl : x = first := Option.some.inj hfirst
  induction segs with
  | nil => exact hchain
  | cons n tail ih =>
    cases tail with
    | nil => exact ⟨hsegs.1, hsegs.2, hchain⟩
    | cons m tail => exact ⟨hsegs.1, hsegs.2.1, ih hsegs.2.2⟩

theorem Pool.chained_ne_zero (h : P.chained after chain) : ∀ n ∈ chain, n ≠ 0 := by
  induction chain with
  | nil => exact fun n hn => absurd hn List.not_mem_nil
  | cons m rest ih =>
    have hm : m ≠ 0 := by
      cases rest with
      | nil => exact h.1
      | cons l rest => exact h.1
    have hrest : P.chained after rest := by
      cases rest with
      | nil => trivial
      | cons l rest => exact h.2.2
    exact List.forall_mem_cons.2 ⟨hm, ih hrest⟩

theorem Pool.chained_tail {n : Nat} (h : P.chained after (n :: segs)) : P.chained after segs := by
  cases segs with
  | nil => trivial
  | cons m rest => exact h.2.2

/-- The next of a chain's first segment. -/
theorem Pool.next_head_of_chained {n : Nat} (h : P.chained 0 (n :: segs)) : (P.link n).next = segs.head?.getD 0 := by
  cases segs with
  | nil => exact h.2
  | cons m rest => exact h.2.1

end

/-! ## Allocation and release -/

section
variable {P : Pool} {S first last next length k : Nat} {segs chain : List Nat}

theorem fillOf_eq (h1 : 1 ≤ k) (h2 : k ≤ neededFor length) : fillOf length k = min 128 (length - 128 * (k - 1)) := by
  unfold fillOf neededFor at *
  split <;> omega

/-- The pool when the head of its free list has left it. -/
def Pool.headless (P : Pool) : Pool := { P with
  freeHead := if P.freeHead = P.freeTail then 0 else (P.link P.freeHead).next
  freeTail := if P.freeHead = P.freeTail then 0 else P.freeTail
  free := P.free - 1, reserved := P.reserved - 1 }

theorem Pool.allocate_eq (P : Pool) (length k : Nat) : P.allocate length k = P.headless.setLink P.freeHead
    { next := 0, last := decide (k = neededFor length), fill := fillOf length k } := by
  unfold Pool.allocate Pool.headless
  dsimp only
  split <;> rfl

theorem Pool.link_allocate_ne {n : Nat} (length k : Nat) (h : n ≠ P.freeHead) :
    (P.allocate length k).link n = P.link n := by
  rw [Pool.allocate_eq, Pool.link_setLink_ne _ _ h]
  rfl

/-- An allocation takes the head of the free list (R29). -/
theorem Pool.freeIs_allocate (h : P.freeIs (S :: segs)) (length k : Nat) : (P.allocate length k).freeIs segs := by
  obtain ⟨hchain, hnodup, hhead, htail, hfree⟩ := h
  obtain ⟨hnotMem, hnodup⟩ := List.nodup_cons.1 hnodup
  replace hhead : P.freeHead = S := hhead
  have hends : P.freeHead = P.freeTail ↔ segs = [] := by
    rw [hhead, htail]
    cases segs with
    | nil => simp
    | cons m rest =>
      have hl := List.getLast?_eq_some_getLast (List.cons_ne_nil m rest)
      generalize (m :: rest).getLast (List.cons_ne_nil m rest) = l at hl
      rw [List.getLast?_cons_cons, hl]
      exact ⟨fun e => absurd (show S ∈ m :: rest from by rw [e]; exact List.mem_of_getLast? hl) hnotMem,
        fun e => absurd e (List.cons_ne_nil m rest)⟩
  refine ⟨Pool.chained_congr (fun n hn => Pool.link_allocate_ne length k ?_) (Pool.chained_tail hchain), hnodup, ?_, ?_,
    ?_⟩
  · rintro rfl
    exact hnotMem (hhead ▸ hn)
  · rw [Pool.allocate_eq]
    change (if P.freeHead = P.freeTail then 0 else (P.link P.freeHead).next) = _
    rw [hhead, ← Pool.next_head_of_chained hchain]
    rw [hhead] at hends
    split
    · next e =>
      rw [Pool.next_head_of_chained hchain, hends.1 e]
      rfl
    · rfl
  · rw [Pool.allocate_eq]
    change (if P.freeHead = P.freeTail then 0 else P.freeTail) = _
    split
    · next e =>
      rw [hends.1 e]
      rfl
    · next e =>
      rw [htail]
      cases segs with
      | nil => exact absurd (hends.2 rfl) e
      | cons m rest => rw [List.getLast?_cons_cons]
  · rw [Pool.allocate_eq]
    change P.free - 1 = _
    rw [hfree]
    rfl

/-- A chain is released when its last segment has no next, and the free list ends with it (R30). -/
theorem Pool.release_eq (P : Pool) (first last : Nat) {count : Nat} (h : count ≠ 0) : P.release first last count =
    { (if P.freeHead = 0 then P.setNext last 0 else (P.setNext last 0).setNext P.freeTail first) with
      freeHead := if P.freeHead = 0 then first else P.freeHead, freeTail := last, free := P.free + count } := by
  have hhead : (P.setNext last 0).freeHead = P.freeHead := rfl
  unfold Pool.release
  rw [if_neg h]
  dsimp only
  rw [hhead]
  split <;> rfl

theorem Pool.data_release (P : Pool) (first last count n : Nat) :
    ((P.release first last count).link n).last = (P.link n).last ∧
      ((P.release first last count).link n).fill = (P.link n).fill := by
  by_cases h : count = 0
  · rw [Pool.release, if_pos h]
    exact ⟨rfl, rfl⟩
  · rw [P.release_eq first last h]
    obtain ⟨hlast, hfill⟩ := P.data_setNext last 0 n
    obtain ⟨hlast', hfill'⟩ := (P.setNext last 0).data_setNext P.freeTail first n
    split
    · exact ⟨hlast, hfill⟩
    · exact ⟨hlast'.trans hlast, hfill'.trans hfill⟩

/-- A release puts the chain at the tail of the free list, in its own order (R30). -/
theorem Pool.freeIs_release (h : P.freeIs segs) (hchain : P.chained next chain) (hfirst : chain.head? = some first)
    (hlast : chain.getLast? = some last) (hnodup : (segs ++ chain).Nodup) :
    (P.release first last chain.length).freeIs (segs ++ chain) := by
  obtain ⟨hsegs, -, hhead, htail, hfree⟩ := h
  have hne : chain ≠ [] := by rintro rfl; cases hfirst
  obtain ⟨hnodup₁, hnodup₂, hdisjoint⟩ := List.nodup_append.1 hnodup
  have hlastNot : last ∉ segs := fun hm => hdisjoint last hm last (List.mem_of_getLast? hlast) rfl
  have hsegs' := Pool.chained_setNext_of_not_mem 0 hlastNot hsegs
  have hchain' := Pool.chained_setNext_last 0 hnodup₂ hlast hchain
  rw [P.release_eq first last (mt List.length_eq_zero_iff.1 hne)]
  have hgetLast : last = (segs ++ chain).getLast?.getD 0 := by rw [List.getLast?_append, hlast]; rfl
  have hcount : P.free + chain.length = (segs ++ chain).length := by rw [hfree, List.length_append]
  cases segs with
  | nil =>
    have hzero : P.freeHead = 0 := hhead
    rw [if_pos hzero, if_pos hzero]
    exact ⟨Pool.chained_congr (P := P.setNext last 0) (fun _ _ => rfl) hchain', hnodup, by rw [List.nil_append, hfirst]; rfl, hgetLast, hcount⟩
  | cons n rest =>
    have hhead' : P.freeHead = n := hhead
    have hnonzero : P.freeHead ≠ 0 := by
      rw [hhead']
      exact Pool.chained_ne_zero hsegs n List.mem_cons_self
    have hl := List.getLast?_eq_some_getLast (List.cons_ne_nil n rest)
    generalize (n :: rest).getLast (List.cons_ne_nil n rest) = l at hl
    have htail' : P.freeTail = l := by rw [htail, hl]; rfl
    have hlNot : l ∉ chain := fun hm => hdisjoint l (List.mem_of_getLast? hl) l hm rfl
    rw [if_neg hnonzero, if_neg hnonzero, htail']
    refine ⟨Pool.chained_congr (P := (P.setNext last 0).setNext l first) (fun _ _ => rfl) (Pool.chained_append (Pool.chained_setNext_last first hnodup₁ hl hsegs')
      (Pool.chained_setNext_of_not_mem first hlNot hchain') hfirst), hnodup, hhead, hgetLast, hcount⟩

end

/-! ## The sum of R32 -/

section
variable {s : State} {S : SlotId} {p : PortId} {t : TagId} {f : FlowId}

@[simp] theorem State.tagRec_setTagRec_self (s : State) (p : PortId) (t : TagId) (r : TagRecord) :
    (s.setTagRec p t r).tagRec p t = r := by
  rw [State.tagRec, State.setTagRec, State.unit_setUnit_self, PortUnit.tag_setTag_self]

@[simp] theorem State.segments_setPhase (s : State) (p : PortId) (t : TagId) (ph : Phase) :
    (s.setPhase p t ph).segments = s.segments := by
  have h := s.segments_setTagRec p t { s.tagRec p t with phase := ph }
  have hsame : TagRecord.segments { s.tagRec p t with phase := ph } = (s.tagRec p t).segments := rfl
  change (s.setTagRec p t { s.tagRec p t with phase := ph }).segments = _
  omega

theorem State.segments_allocateFor (hstate : (s.asm p).state = .assembling) (hfree : 0 < s.pool.free) :
    (s.allocateFor p).segments = s.segments := by
  have halloc (P : Pool) (hP : P.free = s.pool.free - 1 ∧ P.stranded = s.pool.stranded) (v : Assembly)
      (hv : v.state = (s.asm p).state ∧ v.allocated = (s.asm p).allocated + 1) :
      ((s.setPool P).setAsm p v).segments = s.segments := by
    have hpool := s.segments_setPool P
    have hasm := (s.setPool P).segments_setAsm p v
    rw [State.asm_setPool, Assembly.segments, Assembly.segments, hv.1, hv.2, if_pos hstate, if_pos hstate] at hasm
    obtain ⟨hPfree, hPstranded⟩ := hP
    omega
  unfold State.allocateFor
  dsimp only
  refine halloc _ ?_ _ ⟨rfl, rfl⟩
  split <;> rw [Pool.allocate_eq] <;> exact ⟨rfl, rfl⟩

theorem State.segments_abortRecord (hstate : (s.asm p).state = .assembling) (st : Option Status) :
    (s.abortRecord p st).segments = s.segments := by
  have hpool := s.segments_abortPool (s.asm p)
  have hwrites := (s.abortPool (s.asm p)).segments_abandonWrites p
  have hasm := ((s.abortPool (s.asm p)).abandonWrites p).segments_setAsm p Assembly.initial
  have hsame : ((s.abortPool (s.asm p)).abandonWrites p).asm p = s.asm p := by
    rw [State.frame_abandonWrites, State.abortPool_eq]
    rfl
  rw [hsame, Assembly.segments, Assembly.segments, if_pos hstate, if_neg (by decide)] at hasm
  unfold State.abortRecord
  dsimp only
  rw [State.segments_drainTest]
  split
  · rw [State.segments_respond]
    omega
  · omega

theorem State.tagRec_release (s : State) (first last count : Nat) (p : PortId) (t : TagId) :
    (s.release first last count).tagRec p t = s.tagRec p t := by
  unfold State.release
  split
  · rfl
  · rw [State.rearm_eq]
    rfl

@[simp] theorem State.segments_refuseLink (s : State) (p : PortId) (t : TagId) (st : Status) :
    (s.refuseLink p t st).segments = s.segments := by
  unfold State.refuseLink
  dsimp only
  split
  · rfl
  · next u hunit =>
    have hrelease := s.segments_release u.first u.last u.needed
    have hadmit := (s.release u.first u.last u.needed).segments_unadmit (s.tagRec p t).request.flow u.needed
    have hsame : ((s.release u.first u.last u.needed).unadmit (s.tagRec p t).request.flow u.needed).tagRec p t =
        s.tagRec p t := s.tagRec_release u.first u.last u.needed p t
    have hanswer := State.segments_answerLink (st := st) (by rw [hsame]; exact hunit :
      (((s.release u.first u.last u.needed).unadmit (s.tagRec p t).request.flow u.needed).tagRec p t).unit = some u)
    omega

/-- A fall of the flow map's seg_count with a release of as many segments. -/
theorem State.segments_setFlow_releaseSegs {segs : List Nat} {e : FlowEntry} (hlen : segs.length ≤ (s.flow f).segCount)
    (he : e.segCount = (s.flow f).segCount - segs.length) : ((s.setFlow f e).releaseSegs segs).segments = s.segments := by
  have hflow := s.segments_setFlow f e
  rw [State.segments_releaseSegs]
  omega

theorem Pool.length_unitsFrom (P : Pool) (n k seg : Nat) : (P.unitsFrom n k seg).length ≤ n := by
  induction n generalizing k seg with
  | zero => exact le_rfl
  | succ n ih =>
    unfold Pool.unitsFrom
    split
    · exact Nat.zero_le _
    · exact Nat.succ_le_succ (ih _ _)

theorem State.segments_serveDropHere (s : State) (S : SlotId) (p : PortId) (t : TagId) (f : FlowId) :
    (s.serveDropHere S p t f).segments = s.segments := by
  unfold State.serveDropHere
  dsimp only
  split
  · exact s.segments_refuse p t _
  · split
    · rw [State.segments_foundEmpty, State.segments_refuse]
    · rw [State.segments_drainTest, State.segments_undispatchAndReevaluate]
      generalize hsegs : s.pool.unitsFrom _ _ _ = segs
      have hlen : segs.length ≤ (s.flow f).segCount := hsegs ▸ Pool.length_unitsFrom _ _ _ _
      exact (State.segments_setFlow_releaseSegs (by exact hlen) (by rfl)).trans
        ((State.segments_setSlot _ _ _).trans (s.segments_respond p t _ _))

theorem State.segments_commit {d : Delivery} {c : Nat}
    (hlen : (s.pool.commitWalk 128 d.startSeg d.startOff c).1.length ≤ (s.flow f).segCount) :
    (s.commit f S d c).segments = s.segments := by
  unfold State.commit
  dsimp only
  split
  · rfl
  · exact (State.segments_setFlow_releaseSegs (by exact hlen) (by rfl)).trans (s.segments_setSlot _ _)

theorem State.segments_loseContext (s : State) (f : FlowId) : (s.loseContext f).segments = s.segments := by
  have hpool := s.segments_setPool { s.pool with stranded := s.pool.stranded + (s.flow f).segCount }
  have hflow := (s.setPool { s.pool with stranded := s.pool.stranded + (s.flow f).segCount }).segments_setFlow f
    { s.flow f with segCount := 0, halt := some .ctxErr, residency := none }
  dsimp only [State.flow_setPool] at hpool hflow
  unfold State.loseContext
  dsimp only
  rw [State.segments_setReady]
  omega

@[simp] theorem State.segments_turnAway (s : State) (st : Status) (r : Req) :
    (s.turnAway st r).segments = s.segments := by
  unfold State.turnAway
  split
  · cases r with
    | request p t => exact (State.segments_drainTest _ _).trans (s.segments_refuseLink p t st)
    | clearHalt f => rfl
  · exact s.segments_answerReq st r

/-- The link of a flow that is not resident joins a link wait that others stand in, or is refused. -/
theorem State.segments_arrive_of_waits (hlink : s.isLink (.request p t) = true)
    (hnone : (s.flow (s.tagRec p t).request.flow).residency = none) (hwait : s.linkWait ≠ []) :
    (s.arrive (.request p t)).segments = s.segments := by
  have hnone' : (s.flow (s.reqFlow (.request p t))).residency = none := hnone
  unfold State.arrive
  split
  · exact s.segments_turnAway _ _
  · dsimp only
    rw [hnone']
    dsimp only
    rw [State.reach, if_pos hlink, if_neg (by simpa using hwait)]
    exact (State.segments_setPhase _ p t _).trans (s.segments_linkWait _)

/-- The unit that a port's assembly has finished. -/
def Assembly.finishedUnit (a : Assembly) : FinishedUnit :=
  { first := a.chainFirst, last := a.chainLast, needed := a.needed }

/-- The state in which port `p`'s assembly has completed, and the link of tag `t` has not reached the controller yet. -/
def State.assembled (s : State) (p : PortId) (t : TagId) : State :=
  (s.setTagRec p t { s.tagRec p t with unit := some (s.asm p).finishedUnit, phase := .waitingResidency }).setAsm p
    Assembly.initial

theorem State.completeAssembly_of_tag (htag : (s.asm p).tag = some t) : s.completeAssembly p =
    if (s.asm p).state = .assembling ∧ (s.asm p).taken = (s.asm p).declared ∧ (s.asm p).writesOutstanding = 0 then
      (s.assembled p t).arrive (.request p t) else s := by
  rw [State.completeAssembly, htag]
  rfl

theorem State.tagRec_assembled (s : State) (p : PortId) (t : TagId) : (s.assembled p t).tagRec p t =
    { s.tagRec p t with unit := some (s.asm p).finishedUnit, phase := .waitingResidency } :=
  s.tagRec_setTagRec_self p t _

theorem State.segments_completeAssembly (hstate : (s.asm p).state = .assembling)
    (hall : (s.asm p).allocated = (s.asm p).needed) (htag : (s.asm p).tag = some t)
    (hunit : (s.tagRec p t).unit = none) (hnone : (s.flow (s.tagRec p t).request.flow).residency = none)
    (hwait : s.linkWait ≠ []) : (s.completeAssembly p).segments = s.segments := by
  rw [State.completeAssembly_of_tag htag]
  split
  · have hlink : (s.assembled p t).isLink (.request p t) = true := by
      change ((s.assembled p t).tagRec p t).unit.isSome = true
      rw [State.tagRec_assembled]
      rfl
    have htagged := s.segments_setTagRec p t
      { s.tagRec p t with unit := some (s.asm p).finishedUnit, phase := .waitingResidency }
    have hasm := (s.setTagRec p t { s.tagRec p t with
      unit := some (s.asm p).finishedUnit, phase := .waitingResidency }).segments_setAsm p Assembly.initial
    rw [State.setTagRec, State.asm_setUnit, Assembly.segments, Assembly.segments, if_pos hstate, if_neg (by decide)]
      at hasm
    rw [TagRecord.segments, TagRecord.segments, hunit] at htagged
    rw [State.segments_arrive_of_waits hlink (by rw [State.tagRec_assembled]; exact hnone) hwait]
    change (s.assembled p t).segments + _ = _ at hasm
    change _ = _ + (s.asm p).needed at htagged
    change _ + 0 = _ at htagged
    rw [State.setTagRec] at htagged
    omega
  · rfl

/-- The state in which a finished unit's chain has joined its flow at the slot (R37), and its PUT has not been answered
yet. -/
def State.chainJoined (s : State) (S : SlotId) (f : FlowId) (u : FinishedUnit) : State :=
  ((s.setPool (s.pool.join (s.slot S).context.tailSeg.toNat u.first)).setSlot S
    { s.slot S with context := (s.slot S).context.linked u, dirty := true, ref := true }).setFlow f ((s.flow f).linked u)

theorem State.serveLink_of_unit {v : FinishedUnit} (hunit : (s.tagRec p t).unit = some v) : s.serveLink S p t =
    (((s.chainJoined S (s.tagRec p t).request.flow v).answerLink p t .ok).reevaluate (s.tagRec p t).request.flow
      S).admittedFell (s.tagRec p t).request.flow := by
  rw [State.serveLink, hunit]
  rfl

theorem State.inUnits_answerLink (s : State) (p : PortId) (t : TagId) (st : Status) :
    s.InUnits (s.answerLink p t st) := by
  unfold State.answerLink
  dsimp only
  split
  · split <;> rfl
  · rfl

/-- Where nothing is parked at the slot, the service of a link ends with the re-evaluation of readiness (R80). -/
theorem State.serveLink_of_none_parked {v : FinishedUnit} (hunit : (s.tagRec p t).unit = some v)
    (hserving : s.servingSlot (s.tagRec p t).request.flow = some S) (hparked : (s.slot S).parkedList = []) :
    s.serveLink S p t = ((s.chainJoined S (s.tagRec p t).request.flow v).answerLink p t .ok).reevaluate
      (s.tagRec p t).request.flow S := by
  rw [State.serveLink_of_unit hunit]
  generalize (s.tagRec p t).request.flow = f at *
  have hanswer := (s.chainJoined S f v).inUnits_answerLink p t .ok
  generalize (s.chainJoined S f v).answerLink p t .ok = x at *
  obtain ⟨hres, -, -⟩ := State.servingSlot_eq_some_iff.1 hserving
  have hslot : x.slot S =
      { s.slot S with context := (s.slot S).context.linked v, dirty := true, ref := true } := by
    rw [hanswer]
    exact State.slot_setSlot_self _ S _
  have hlinked : x.flow f = (s.flow f).linked v := by
    rw [hanswer]
    exact State.flow_setFlow_self _ f _
  have hfell := x.relists f { x.flow f with ready := readyCondition (x.flow f) (x.slot S).context }
  change (x.reevaluate f S).admittedFell f = x.reevaluate f S
  change x.Relists (x.reevaluate f S) f _ at hfell
  obtain ⟨hframe, hself, -, -⟩ := hfell
  generalize x.reevaluate f S = y at *
  refine State.admittedFell_of_none_parked fun T hT => ?_
  have hres' : (y.flow f).residency = some S := by
    refine (congrArg FlowEntry.residency hself).trans ?_
    change (x.flow f).residency = some S
    rw [hlinked]
    exact hres
  obtain rfl : S = T := Option.some.inj (hres'.symm.trans (State.servingSlot_eq_some_iff.1 hT).1)
  have hsame : y.slot S = x.slot S := by
    unfold State.InRelist at hframe
    rw [hframe]
    rfl
  rw [hsame, hslot]
  exact hparked

theorem Pool.join_stranded (P : Pool) (a b : Nat) : (P.join a b).stranded = P.stranded := by
  unfold Pool.join
  split <;> rfl

theorem State.segments_chainJoined (s : State) (S : SlotId) (f : FlowId) (v : FinishedUnit) :
    (s.chainJoined S f v).segments = s.segments + v.needed := by
  have hpool : (s.setPool (s.pool.join (s.slot S).context.tailSeg.toNat v.first)).segments = s.segments :=
    State.segments_setPool_same (s.pool.join_counts _ _).2 (s.pool.join_stranded _ _)
  have hslot := (s.setPool (s.pool.join (s.slot S).context.tailSeg.toNat v.first)).segments_setSlot S
    { s.slot S with context := (s.slot S).context.linked v, dirty := true, ref := true }
  have hflow := ((s.setPool (s.pool.join (s.slot S).context.tailSeg.toNat v.first)).setSlot S
    { s.slot S with context := (s.slot S).context.linked v, dirty := true, ref := true }).segments_setFlow f
      ((s.flow f).linked v)
  change (s.chainJoined S f v).segments + (s.flow f).segCount = _ + ((s.flow f).segCount + v.needed) at hflow
  omega

/-- A link moves its segments to the flow's count (R37). -/
theorem State.segments_serveLink (hserving : s.servingSlot (s.tagRec p t).request.flow = some S)
    (hparked : (s.slot S).parkedList = []) : (s.serveLink S p t).segments = s.segments := by
  cases hunit : (s.tagRec p t).unit with
  | none => rw [State.serveLink, hunit]
  | some v =>
    have hjoined := s.segments_chainJoined S (s.tagRec p t).request.flow v
    have hanswer := State.segments_answerLink (s := s.chainJoined S (s.tagRec p t).request.flow v) (st := .ok)
      (hunit : ((s.chainJoined S (s.tagRec p t).request.flow v).tagRec p t).unit = some v)
    rw [State.serveLink_of_none_parked hunit hserving hparked, State.segments_reevaluate]
    omega

end

/-- Settles O46. -/
theorem poolListKeepsItsOrder : Obligations.PoolListKeepsItsOrder := by
  unfold Obligations.PoolListKeepsItsOrder
  refine ⟨?_, ?_, ?_⟩
  · intro P S segs length k hfree hk hle
    have hhead : P.freeHead = S := hfree.2.2.1
    refine ⟨Pool.freeIs_allocate hfree length k, by rw [Pool.allocate_eq]; rfl, by rw [Pool.allocate_eq]; rfl, ?_,
      fun n hn => Pool.link_allocate_ne length k (by rwa [hhead])⟩
    rw [Pool.allocate_eq, hhead, Pool.link_setLink_self, fillOf_eq hk hle]
    rfl
  · intro P segs chain first last next hfree hchain hfirst hlast hnodup
    refine ⟨Pool.freeIs_release hfree hchain hfirst hlast hnodup, (Pool.release_counts P first last _).1, ?_,
      fun n => P.data_release first last _ n⟩
    rw [Pool.release_eq _ _ _ (by rintro h; rw [List.length_eq_zero_iff.1 h] at hfirst; cases hfirst)]
    split <;> rfl
  · intro s S p t f
    exact ⟨fun hstate => ⟨State.segments_allocateFor hstate, State.segments_abortRecord hstate,
      State.segments_completeAssembly hstate⟩, State.segments_serveLink, s.segments_refuseLink p t,
      s.segments_serveDropHere S p t f, fun _ _ => State.segments_commit, s.segments_loseContext f⟩

end Sys2Proof.Machine

/-! SUPPORT. The completion of a word write, and the link that it may bring (R37, R78, R80, R154). -/

namespace Sys2Proof.Machine

section
variable {s : State} {p : PortId} {w : WordWrite} {t : TagId} {S : SlotId} {r : Req}

/-! ## The word in the SRAM -/

/-- The state in which the word of a word write stands in the SRAM, and no access is in progress. -/
def State.wordStored (s : State) (w : WordWrite) : State := s.accessEnded.writeSram (s.segWordAddr w.seg w.word) w.data

/-- The state in which the writes that a word write ends have been counted at the port's assembly (R154). -/
def State.writesEnded (s : State) (p : PortId) (w : WordWrite) : State := (s.wordStored w).setAsm p
  { s.asm p with writesOutstanding := (s.asm p).writesOutstanding - w.ends }

theorem exec_wordWriteCompletion (hprogress : s.mem.inProgress = some (.wordWrite p w)) :
    exec .wordWriteCompletion s =
      .next (if w.live then (s.writesEnded p w).completeAssembly p else s.wordStored w).finish := by
  have hexec : exec .wordWriteCompletion s = execWordWriteCompletion s := rfl
  rw [hexec, execWordWriteCompletion, hprogress]
  rfl

theorem State.quiet_wordStored (hlast : s.lastAccess) : (s.wordStored w).quiet = true := hlast

theorem State.quiet_writesEnded (hlast : s.lastAccess) : (s.writesEnded p w).quiet = true :=
  (State.quiet_setAsm _ p _).trans (State.quiet_wordStored hlast)

theorem State.asm_writesEnded (s : State) (p : PortId) (w : WordWrite) : (s.writesEnded p w).asm p =
    { s.asm p with writesOutstanding := (s.asm p).writesOutstanding - w.ends } := State.asm_setAsm_self _ p _

/-- An assembly that has bytes to take or writes to wait for does not complete (R78). -/
theorem State.completeAssembly_of_not (h : ¬ ((s.asm p).state = .assembling ∧ (s.asm p).taken = (s.asm p).declared ∧
    (s.asm p).writesOutstanding = 0)) : s.completeAssembly p = s := by
  unfold State.completeAssembly
  dsimp only
  split
  · rfl
  · rw [if_neg h]

/-- A completion of the last write of a whole unit brings its link to the controller (R78). -/
theorem State.completeAssembly_writesEnded (htag : (s.asm p).tag = some t) (hstate : (s.asm p).state = .assembling)
    (htaken : (s.asm p).taken = (s.asm p).declared) (hwrites : (s.asm p).writesOutstanding - w.ends = 0) :
    (s.writesEnded p w).completeAssembly p = ((s.writesEnded p w).assembled p t).arrive (.request p t) := by
  rw [State.completeAssembly_of_tag (by rw [State.asm_writesEnded]; exact htag), State.asm_writesEnded,
    if_pos ⟨hstate, htaken, hwrites⟩]

theorem State.setTagRec_setAsm (s : State) (p q : PortId) (t : TagId) (a : Assembly) (r : TagRecord) :
    (s.setAsm p a).setTagRec q t r = (s.setTagRec q t r).setAsm p a := rfl

@[simp] theorem State.setTagRec_setTagRec (s : State) (p : PortId) (t : TagId) (r r' : TagRecord) :
    (s.setTagRec p t r).setTagRec p t r' = s.setTagRec p t r' := by
  simp only [State.setTagRec, State.unit_setUnit_self, State.setUnit_setUnit, PortUnit.setTag_setTag]

theorem State.quiet_setTagRec (s : State) (p : PortId) (t : TagId) (r : TagRecord) :
    (s.setTagRec p t r).quiet = s.quiet := State.quiet_setUnit ⟨rfl, rfl, rfl⟩

/-- The tag record of a PUT whose unit is whole (R78). -/
def TagRecord.whole (r : TagRecord) (a : Assembly) : TagRecord :=
  { r with unit := some a.finishedUnit, phase := .waitingResidency }

theorem State.assembled_writesEnded (s : State) (p : PortId) (w : WordWrite) (t : TagId) :
    (s.writesEnded p w).assembled p t =
      ((s.wordStored w).setAsm p Assembly.initial).setTagRec p t ((s.tagRec p t).whole (s.asm p)) := by
  have hunit : ((s.writesEnded p w).asm p).finishedUnit = (s.asm p).finishedUnit := by
    rw [State.asm_writesEnded]
    rfl
  unfold State.assembled
  rw [hunit, State.writesEnded, State.setTagRec_setAsm, State.setAsm_setAsm]
  rfl

/-- What the completion of an assembly writes before its link reaches the controller. -/
theorem State.assembled_writes (s : State) (p : PortId) (w : WordWrite) (t : TagId) :
    let z := (s.writesEnded p w).assembled p t
    z.asm p = Assembly.initial ∧ z.unit p = (s.unit p).setTag t ((s.tagRec p t).whole (s.asm p)) ∧
      z.tagRec p t = (s.tagRec p t).whole (s.asm p) ∧ z = { s.wordStored w with asms := z.asms, units := z.units } := by
  rw [State.assembled_writesEnded]
  exact ⟨State.asm_setAsm_self _ p _, State.unit_setUnit_self _ p _, State.tagRec_setTagRec_self _ p t _, rfl⟩

/-! ## The arrival of a link -/

theorem State.metStatus_of_open (hclosed : (s.flow (s.reqFlow r)).state ≠ .closed)
    (hlost : (s.flow (s.reqFlow r)).halt ≠ some .ctxErr) : s.metStatus r = none := by
  unfold State.metStatus
  dsimp only
  rw [if_neg hclosed, FlowEntry.lost, if_neg (by simpa using hlost)]

theorem State.arrive_of_serving (hmet : s.metStatus r = none) (hserving : s.servingSlot (s.reqFlow r) = some S) :
    s.arrive r = s.serveAny S r := by
  obtain ⟨hres, hstate, -⟩ := State.servingSlot_eq_some_iff.1 hserving
  unfold State.arrive
  rw [hmet]
  dsimp only
  rw [hres]
  dsimp only
  rw [hstate]

theorem State.arrive_of_absent (hmet : s.metStatus r = none) (hres : (s.flow (s.reqFlow r)).residency = none) :
    s.arrive r = s.reach r := by
  unfold State.arrive
  rw [hmet]
  dsimp only
  rw [hres]

theorem State.evictable_congr {y z : State} (hslots : z.slots = y.slots) (hholds : z.holds = y.holds) (T : SlotId) :
    z.evictable T = y.evictable T := by
  simp only [State.evictable, State.slotHeld, State.holder, State.slot, State.hold, hslots, hholds]
  rfl

/-- A link waits where the link wait is not empty, or no victim is found (R61). -/
theorem State.reach_of_link (hlink : s.isLink r = true)
    (hwaits : s.linkWait ≠ [] ∨ ∀ T, (s.slot T).state ≠ .free ∧ s.evictable T = false) :
    s.reach r = s.joinLinkWait r := by
  rw [State.reach, if_pos hlink]
  split
  · next hempty =>
    have hnone := hwaits.resolve_left (by simpa using hempty)
    rw [State.searchFor, State.search_of_no_candidate fun T => State.not_candidate_iff.2 (hnone T)]
  · rfl

theorem State.isLink_of_unit {v : FinishedUnit} (h : (s.tagRec p t).unit = some v) :
    s.isLink (.request p t) = true := by
  rw [State.isLink, h]
  rfl

theorem State.serveAny_of_link (hlink : s.isLink (.request p t) = true) :
    s.serveAny S (.request p t) = s.serveLink S p t := if_pos hlink

theorem State.respond_of_ne (hcurrent : (s.unit p).current ≠ some t) (st : Status) (res : Result) :
    s.respond p t st res = s.setUnit p (((s.unit p).setTag t { s.tagRec p t with phase := .responding }).place
      (.response t st res .final)) := by
  rw [State.respond, State.answered]
  dsimp only
  rw [PortUnit.currentEnded_of_ne (by exact hcurrent)]
  rfl

/-- The answer of a link whose PUT's tag is in use (R80, R81). -/
theorem State.answerLink_of_inUse (hstatus : (s.tagRec p t).status = .inUse) (hcurrent : (s.unit p).current ≠ some t)
    (st : Status) : s.answerLink p t st = s.setUnit p
      (((s.unit p).setTag t { s.tagRec p t with phase := .responding, unit := none }).place
        (.response t st .none .final)) := by
  unfold State.answerLink
  dsimp only
  rw [hstatus, if_neg (by decide), State.respond_of_ne (by rw [State.setTagRec, State.unit_setUnit_self]; exact hcurrent),
    State.tagRec_setTagRec_self]
  rw [State.setTagRec, State.unit_setUnit_self, State.setUnit_setUnit, PortUnit.setTag_setTag]

/-! ## The link at the flow's slot -/

theorem Pool.join_context (P : Pool) (c : Context) (first : Nat) :
    P.join c.tailSeg.toNat first = if c.tailSeg = 0 then P else P.setNext c.tailSeg.toNat first := by
  unfold Pool.join
  refine if_congr ?_ rfl rfl
  rw [BitVec.toNat_eq]
  rfl

/-- What the link of a finished unit leaves at its flow's slot, where READY is not armed and nothing is parked (R37,
R80). -/
structure State.Links (s u : State) (S : SlotId) (p : PortId) (t : TagId) (f : FlowId) (v : FinishedUnit) : Prop where
  slot : u.slot S = { s.slot S with context := (s.slot S).context.linked v, dirty := true, ref := true }
  flow : (u.flow f).segCount = (s.flow f).segCount + v.needed ∧
    (u.flow f).admittedSegs = (s.flow f).admittedSegs - v.needed ∧
    (u.flow f).admittedUnits = (s.flow f).admittedUnits - 1
  pool : u.pool = s.pool.join (s.slot S).context.tailSeg.toNat v.first
  units : u.units = (s.setUnit p (((s.unit p).setTag t { s.tagRec p t with phase := .responding, unit := none }).place
    (.response t .ok .none .final))).units
  quiet : u.quiet = s.quiet
  frame : u = { s with flows := u.flows, lists := u.lists, slots := u.slots, units := u.units, pool := u.pool }

theorem State.links_serveLink {v : FinishedUnit} (hunit : (s.tagRec p t).unit = some v)
    (hserving : s.servingSlot (s.tagRec p t).request.flow = some S) (hparked : (s.slot S).parkedList = [])
    (hstatus : (s.tagRec p t).status = .inUse) (hcurrent : (s.unit p).current ≠ some t)
    (harmed : (s.unit (s.flow (s.tagRec p t).request.flow).consumer).readyArmed = false) :
    s.Links (s.serveLink S p t) S p t (s.tagRec p t).request.flow v := by
  rw [State.serveLink_of_none_parked hunit hserving hparked]
  generalize (s.tagRec p t).request.flow = f at *
  have hanswer := State.answerLink_of_inUse (s := s.chainJoined S f v) (p := p) (t := t) hstatus hcurrent .ok
  have hquiet : ((s.chainJoined S f v).answerLink p t .ok).quiet = s.quiet := by
    rw [hanswer, State.quiet_setUnit, State.chainJoined, State.quiet_setFlow, State.quiet_setSlot]
    · rfl
    · exact PortUnit.SameQuiet.trans ⟨rfl, rfl, rfl⟩ (PortUnit.sameQuiet_place (.response t .ok .none .final) trivial _)
  have hflow : ((s.chainJoined S f v).answerLink p t .ok).flow f = (s.flow f).linked v := by
    rw [hanswer]
    exact State.flow_setFlow_self _ f _
  have hslot : ((s.chainJoined S f v).answerLink p t .ok).slot S =
      { s.slot S with context := (s.slot S).context.linked v, dirty := true, ref := true } := by
    rw [hanswer]
    exact State.slot_setSlot_self _ S _
  have hunarmed : (((s.chainJoined S f v).answerLink p t .ok).unit (s.flow f).consumer).readyArmed = false := by
    rw [hanswer, State.unit_setUnit]
    split
    · next he => rw [PortUnit.readyArmed_place, ← harmed, he]; rfl
    · exact harmed
  have hunits : ((s.chainJoined S f v).answerLink p t .ok).units =
      (s.setUnit p (((s.unit p).setTag t { s.tagRec p t with phase := .responding, unit := none }).place
        (.response t .ok .none .final))).units := by rw [hanswer]; rfl
  have hframe : (s.chainJoined S f v).answerLink p t .ok =
      { s.chainJoined S f v with units := ((s.chainJoined S f v).answerLink p t .ok).units } := by rw [hanswer]; rfl
  generalize (s.chainJoined S f v).answerLink p t .ok = x at *
  have hrelists := x.relists f { x.flow f with ready := readyCondition (x.flow f) (x.slot S).context }
  change x.Relists (x.reevaluate f S) f _ at hrelists
  obtain ⟨hinRelist, hself, hkept, hquiet'⟩ := hrelists
  generalize x.reevaluate f S = u at *
  unfold State.InRelist at hinRelist
  rw [hflow] at hself hkept
  have hslots : u.slots = x.slots := by rw [hinRelist]
  refine ⟨?_, ?_, ?_, ?_, hquiet'.trans hquiet, ?_⟩
  · rw [← hslot]
    exact congrArg (fun vs : Vector Slot 64 => vs[S]) hslots
  · rw [hself]
    exact ⟨rfl, rfl, rfl⟩
  · rw [hinRelist, hframe]
    rfl
  · exact (hkept (.inr hunarmed)).trans hunits
  · rw [hinRelist, hframe]
    rfl

/-! ## The two ends of a whole unit's last write -/

theorem finish_link {S : SlotId} (hlast : s.lastAccess) (hcurrent : (s.unit p).current ≠ some t)
    (hstatus : (s.tagRec p t).status = .inUse) (hflow : (s.tagRec p t).request.flow = (s.asm p).flow) (hclosed : (s.flow (s.asm p).flow).state ≠ .closed)
    (hlost : (s.flow (s.asm p).flow).halt ≠ some .ctxErr)
    (harmed : (s.unit (s.flow (s.asm p).flow).consumer).readyArmed = false)
    (hserving : s.servingSlot (s.asm p).flow = some S) (hparked : (s.slot S).parkedList = []) :
    let z := (s.writesEnded p w).assembled p t
    z.Links ((z.arrive (.request p t)).finish) S p t (s.asm p).flow (s.asm p).finishedUnit := by
  intro z
  have hz : z = ((s.wordStored w).setAsm p Assembly.initial).setTagRec p t ((s.tagRec p t).whole (s.asm p)) :=
    s.assembled_writesEnded p w t
  have hrec : z.tagRec p t = (s.tagRec p t).whole (s.asm p) := by
    rw [hz]
    exact State.tagRec_setTagRec_self ..
  have hzflow (g : FlowId) : z.flow g = s.flow g := by rw [hz]; rfl
  have hzserving (g : FlowId) : z.servingSlot g = s.servingSlot g := by rw [hz]; rfl
  have hzslot : z.slot S = s.slot S := by rw [hz]; rfl
  have hzunit : ∀ q, (z.unit q).current = (s.unit q).current ∧ (z.unit q).readyArmed = (s.unit q).readyArmed := by
    intro q
    rw [hz, State.setTagRec, State.unit_setUnit]
    split
    · next he => rw [he]; exact ⟨rfl, rfl⟩
    · exact ⟨rfl, rfl⟩
  have hquiet : z.quiet = true := by
    rw [hz, State.quiet_setTagRec, State.quiet_setAsm]
    exact State.quiet_wordStored hlast
  have hreq : z.reqFlow (.request p t) = (s.asm p).flow := by
    rw [State.reqFlow, hrec]
    exact hflow
  clear_value z
  have hzrequest : (z.tagRec p t).request.flow = (s.asm p).flow := hreq
  have hmet : z.metStatus (.request p t) = none :=
    State.metStatus_of_open (by rwa [hreq, hzflow]) (by rwa [hreq, hzflow])
  have hlinks := State.links_serveLink (s := z) (S := S) (v := (s.asm p).finishedUnit) (by rw [hrec]; rfl)
    (by rwa [hzrequest, hzserving]) (by rwa [hzslot]) (by rw [hrec]; exact hstatus) (by rwa [(hzunit p).1])
    (by rwa [hzrequest, hzflow, (hzunit _).2])
  rw [hzrequest] at hlinks
  rw [State.arrive_of_serving hmet (by rwa [hreq, hzserving]),
    State.serveAny_of_link (State.isLink_of_unit (by rw [hrec]; rfl)),
    State.finish_of_quiet (hlinks.quiet.trans hquiet)]
  exact hlinks

theorem finish_linkWait (hlast : s.lastAccess) (hflow : (s.tagRec p t).request.flow = (s.asm p).flow)
    (hclosed : (s.flow (s.asm p).flow).state ≠ .closed) (hlost : (s.flow (s.asm p).flow).halt ≠ some .ctxErr)
    (hres : (s.flow (s.asm p).flow).residency = none)
    (hwaits : s.linkWait ≠ [] ∨ ∀ T, (s.slot T).state ≠ .free ∧ s.evictable T = false) :
    (((s.writesEnded p w).assembled p t).arrive (.request p t)).finish =
      ({ (s.wordStored w).setAsm p Assembly.initial with
        linkWait := s.linkWait ++ [Req.request p t] }.setTagRec p t { s.tagRec p t with
          phase := .linkWait, unit := some (s.asm p).finishedUnit }) := by
  rw [State.assembled_writesEnded]
  generalize hz : ((s.wordStored w).setAsm p Assembly.initial).setTagRec p t ((s.tagRec p t).whole (s.asm p)) = z
  have hrec : z.tagRec p t = (s.tagRec p t).whole (s.asm p) := by
    rw [← hz]
    exact State.tagRec_setTagRec_self ..
  have hreq : z.reqFlow (.request p t) = (s.asm p).flow := by
    rw [State.reqFlow, hrec]
    exact hflow
  have hzflow (g : FlowId) : z.flow g = s.flow g := by rw [← hz]; rfl
  have hzwaits : z.linkWait ≠ [] ∨ ∀ T, (z.slot T).state ≠ .free ∧ z.evictable T = false := by
    obtain ⟨hslots, hholds, hlinkWait⟩ : z.slots = s.slots ∧ z.holds = s.holds ∧ z.linkWait = s.linkWait := by
      rw [← hz]
      exact ⟨rfl, rfl, rfl⟩
    rw [hlinkWait]
    refine hwaits.imp_right fun hnone T => ?_
    rw [State.evictable_congr hslots hholds, State.slot, hslots]
    exact hnone T
  have hjoined : z.joinLinkWait (.request p t) =
      ({ (s.wordStored w).setAsm p Assembly.initial with
        linkWait := s.linkWait ++ [Req.request p t] }.setTagRec p t { s.tagRec p t with
          phase := .linkWait, unit := some (s.asm p).finishedUnit }) := by
    change State.setTagRec { z with linkWait := z.linkWait ++ [.request p t] } p t
      { z.tagRec p t with phase := .linkWait } = _
    rw [hrec, ← hz]
    exact State.setTagRec_setTagRec { (s.wordStored w).setAsm p Assembly.initial with
      linkWait := s.linkWait ++ [Req.request p t] } p t _ _
  rw [State.arrive_of_absent (State.metStatus_of_open (by rwa [hreq, hzflow]) (by rwa [hreq, hzflow]))
    (by rwa [hreq, hzflow]), State.reach_of_link (State.isLink_of_unit (by rw [hrec]; rfl)) hzwaits, hjoined]
  refine State.finish_of_quiet ?_
  rw [State.quiet_setTagRec]
  exact ((s.wordStored w).quiet_setAsm p Assembly.initial).trans (State.quiet_wordStored hlast)

end

/-- Settles O52. -/
theorem wordWriteCompletesAndLinks : Obligations.WordWriteCompletesAndLinks := by
  unfold Obligations.WordWriteCompletesAndLinks
  intro s p w hlast hprogress
  dsimp only
  have hexec := exec_wordWriteCompletion hprogress
  refine ⟨⟨Memory.readWord_writeWord_self .., fun b hb => ?_⟩, fun hdead => ?_, fun hlive hnot => ?_, ?_, ?_⟩
  · refine (Memory.read_writeWord ..).trans (if_neg ?_)
    omega
  · rw [hexec, hdead, State.finish_of_quiet (by exact State.quiet_wordStored hlast)]
    rfl
  · rw [hexec, hlive, if_pos rfl, State.completeAssembly_of_not (by rw [State.asm_writesEnded]; exact hnot),
      State.finish_of_quiet (State.quiet_writesEnded hlast)]
    rfl
  · intro hlive hstate htaken hwrites t htag hcurrent hstatus hflow _ hclosed hlost harmed S hserving hparked
    have hlinks := finish_link (w := w) hlast hcurrent hstatus hflow hclosed hlost harmed hserving hparked
    rw [hexec, hlive, if_pos rfl, State.completeAssembly_writesEnded htag hstate htaken hwrites]
    obtain ⟨hasm, hunit, hrec, hassembled⟩ := s.assembled_writes p w t
    dsimp only at hlinks
    generalize (((s.writesEnded p w).assembled p t).arrive (.request p t)).finish = u at *
    generalize (s.writesEnded p w).assembled p t = z at *
    obtain ⟨hslot, hcounts, hpool, hunits, -, hframe⟩ := hlinks
    have hslots : z.slot S = s.slot S := by rw [hassembled]; rfl
    have hzpool : z.pool = s.pool := by rw [hassembled]; rfl
    have hzflow : z.flow (s.asm p).flow = s.flow (s.asm p).flow := by rw [hassembled]; rfl
    rw [hslots] at hslot hpool
    rw [hzpool, Pool.join_context] at hpool
    rw [hzflow] at hcounts
    rw [hunit, hrec, PortUnit.setTag_setTag] at hunits
    have hasms : u.asms = z.asms := by rw [hframe]
    refine ⟨u, rfl, ?_, ?_, hcounts, hpool, ?_, ?_⟩
    · exact (congrArg (fun vs : Vector Assembly 4 => vs[p]) hasms).trans hasm
    · rw [hslot]
      exact ⟨rfl, rfl, rfl, rfl, rfl, rfl, rfl, rfl, rfl, rfl⟩
    · exact (congrArg (fun us : Vector PortUnit 4 => us[p]) hunits).trans (State.unit_setUnit_self z p _)
    · rw [hassembled, ← hasms] at hframe
      exact hframe
  · intro hlive hstate htaken hwrites t htag hflow hclosed hlost hres hwaits
    rw [hexec, hlive, if_pos rfl, State.completeAssembly_writesEnded htag hstate htaken hwrites,
      finish_linkWait hlast hflow hclosed hlost hres hwaits]
    rfl

end Sys2Proof.Machine

/-! SUPPORT. The relisting of a port's dispatched flows (R119). -/

namespace Sys2Proof.Machine

/-! ## The dispatched flows (R119) -/

section
variable {α : Type} [DecidableEq α]

theorem Table.lt_of_risingFrom {t : List (Nat × α)} {lo : Nat} (h : Table.risingFrom (some lo) t = true) :
    ∀ e ∈ t, lo < e.1 := by
  induction t generalizing lo with
  | nil => exact fun e he => absurd he List.not_mem_nil
  | cons x t ih =>
    obtain ⟨k, v⟩ := x
    obtain ⟨hlo, ht⟩ := (Table.risingFrom_cons _ _ _ _).1 h
    have hk : lo < k := hlo lo rfl
    exact List.forall_mem_cons.2 ⟨hk, fun e he => lt_trans hk (ih ht e he)⟩

theorem Table.pairwise_of_risingFrom {t : List (Nat × α)} {lo : Option Nat} (h : Table.risingFrom lo t = true) :
    t.Pairwise (fun x y => x.1 < y.1) := by
  induction t generalizing lo with
  | nil => exact .nil
  | cons x t ih =>
    obtain ⟨k, v⟩ := x
    obtain ⟨-, ht⟩ := (Table.risingFrom_cons _ _ _ _).1 h
    exact .cons (Table.lt_of_risingFrom ht) (ih ht)

theorem Table.mem_iff_find? {t : List (Nat × α)} (h : t.Pairwise (fun x y => x.1 < y.1)) (k : Nat) (v : α) :
    (k, v) ∈ t ↔ Table.find? t k = some v := by
  induction t with
  | nil => simp [Table.find?]
  | cons x t ih =>
    obtain ⟨j, w⟩ := x
    obtain ⟨hj, ht⟩ := List.pairwise_cons.1 h
    rw [List.mem_cons, ih ht, Table.find?]
    by_cases hk : k = j
    · subst hk
      have hnot : Table.find? t k ≠ some v := fun e => absurd (hj _ ((ih ht).2 e)) (lt_irrefl k)
      simp [hnot, eq_comm]
    · simp [hk]

end

section
variable {s : State} {p : PortId} {f : FlowId}

/-- The flow of a table entry that port `p` consumes and that is dispatched. -/
def dispatchedEntry (p : PortId) (e : Nat × FlowEntry) : Option FlowId :=
  if h : e.1 < 4096 then if e.2.consumer = p ∧ e.2.dispatched then some ⟨e.1, h⟩ else none else none

theorem dispatchedEntry_eq_some_iff {e : Nat × FlowEntry} :
    dispatchedEntry p e = some f ↔ e.1 = f.val ∧ e.2.consumer = p ∧ e.2.dispatched = true := by
  obtain ⟨k, v⟩ := e
  unfold dispatchedEntry
  split
  · next hk =>
    split
    · next hv => exact ⟨fun h => ⟨congrArg Fin.val (Option.some.inj h), hv⟩, fun h => congrArg some (Fin.ext h.1)⟩
    · next hv => exact ⟨fun h => absurd h (by simp), fun h => absurd h.2 hv⟩
  · next hk => exact ⟨fun h => absurd h (by simp), fun h => absurd ((show k = f.val from h.1) ▸ f.isLt) hk⟩

theorem State.dispatchedFlows_eq (s : State) (p : PortId) :
    s.dispatchedFlows p = s.flows.filterMap (dispatchedEntry p) := rfl

/-- Where the flow map is in its canonical form, the dispatched flows are listed in ascending order, each once. -/
theorem State.pairwise_dispatchedFlows (hwf : Table.wf (fun _ => FlowEntry.initial) s.flows = true) (p : PortId) :
    (s.dispatchedFlows p).Pairwise (fun f g => f < g) := by
  have hrising := Table.pairwise_of_risingFrom ((Bool.and_eq_true _ _).mp hwf).1
  rw [State.dispatchedFlows_eq]
  refine List.Pairwise.filterMap (dispatchedEntry p) (fun x y hxy f hf g hg => ?_) hrising
  have hf' := (dispatchedEntry_eq_some_iff.1 hf).1
  have hg' := (dispatchedEntry_eq_some_iff.1 hg).1
  exact Fin.lt_def.2 (by omega)

theorem State.mem_dispatchedFlows (hwf : Table.wf (fun _ => FlowEntry.initial) s.flows = true) :
    f ∈ s.dispatchedFlows p ↔ (s.flow f).consumer = p ∧ (s.flow f).dispatched = true := by
  have hrising := Table.pairwise_of_risingFrom ((Bool.and_eq_true _ _).mp hwf).1
  rw [State.dispatchedFlows_eq, List.mem_filterMap]
  constructor
  · rintro ⟨⟨k, v⟩, hmem, he⟩
    obtain ⟨hk, hv⟩ := dispatchedEntry_eq_some_iff.1 he
    have hk' : k = f.val := hk
    have hfound : s.flow f = v := by
      rw [State.flow, Table.get, ← hk', (Table.mem_iff_find? hrising k v).1 hmem]
      rfl
    rw [hfound]
    exact hv
  · intro h
    cases hfound : Table.find? s.flows f.val with
    | none =>
      have hinitial : s.flow f = FlowEntry.initial := by rw [State.flow, Table.get, hfound]; rfl
      rw [hinitial] at h
      exact absurd h.2 (by decide)
    | some v =>
      have hv : s.flow f = v := by rw [State.flow, Table.get, hfound]; rfl
      rw [hv] at h
      exact ⟨(f.val, v), (Table.mem_iff_find? hrising _ _).2 hfound, dispatchedEntry_eq_some_iff.2 ⟨rfl, h⟩⟩

end

/-! ## The end of one dispatch (R112) -/

section
variable {s : State} {p : PortId} {f g : FlowId}

/-- What the end of flow `f`'s dispatch leaves, where its consumer is a port that is not UP (R111, R112). -/
structure State.Undispatches (s u : State) (f : FlowId) : Prop where
  frame : s.InRelist u
  flow : ∀ g, u.flow g = { s.flow g with
    dispatched := if g = f then false else (s.flow g).dispatched
    listed := (u.flow g).listed, prev := (u.flow g).prev, next := (u.flow g).next }
  unit : ∃ b, u.unit (s.flow f).consumer = { s.unit (s.flow f).consumer with readyArmed := b }
  unit_ne : ∀ q, q ≠ (s.flow f).consumer → u.unit q = s.unit q
  readyList_ne : ∀ q c, q ≠ (s.flow f).consumer → u.readyList q c = s.readyList q c

theorem State.undispatches (hstate : (s.unit (s.flow f).consumer).state ≠ .up) : s.Undispatches (s.undispatch f) f := by
  have hentry := State.flow_setFlow_self s f { s.flow f with dispatched := false }
  have hframe := State.InRelist.trans (s := s) (t := s.setFlow f { s.flow f with dispatched := false }) rfl
    (State.inRelist_relist _ f)
  have hflow := (s.setFlow f { s.flow f with dispatched := false }).flow_relist f
  have hunits : ((s.setFlow f { s.flow f with dispatched := false }).relist f).units = s.units ∨
      ((s.setFlow f { s.flow f with dispatched := false }).relist f).units =
        (s.setUnit (s.flow f).consumer { s.unit (s.flow f).consumer with readyArmed := false }).units := by
    by_cases hfills : (s.setFlow f { s.flow f with dispatched := false }).fillsLists f
    · refine .inr ((State.units_relist_of_fills hfills).trans ?_)
      rw [hentry, PortUnit.raise_of_not_up (by exact hstate)]
      rfl
    · exact .inl (State.units_relist_of_not hfills)
  refine ⟨hframe, fun g => ?_, ?_, fun q hq => ?_, fun q c hq => ?_⟩
  · refine (hflow g).trans ?_
    rw [State.flow_setFlow]
    split
    · next h => rw [h]; rfl
    · rfl
  · obtain hkept | hcleared := hunits
    · exact ⟨_, congrArg (fun us : Vector PortUnit 4 => us[(s.flow f).consumer]) hkept⟩
    · exact ⟨false, (congrArg (fun us : Vector PortUnit 4 => us[(s.flow f).consumer]) hcleared).trans
        (State.unit_setUnit_self s _ _)⟩
  · obtain hkept | hcleared := hunits
    · exact congrArg (fun us : Vector PortUnit 4 => us[q]) hkept
    · exact (congrArg (fun us : Vector PortUnit 4 => us[q]) hcleared).trans (State.unit_setUnit_ne s _ hq)
  · refine (State.readyList_relist_ne ?_).trans rfl
    rw [hentry]
    exact fun e => hq (congrArg Prod.fst e)

/-! ## The lists after it -/

/-- Another list of the same port is left by a listing. -/
theorem State.listHolds_listFlow_ne {c d : ClassId} {fs gs : List FlowId} (hf : (s.flow f).listed = false)
    (hconsumer : (s.flow f).consumer = p) (hcls : (s.flow f).cls = d) (hne : c ≠ d) (htail : s.listHolds p d gs)
    (h : s.listHolds p c fs) : (s.listFlow f).listHolds p c fs := by
  obtain ⟨hnodup, hlist, hstands⟩ := State.listHolds_iff.1 h
  have hgs := (State.listHolds_iff.1 htail).2.1
  refine State.listHolds_iff.2 ⟨hnodup, ?_, fun before g after hfs => ?_⟩
  · rw [State.readyList_listFlow_ne, hlist]
    rw [hconsumer, hcls]
    exact fun e => hne (congrArg Prod.snd e)
  · have hg := hstands before g after hfs
    obtain ⟨hlisted, -, hgcls, -⟩ := id hg
    have hgf : g ≠ f := by
      rintro rfl
      rw [hf] at hlisted
      cases hlisted
    rw [State.flow_listFlow_ne _ hgf, hconsumer, hcls, hgs, if_neg]
    · exact hg
    · intro e
      obtain ⟨_, _, -, -, hgcls', -⟩ := htail.mem_standsIn (List.mem_of_getLast? e)
      exact hne (hgcls.symm.trans hgcls')

/-- Flow `f` joins the lists of its class behind those listed, where it is ready. -/
def State.joins (s : State) (c : ClassId) (f : FlowId) : Bool := decide ((s.flow f).cls = c) && (s.flow f).ready

/-- The end of the dispatch of an unlisted flow lists it behind the others where it is ready (R119). -/
theorem State.listHolds_undispatch {c : ClassId} {fs : List FlowId} (hwhole : s.listsWhole p)
    (hconsumer : (s.flow f).consumer = p) (hf : (s.flow f).listed = false) (h : s.listHolds p c fs) :
    (s.undispatch f).listHolds p c (fs ++ [f].filter (s.joins c)) := by
  have hentry := State.flow_setFlow_self s f { s.flow f with dispatched := false }
  have hset {d : ClassId} {gs : List FlowId} (hgs : s.listHolds p d gs) :=
    State.listHolds_setDispatched f false hgs
  unfold State.undispatch
  generalize s.setFlow f { s.flow f with dispatched := false } = x at *
  have hlisted : (x.flow f).listed = false := by rw [hentry]; exact hf
  have hconsumer' : (x.flow f).consumer = p := by rw [hentry]; exact hconsumer
  cases hready : (s.flow f).ready with
  | false =>
    have hnone : [f].filter (s.joins c) = [] := by simp [State.joins, hready]
    rw [hnone, List.append_nil, State.relist_of_notDue (.inl (by rw [hentry]; exact hready)), hlisted]
    exact hset h
  | true =>
    rw [State.relist_of_due (by rw [hentry]; exact hready) (by rw [hentry]), hlisted]
    have hcls : (x.flow f).cls = (s.flow f).cls := by rw [hentry]
    by_cases hc : (s.flow f).cls = c
    · have hone : [f].filter (s.joins c) = [f] := by simp [State.joins, hready, hc]
      have hlist := State.listHolds_listFlow hlisted (by rw [hconsumer', hcls, hc]; exact hset h)
      rw [hconsumer', hcls, hc] at hlist
      rw [hone]
      exact hlist
    · have hnone : [f].filter (s.joins c) = [] := by simp [State.joins, hready, hc]
      obtain ⟨gs, hgs⟩ := hwhole (s.flow f).cls
      rw [hnone, List.append_nil]
      exact State.listHolds_listFlow_ne hlisted hconsumer' hcls (fun e => hc e.symm) (hset hgs) (hset h)

/-- Where the port's lists are whole and the flow is in none of them, no other port's flow moves, and none other of the
port's is listed or unlisted. -/
theorem State.place_undispatch (hwhole : s.listsWhole p) (hconsumer : (s.flow f).consumer = p)
    (hf : (s.flow f).listed = false) (hg : g ≠ f) : ((s.undispatch f).flow g).listed = (s.flow g).listed ∧
      ((s.flow g).consumer ≠ p → ((s.undispatch f).flow g).prev = (s.flow g).prev ∧
        ((s.undispatch f).flow g).next = (s.flow g).next) := by
  obtain ⟨gs, hgs⟩ := hwhole (s.flow f).cls
  have hlist := (State.listHolds_iff.1 hgs).2.1
  have hentry := State.flow_setFlow_self s f { s.flow f with dispatched := false }
  have hother := State.flow_setFlow_ne s { s.flow f with dispatched := false } hg
  have hreadyList : (s.setFlow f { s.flow f with dispatched := false }).readyList p (s.flow f).cls =
      s.readyList p (s.flow f).cls := rfl
  unfold State.undispatch
  generalize s.setFlow f { s.flow f with dispatched := false } = x at *
  have hlisted : (x.flow f).listed = false := by rw [hentry]; exact hf
  have hconsumer' : (x.flow f).consumer = p := by rw [hentry]; exact hconsumer
  have hcls : (x.flow f).cls = (s.flow f).cls := by rw [hentry]
  cases hready : (s.flow f).ready with
  | false =>
    rw [State.relist_of_notDue (.inl (by rw [hentry]; exact hready)), hlisted, if_neg (by decide), hother]
    exact ⟨rfl, fun _ => ⟨rfl, rfl⟩⟩
  | true =>
    rw [State.relist_of_due (by rw [hentry]; exact hready) (by rw [hentry]), hlisted, if_neg (by decide),
      State.flow_listFlow_ne _ hg, hother, hconsumer', hcls, hreadyList, hlist]
    refine ⟨rfl, fun hgp => ⟨rfl, if_neg fun e => ?_⟩⟩
    obtain ⟨_, _, -, hgconsumer, -⟩ := hgs.mem_standsIn (List.mem_of_getLast? e)
    exact hgp hgconsumer

end

/-! ## The end of every dispatch of a port (R119) -/

section
variable {s : State} {p : PortId} {l : List FlowId}

/-- What the end of the dispatches of the flows `l`, all of port `p`, leaves. -/
structure State.UndispatchesAll (s u : State) (p : PortId) (l : List FlowId) : Prop where
  frame : s.InRelist u
  flow : ∀ g, u.flow g = { s.flow g with
    dispatched := if g ∈ l then false else (s.flow g).dispatched
    listed := (u.flow g).listed, prev := (u.flow g).prev, next := (u.flow g).next }
  unit : ∃ b, u.unit p = { s.unit p with readyArmed := b }
  unit_ne : ∀ q, q ≠ p → u.unit q = s.unit q
  readyList_ne : ∀ q c, q ≠ p → u.readyList q c = s.readyList q c

theorem State.undispatchesAll (hstate : (s.unit p).state ≠ .up) (hl : ∀ f ∈ l, (s.flow f).consumer = p) :
    s.UndispatchesAll (l.foldl (fun s f => s.undispatch f) s) p l := by
  induction l generalizing s with
  | nil => exact ⟨rfl, fun g => by simp, ⟨_, rfl⟩, fun _ _ => rfl, fun _ _ _ => rfl⟩
  | cons f l ih =>
    obtain ⟨hf, hrest⟩ := List.forall_mem_cons.1 hl
    obtain ⟨hframe, hflow, ⟨b, hunit⟩, hunit', hlist⟩ := State.undispatches (s := s) (f := f) (by rwa [hf])
    rw [List.foldl_cons]
    generalize s.undispatch f = x at *
    rw [hf] at hunit hunit' hlist
    obtain ⟨hframe₂, hflow₂, ⟨b₂, hunit₂⟩, hunit₂', hlist₂⟩ := ih (s := x) (by rw [hunit]; exact hstate)
      (fun g hg => by rw [hflow g]; exact hrest g hg)
    refine ⟨hframe.trans hframe₂, fun g => ?_, ⟨b₂, hunit₂.trans (by rw [hunit])⟩,
      fun q hq => (hunit₂' q hq).trans (hunit' q hq), fun q c hq => (hlist₂ q c hq).trans (hlist q c hq)⟩
    refine (hflow₂ g).trans ?_
    rw [hflow g]
    simp only [List.mem_cons]
    by_cases hg : g = f <;> by_cases hgl : g ∈ l <;> simp [hg, hgl]

/-- The lists when the dispatches of unlisted flows end: those that are ready stand behind the others, in their order,
and no other port's flow moves. -/
theorem State.listHolds_undispatchAll (hwhole : s.listsWhole p) (hstate : (s.unit p).state ≠ .up)
    (hl : ∀ f ∈ l, (s.flow f).consumer = p ∧ (s.flow f).listed = false) (hnodup : l.Nodup) :
    (∀ c fs, s.listHolds p c fs →
      (l.foldl (fun s f => s.undispatch f) s).listHolds p c (fs ++ l.filter (s.joins c))) ∧
    ∀ g, (s.flow g).consumer ≠ p →
      ((l.foldl (fun s f => s.undispatch f) s).flow g).listed = (s.flow g).listed ∧
      ((l.foldl (fun s f => s.undispatch f) s).flow g).prev = (s.flow g).prev ∧
      ((l.foldl (fun s f => s.undispatch f) s).flow g).next = (s.flow g).next := by
  induction l generalizing s with
  | nil => exact ⟨fun c fs h => by simpa using h, fun g _ => ⟨rfl, rfl, rfl⟩⟩
  | cons f l ih =>
    obtain ⟨⟨hf, hlisted⟩, hrest⟩ := List.forall_mem_cons.1 hl
    obtain ⟨hnot, hnodup⟩ := List.nodup_cons.1 hnodup
    obtain ⟨-, hflow, ⟨b, hunit⟩, -, -⟩ := State.undispatches (s := s) (f := f) (by rwa [hf])
    have hlists {c : ClassId} {fs : List FlowId} := State.listHolds_undispatch (c := c) (fs := fs) hwhole hf hlisted
    have hplace {g : FlowId} (hg : g ≠ f) := State.place_undispatch hwhole hf hlisted hg
    rw [List.foldl_cons]
    generalize s.undispatch f = x at *
    rw [hf] at hunit
    obtain ⟨hlists₂, hplace₂⟩ := ih (s := x) (fun c => (hwhole c).elim fun fs hfs => ⟨_, hlists hfs⟩)
      (by rw [hunit]; exact hstate) (fun g hg => ⟨by rw [hflow g]; exact (hrest g hg).1, by
        rw [(hplace fun e => hnot (e ▸ hg)).1]
        exact (hrest g hg).2⟩) hnodup
    have hjoins (c : ClassId) : x.joins c = s.joins c := funext fun g => by rw [State.joins, hflow g]; rfl
    refine ⟨fun c fs hfs => ?_, fun g hg => ?_⟩
    · have hlast := hlists₂ c _ (hlists hfs)
      rw [hjoins, List.append_assoc] at hlast
      have hcons : [f].filter (s.joins c) ++ l.filter (s.joins c) = (f :: l).filter (s.joins c) := by
        rw [← List.filter_append]
        rfl
      rw [← hcons]
      exact hlast
    · have hne : g ≠ f := fun e => hg (e ▸ hf)
      obtain ⟨h₁, h₂⟩ := hplace hne
      obtain ⟨hprev, hnext⟩ := h₂ hg
      obtain ⟨k₁, k₂, k₃⟩ := hplace₂ g (by rw [hflow g]; exact hg)
      exact ⟨k₁.trans h₁, k₂.trans hprev, k₃.trans hnext⟩

end

end Sys2Proof.Machine

/-! SUPPORT. The teardown of a port, order by order (R83, R105, R130, R150, R151). -/

namespace Sys2Proof.Machine

section
variable {s t : State} {p : PortId} {st : PortState}

/-! ## The assembly (R83) -/

/-- The flow map entry of flow `g` when port `p`'s assembly has been given up (R38). -/
def State.givenUp (s : State) (p : PortId) (g : FlowId) : FlowEntry :=
  if (s.asm p).state = .assembling ∧ g = (s.asm p).flow then { s.flow g with
    admittedSegs := (s.flow g).admittedSegs - (s.asm p).needed, admittedUnits := (s.flow g).admittedUnits - 1 }
  else s.flow g

/-- What order 2 of a teardown leaves, where the flow assembled for is not DRAINING. -/
structure State.GivesUp (s u : State) (p : PortId) : Prop where
  frame : u = { s with asms := u.asms, pool := u.pool, flows := u.flows, mem := u.mem, handed := u.handed }
  asm : (u.asm p).state = .idle
  asm_ne : ∀ q, q ≠ p → u.asm q = s.asm q
  pool : u.pool = if (s.asm p).state = .assembling then s.poolAborting (s.asm p) else s.pool
  flow : ∀ g, u.flow g = s.givenUp p g
  wf : Table.wf (fun _ => FlowEntry.initial) s.flows = true → Table.wf (fun _ => FlowEntry.initial) u.flows = true

theorem State.givesUp_teardownAssembly
    (hdraining : (s.asm p).state = .assembling → (s.flow (s.asm p).flow).state ≠ .draining) :
    s.GivesUp (s.teardownAssembly p) p := by
  have hflow (hnot : (s.asm p).state ≠ .assembling) (g : FlowId) : s.flow g = s.givenUp p g :=
    (if_neg fun h => hnot h.1).symm
  have hidle (v : Assembly) (hv : v.state = .idle) (hnot : (s.asm p).state ≠ .assembling) :
      s.GivesUp (s.setAsm p v) p :=
    ⟨rfl, by rw [State.asm_setAsm_self]; exact hv, fun q hq => State.asm_setAsm_ne s v hq, (if_neg hnot).symm,
      hflow hnot, id⟩
  unfold State.teardownAssembly
  cases hstate : (s.asm p).state with
  | idle =>
    have hnot : (s.asm p).state ≠ .assembling := by rw [hstate]; decide
    exact ⟨rfl, hstate, fun _ _ => rfl, (if_neg hnot).symm, hflow hnot, id⟩
  | admitting => exact hidle _ rfl (by rw [hstate]; decide)
  | discarding => exact hidle _ rfl (by rw [hstate]; decide)
  | assembling =>
    dsimp only
    rw [State.abortRecord_none, State.drainTest_of_not]
    · refine ⟨rfl, by exact congrArg Assembly.state (State.asm_setAsm_self _ p _), fun q hq =>
        State.asm_setAsm_ne _ _ hq, (if_pos hstate).symm, fun g => ?_, fun hwf => Table.wf_put _ _ _ _ hwf⟩
      rw [State.givenUp]
      refine (State.flow_setFlow s _ g _).trans ?_
      split
      · next hg => rw [if_pos ⟨hstate, hg⟩, hg]
      · next hg => rw [if_neg fun h => hg h.2]
    · rintro ⟨hdrains, -⟩
      refine hdraining hstate (Eq.trans ?_ hdrains)
      exact (congrArg FlowEntry.state (State.flow_setFlow_self s (s.asm p).flow { s.flow (s.asm p).flow with
        admittedSegs := (s.flow (s.asm p).flow).admittedSegs - (s.asm p).needed
        admittedUnits := (s.flow (s.asm p).flow).admittedUnits - 1 })).symm

/-! ## The delivery (R105) -/

/-- What order 3 of a teardown leaves. -/
structure State.EndsDelivery (s u : State) (p : PortId) : Prop where
  frame : u = { s with units := u.units, dels := u.dels, slots := u.slots, mem := u.mem, retryDue := u.retryDue }
  units : u.units = (s.setUnit p { s.unit p with consumerQueue := [], current := none }).units
  del : (u.del p).state = .idle
  del_ne : ∀ q, q ≠ p → u.del q = s.del q
  slot : ∀ T, u.slot T = { s.slot T with
    delivering := if (s.del p).state = .streaming ∧ s.servingSlot (s.del p).flow = some T then false
      else (s.slot T).delivering }

theorem State.endsDelivery_of_streaming {x : State} (hstreams : (s.del p).state = .streaming)
    (hframe : x = { s with units := x.units, mem := x.mem })
    (hunits : x.units = (s.setUnit p { s.unit p with consumerQueue := [], current := none }).units) :
    (∀ S, s.servingSlot (s.del p).flow = some S → s.EndsDelivery (x.endDelivery p S) p) ∧
      (s.servingSlot (s.del p).flow = none → s.EndsDelivery (x.setDel p Delivery.initial) p) := by
  have hslot (T : SlotId) : x.slot T = s.slot T := by rw [hframe]; rfl
  have hdel (q : PortId) : x.del q = s.del q := by rw [hframe]; rfl
  refine ⟨fun S hS => ⟨?_, hunits, congrArg Delivery.state (State.del_setDel_self x p _),
    fun q hq => (State.del_setDel_ne x _ hq).trans (hdel q), fun T => ?_⟩, fun hnone => ⟨?_, hunits,
    congrArg Delivery.state (State.del_setDel_self x p _), fun q hq => (State.del_setDel_ne x _ hq).trans (hdel q),
    fun T => ?_⟩⟩
  · unfold State.endDelivery
    rw [hframe]
    rfl
  · refine (State.slot_setSlot (x.setDel p Delivery.initial) S T _).trans ?_
    split
    · next h =>
      rw [h, if_pos ⟨hstreams, hS⟩]
      dsimp only [State.slot_setDel]
      rw [hslot]
    · next h =>
      have hne : ¬ ((s.del p).state = .streaming ∧ s.servingSlot (s.del p).flow = some T) := fun e =>
        h (Option.some.inj (hS.symm.trans e.2)).symm
      rw [if_neg hne, State.slot_setDel, hslot]
  · rw [hframe]
    rfl
  · have hne : ¬ ((s.del p).state = .streaming ∧ s.servingSlot (s.del p).flow = some T) := fun e =>
      absurd (hnone.symm.trans e.2) (by simp)
    rw [if_neg hne, State.slot_setDel, hslot]

theorem State.endsDelivery_teardownDelivery (s : State) (p : PortId) : s.EndsDelivery (s.teardownDelivery p) p := by
  unfold State.teardownDelivery
  dsimp only
  split
  · next hstreams =>
    have hframe : (s.setUnit p { s.unit p with consumerQueue := [], current := none }).abandonRead p = { s with
        units := ((s.setUnit p { s.unit p with consumerQueue := [], current := none }).abandonRead p).units
        mem := ((s.setUnit p { s.unit p with consumerQueue := [], current := none }).abandonRead p).mem } := rfl
    have hunits : ((s.setUnit p { s.unit p with consumerQueue := [], current := none }).abandonRead p).units =
        (s.setUnit p { s.unit p with consumerQueue := [], current := none }).units := rfl
    have hserving (f : FlowId) :
        ((s.setUnit p { s.unit p with consumerQueue := [], current := none }).abandonRead p).servingSlot f =
        s.servingSlot f := rfl
    have hdel : ((s.setUnit p { s.unit p with consumerQueue := [], current := none }).abandonRead p).del p = s.del p :=
      rfl
    rw [hdel]
    generalize (s.setUnit p { s.unit p with consumerQueue := [], current := none }).abandonRead p = x at *
    obtain ⟨hsome, hnone⟩ := State.endsDelivery_of_streaming (s := s) hstreams hframe hunits
    rw [hserving]
    cases hS : s.servingSlot (s.del p).flow with
    | none => exact hnone hS
    | some S => exact hsome S hS
  · next hidle =>
    refine ⟨rfl, rfl, ?_, fun q _ => rfl, fun T => ?_⟩
    · change (s.del p).state = .idle
      cases hstate : (s.del p).state with
      | idle => rfl
      | streaming => exact absurd hstate hidle
    · rw [if_neg fun h => hidle h.1]
      rfl

/-! ## The cache and the hold (R65, R130) -/

theorem State.teardownCache_eq (s : State) (p : PortId) : s.teardownCache p = s.purge (s.outlasts p) := by
  refine congrArg s.purge (funext fun r => ?_)
  cases r <;> rfl

/-- What order 5 of a teardown leaves, where nothing is parked behind the port's hold. -/
structure State.EndsHoldAt (s u : State) (p : PortId) : Prop where
  frame : u = { s with holds := u.holds, pinnedOrHeld := u.pinnedOrHeld, retryDue := u.retryDue }
  hold : (u.hold p).state = .empty
  hold_ne : ∀ q, q ≠ p → u.hold q = s.hold q
  count_empty : (s.hold p).state = .empty → u.pinnedOrHeld = s.pinnedOrHeld
  count : (s.hold p).state ≠ .empty → ∀ S, s.servingSlot (s.hold p).flow = some S →
    u.pinnedOrHeld = s.pinnedOrHeld - (if (s.slot S).pins = 0 then 1 else 0)

theorem State.endsHoldAt_teardownHold (hparked : (s.hold p).state ≠ .empty →
    ∀ S, s.servingSlot (s.hold p).flow = some S → (s.slot S).parkedList = []) :
    s.EndsHoldAt (s.teardownHold p) p := by
  unfold State.teardownHold
  split
  · next hempty => exact ⟨rfl, hempty, fun _ _ => rfl, fun _ => rfl, fun h => absurd hempty h⟩
  · next hheld =>
    cases hS : s.servingSlot (s.hold p).flow with
    | some S =>
      rw [State.endHold_of_none_parked hS rfl (hparked hheld S hS)]
      refine ⟨rfl, congrArg Hold.state (State.hold_setHold_self _ p _), fun q hq => State.hold_setHold_ne _ _ hq,
        fun h => absurd h hheld, fun _ T hT => ?_⟩
      rw [Option.some.inj (hT.symm.trans hS)]
      rfl
    | none =>
      have hended : s.endHold p none = (s.setHold p Hold.initial).dueRetry := by
        have hserving : (s.setHold p Hold.initial).servingSlot (s.hold p).flow = none := hS
        unfold State.endHold
        dsimp only
        rw [hserving]
        dsimp only
        rw [State.parkedPass, hserving]
      rw [hended]
      exact ⟨rfl, congrArg Hold.state (State.hold_setHold_self _ p _), fun q hq => State.hold_setHold_ne _ _ hq,
        fun h => absurd h hheld, fun _ T hT => absurd (hS.symm.trans hT) (by simp)⟩

/-! ## Orders 1 to 5 together -/

/-- What a teardown leaves before the port's dispatched flows are relisted (R150). -/
structure State.Vacates (s u : State) (p : PortId) (st : PortState) : Prop where
  frame : u = { s with
    units := u.units, asms := u.asms, dels := u.dels, holds := u.holds, slots := u.slots, missWait := u.missWait
    flows := u.flows, pool := u.pool, pinnedOrHeld := u.pinnedOrHeld, mem := u.mem, handed := u.handed
    retryDue := u.retryDue }
  unit : u.unit p = { (s.unit p).leftUp st with consumerQueue := [], current := none }
  unit_ne : ∀ q, q ≠ p → u.unit q = s.unit q
  asm : (u.asm p).state = .idle
  asm_ne : ∀ q, q ≠ p → u.asm q = s.asm q
  del : (u.del p).state = .idle
  del_ne : ∀ q, q ≠ p → u.del q = s.del q
  hold : (u.hold p).state = .empty
  hold_ne : ∀ q, q ≠ p → u.hold q = s.hold q
  pool : u.pool = if (s.asm p).state = .assembling then s.poolAborting (s.asm p) else s.pool
  flow : ∀ g, u.flow g = s.givenUp p g
  wf : Table.wf (fun _ => FlowEntry.initial) s.flows = true → Table.wf (fun _ => FlowEntry.initial) u.flows = true
  count_empty : (s.hold p).state = .empty → u.pinnedOrHeld = s.pinnedOrHeld
  count : (s.hold p).state ≠ .empty → ∀ S, s.servingSlot (s.hold p).flow = some S →
    u.pinnedOrHeld = s.pinnedOrHeld - (if (s.slot S).pins = 0 then 1 else 0)
  slot : ∀ T, u.slot T = { (s.slot T).purged (s.outlasts p) with
    delivering := if (s.del p).state = .streaming ∧ s.servingSlot (s.del p).flow = some T then false
      else (s.slot T).delivering }
  missWait : u.missWait = s.missWait.filter (s.outlasts p)

/-- The state of a teardown before the port's dispatched flows are relisted. -/
def State.vacated (s : State) (p : PortId) (st : PortState) : State :=
  ((((s.setUnit p ((s.unit p).leftUp st)).teardownAssembly p).teardownDelivery p).teardownCache p).teardownHold p

theorem State.servingSlot_of_slots {u v : State} (hslots : ∀ T, (v.slot T).state = (u.slot T).state ∧
    (v.slot T).flow = (u.slot T).flow) {f : FlowId} (hres : (v.flow f).residency = (u.flow f).residency) :
    v.servingSlot f = u.servingSlot f := by
  unfold State.servingSlot State.residentWith
  rw [hres]
  cases (u.flow f).residency with
  | none => rfl
  | some S =>
    obtain ⟨hstate, hflow⟩ := hslots S
    dsimp only
    rw [hstate, hflow]

theorem State.residency_givenUp (s : State) (p : PortId) (g : FlowId) :
    (s.givenUp p g).residency = (s.flow g).residency := by
  unfold State.givenUp
  split <;> rfl

theorem State.outlasts_congr {u : State} (h : ∀ q g, (u.tagRec q g).unit = (s.tagRec q g).unit) :
    u.outlasts p = s.outlasts p := by
  refine funext fun r => ?_
  cases r with
  | request q g => simp only [State.outlasts, h q g]
  | clearHalt f => rfl

/-- Orders 1 to 3: the port has left UP, its assembly is given up and its delivery has ended. -/
structure State.Leaves (s u : State) (p : PortId) (st : PortState) : Prop where
  frame : u = { s with
    units := u.units, asms := u.asms, dels := u.dels, slots := u.slots, flows := u.flows, pool := u.pool
    mem := u.mem, handed := u.handed, retryDue := u.retryDue }
  unit : u.unit p = { (s.unit p).leftUp st with consumerQueue := [], current := none }
  unit_ne : ∀ q, q ≠ p → u.unit q = s.unit q
  asm : (u.asm p).state = .idle
  asm_ne : ∀ q, q ≠ p → u.asm q = s.asm q
  del : (u.del p).state = .idle
  del_ne : ∀ q, q ≠ p → u.del q = s.del q
  pool : u.pool = if (s.asm p).state = .assembling then s.poolAborting (s.asm p) else s.pool
  flow : ∀ g, u.flow g = s.givenUp p g
  wf : Table.wf (fun _ => FlowEntry.initial) s.flows = true → Table.wf (fun _ => FlowEntry.initial) u.flows = true
  slot : ∀ T, u.slot T = { s.slot T with
    delivering := if (s.del p).state = .streaming ∧ s.servingSlot (s.del p).flow = some T then false
      else (s.slot T).delivering }

theorem State.leaves (hdraining : (s.asm p).state = .assembling → (s.flow (s.asm p).flow).state ≠ .draining) :
    s.Leaves (((s.setUnit p ((s.unit p).leftUp st)).teardownAssembly p).teardownDelivery p) p st := by
  have hleft := State.unit_setUnit_self s p ((s.unit p).leftUp st)
  have hothers {q : PortId} (hq : q ≠ p) := State.unit_setUnit_ne s ((s.unit p).leftUp st) hq
  obtain ⟨hframe₁, hasm, hasm', hpool, hflow, hwf⟩ :=
    State.givesUp_teardownAssembly (s := s.setUnit p ((s.unit p).leftUp st)) (p := p) hdraining
  generalize (s.setUnit p ((s.unit p).leftUp st)).teardownAssembly p = x at *
  obtain ⟨hframe, hunits, hdel, hdel', hslot⟩ := x.endsDelivery_teardownDelivery p
  generalize x.teardownDelivery p = u at *
  have hxunits : x.units = (s.setUnit p ((s.unit p).leftUp st)).units := by rw [hframe₁]
  have hxunit (q : PortId) : x.unit q = (s.setUnit p ((s.unit p).leftUp st)).unit q :=
    congrArg (fun us : Vector PortUnit 4 => us[q]) hxunits
  have hxdel (q : PortId) : x.del q = s.del q := by rw [hframe₁]; rfl
  have hxslot (T : SlotId) : x.slot T = s.slot T := by rw [hframe₁]; rfl
  have hserving (f : FlowId) : x.servingSlot f = s.servingSlot f :=
    State.servingSlot_of_slots (fun T => by rw [hxslot]; exact ⟨rfl, rfl⟩)
      (by rw [hflow]; exact State.residency_givenUp _ p f)
  have hasms : u.asms = x.asms := by rw [hframe]
  have huasm (q : PortId) : u.asm q = x.asm q := congrArg (fun vs : Vector Assembly 4 => vs[q]) hasms
  have hflows : u.flows = x.flows := by rw [hframe]
  refine ⟨?_, ?_, fun q hq => ?_, ?_, fun q hq => ?_, hdel, fun q hq => (hdel' q hq).trans (hxdel q), ?_, fun g => ?_,
    fun h => ?_, fun T => ?_⟩
  · rw [hframe, hframe₁]
    rfl
  · refine (congrArg (fun us : Vector PortUnit 4 => us[p]) hunits).trans ((State.unit_setUnit_self x p _).trans ?_)
    rw [hxunit, hleft]
  · refine (congrArg (fun us : Vector PortUnit 4 => us[q]) hunits).trans ((State.unit_setUnit_ne x _ hq).trans ?_)
    rw [hxunit, hothers hq]
  · rw [huasm]
    exact hasm
  · rw [huasm]
    exact hasm' q hq
  · have hupool : u.pool = x.pool := by rw [hframe]
    exact hupool.trans hpool
  · refine (congrArg (fun fs : List (Nat × FlowEntry) => Table.get FlowEntry.initial fs g.val) hflows).trans (hflow g)
  · rw [hflows]
    exact hwf h
  · rw [hslot, hxslot, hxdel, hserving]

theorem State.vacates_vacated
    (hdraining : (s.asm p).state = .assembling → (s.flow (s.asm p).flow).state ≠ .draining)
    (hparked : (s.hold p).state ≠ .empty →
      ∀ S, s.servingSlot (s.hold p).flow = some S → (s.slot S).parkedList = []) :
    s.Vacates (s.vacated p st) p st := by
  have hleaves := State.leaves (st := st) hdraining
  unfold State.vacated
  generalize ((s.setUnit p ((s.unit p).leftUp st)).teardownAssembly p).teardownDelivery p = x at *
  obtain ⟨hframe₁, hunit, hunit', hasm, hasm', hdel, hdel', hpool, hflow, hwf, hslot₁⟩ := hleaves
  have hkeep : x.outlasts p = s.outlasts p := by
    refine State.outlasts_congr fun q g => ?_
    by_cases hq : q = p
    · rw [hq, State.tagRec, State.tagRec, hunit]
      rfl
    · rw [State.tagRec, State.tagRec, hunit' q hq]
  rw [State.teardownCache_eq, hkeep]
  have hframe₂ := x.frame_purge (s.outlasts p)
  have hslot₂ := x.slot_purge (s.outlasts p)
  have hmiss := x.missWait_purge (s.outlasts p)
  generalize x.purge (s.outlasts p) = y at *
  have hslot (T : SlotId) : y.slot T = { (s.slot T).purged (s.outlasts p) with
      delivering := if (s.del p).state = .streaming ∧ s.servingSlot (s.del p).flow = some T then false
        else (s.slot T).delivering } := by
    rw [hslot₂, hslot₁]
    rfl
  have hyhold (q : PortId) : y.hold q = s.hold q := by
    have hholds : y.holds = s.holds := by rw [hframe₂, hframe₁]
    exact congrArg (fun hs : Vector Hold 4 => hs[q]) hholds
  have hcount : y.pinnedOrHeld = s.pinnedOrHeld := by rw [hframe₂, hframe₁]
  have hyflows : y.flows = x.flows := by rw [hframe₂]
  have hyflow (g : FlowId) : y.flow g = x.flow g :=
    congrArg (fun fs : List (Nat × FlowEntry) => Table.get FlowEntry.initial fs g.val) hyflows
  have hserving (f : FlowId) : y.servingSlot f = s.servingSlot f :=
    State.servingSlot_of_slots (fun T => by rw [hslot]; exact ⟨rfl, rfl⟩)
      (by rw [hyflow, hflow]; exact State.residency_givenUp s p f)
  obtain ⟨hframe₃, hhold, hhold', hempty, hheld⟩ := State.endsHoldAt_teardownHold (s := y) (p := p) fun h S hS => by
    rw [hyhold] at h hS
    rw [hserving] at hS
    rw [hslot]
    exact (congrArg (List.filter (s.outlasts p)) (hparked h S hS)).trans List.filter_nil
  generalize y.teardownHold p = u at *
  rw [hyhold] at hempty hheld
  rw [hcount] at hempty hheld
  have hunits : u.units = x.units := by rw [hframe₃, hframe₂]
  have hasms : u.asms = x.asms := by rw [hframe₃, hframe₂]
  have hdels : u.dels = x.dels := by rw [hframe₃, hframe₂]
  have hslots : u.slots = y.slots := by rw [hframe₃]
  have hflows : u.flows = x.flows := by rw [hframe₃, hframe₂]
  have hxmiss : x.missWait = s.missWait := by rw [hframe₁]
  have huunit (q : PortId) : u.unit q = x.unit q := congrArg (fun us : Vector PortUnit 4 => us[q]) hunits
  have huasm (q : PortId) : u.asm q = x.asm q := congrArg (fun vs : Vector Assembly 4 => vs[q]) hasms
  have hudel (q : PortId) : u.del q = x.del q := congrArg (fun vs : Vector Delivery 4 => vs[q]) hdels
  refine ⟨?_, (huunit p).trans hunit, fun q hq => (huunit q).trans (hunit' q hq), ?_,
    fun q hq => (huasm q).trans (hasm' q hq), ?_, fun q hq => (hudel q).trans (hdel' q hq), hhold,
    fun q hq => (hhold' q hq).trans (hyhold q), ?_, fun g => ?_, fun h => ?_, hempty, fun h S hS => ?_, fun T => ?_, ?_⟩
  · rw [hframe₃, hframe₂, hframe₁]
  · rw [huasm]
    exact hasm
  · rw [hudel]
    exact hdel
  · have hupool : u.pool = x.pool := by rw [hframe₃, hframe₂]
    exact hupool.trans hpool
  · exact (congrArg (fun fs : List (Nat × FlowEntry) => Table.get FlowEntry.initial fs g.val) hflows).trans (hflow g)
  · rw [hflows]
    exact hwf h
  · rw [hheld h S (by rw [hserving]; exact hS), hslot]
    rfl
  · exact (congrArg (fun vs : Vector Slot 64 => vs[T]) hslots).trans (hslot T)
  · have humiss : u.missWait = y.missWait := by rw [hframe₃]
    rw [humiss, hmiss, hxmiss]

/-- A teardown, where nothing is parked behind the assembly that it gives up: the passes over the parked lists find
nothing, and the port's dispatched flows are relisted before its unit is cleared. -/
theorem State.teardown_eq
    (hdraining : (s.asm p).state = .assembling → (s.flow (s.asm p).flow).state ≠ .draining)
    (hassembling : (s.asm p).state = .assembling →
      ∀ S, s.servingSlot (s.asm p).flow = some S → (s.slot S).parkedList = [])
    (hparked : (s.hold p).state ≠ .empty →
      ∀ S, s.servingSlot (s.hold p).flow = some S → (s.slot S).parkedList = []) :
    s.teardown p st = ((s.vacated p st).teardownRelist p).setUnit p
      (((s.vacated p st).teardownRelist p).unit p).cleared := by
  have hvacates := State.vacates_vacated (st := st) hdraining hparked
  have hfell : (if (s.asm p).state = .assembling then (s.vacated p st).admittedFell (s.asm p).flow
      else s.vacated p st) = s.vacated p st := by
    split
    · next h =>
      generalize s.vacated p st = u at *
      refine State.admittedFell_of_none_parked fun S hS => ?_
      have hserving : u.servingSlot (s.asm p).flow = s.servingSlot (s.asm p).flow :=
        State.servingSlot_of_slots (fun T => by rw [hvacates.slot]; exact ⟨rfl, rfl⟩)
          (by rw [hvacates.flow]; exact State.residency_givenUp s p _)
      rw [hserving] at hS
      rw [hvacates.slot]
      exact (congrArg (List.filter (s.outlasts p)) (hassembling h S hS)).trans List.filter_nil
    · rfl
  exact congrArg (fun z : State => (z.teardownRelist p).setUnit p ((z.teardownRelist p).unit p).cleared) hfell

/-! ## The relisting and the clearing (R119, R151) -/

@[simp] theorem PortUnit.tag_cleared (u : PortUnit) (g : TagId) : u.cleared.tag g = (u.tag g).tornDown :=
  Vector.getElem_map TagRecord.tornDown g.isLt

theorem State.givenUp_sameOthers (s : State) (p : PortId) (g : FlowId) : s.givenUp p g = { s.flow g with
    admittedSegs := (s.givenUp p g).admittedSegs, admittedUnits := (s.givenUp p g).admittedUnits } := by
  unfold State.givenUp
  split <;> rfl

theorem State.mem_dispatchedFlows_vacated {v : State} (hcanonical : s.canonical) (hv : s.Vacates v p st) (f : FlowId) :
    f ∈ v.dispatchedFlows p ↔ (s.flow f).consumer = p ∧ (s.flow f).dispatched = true := by
  obtain ⟨-, -, hwf, -⟩ := hcanonical
  rw [State.mem_dispatchedFlows (hv.wf hwf), hv.flow, State.givenUp_sameOthers]

theorem State.relists_teardown {v : State} (hcanonical : s.canonical) (hst : st ≠ .up) (hv : s.Vacates v p st) :
    v.UndispatchesAll (v.teardownRelist p) p (v.dispatchedFlows p) := by
  refine State.undispatchesAll (by rw [hv.unit]; exact hst) fun f hf => ?_
  rw [hv.flow, State.givenUp_sameOthers]
  exact ((State.mem_dispatchedFlows_vacated hcanonical hv f).1 hf).1

/-- What a port's lists hold after the relisting, where they are whole and no dispatched flow stands in them (R119). -/
theorem State.lists_teardown {v : State} (hcanonical : s.canonical) (hst : st ≠ .up) (hv : s.Vacates v p st)
    (hwhole : s.listsWhole p)
    (hunlisted : ∀ f, (s.flow f).consumer = p → (s.flow f).dispatched = true → (s.flow f).listed = false) :
    (∀ f, (s.flow f).consumer ≠ p → ((v.teardownRelist p).flow f).listed = (s.flow f).listed ∧
      ((v.teardownRelist p).flow f).prev = (s.flow f).prev ∧ ((v.teardownRelist p).flow f).next = (s.flow f).next) ∧
    ∀ (c : ClassId) (listed relisted : List FlowId), s.listHolds p c listed → relisted.Pairwise (fun f g => f < g) →
      (∀ f, f ∈ relisted ↔ ((s.flow f).consumer = p ∧ (s.flow f).cls = c ∧ (s.flow f).dispatched = true ∧
        (s.flow f).ready = true)) →
      (v.teardownRelist p).listHolds p c (listed ++ relisted) := by
  have hmem := State.mem_dispatchedFlows_vacated hcanonical hv
  have hsorted := State.pairwise_dispatchedFlows (hv.wf hcanonical.2.2.1) p
  have hsame (g : FlowId) := (hv.flow g).trans (s.givenUp_sameOthers p g)
  have hreadyList (c : ClassId) : v.readyList p c = s.readyList p c := by rw [hv.frame]; rfl
  have hlistHolds {c : ClassId} {fs : List FlowId} (h : s.listHolds p c fs) : v.listHolds p c fs := by
    obtain ⟨hnodup, hlist, hstands⟩ := State.listHolds_iff.1 h
    refine State.listHolds_iff.2 ⟨hnodup, (hreadyList c).trans hlist, fun before g after hfs => ?_⟩
    rw [hsame]
    exact hstands before g after hfs
  obtain ⟨hlists, hplaces⟩ := State.listHolds_undispatchAll (s := v) (p := p) (l := v.dispatchedFlows p)
    (fun c => (hwhole c).imp fun fs hfs => hlistHolds hfs) (by rw [hv.unit]; exact hst)
    (fun f hf => by
      obtain ⟨hconsumer, hdispatched⟩ := (hmem f).1 hf
      rw [hsame]
      exact ⟨hconsumer, hunlisted f hconsumer hdispatched⟩)
    (hsorted.imp fun hlt => hlt.ne)
  refine ⟨fun f hf => ?_, fun c listed relisted hlisted hpairwise hrelisted => ?_⟩
  · have hplace := hplaces f (by rw [hsame]; exact hf)
    rw [hsame] at hplace
    exact hplace
  · have hjoins : (v.dispatchedFlows p).filter (v.joins c) = relisted := by
      refine List.Perm.eq_of_pairwise (le := fun f g => f < g) (fun f g _ _ hfg hgf => absurd hfg hgf.asymm)
        (hsorted.filter _) hpairwise ?_
      refine (List.perm_ext_iff_of_nodup ((hsorted.filter _).imp fun hlt => hlt.ne)
        (hpairwise.imp fun hlt => hlt.ne)).2 fun f => ?_
      rw [List.mem_filter, hmem, hrelisted, State.joins, hsame, Bool.and_eq_true, decide_eq_true_iff]
      tauto
    rw [← hjoins]
    exact hlists c listed (hlistHolds hlisted)

end

/-- Settles O23. -/
theorem teardownClearsThePort : Obligations.TeardownClearsThePort := by
  unfold Obligations.TeardownClearsThePort
  intro s p st hcanonical hst a h hassembly hparked t
  have hdraining := fun h => (hassembly h).1
  have hv := State.vacates_vacated (st := st) hdraining hparked
  have ht : t = _ := State.teardown_eq hdraining (fun h => (hassembly h).2) hparked
  clear_value t
  generalize s.vacated p st = v at *
  have hmem := State.mem_dispatchedFlows_vacated hcanonical hv
  have hlists := State.lists_teardown hcanonical hst hv
  obtain ⟨hframe, hflow, ⟨b, hunit⟩, hunit', hlist'⟩ := State.relists_teardown hcanonical hst hv
  generalize v.teardownRelist p = r at *
  obtain ⟨hvframe, hvunit, hvunit', hasm, hasm', hdel, hdel', hhold, hhold', hpool, hvflow, -, hempty, hcount, hslot,
    hmiss⟩ := hv
  rw [hvunit] at hunit
  have htunit : t.unit p = (r.unit p).cleared := by rw [ht, State.unit_setUnit_self]
  have htunit' (q : PortId) (hq : q ≠ p) : t.unit q = s.unit q := by
    rw [ht, State.unit_setUnit_ne _ _ hq, hunit' q hq, hvunit' q hq]
  have htag (g : TagId) : t.tagRec p g = (s.tagRec p g).tornDown := by
    rw [State.tagRec, htunit, PortUnit.tag_cleared, hunit]
    rfl
  have htflow (g : FlowId) : t.flow g = r.flow g := by rw [ht]; rfl
  unfold State.InRelist at hframe
  have hasms : t.asms = v.asms := by rw [ht, hframe]; rfl
  have hdels : t.dels = v.dels := by rw [ht, hframe]; rfl
  have hholds : t.holds = v.holds := by rw [ht, hframe]; rfl
  have hslots : t.slots = v.slots := by rw [ht, hframe]; rfl
  have htpool : t.pool = v.pool := by rw [ht, hframe]; rfl
  have htcount : t.pinnedOrHeld = v.pinnedOrHeld := by rw [ht, hframe]; rfl
  have htmiss : t.missWait = v.missWait := by rw [ht, hframe]; rfl
  have htasm (q : PortId) : t.asm q = v.asm q := congrArg (fun vs : Vector Assembly 4 => vs[q]) hasms
  have htdel (q : PortId) : t.del q = v.del q := congrArg (fun vs : Vector Delivery 4 => vs[q]) hdels
  have hthold (q : PortId) : t.hold q = v.hold q := congrArg (fun vs : Vector Hold 4 => vs[q]) hholds
  have htframe : t = { s with
      units := t.units, asms := t.asms, dels := t.dels, holds := t.holds, slots := t.slots, missWait := t.missWait
      flows := t.flows, lists := t.lists, pool := t.pool, pinnedOrHeld := t.pinnedOrHeld, mem := t.mem
      handed := t.handed, retryDue := t.retryDue } := by
    rw [ht, hframe, hvframe]
    rfl
  have hdispatched (g : FlowId) : (t.flow g).dispatched =
      if (s.flow g).consumer = p then false else (s.flow g).dispatched := by
    rw [htflow, hflow, hvflow, State.givenUp_sameOthers]
    by_cases hc : (s.flow g).consumer = p <;> cases hd : (s.flow g).dispatched <;> simp [hmem, hc, hd]
  have hothers (g : FlowId) : t.flow g = { s.flow g with
      dispatched := (t.flow g).dispatched, listed := (t.flow g).listed, prev := (t.flow g).prev, next := (t.flow g).next
      admittedUnits := (t.flow g).admittedUnits, admittedSegs := (t.flow g).admittedSegs } := by
    rw [htflow, hflow, hvflow, State.givenUp_sameOthers]
  have hadmitted (g : FlowId) : (t.flow g).admittedSegs = (s.givenUp p g).admittedSegs ∧
      (t.flow g).admittedUnits = (s.givenUp p g).admittedUnits := by
    rw [htflow, hflow, hvflow]
    exact ⟨rfl, rfl⟩
  refine ⟨?_, fun g hnone => ?_, fun g u hsome => ?_, ⟨?_, ?_, ?_⟩, fun q hq => ⟨?_, ?_, ?_, htunit' q hq⟩, ?_, ?_,
    fun hnot => ?_, fun hstate => ⟨?_, ?_⟩, fun g hg => ?_, fun hnone => htcount.trans (hempty hnone),
    fun hheld S hS => htcount.trans (hcount hheld S hS), ⟨fun S => ?_, ?_⟩,
    ⟨hdispatched, hothers, fun q c hq => ?_, fun hwhole hunlisted => ?_⟩, htframe⟩
  · rw [htunit, hunit]
    rfl
  · rw [htag, TagRecord.tornDown, hnone]
    rfl
  · rw [htag, TagRecord.tornDown, hsome]
    exact ⟨rfl, rfl, rfl⟩
  · rw [htasm]
    exact hasm
  · rw [htdel]
    exact hdel
  · rw [hthold]
    exact hhold
  · rw [htasm, hasm' q hq]
  · rw [htdel, hdel' q hq]
  · rw [hthold, hhold' q hq]
  · rw [htframe]
  · rw [htframe]
  · rw [htpool, hpool, if_neg hnot]
  · rw [htpool, hpool, if_pos hstate]
  · have hself := hadmitted a.flow
    rw [State.givenUp, if_pos ⟨hstate, rfl⟩] at hself
    exact hself
  · have hself := hadmitted g
    rw [State.givenUp, if_neg fun hgiven => hg hgiven.1 hgiven.2] at hself
    exact hself
  · exact (congrArg (fun vs : Vector Slot 64 => vs[S]) hslots).trans (hslot S)
  · exact htmiss.trans hmiss
  · have htlist : t.readyList q c = r.readyList q c := by rw [ht]; rfl
    have hvlist : v.readyList q c = s.readyList q c := by rw [hvframe]; rfl
    rw [htlist, hlist' q c hq, hvlist]
  · obtain ⟨hplaces, hholds⟩ := hlists hwhole hunlisted
    refine ⟨fun g hg => ?_, fun c listed relisted hlisted hpairwise hrelisted => ?_⟩
    · rw [htflow]
      exact hplaces g hg
    · rw [ht]
      exact hholds c listed relisted hlisted hpairwise hrelisted

end Sys2Proof.Machine

/-! SUPPORT. The link loss and the reset of an UP port (R137, R170). -/

namespace Sys2Proof.Machine

section
variable {s : State} {p : PortId}

theorem exec_linkLoss (p : PortId) (s : State) : exec (.linkLoss p) s = execLinkLoss p s := rfl

theorem State.handOnDue_congr {u v : State} {q : PortId} (h : (u.unit q).SameQuiet (v.unit q)) :
    v.handOnDue q = u.handOnDue q := by
  obtain ⟨hqueue, hcurrent, -⟩ := h
  rw [State.handOnDue, State.handOnDue, hqueue, hcurrent]

theorem State.mgmt_issueReads (s : State) : s.issueReads.mgmt = s.mgmt := by
  have hissue (x : State) (q : PortId) : (x.issueRead q).mgmt = x.mgmt := rfl
  have hfold (l : List PortId) (x : State) :
      (l.foldl (fun s p => if s.readDue p then s.issueRead p else s) x).mgmt = x.mgmt := by
    induction l generalizing x with
    | nil => rfl
    | cons q l ih =>
      rw [List.foldl_cons, ih]
      split
      · exact hissue x q
      · rfl
  exact hfold allPorts s

/-- The end of an event that hands nothing on and retries nothing leaves the management unit. -/
theorem State.mgmt_finish (hhand : ∀ q, s.handOnDue q = false) (hwaits : s.retryDue = true → s.noWaits) :
    s.finish.mgmt = s.mgmt := by
  rw [State.finish_eq hhand hwaits, State.mgmt_setMem, State.mgmt_issueReads]

/-- What the end of a port's dispatches leaves at the port units and beside the flow map. -/
theorem State.sameQuiet_foldl_undispatch (l : List FlowId) (s : State) :
    s.InRelist (l.foldl (fun s f => s.undispatch f) s) ∧
      ∀ q, (s.unit q).SameQuiet ((l.foldl (fun s f => s.undispatch f) s).unit q) := by
  induction l generalizing s with
  | nil =>
    rw [List.foldl_nil]
    exact ⟨rfl, fun q => PortUnit.SameQuiet.refl _⟩
  | cons f l ih =>
    have hone : s.InRelist (s.undispatch f) :=
      State.InRelist.trans (t := s.setFlow f { s.flow f with dispatched := false }) rfl (State.inRelist_relist _ f)
    have hsame (q : PortId) : (s.unit q).SameQuiet ((s.undispatch f).unit q) :=
      State.sameQuiet_relist (s.setFlow f { s.flow f with dispatched := false }) f q
    rw [List.foldl_cons]
    generalize s.undispatch f = x at *
    obtain ⟨hframe, hunits⟩ := ih x
    exact ⟨hone.trans hframe, fun q => (hsame q).trans (hunits q)⟩

/-- The teardown of a port that neither assembles nor holds, in a quiet state in which no request waits, leaves nothing
to be done but reads. -/
theorem State.teardown_settles (hquiet : s.quiet = true) (hwaits : s.noWaits) (hasm : (s.asm p).state ≠ .assembling)
    (hhold : (s.hold p).state = .empty) (st : PortState) : (s.teardown p st).noWaits ∧
      (s.teardown p st).mgmt = s.mgmt ∧ ∀ q, (s.teardown p st).handOnDue q = false := by
  have hv := State.vacates_vacated (s := s) (p := p) (st := st) (fun h => absurd h hasm) (fun h => absurd hhold h)
  rw [State.teardown_eq (st := st) (fun h => absurd h hasm) (fun h => absurd h hasm) (fun h => absurd hhold h)]
  generalize s.vacated p st = v at *
  obtain ⟨hframe, hunits⟩ := State.sameQuiet_foldl_undispatch (v.dispatchedFlows p) v
  have hrelist : v.teardownRelist p = (v.dispatchedFlows p).foldl (fun s f => s.undispatch f) v := rfl
  rw [← hrelist] at hframe hunits
  generalize v.teardownRelist p = r at *
  obtain ⟨hmiss, hlink⟩ := hwaits
  have hrest : r.missWait = v.missWait ∧ r.linkWait = v.linkWait ∧ r.mgmt = v.mgmt := by
    unfold State.InRelist at hframe
    rw [hframe]
    exact ⟨rfl, rfl, rfl⟩
  have hvrest : v.linkWait = s.linkWait ∧ v.mgmt = s.mgmt := by
    rw [hv.frame]
    exact ⟨rfl, rfl⟩
  refine ⟨⟨?_, ?_⟩, ?_, fun q => ?_⟩
  · refine hrest.1.trans (hv.missWait.trans ?_)
    rw [hmiss]
    rfl
  · exact hrest.2.1.trans (hvrest.1.trans hlink)
  · exact hrest.2.2.trans hvrest.2
  · by_cases hq : q = p
    · have hqueue : (r.unit p).consumerQueue = [] := by
        rw [(hunits p).1, hv.unit]
      have hempty : ((r.setUnit p (r.unit p).cleared).unit p).consumerQueue = [] := by
        rw [State.unit_setUnit_self]
        exact hqueue
      rw [hq]
      exact State.handOnDue_of_empty hempty
    · have hother : (s.unit q).SameQuiet ((r.setUnit p (r.unit p).cleared).unit q) := by
        rw [State.unit_setUnit_ne _ _ hq, ← hv.unit_ne q hq]
        exact hunits q
      rw [State.handOnDue_congr hother]
      exact (((s.quiet_iff).1 hquiet).2.1 q).1

end

/-- Settles O22. -/
theorem linkLossTakesThePortDown : Obligations.LinkLossTakesThePortDown := by
  unfold Obligations.LinkLossTakesThePortDown
  refine fun s p => ⟨fun hup => ?_, fun hup hfree => ?_, fun hfault => ?_, fun hdown => ?_⟩
  · rw [exec_linkLoss, execLinkLoss, hup]
    exact ⟨_, rfl, State.shut_of_teardown (by decide) (Works.refl _).finish⟩
  · have harg : p.val = (BitVec.ofNat 16 p.val).toNat := by
      rw [BitVec.toNat_ofNat, Nat.mod_eq_of_lt (by omega)]
    rw [exec_portReset, State.command_accepted hfree, State.portResetAct_of_port harg, State.unit_setMgmt, hup]
    dsimp only
    generalize hz : s.setMgmt _ = z
    have hzunit : z.unit p = s.unit p := by rw [← hz]; rfl
    obtain ⟨hstate, hfault, hshut⟩ := State.shut_of_teardown (s := z) (p := p) (st := .down) (by decide)
      ((Works.refl _).commandDone (r := .ok) (ws := noWords)).finish
    rw [hzunit] at hfault
    refine ⟨_, rfl, hstate, hfault, hshut, fun hquiet hwaits hasm hhold => ?_⟩
    obtain ⟨hnone, hmgmt, hhand⟩ := State.teardown_settles (s := z) (p := p) (by rw [← hz]; exact hquiet)
      (by rw [← hz]; exact hwaits) (by rw [← hz]; exact hasm) (by rw [← hz]; exact hhold) .down
    have hdone : (((z.teardown p .down).commandDone .ok noWords).finish).mgmt =
        { z.mgmt with command := .done, result := some .ok, resultWords := noWords } := by
      rw [State.mgmt_finish (by exact hhand) (fun _ => by exact hnone)]
      rw [← hmgmt]
      rfl
    rw [hdone, ← hz]
    exact ⟨rfl, rfl, rfl⟩
  · rw [exec_linkLoss, execLinkLoss, hfault]
  · rw [exec_linkLoss, execLinkLoss, hdown]

end Sys2Proof.Machine

/-! SUPPORT. The requests of a list: QUERY requests that are answered, and requests that are refused, in list order. -/

namespace Sys2Proof.Machine

/-! ## What an answer leaves -/

/-- A port unit whose requests, consumer queue and beats are another's. -/
structure PortUnit.Answers (u v : PortUnit) : Prop where
  queue : v.consumerQueue = u.consumerQueue
  beats : beatsIn v.outbound = beatsIn u.outbound
  tags : ∀ g, (v.tag g).request = (u.tag g).request ∧ (v.tag g).unit = (u.tag g).unit

theorem PortUnit.Answers.refl (u : PortUnit) : u.Answers u := ⟨rfl, rfl, fun _ => ⟨rfl, rfl⟩⟩

theorem PortUnit.Answers.trans {u v w : PortUnit} (h : u.Answers v) (k : v.Answers w) : u.Answers w :=
  ⟨k.queue.trans h.queue, k.beats.trans h.beats,
    fun g => ⟨(k.tags g).1.trans (h.tags g).1, (k.tags g).2.trans (h.tags g).2⟩⟩

section
variable {s u x y : State} {p q : PortId} {t g : TagId} {f : FlowId} {S : SlotId} {m : OutMsg} {st : Status}
  {res : Result} {L : List Req}

theorem State.answers_answered (hm : m.NotBeat) (q : PortId) : (s.unit q).Answers ((s.answered p t m).unit q) := by
  have hcurrent (u : PortUnit) : (u.currentEnded t).tags = u.tags ∧ (u.currentEnded t).consumerQueue = u.consumerQueue ∧
      (u.currentEnded t).outbound = u.outbound := by
    unfold PortUnit.currentEnded
    split <;> exact ⟨rfl, rfl, rfl⟩
  rw [State.answered, State.unit_setUnit]
  split
  · next h =>
    subst h
    obtain ⟨htags, hqueue, hout⟩ := hcurrent ((s.unit q).setTag t { (s.unit q).tag t with phase := .responding })
    obtain ⟨hplaced, -, hbeats⟩ := PortUnit.sameQuiet_place m hm
      (((s.unit q).setTag t { (s.unit q).tag t with phase := .responding }).currentEnded t)
    refine ⟨hplaced.trans hqueue, hbeats.trans (by rw [hout]; rfl), fun g => ?_⟩
    have htag : (PortUnit.place m (((s.unit q).setTag t { (s.unit q).tag t with phase := .responding }).currentEnded
        t)).tag g = if g = t then { (s.unit q).tag t with phase := .responding } else (s.unit q).tag g := by
      rw [← PortUnit.tag_setTag, PortUnit.tag, PortUnit.tags_place, htags]
      rfl
    rw [htag]
    split
    · next h => rw [h]; exact ⟨rfl, rfl⟩
    · exact ⟨rfl, rfl⟩
  · exact .refl _

theorem State.answers_refuse (q : PortId) : (s.unit q).Answers ((s.refuse p t st).unit q) := by
  unfold State.refuse
  split
  · exact State.answers_answered (m := .endMsg t st 0 .final) trivial q
  · exact State.answers_answered (m := .response t st .none .final) trivial q

theorem State.answers_respond (q : PortId) : (s.unit q).Answers ((s.respond p t st res).unit q) :=
  State.answers_answered (m := .response t st res .final) trivial q

/-! ## The units alone decide the answers -/

theorem State.units_respond_congr (h : x.units = y.units) : (x.respond p t st res).units = (y.respond p t st res).units := by
  simp only [State.respond, State.answered, State.setUnit, State.unit, h]

theorem State.units_refuse_congr (h : x.units = y.units) : (x.refuse p t st).units = (y.refuse p t st).units := by
  unfold State.refuse
  have hsame : (x.tagRec p t).request = (y.tagRec p t).request := by rw [State.tagRec, State.tagRec, State.unit, State.unit, h]
  rw [hsame]
  split
  · simp only [State.respondEnd, State.answered, State.setUnit, State.unit, h]
  · exact State.units_respond_congr h

theorem State.unitsAnswering_congr (h : x.units = y.units) : x.unitsAnswering L res = y.unitsAnswering L res := by
  induction L generalizing x y with
  | nil => exact h
  | cons r L ih =>
    cases r with
    | request q g => exact ih (State.units_respond_congr h)
    | clearHalt f => exact ih h

theorem State.unitsRefusing_congr (h : x.units = y.units) : x.unitsRefusing L st = y.unitsRefusing L st := by
  induction L generalizing x y with
  | nil => exact h
  | cons r L ih =>
    cases r with
    | request q g => exact ih (State.units_refuse_congr h)
    | clearHalt f => exact ih h

theorem State.unitsAnswering_cons (s : State) (q : PortId) (g : TagId) (L : List Req) (res : Result) :
    s.unitsAnswering (.request q g :: L) res = (s.respond q g .ok res).unitsAnswering L res := rfl

theorem State.unitsRefusing_cons (s : State) (q : PortId) (g : TagId) (L : List Req) (st : Status) :
    s.unitsRefusing (.request q g :: L) st = (s.refuse q g st).unitsRefusing L st := rfl

/-! ## Requests that stay what they are -/

/-- A state whose flow map and requests are another's. -/
def State.SameRequests (s x : State) : Prop :=
  x.flows = s.flows ∧ ∀ q g, (x.tagRec q g).request = (s.tagRec q g).request ∧ (x.tagRec q g).unit = (s.tagRec q g).unit

theorem State.SameRequests.refl (s : State) : s.SameRequests s := ⟨rfl, fun _ _ => ⟨rfl, rfl⟩⟩

theorem State.SameRequests.trans (h : s.SameRequests x) (k : x.SameRequests y) : s.SameRequests y :=
  ⟨k.1.trans h.1, fun q g => ⟨(k.2 q g).1.trans (h.2 q g).1, (k.2 q g).2.trans (h.2 q g).2⟩⟩

theorem State.sameRequests_of_answers (hflows : x.flows = s.flows) (h : ∀ q, (s.unit q).Answers (x.unit q)) :
    s.SameRequests x := ⟨hflows, fun q g => (h q).tags g⟩

theorem State.SameRequests.flow (h : s.SameRequests x) (f : FlowId) : x.flow f = s.flow f :=
  congrArg (fun fs : List (Nat × FlowEntry) => Table.get FlowEntry.initial fs f.val) h.1

theorem State.SameRequests.plainRequests (h : s.SameRequests x) (hasms : x.asms = s.asms)
    (hL : s.plainRequests f L) : x.plainRequests f L := fun r hr => by
  have hplain := hL r hr
  cases r with
  | request q g =>
    obtain ⟨hflow, hunit, hput⟩ := hplain
    obtain ⟨hrequest, hunit'⟩ := h.2 q g
    have hasm : x.asm q = s.asm q := congrArg (fun vs : Vector Assembly 4 => vs[q]) hasms
    refine ⟨by rw [hrequest]; exact hflow, hunit'.trans hunit, fun hkind => ?_⟩
    rw [hasm]
    exact hput (by rw [← hrequest]; exact hkind)
  | clearHalt f => exact hplain

theorem State.SameRequests.queries (h : s.SameRequests x) (hL : s.queries f L) (hasms : x.asms = s.asms) :
    x.queries f L := ⟨h.plainRequests hasms hL.1, fun r hr => by
  have hquery := hL.2 r hr
  cases r with
  | request q g => exact (congrArg Request.kind (h.2 q g).1).trans hquery
  | clearHalt f => exact hquery⟩

/-! ## QUERY requests that are answered in list order (R19, R49) -/

theorem State.respond_setPhase (ph : Phase) : (s.setPhase p t ph).respond p t st res = s.respond p t st res := by
  have hunit : (s.setPhase p t ph).unit p = (s.unit p).setTag t { s.tagRec p t with phase := ph } :=
    State.unit_setUnit_self s p _
  rw [State.respond, State.answered, hunit, PortUnit.tag_setTag_self]
  dsimp only
  rw [PortUnit.setTag_setTag, State.setPhase, State.setTagRec, State.setUnit_setUnit]
  rfl

/-- A QUERY at its flow's slot (R19). -/
theorem State.serveAny_query (hkind : (s.tagRec q g).request.kind = .query) (hflow : (s.tagRec q g).request.flow = f)
    (hunit : (s.tagRec q g).unit = none) : s.serveAny S (.request q g) =
      (s.respond q g .ok (s.queried f (s.slot S).context (s.slot S).pins)).setSlot S { s.slot S with ref := true } := by
  have hlink : s.isLink (.request q g) = false := by rw [State.isLink, hunit]; rfl
  have hslot : ((s.setSlot S { s.slot S with ref := true }).slot S) = { s.slot S with ref := true } :=
    State.slot_setSlot_self ..
  have hstart : (s.startService S q g).slot S = { s.slot S with ref := true } := hslot
  have hserve : s.serveAny S (.request q g) = (s.startService S q g).serveQueryHere S q g (s.tagRec q g).request.flow := by
    rw [State.serveAny, hlink]
    change s.serveRequest S q g = _
    unfold State.serveRequest
    dsimp only
    rw [hkind]
  rw [hserve, hflow]
  unfold State.serveQueryHere
  dsimp only
  rw [hstart, State.startService, State.respond_setPhase]
  rfl

theorem State.serveAt_cons (S : SlotId) (f : FlowId) (r : Req) (rs : List Req) (s : State) :
    State.serveAt S f (r :: rs) s = State.serveAt S f rs (if s.residentWith S f then s.serveAny S r else s.arrive r) := rfl

theorem State.serveAt_queries (hresident : s.residentWith S f = true) (hL : s.queries f L) :
    State.serveAt S f L s = ({ s with
      units := s.unitsAnswering L (s.queried f (s.slot S).context (s.slot S).pins) } : State).setSlot S
        { s.slot S with ref := (s.slot S).ref || !L.isEmpty } := by
  induction L generalizing s with
  | nil =>
    have hsame : ({ s.slot S with ref := (s.slot S).ref || !([] : List Req).isEmpty } : Slot) = s.slot S := by
      rw [List.isEmpty_nil, Bool.not_true, Bool.or_false]
    rw [hsame]
    exact (s.setSlot_slot S).symm
  | cons r L ih =>
    obtain ⟨hplain, hqueries⟩ := hL
    obtain ⟨hplain₁, hplainRest⟩ := List.forall_mem_cons.1 hplain
    obtain ⟨hquery, hqueriesRest⟩ := List.forall_mem_cons.1 hqueries
    cases r with
    | clearHalt f => exact hplain₁.elim
    | request q g =>
      obtain ⟨hflow, hunit, -⟩ := hplain₁
      have hanswers := State.sameRequests_of_answers (s := s)
        (x := s.respond q g .ok (s.queried f (s.slot S).context (s.slot S).pins)) rfl (State.answers_respond)
      rw [State.serveAt_cons, if_pos hresident, State.serveAny_query hquery hflow hunit]
      have hslot := State.slot_setSlot_self (s.respond q g .ok (s.queried f (s.slot S).context (s.slot S).pins)) S
        { s.slot S with ref := true }
      have hsame : ((s.respond q g .ok (s.queried f (s.slot S).context (s.slot S).pins)).setSlot S
          { s.slot S with ref := true }).queried f (s.slot S).context (s.slot S).pins =
          s.queried f (s.slot S).context (s.slot S).pins := rfl
      have hresident' : ((s.respond q g .ok (s.queried f (s.slot S).context (s.slot S).pins)).setSlot S
          { s.slot S with ref := true }).residentWith S f = true := by
        rw [State.residentWith, hslot]
        exact hresident
      have hqueries' : ((s.respond q g .ok (s.queried f (s.slot S).context (s.slot S).pins)).setSlot S
          { s.slot S with ref := true }).queries f L := hanswers.queries ⟨hplainRest, hqueriesRest⟩ rfl
      have hunits : ((s.respond q g .ok (s.queried f (s.slot S).context (s.slot S).pins)).setSlot S
          { s.slot S with ref := true }).unitsAnswering L (s.queried f (s.slot S).context (s.slot S).pins) =
          (s.respond q g .ok (s.queried f (s.slot S).context (s.slot S).pins)).unitsAnswering L
            (s.queried f (s.slot S).context (s.slot S).pins) := State.unitsAnswering_congr rfl
      rw [ih hresident' hqueries', hslot]
      dsimp only
      rw [hsame, hunits, State.unitsAnswering_cons, Bool.true_or, List.isEmpty_cons, Bool.not_false, Bool.or_true]
      exact State.setSlot_setSlot { s with
        units := (s.respond q g .ok (s.queried f (s.slot S).context (s.slot S).pins)).unitsAnswering L
          (s.queried f (s.slot S).context (s.slot S).pins) } S _ _

theorem State.sameQuiet_unitsAnswering (hL : s.queries f L) (q : PortId) :
    (s.unit q).SameQuiet (({ s with units := s.unitsAnswering L res } : State).unit q) := by
  induction L generalizing s with
  | nil => exact .refl _
  | cons r L ih =>
    cases r with
    | clearHalt f => exact (hL.2 _ List.mem_cons_self).elim
    | request o g =>
      have hquery : (s.tagRec o g).request.kind = .query := hL.2 _ List.mem_cons_self
      have hone : (s.unit q).SameQuiet ((s.respond o g .ok res).unit q) := by
        have hkept (u : PortUnit) (hu : (u.tag g).request.kind = .query) : u.currentEnded g = u :=
          if_neg fun h => by
            rw [hu] at h
            exact absurd h.2 (by decide)
        rw [State.respond, State.answered]
        dsimp only
        rw [hkept _ (by rw [PortUnit.tag_setTag_self]; exact hquery)]
        exact State.sameQuiet_setUnit (PortUnit.SameQuiet.trans (v := (s.unit o).setTag g _) ⟨rfl, rfl, rfl⟩
          (PortUnit.sameQuiet_place (.response g .ok res .final) trivial _)) q
      have hsame := State.sameRequests_of_answers (s := s) (x := s.respond o g .ok res) rfl State.answers_respond
      refine hone.trans (ih (hsame.queries ⟨fun r hr => hL.1 r (List.mem_cons_of_mem _ hr),
        fun r hr => hL.2 r (List.mem_cons_of_mem _ hr)⟩ rfl))

/-! ## Requests that are refused in list order (R55, R68) -/

/-- What the refusals of the requests of a list leave. -/
structure State.RefusesAll (s u : State) (L : List Req) (st : Status) : Prop where
  frame : u = { s with units := u.units, asms := u.asms }
  units : u.units = s.unitsRefusing L st
  answers : ∀ q, (s.unit q).Answers (u.unit q)
  discards : s.discardsFor u L

/-- Requests of ports, of which the PUTs of a port are one, and its record does not assemble (R70). -/
structure State.Refusable (s : State) (L : List Req) : Prop where
  requests : ∀ r ∈ L, ∃ q g, r = .request q g
  puts : ∀ q g, .request q g ∈ L → (s.tagRec q g).request.kind = .put → (s.asm q).state ≠ .assembling ∧
    ∀ o, .request q o ∈ L → (s.tagRec q o).request.kind = .put → o = g

theorem State.plainRequests.refusable (hL : s.plainRequests f L) : s.Refusable L := by
  refine ⟨fun r hr => ?_, fun q g hg hput => ?_⟩
  · cases r with
    | request q g => exact ⟨q, g, rfl⟩
    | clearHalt f => exact (hL _ hr).elim
  · obtain ⟨-, -, hasm⟩ := hL _ hg
    obtain ⟨hstate, htag⟩ := hasm hput
    refine ⟨by rw [hstate]; decide, fun o ho hother => ?_⟩
    obtain ⟨-, -, hasm'⟩ := hL _ ho
    exact Option.some.inj ((hasm' hother).2.symm.trans htag)

/-- One refusal: a PUT's beats are then discarded. -/
theorem State.answerReq_request (h : (s.tagRec q g).request.kind = .put → (s.asm q).state ≠ .assembling) (st : Status) :
    s.answerReq st (.request q g) = (s.refuse q g st).setAsm q
      (if (s.tagRec q g).request.kind = .put then .discarding (s.tagRec q g).request.argA.toNat else s.asm q) := by
  have hasm : (s.refuse q g st).asm q = s.asm q := by rw [s.inUnits_refuse q g st]; rfl
  rw [State.answerReq]
  split
  · next hput => exact State.discardBeats_of_not_assembling (by rw [hasm]; exact h hput) _
  · rw [← hasm, State.setAsm_asm]

theorem State.Refusable.of_cons (h : s.Refusable (.request q g :: L)) (hsame : s.SameRequests x)
    (hstate : ∀ o, (x.asm o).state = .assembling → (s.asm o).state = .assembling) : x.Refusable L := by
  refine ⟨fun r hr => h.requests r (List.mem_cons_of_mem _ hr), fun o i hi hput => ?_⟩
  rw [(hsame.2 o i).1] at hput
  obtain ⟨hnot, hone⟩ := h.puts o i (List.mem_cons_of_mem _ hi) hput
  refine ⟨mt (hstate o) hnot, fun j hj hjput => hone j (List.mem_cons_of_mem _ hj) ?_⟩
  rw [← (hsame.2 o j).1]
  exact hjput

theorem Assembly.discarding_state (n : Nat) : (Assembly.discarding n).state ≠ .assembling := by
  unfold Assembly.discarding
  dsimp only
  split <;> decide

/-- Steps that each answer a request of the list, in list order. -/
theorem State.refusesAll_foldl {step : State → Req → State} (hL : s.Refusable L)
    (hstep : ∀ x, s.SameRequests x → ∀ r ∈ L, step x r = x.answerReq st r) : s.RefusesAll (L.foldl step s) L st := by
  induction L generalizing s with
  | nil =>
    exact ⟨rfl, rfl, fun q => .refl _, fun q => ⟨fun g hg => absurd hg List.not_mem_nil, fun _ => rfl⟩⟩
  | cons r L ih =>
    obtain ⟨q, g, rfl⟩ := hL.requests r List.mem_cons_self
    have hput := fun h => (hL.puts q g List.mem_cons_self h).1
    have hone := (hstep s (.refl s) _ List.mem_cons_self).trans (State.answerReq_request hput st)
    rw [List.foldl_cons, hone]
    generalize hv : (if (s.tagRec q g).request.kind = .put then Assembly.discarding (s.tagRec q g).request.argA.toNat
      else s.asm q) = v
    have hanswers (o : PortId) : (s.unit o).Answers (((s.refuse q g st).setAsm q v).unit o) := State.answers_refuse o
    have hframe₁ := s.inUnits_refuse q g st
    have hself : ((s.refuse q g st).setAsm q v).asm q = v := State.asm_setAsm_self _ q v
    have hother (o : PortId) (ho : o ≠ q) : ((s.refuse q g st).setAsm q v).asm o = s.asm o := by
      rw [State.asm_setAsm_ne _ v ho, hframe₁]
      rfl
    have hunits : ((s.refuse q g st).setAsm q v).units = (s.refuse q g st).units := rfl
    have hframe₂ : (s.refuse q g st).setAsm q v = { s with
        units := ((s.refuse q g st).setAsm q v).units, asms := ((s.refuse q g st).setAsm q v).asms } := by
      unfold State.InUnits at hframe₁
      rw [hframe₁]
      rfl
    generalize (s.refuse q g st).setAsm q v = x at *
    have hsame : s.SameRequests x := State.sameRequests_of_answers (by rw [hframe₂]) hanswers
    have hassembling (o : PortId) (h : (x.asm o).state = .assembling) : (s.asm o).state = .assembling := by
      by_cases ho : o = q
      · rw [ho, hself, ← hv] at h
        split at h
        · exact absurd h (Assembly.discarding_state _)
        · rw [ho]
          exact h
      · rwa [hother o ho] at h
    obtain ⟨hframe, hunits', hanswers', hdiscards⟩ := ih (hL.of_cons hsame hassembling) fun y hy r hr =>
      hstep y (hsame.trans hy) r (List.mem_cons_of_mem _ hr)
    generalize L.foldl step x = u at *
    refine ⟨?_, ?_, fun o => (hanswers o).trans (hanswers' o), fun o => ⟨fun i hi hkind => ?_, fun hnone => ?_⟩⟩
    · rw [hframe, hframe₂]
    · rw [hunits', State.unitsRefusing_cons]
      exact State.unitsRefusing_congr hunits
    · by_cases hmem : .request o i ∈ L
      · have hdone := (hdiscards o).1 i hmem
        rw [(hsame.2 o i).1] at hdone
        exact hdone hkind
      · obtain ⟨rfl, rfl⟩ := Req.request.inj ((List.mem_cons.1 hi).resolve_right hmem)
        have hkept := (hdiscards o).2 fun j hj hjput => by
          rw [(hsame.2 o j).1] at hjput
          exact hmem ((hL.puts o i List.mem_cons_self hkind).2 j (List.mem_cons_of_mem _ hj) hjput ▸ hj)
        rw [hkept, hself, ← hv, if_pos hkind]
    · have hkept := (hdiscards o).2 fun j hj hjput => by
        rw [(hsame.2 o j).1] at hjput
        exact hnone j (List.mem_cons_of_mem _ hj) hjput
      rw [hkept]
      by_cases ho : o = q
      · rw [ho, hself, ← hv, if_neg]
        rw [← ho]
        exact hnone g (by rw [ho]; exact List.mem_cons_self)
      · exact hother o ho

end

end Sys2Proof.Machine

/-! SUPPORT. The completion of a fill (R21, R40, R49, R54, R55, R160). -/

namespace Sys2Proof.Machine

section
variable {s u : State} {S : SlotId} {f : FlowId} {e0 e1 e2 e3 : ErrorPattern} {L : List Req}

theorem exec_fillCompletion (hprogress : s.mem.inProgress = some (.fill S f)) :
    exec (.fillCompletion e0 e1 e2 e3) s =
      .next (s.accessEnded.fillDone S f (s.readRecord f #v[e0, e1, e2, e3])).finish := by
  have hexec : exec (.fillCompletion e0 e1 e2 e3) s = execFillCompletion e0 e1 e2 e3 s := rfl
  rw [hexec, execFillCompletion, hprogress]
  rfl

/-- The memory controller when an access has ended and its corrected words have been counted (R155). -/
def MemController.counted (m : MemController) (rs : Vector WordReport 4) : MemController :=
  { m with
    inProgress := none
    corrected := min (m.corrected + rs.toList.countP (fun r => decide (r.outcome = .corrected))) 4294967295 }

/-- The state in which a fill's reports have been counted, and a retry is due (R54, R62). -/
def State.fillCounted (s : State) (rs : Vector WordReport 4) : State := { s with mem := s.mem.counted rs, retryDue := true }

theorem State.accessEnded_countCorrected (s : State) (rs : Vector WordReport 4) :
    (s.accessEnded.countCorrected rs.toList).dueRetry = s.fillCounted rs := rfl

theorem fillSound_iff (rs : Vector WordReport 4) : fillSound rs = true ↔
    (∀ r ∈ rs.toList, r.outcome ≠ .uncorrectable) ∧ recordSound (recordOfReports rs) = true := by
  rw [fillSound, Bool.and_eq_true, List.all_eq_true]
  simp only [decide_eq_true_iff]

/-- The slot in which a sound record has been filled (R54). -/
def Slot.filledWith (v : Slot) (c : Context) : Slot :=
  { v with state := .resident, dirty := false, pendingList := [], context := c }

theorem State.fillDone_of_sound {rs : Vector WordReport 4} (hclosed : (s.flow f).state ≠ .closed)
    (hsound : fillSound rs = true) : s.accessEnded.fillDone S f rs = State.serveAt S f (s.slot S).pendingList
      ((s.fillCounted rs).setSlot S ((s.slot S).filledWith (Context.ofRecord (recordOfReports rs)))) := by
  unfold State.fillDone
  rw [State.accessEnded_countCorrected]
  dsimp only
  rw [if_neg (by exact hclosed), if_pos hsound]
  rfl

theorem State.fillDone_of_closed {rs : Vector WordReport 4} (hclosed : (s.flow f).state = .closed) :
    s.accessEnded.fillDone S f rs =
      (((s.fillCounted rs).freeSlot S).setResidency f none).arriveAll (s.slot S).pendingList := by
  unfold State.fillDone
  rw [State.accessEnded_countCorrected]
  dsimp only
  rw [if_pos (by exact hclosed)]
  rfl

theorem State.fillDone_of_unsound {rs : Vector WordReport 4} (hclosed : (s.flow f).state ≠ .closed)
    (hsound : ¬ fillSound rs = true) : s.accessEnded.fillDone S f rs = (s.fillCounted rs).contextError S f := by
  unfold State.fillDone
  rw [State.accessEnded_countCorrected]
  dsimp only
  rw [if_neg (by exact hclosed), if_neg hsound]

/-! ## The end of the event -/

/-- The end of the last access, whose other effects answer requests: with nothing to hand on and nobody waiting, nothing
is left to be done. -/
theorem State.finish_of_answers (hlast : s.lastAccess) (hqueues : ∀ q, (s.unit q).consumerQueue = [])
    (hanswers : ∀ q, (s.unit q).Answers (u.unit q)) (hdels : u.dels = s.dels)
    (hmem : u.mem = { s.mem with
      inProgress := none, corrected := u.mem.corrected, contextErrors := u.mem.contextErrors })
    (hwaits : u.noWaits) : u.finish = { u with retryDue := false } := by
  obtain ⟨-, hports, -, -⟩ := (State.quiet_iff _).1 hlast
  have hnone := State.noneWaits_of_lastAccess hlast
  have hgrant : u.mem.grant = u.mem := by
    refine MemController.grant_of_settled (.inr ?_)
    rw [hmem]
    exact hnone
  rw [State.finish_of_accesses (fun q => State.handOnDue_of_empty ((hanswers q).queue.trans (hqueues q))) (fun q => ?_)
    (fun _ => hwaits), hgrant]
  have hdel : u.del q = s.del q := congrArg (fun ds : Vector Delivery 4 => ds[q]) hdels
  have hout : u.readOutstanding q = ({ s with mem := { s.mem with inProgress := none } } : State).readOutstanding q := by
    unfold State.readOutstanding
    rw [hmem]
  rw [← (hports q).2, State.readDue, hdel, hout, (hanswers q).beats]
  rfl

/-! ## QUERY requests in the list -/

theorem State.quiet_memCounted (hlast : s.lastAccess) (rs : Vector WordReport 4) :
    ({ s with mem := s.mem.counted rs } : State).quiet = true := hlast

/-- The end of an event whose other effects are answers and one slot, where a retry is due and nobody waits. -/
theorem State.finish_answered {y z : State} (hquiet : y.quiet = true) (hz : z = { y with units := z.units })
    (hsame : ∀ q, (y.unit q).SameQuiet (z.unit q)) (hwaits : y.noWaits) (S : SlotId) (v w : Slot) :
    ((({ z with retryDue := true } : State).setSlot S v).setSlot S w).finish = z.setSlot S w := by
  have hretry : z.retryDue = false := by
    rw [hz]
    exact (y.quiet_iff.1 hquiet).1
  have hnone : z.noWaits := by
    rw [hz]
    exact hwaits
  have hquiet' : (z.setSlot S w).quiet = true := by
    rw [State.quiet_setSlot, State.quiet_congr (s := y) (by rw [hz]) (by rw [hz]) (by rw [hz]) hsame]
    exact hquiet
  have hsettled : ({ ({ z with retryDue := true } : State).setSlot S w with retryDue := false } : State) =
      z.setSlot S w := by
    rw [← hretry]
    rfl
  rw [State.setSlot_setSlot, State.finish_of_retry (s := ({ z with retryDue := true } : State).setSlot S w) (by rw [hsettled]; exact hquiet') hnone.1 hnone.2, hsettled]

theorem finish_fillQueries {rs : Vector WordReport 4} {c : Context} (hlast : s.lastAccess) (hwaits : s.noWaits)
    (hflow : (s.slot S).flow = some f) (hqueries : s.queries f L) :
    (State.serveAt S f L ((s.fillCounted rs).setSlot S ((s.slot S).filledWith c))).finish =
      ({ s with mem := s.mem.counted rs, units := s.unitsAnswering L (s.queried f c (s.slot S).pins) } : State).setSlot S
        { (s.slot S).filledWith c with ref := (s.slot S).ref || !L.isEmpty } := by
  have hslot := State.slot_setSlot_self (s.fillCounted rs) S ((s.slot S).filledWith c)
  have hresident : ((s.fillCounted rs).setSlot S ((s.slot S).filledWith c)).residentWith S f = true := by
    rw [State.residentWith, hslot]
    exact Bool.and_eq_true_iff.2 ⟨rfl, decide_eq_true hflow⟩
  have hsame : s.SameRequests ((s.fillCounted rs).setSlot S ((s.slot S).filledWith c)) := ⟨rfl, fun _ _ => ⟨rfl, rfl⟩⟩
  have hunits : ((s.fillCounted rs).setSlot S ((s.slot S).filledWith c)).unitsAnswering L
      (s.queried f c (s.slot S).pins) = s.unitsAnswering L (s.queried f c (s.slot S).pins) :=
    State.unitsAnswering_congr rfl
  have hqueried : ((s.fillCounted rs).setSlot S ((s.slot S).filledWith c)).queried f c (s.slot S).pins =
      s.queried f c (s.slot S).pins := rfl
  have hserved := State.serveAt_queries hresident (hsame.queries hqueries rfl)
  rw [hslot] at hserved
  have hcontext : ((s.slot S).filledWith c).context = c := rfl
  have hpins : ((s.slot S).filledWith c).pins = (s.slot S).pins := rfl
  rw [hcontext, hpins, hqueried, hunits] at hserved
  rw [hserved]
  generalize hU : s.unitsAnswering L (s.queried f c (s.slot S).pins) = U
  have hsameQuiet (q : PortId) : (s.unit q).SameQuiet (({ s with units := U } : State).unit q) := by
    rw [← hU]
    exact State.sameQuiet_unitsAnswering hqueries q
  have hdone := State.finish_answered (y := { s with mem := s.mem.counted rs })
    (z := { s with mem := s.mem.counted rs, units := U }) (State.quiet_memCounted hlast rs) rfl hsameQuiet hwaits S
    ((s.slot S).filledWith c) { (s.slot S).filledWith c with ref := (s.slot S).ref || !L.isEmpty }
  exact hdone

/-! ## Requests that are refused -/

theorem State.Refusable.congr {x : State} (hunits : x.units = s.units) (hasms : x.asms = s.asms)
    (h : s.Refusable L) : x.Refusable L := by
  have htag (q : PortId) (g : TagId) : x.tagRec q g = s.tagRec q g :=
    congrArg (fun us : Vector PortUnit 4 => (us[q]).tag g) hunits
  have hasm (q : PortId) : x.asm q = s.asm q := congrArg (fun vs : Vector Assembly 4 => vs[q]) hasms
  refine ⟨h.requests, fun q g hg hput => ?_⟩
  rw [htag] at hput
  rw [hasm]
  obtain ⟨hnot, hone⟩ := h.puts q g hg hput
  exact ⟨hnot, fun o ho hother => hone o ho (by rw [← htag]; exact hother)⟩

theorem State.discardsFor_congr {x v : State} (hunits : x.units = s.units) (hasms : x.asms = s.asms)
    (hv : v.asms = u.asms) (h : x.discardsFor u L) : s.discardsFor v L := by
  have htag (q : PortId) (g : TagId) : x.tagRec q g = s.tagRec q g :=
    congrArg (fun us : Vector PortUnit 4 => (us[q]).tag g) hunits
  have hasm (q : PortId) : x.asm q = s.asm q := congrArg (fun vs : Vector Assembly 4 => vs[q]) hasms
  have hvasm (q : PortId) : v.asm q = u.asm q := congrArg (fun vs : Vector Assembly 4 => vs[q]) hv
  intro q
  obtain ⟨hput, hnone⟩ := h q
  refine ⟨fun g hg hkind => ?_, fun hnoput => ?_⟩
  · rw [hvasm, ← htag]
    exact hput g hg (by rw [htag]; exact hkind)
  · rw [hvasm, ← hasm]
    exact hnone fun g hg => by rw [htag]; exact hnoput g hg

theorem State.units_raise_congr {x y : State} {p : PortId} {n : Notice} (h : x.units = y.units) :
    (x.raise p n).units = (y.raise p n).units := by
  simp only [State.raise, State.setUnit, State.unit, h]

theorem State.answers_raise (s : State) (p : PortId) (n : Notice) (q : PortId) :
    (s.unit q).Answers ((s.raise p n).unit q) := by
  rw [State.raise, State.unit_setUnit]
  split
  · next h =>
    subst h
    obtain ⟨hqueue, -, hbeats⟩ := PortUnit.sameQuiet_raise n (s.unit q)
    exact ⟨hqueue, hbeats, fun g => by rw [PortUnit.tag, PortUnit.tags_raise]; exact ⟨rfl, rfl⟩⟩
  · exact .refl _

/-- A record of a list of requests, none of which is a link or CLEAR_HALT. -/
theorem State.SameRequests.isLink_of_plain {x : State} (h : s.SameRequests x) (hL : s.plainRequests f L) {r : Req}
    (hr : r ∈ L) : x.isLink r = false ∧ x.reqFlow r = f := by
  have hplain := hL r hr
  cases r with
  | request q g =>
    obtain ⟨hflow, hunit, -⟩ := hplain
    obtain ⟨hrequest, hunit'⟩ := h.2 q g
    exact ⟨by rw [State.isLink, hunit', hunit]; rfl, by rw [State.reqFlow, hrequest]; exact hflow⟩
  | clearHalt f => exact hplain.elim

theorem State.plainRequests.congr {x : State} (hunits : x.units = s.units) (hasms : x.asms = s.asms)
    (hL : s.plainRequests f L) : x.plainRequests f L := by
  intro r hr
  have hplain := hL r hr
  cases r with
  | request q g =>
    have htag : x.tagRec q g = s.tagRec q g := congrArg (fun us : Vector PortUnit 4 => (us[q]).tag g) hunits
    have hasm : x.asm q = s.asm q := congrArg (fun vs : Vector Assembly 4 => vs[q]) hasms
    change (x.tagRec q g).request.flow = f ∧ (x.tagRec q g).unit = none ∧
      ((x.tagRec q g).request.kind = .put → (x.asm q).state = .admitting ∧ (x.asm q).tag = some g)
    rw [htag, hasm]
    exact hplain
  | clearHalt f => exact hplain

/-! ## A context error (R21, R40, R55) -/

/-- The state in which flow `f` has lost its context, before the requests of its list are answered (R21, R40, R55). -/
def State.contextLost (s : State) (S : SlotId) (f : FlowId) : State :=
  ((s.setMem { s.mem with contextErrors := saturating s.mem.contextErrors 1 }).freeSlot S).loseContext f

/-- What the loss of a context leaves. -/
structure State.LosesContext (s u : State) (S : SlotId) (f : FlowId) : Prop where
  frame : u = { s with
    flows := u.flows, lists := u.lists, slots := u.slots, pool := u.pool, mem := u.mem, retryDue := true }
  flow : (u.flow f).halt = some .ctxErr ∧ (u.flow f).segCount = 0 ∧ (u.flow f).residency = none ∧
    (u.flow f).ready = false ∧ (u.flow f).listed = false ∧ (u.flow f).state = (s.flow f).state ∧
    (u.flow f).consumer = (s.flow f).consumer
  pool : u.pool = { s.pool with stranded := s.pool.stranded + (s.flow f).segCount }
  mem : u.mem = { s.mem with contextErrors := min (s.mem.contextErrors + 1) 4294967295 }
  slot : u.slot S = Slot.initial

theorem State.losesContext (hopen : (s.flow f).state ≠ .closed) : s.LosesContext (s.contextLost S f) S f := by
  generalize hx : ((s.setMem { s.mem with contextErrors := saturating s.mem.contextErrors 1 }).freeSlot S).setPool
    { s.pool with stranded := s.pool.stranded + (s.flow f).segCount } = x
  have hlost : s.contextLost S f = (x.setFlow f { s.flow f with
      segCount := 0, halt := some .ctxErr, residency := none, ready := false }).relist f := by
    rw [← hx]
    exact State.setReady_of_open false hopen
  have hrelists := x.relists f { s.flow f with
    segCount := 0, halt := some .ctxErr, residency := none, ready := false }
  have hlisted := State.listed_relist (x.setFlow f { s.flow f with
    segCount := 0, halt := some .ctxErr, residency := none, ready := false }) f
  rw [← hlost] at hrelists hlisted
  rw [State.flow_setFlow_self, Bool.false_and] at hlisted
  generalize s.contextLost S f = u at *
  obtain ⟨hframe, hself, hunits, -⟩ := hrelists
  unfold State.InRelist at hframe
  have hkept := hunits (.inl rfl)
  have hslots : u.slots = x.slots := by rw [hframe]
  refine ⟨?_, ?_, ?_, ?_, ?_⟩
  · rw [hframe, hkept, ← hx]
    rfl
  · rw [hself]
    exact ⟨rfl, rfl, rfl, rfl, hlisted, rfl, rfl⟩
  · rw [hframe, ← hx]
    rfl
  · rw [hframe, ← hx]
    rfl
  · refine (congrArg (fun vs : Vector Slot 64 => vs[S]) hslots).trans ?_
    rw [← hx]
    exact State.slot_setSlot_self _ S _

theorem State.contextError_eq (s : State) (S : SlotId) (f : FlowId) : s.contextError S f =
    ((((s.slot S).pendingList.foldl (fun x r => x.contextErrorAnswer r) (s.contextLost S f)).raise
      (((s.slot S).pendingList.foldl (fun x r => x.contextErrorAnswer r) (s.contextLost S f)).flow f).consumer
      (.halted f .ctxErr)).drainTest f) := rfl

theorem finish_contextError {rs : Vector WordReport 4} (hlast : s.lastAccess) (hwaits : s.noWaits)
    (hopen : (s.flow f).state = .opened) (hL : s.plainRequests f (s.slot S).pendingList)
    (hqueues : ∀ q, (s.unit q).consumerQueue = []) :
    let u := ((s.fillCounted rs).contextError S f).finish
    ((u.flow f).halt = some .ctxErr ∧ (u.flow f).segCount = 0 ∧ (u.flow f).residency = none ∧
      (u.flow f).ready = false ∧ (u.flow f).listed = false ∧ (u.flow f).state = .opened) ∧
    u.pool = { s.pool with stranded := s.pool.stranded + (s.flow f).segCount } ∧
    (u.slot S).state = .free ∧ (u.slot S).flow = none ∧
    u.mem = { s.mem.counted rs with contextErrors := min (s.mem.contextErrors + 1) 4294967295 } ∧
    u.units = ({ s with units := s.unitsRefusing (s.slot S).pendingList .ctxErr }.raise (s.flow f).consumer
      (.halted f .ctxErr)).units ∧
    s.discardsFor u (s.slot S).pendingList ∧
    u = { s with
      flows := u.flows, lists := u.lists, slots := u.slots, asms := u.asms, units := u.units, pool := u.pool
      mem := u.mem } := by
  intro u
  have hretry : s.retryDue = false := ((State.quiet_iff _).1 (State.quiet_memCounted hlast rs)).1
  have hu : u = ((s.fillCounted rs).contextError S f).finish := rfl
  clear_value u
  rw [State.contextError_eq] at hu
  have hslot : (s.fillCounted rs).slot S = s.slot S := rfl
  rw [hslot] at hu
  generalize (s.slot S).pendingList = L at *
  obtain ⟨hframe, ⟨hhalt, hsegs, hres, hready, hlisted, hstate, hconsumer⟩, hpool, hmem, hfree⟩ :=
    State.losesContext (s := s.fillCounted rs) (S := S) (f := f) (by
      change (s.flow f).state ≠ .closed
      rw [hopen]
      decide)
  generalize (s.fillCounted rs).contextLost S f = x at *
  have hxunits : x.units = s.units := by rw [hframe]; rfl
  have hxasms : x.asms = s.asms := by rw [hframe]; rfl
  have hxplain := hL.congr hxunits hxasms
  have hrefuses := State.refusesAll_foldl (s := x) (st := .ctxErr) (step := fun y r => y.contextErrorAnswer r)
    hxplain.refusable fun y hy r hr => by
      unfold State.contextErrorAnswer
      rw [(hy.isLink_of_plain hxplain hr).1]
      rfl
  generalize L.foldl (fun y r => y.contextErrorAnswer r) x = y at *
  obtain ⟨hyframe, hyunits, hanswers, hdiscards⟩ := hrefuses
  have hyflows : y.flows = x.flows := by rw [hyframe]
  have hyflow : y.flow f = x.flow f :=
    congrArg (fun fs : List (Nat × FlowEntry) => Table.get FlowEntry.initial fs f.val) hyflows
  have hfconsumer : (y.flow f).consumer = (s.flow f).consumer := by rw [hyflow]; exact hconsumer
  have hopened : (x.flow f).state = .opened := hstate.trans hopen
  rw [hfconsumer, State.drainTest_of_not] at hu
  swap
  · rintro ⟨hdraining, -⟩
    change (y.flow f).state = .draining at hdraining
    rw [hyflow, hopened] at hdraining
    cases hdraining
  have hraised := State.answers_raise y (s.flow f).consumer (.halted f .ctxErr)
  have hzunits : (y.raise (s.flow f).consumer (.halted f .ctxErr)).units =
      ({ s with units := s.unitsRefusing L .ctxErr }.raise (s.flow f).consumer (.halted f .ctxErr)).units :=
    State.units_raise_congr (hyunits.trans (State.unitsRefusing_congr hxunits))
  have hzframe : y.raise (s.flow f).consumer (.halted f .ctxErr) =
      { y with units := (y.raise (s.flow f).consumer (.halted f .ctxErr)).units } := rfl
  generalize y.raise (s.flow f).consumer (.halted f .ctxErr) = z at *
  have hxunit (q : PortId) : x.unit q = s.unit q := congrArg (fun us : Vector PortUnit 4 => us[q]) hxunits
  have hzmem : z.mem = { s.mem.counted rs with contextErrors := min (s.mem.contextErrors + 1) 4294967295 } := by
    rw [hzframe, hyframe]
    exact hmem
  rw [State.finish_of_answers hlast hqueues (fun q => ((hxunit q) ▸ hanswers q).trans (hraised q))
    (by rw [hzframe, hyframe, hframe]; rfl) (by rw [hzmem]; rfl) (by rw [hzframe, hyframe, hframe]; exact hwaits)] at hu
  have hflows : u.flows = x.flows := by rw [hu, hzframe, hyframe]
  have hslots : u.slots = x.slots := by rw [hu, hzframe, hyframe]
  have hflow : u.flow f = x.flow f :=
    congrArg (fun fs : List (Nat × FlowEntry) => Table.get FlowEntry.initial fs f.val) hflows
  have huslot : u.slot S = Slot.initial := (congrArg (fun vs : Vector Slot 64 => vs[S]) hslots).trans hfree
  have huunits : u.units = z.units := by rw [hu]
  rw [hflow, huslot]
  refine ⟨⟨hhalt, hsegs, hres, hready, hlisted, hopened⟩, ?_, rfl, rfl, ?_, huunits.trans hzunits, ?_, ?_⟩
  · have hupool : u.pool = x.pool := by rw [hu, hzframe, hyframe]
    exact hupool.trans hpool
  · have humem : u.mem = z.mem := by rw [hu]
    exact humem.trans hzmem
  · exact State.discardsFor_congr hxunits hxasms (by rw [hu, hzframe]) hdiscards
  · rw [hu, hzframe, hyframe, hframe, ← hretry]
    rfl

/-! ## The record of a flow that is CLOSED (R18, R54) -/

theorem finish_fillClosed {rs : Vector WordReport 4} (hlast : s.lastAccess) (hwaits : s.noWaits)
    (hclosed : (s.flow f).state = .closed) (hL : s.plainRequests f L) (hopens : ∀ r ∈ L, s.isOpen r = false)
    (hqueues : ∀ q, (s.unit q).consumerQueue = []) :
    let u := ((((s.fillCounted rs).freeSlot S).setResidency f none).arriveAll L).finish
    s.discardsFor u L ∧
      u = ({ s with mem := s.mem.counted rs, asms := u.asms, units := s.unitsRefusing L .closed }.setSlot S
        Slot.initial).setFlow f { s.flow f with residency := none } := by
  intro u
  have hretry : s.retryDue = false := ((State.quiet_iff _).1 (State.quiet_memCounted hlast rs)).1
  have hu : u = ((((s.fillCounted rs).freeSlot S).setResidency f none).arriveAll L).finish := rfl
  clear_value u
  generalize hx : ((s.fillCounted rs).freeSlot S).setResidency f none = x at *
  have hxunits : x.units = s.units := by rw [← hx]; rfl
  have hxasms : x.asms = s.asms := by rw [← hx]; rfl
  have hxflow : x.flow f = { s.flow f with residency := none } := by
    rw [← hx]
    exact State.flow_setFlow_self _ f _
  have hxopen (r : Req) : x.isOpen r = s.isOpen r := by
    rw [← hx]
    cases r <;> rfl
  have hxplain := hL.congr hxunits hxasms
  have hrefuses := State.refusesAll_foldl (s := x) (st := .closed) (step := fun y r => y.arrive r)
    hxplain.refusable fun y hy r hr => by
      obtain ⟨hlink, hflow⟩ := hy.isLink_of_plain hxplain hr
      have hopen : y.isOpen r = false := by
        rw [← hopens r hr, ← hxopen]
        cases r with
        | request q g => simp only [State.isOpen, (hy.2 q g).1]
        | clearHalt f => rfl
      have hmet : y.metStatus r = some .closed := by
        unfold State.metStatus
        dsimp only
        rw [hflow, hy.flow, hxflow, if_pos hclosed, hopen]
        rfl
      unfold State.arrive
      rw [hmet]
      dsimp only
      unfold State.turnAway
      rw [hlink]
      rfl
  rw [State.arriveAll] at hu
  generalize L.foldl (fun y r => y.arrive r) x = y at *
  obtain ⟨hyframe, hyunits, hanswers, hdiscards⟩ := hrefuses
  have hxunit (q : PortId) : x.unit q = s.unit q := congrArg (fun us : Vector PortUnit 4 => us[q]) hxunits
  have hymem : y.mem = s.mem.counted rs := by rw [hyframe, ← hx]; rfl
  rw [State.finish_of_answers hlast hqueues (fun q => (hxunit q) ▸ hanswers q)
    (by rw [hyframe, ← hx]; rfl) (by rw [hymem]; rfl) (by rw [hyframe, ← hx]; exact hwaits)] at hu
  have huasms : u.asms = y.asms := by rw [hu]
  refine ⟨State.discardsFor_congr hxunits hxasms huasms hdiscards, ?_⟩
  rw [huasms, ← State.unitsRefusing_congr hxunits, ← hyunits, hu, hyframe, ← hx, ← hretry]
  rfl

end

/-- Settles O50. -/
theorem fillCompletionFillsTheSlot : Obligations.FillCompletionFillsTheSlot := by
  unfold Obligations.FillCompletionFillsTheSlot
  refine ⟨fun s S f r rs => ⟨rfl, fun hstate hflow => ?_, fun hnot => ?_⟩, ?_⟩
  · rw [State.serveAt_cons, if_pos]
    exact Bool.and_eq_true_iff.2 ⟨decide_eq_true hstate, decide_eq_true hflow⟩
  · rw [State.serveAt_cons, if_neg]
    intro hresident
    obtain ⟨hstate, hflow⟩ := Bool.and_eq_true_iff.1 hresident
    exact hnot ⟨of_decide_eq_true hstate, of_decide_eq_true hflow⟩
  · intro s S f e0 e1 e2 e3 hlast hwaits hprogress
    dsimp only
    rw [exec_fillCompletion hprogress, ← fillSound_iff]
    generalize s.readRecord f #v[e0, e1, e2, e3] = rs
    refine ⟨fun hclosed hsound => ?_, fun hclosed hsound hflow hqueries => ?_, fun hopen hunsound hL hqueues => ?_,
      fun hclosed hL hopens hqueues => ?_⟩
    · rw [State.fillDone_of_sound hclosed hsound]
      rfl
    · rw [State.fillDone_of_sound hclosed hsound, finish_fillQueries hlast hwaits hflow hqueries]
      rfl
    · rw [State.fillDone_of_unsound (by rw [hopen]; decide) hunsound]
      exact ⟨_, rfl, finish_contextError hlast hwaits hopen hL hqueues⟩
    · rw [State.fillDone_of_closed hclosed]
      exact ⟨_, rfl, finish_fillClosed hlast hwaits hclosed hL hopens hqueues⟩

end Sys2Proof.Machine

/-! SUPPORT. The completion of a spill (R49, R52, R56, R58, R59, R179). -/

namespace Sys2Proof.Machine

/-! ## The record in the SRAM (R56, R179) -/

section
variable {s : State} {S : SlotId} {f x y : FlowId}

/-- A state that differs from another in the SRAM and its damage. -/
def State.InStore (s u : State) : Prop := u = { s with sram := u.sram, damage := u.damage }

theorem State.inStore_writeRecordWords (f : FlowId) (r : BitVec 256) (l : List Nat) (s : State) :
    s.InStore (s.writeRecordWords f r l) := by
  induction l generalizing s with
  | nil => rfl
  | cons i l ih =>
    have hrest := ih (s.writeSram (s.recordWordAddr f i) (recordWord r i))
    unfold State.InStore at hrest ⊢
    exact hrest

theorem State.inStore_storeRecord (s : State) (S : SlotId) (f : FlowId) : s.InStore (s.storeRecord S f) :=
  State.inStore_writeRecordWords f _ (List.range 4) s

theorem State.readSram_writeRecordWords_other (r : BitVec 256) (l : List Nat) (s : State) {a : Nat} (e : ErrorPattern)
    (ha : ∀ i ∈ l, a ≠ s.recordWordAddr f i) : (s.writeRecordWords f r l).readSram a e = s.readSram a e := by
  induction l generalizing s with
  | nil => rfl
  | cons i l ih =>
    obtain ⟨hi, hl⟩ := List.forall_mem_cons.1 ha
    exact (ih (s.writeSram (s.recordWordAddr f i) (recordWord r i)) hl).trans (State.readSram_writeSram_ne s _ e hi)

theorem checkWord_clean (w : Word64) : checkWord w ⟨0, 0⟩ = { outcome := .clean, data := w } := by
  have hweight : errorWeight ⟨0, 0⟩ = 0 := by decide
  unfold checkWord
  rw [hweight]
  rfl

theorem State.readSram_stored (s : State) (S : SlotId) (f : FlowId) {i : Nat} (hi : i < 4) :
    (s.storeRecord S f).readSram (s.recordWordAddr f i) ⟨0, 0⟩ =
      { outcome := .clean, data := recordWord (s.slot S).context.record i } := by
  rw [State.storeRecord_eq, State.readSram_writeRecordWords _ _ _ (List.mem_range.2 hi) List.nodup_range, checkWord_clean]

/-! ## The end of the spill -/

/-- The state in which the record of a spill stands in the SRAM, no access is in progress, and a retry is due. -/
def State.spilled (s : State) (S : SlotId) (x : FlowId) : State :=
  { s.storeRecord S x with mem := { s.mem with inProgress := none }, retryDue := true }

/-- The words of a record do not rest on the memory controller. -/
theorem State.writeRecordWords_setMem (f : FlowId) (r : BitVec 256) (l : List Nat) (s : State) (m : MemController) :
    (s.setMem m).writeRecordWords f r l = (s.writeRecordWords f r l).setMem m := by
  induction l generalizing s with
  | nil => rfl
  | cons i l ih => exact ih (s.writeSram (s.recordWordAddr f i) (recordWord r i))

theorem State.storeRecord_setMem (s : State) (m : MemController) (S : SlotId) (x : FlowId) :
    (s.setMem m).storeRecord S x = (s.storeRecord S x).setMem m := by
  rw [State.storeRecord_eq, State.storeRecord_eq, State.slot_setMem, State.writeRecordWords_setMem]

theorem State.dueRetry_setMem (s : State) (m : MemController) :
    (s.setMem m).dueRetry = { s with mem := m, retryDue := true } := rfl

theorem State.spilled_eq (s : State) (S : SlotId) (x : FlowId) :
    (s.accessEnded.storeRecord S x).dueRetry = s.spilled S x := by
  have hended : s.accessEnded = s.setMem { s.mem with inProgress := none } := rfl
  rw [hended, State.storeRecord_setMem]
  exact State.dueRetry_setMem _ _

theorem State.inStore_spilled (s : State) (S : SlotId) (x : FlowId) : s.spilled S x = { s with
    mem := { s.mem with inProgress := none }, retryDue := true, sram := (s.spilled S x).sram
    damage := (s.spilled S x).damage } := by
  have hstore := s.inStore_storeRecord S x
  unfold State.spilled
  unfold State.InStore at hstore
  rw [hstore]

theorem exec_spillCompletion (hprogress : s.mem.inProgress = some (.spill S x)) :
    exec .spillCompletion s = .next (s.accessEnded.spillDone S x).finish := by
  have hexec : exec .spillCompletion s = execSpillCompletion s := rfl
  rw [hexec, execSpillCompletion, hprogress]
  rfl

theorem State.spillDone_eq (hincoming : (s.slot S).incoming = some y) (hopen : (s.flow x).state ≠ .closed) :
    s.accessEnded.spillDone S x =
      if (s.slot S).returnList.isEmpty then ((s.spilled S x).setResidency x none).giveToIncoming S y
      else if (s.slot S).pendingList.isEmpty then ((s.spilled S x).setResidency y none).keepOutgoing S x
      else match (s.spilled S x).search with
        | (some V, s') => (((s'.reserveSlot V).keepOutgoing S x).setSlot V (s'.slot V)).takeVictim V y
            (s.slot S).pendingList
        | (none, s') => ((s'.setResidency x none).giveToIncoming S y).arriveAll (s.slot S).returnList := by
  have hslot : (s.spilled S x).slot S = s.slot S := by rw [s.inStore_spilled S x]; rfl
  have hflow : (s.spilled S x).flow x = s.flow x := by rw [s.inStore_spilled S x]; rfl
  unfold State.spillDone
  rw [State.spilled_eq]
  dsimp only
  rw [hslot, hincoming, hflow]
  dsimp only
  rw [if_neg hopen] <;> rfl

end

/-! ## The slot passes to the incoming flow (R52, R58) -/

section
variable {s u z : State} {S : SlotId} {x y : FlowId} {L : List Req} {ph : Phase} {q : PortId} {g : TagId}

theorem State.inUnits_enterPhases (ph : Phase) (L : List Req) (s : State) : s.InUnits (s.enterPhases ph L) := by
  induction L generalizing s with
  | nil => rfl
  | cons r L ih =>
    have hone : s.InUnits (s.enterPhase ph r) := by cases r <;> rfl
    exact hone.trans (ih _)

theorem State.units_enterPhases_congr (h : u.units = z.units) :
    (u.enterPhases ph L).units = (z.enterPhases ph L).units := by
  induction L generalizing u z with
  | nil => exact h
  | cons r L ih =>
    refine ih (u := u.enterPhase ph r) (z := z.enterPhase ph r) ?_
    cases r with
    | request q g => simp only [State.enterPhase, State.setPhase, State.setTagRec, State.tagRec, State.setUnit, State.unit, h]
    | clearHalt f => exact h

theorem State.answers_setPhase (s : State) (p : PortId) (t : TagId) (ph : Phase) (q : PortId) :
    (s.unit q).Answers ((s.setPhase p t ph).unit q) ∧ (s.unit q).SameQuiet ((s.setPhase p t ph).unit q) := by
  rw [State.setPhase, State.setTagRec, State.unit_setUnit]
  split
  · next h =>
    subst h
    refine ⟨⟨rfl, rfl, fun g => ?_⟩, ⟨rfl, rfl, rfl⟩⟩
    rw [PortUnit.tag_setTag]
    split
    · next hg => rw [hg]; exact ⟨rfl, rfl⟩
    · exact ⟨rfl, rfl⟩
  · exact ⟨.refl _, .refl _⟩

theorem State.answers_enterPhases (ph : Phase) (L : List Req) (s : State) (q : PortId) :
    (s.unit q).Answers ((s.enterPhases ph L).unit q) ∧ (s.unit q).SameQuiet ((s.enterPhases ph L).unit q) := by
  induction L generalizing s with
  | nil => exact ⟨.refl _, .refl _⟩
  | cons r L ih =>
    cases r with
    | request p t =>
      obtain ⟨hanswers, hsame⟩ := s.answers_setPhase p t ph q
      obtain ⟨hanswers', hsame'⟩ := ih (s.setPhase p t ph)
      exact ⟨hanswers.trans hanswers', hsame.trans hsame'⟩
    | clearHalt f => exact ih s

/-- A slot that fills for a flow, with its waiting list (R52). -/
def Slot.filling (f : FlowId) (L : List Req) : Slot :=
  { Slot.initial with state := .filling, flow := some f, pendingList := L }

theorem State.placeFlow_of_open (hopen : (s.flow y).state ≠ .closed) (hL : L ≠ []) : s.placeFlow y S L =
    (((s.setSlot S (Slot.filling y L)).setResidency y (some S)).setMem { s.mem with
      fillQueue := s.mem.fillQueue ++ [(S, y)] }).enterPhases .waitingResidency L := by
  unfold State.placeFlow State.placeHead
  rw [if_pos hopen]
  cases L with
  | nil => exact absurd rfl hL
  | cons r L => rfl

/-- What the passing of a slot to the incoming flow leaves, before the end of the event. -/
structure State.Passes (s u : State) (S : SlotId) (x y : FlowId) (L : List Req) : Prop where
  frame : u = { s with flows := u.flows, slots := u.slots, units := u.units, mem := u.mem }
  slot : u.slot S = Slot.filling y L
  slot_ne : ∀ T, T ≠ S → u.slot T = s.slot T
  flow_out : u.flow x = { s.flow x with residency := none }
  flow_in : u.flow y = { s.flow y with residency := some S }
  flow_ne : ∀ f, f ≠ x → f ≠ y → u.flow f = s.flow f
  mem : u.mem = { s.mem with fillQueue := s.mem.fillQueue ++ [(S, y)] }
  units : u.units = (s.enterPhases .waitingResidency L).units

theorem State.frame_passed (s : State) (x y : FlowId) (d e : FlowEntry) (S : SlotId) (v : Slot) (m : MemController) :
    (((s.setFlow x d).setSlot S v).setFlow y e).setMem m = { s with
      flows := (((s.setFlow x d).setSlot S v).setFlow y e).flows, slots := (s.setSlot S v).slots, mem := m } := rfl

theorem State.passes_giveToIncoming (hne : x ≠ y) (hopen : (s.flow y).state ≠ .closed)
    (hL : (s.slot S).pendingList ≠ []) :
    s.Passes ((s.setResidency x none).giveToIncoming S y) S x y (s.slot S).pendingList := by
  have hout := State.flow_setFlow_self s x { s.flow x with residency := none }
  have hother {f : FlowId} (hf : f ≠ x) := State.flow_setFlow_ne s { s.flow x with residency := none } hf
  have hgiven : (s.setResidency x none).giveToIncoming S y =
      ((s.setResidency x none).setSlot S { s.slot S with returnList := [], pendingList := [] }).placeFlow y S
        (s.slot S).pendingList := rfl
  have hopen' : (((s.setResidency x none).setSlot S { s.slot S with returnList := [], pendingList := [] }).flow
      y).state ≠ .closed := by
    refine fun e => hopen (Eq.trans ?_ e)
    exact congrArg FlowEntry.state (hother hne.symm).symm
  have hmem : ((s.setResidency x none).setSlot S { s.slot S with returnList := [], pendingList := [] }).mem = s.mem := rfl
  rw [hgiven, State.placeFlow_of_open hopen' hL, State.setSlot_setSlot, hmem]
  generalize (s.slot S).pendingList = L at *
  have hflow_in : (((s.setResidency x none).setSlot S (Slot.filling y L)).setResidency y (some S)).flow y =
      { s.flow y with residency := some S } := by
    refine (State.flow_setFlow_self _ y _).trans ?_
    exact congrArg (fun e : FlowEntry => { e with residency := some S }) (hother hne.symm)
  have hflow_ne {f : FlowId} (hf : f ≠ y) :
      (((s.setResidency x none).setSlot S (Slot.filling y L)).setResidency y (some S)).flow f =
        (s.setResidency x none).flow f := State.flow_setFlow_ne _ _ hf
  have hslot := State.slot_setSlot_self (s.setResidency x none) S (Slot.filling y L)
  have hslot_ne {T : SlotId} (hT : T ≠ S) := State.slot_setSlot_ne (s.setResidency x none) (Slot.filling y L) hT
  generalize hz : (((s.setResidency x none).setSlot S (Slot.filling y L)).setResidency y (some S)).setMem { s.mem with
    fillQueue := s.mem.fillQueue ++ [(S, y)] } = z
  have hframe := State.inUnits_enterPhases .waitingResidency L z
  have hunits := State.units_enterPhases_congr (u := z) (z := s) (ph := .waitingResidency) (L := L) (by rw [← hz]; rfl)
  have hzframe : z = { s with flows := z.flows, slots := z.slots, mem := z.mem } := by
    rw [← hz]
    exact State.frame_passed s _ _ _ _ _ _ _
  have hzmem : z.mem = { s.mem with fillQueue := s.mem.fillQueue ++ [(S, y)] } := by rw [← hz]; rfl
  have hzslots : z.slots = ((s.setResidency x none).setSlot S (Slot.filling y L)).slots := by rw [← hz]; rfl
  have hzflows : z.flows =
      (((s.setResidency x none).setSlot S (Slot.filling y L)).setResidency y (some S)).flows := by rw [← hz]; rfl
  generalize z.enterPhases .waitingResidency L = u at *
  unfold State.InUnits at hframe
  have humem : u.mem = z.mem := by rw [hframe]
  have huslots : u.slots = z.slots := by rw [hframe]
  have huflows : u.flows = z.flows := by rw [hframe]
  have hflow (f : FlowId) : u.flow f =
      (((s.setResidency x none).setSlot S (Slot.filling y L)).setResidency y (some S)).flow f :=
    congrArg (fun fs : List (Nat × FlowEntry) => Table.get FlowEntry.initial fs f.val) (huflows.trans hzflows)
  have hslots (T : SlotId) : u.slot T = ((s.setResidency x none).setSlot S (Slot.filling y L)).slot T :=
    congrArg (fun vs : Vector Slot 64 => vs[T]) (huslots.trans hzslots)
  refine ⟨?_, (hslots S).trans hslot, fun T hT => (hslots T).trans (hslot_ne hT), ?_, (hflow y).trans hflow_in,
    fun f hfx hfy => ?_, ?_, hunits⟩
  · refine hframe.trans ?_
    rw [huslots, huflows, humem]
    exact congrArg (fun t : State => { t with units := u.units }) hzframe
  · exact (hflow x).trans ((hflow_ne hne).trans hout)
  · exact (hflow f).trans ((hflow_ne hfy).trans (hother hfx))
  · exact humem.trans hzmem

end

/-! ## The end of the event -/

section
variable {s u : State} {S : SlotId} {x y : FlowId} {L : List Req} {r : Req} {q : PortId} {g : TagId}

/-- What the end of an event does where no request is handed on, no read is due, and a retry finds nothing to do. -/
theorem State.finish_of_retried (hhand : ∀ q, s.handOnDue q = false) (hreads : ∀ q, s.readDue q = false)
    (hretry : s.retryDue = true → s.retryWaits = { s with retryDue := false }) :
    s.finish = { s with retryDue := false, mem := s.mem.grant } := by
  have hsettle : State.settle (4 * s.waiting + 4) s = { s with retryDue := false } := by
    cases hdue : s.retryDue with
    | false => rw [State.settle_quiet _ _ hhand hdue, ← hdue]
    | true =>
      have hnone : allPorts.find? s.handOnDue = none := List.find?_eq_none.2 (fun p _ => by simp [hhand p])
      have hstep (n : Nat) : State.settle (n + 1) s = State.settle n s.retryWaits := by
        rw [State.settle, hnone]
        exact if_pos hdue
      rw [hstep, hretry hdue]
      exact State.settle_quiet _ _ hhand rfl
  have hsame : ({ s with retryDue := false } : State).issueReads = { s with retryDue := false } :=
    State.issueReads_quiet _ hreads
  unfold State.finish
  rw [hsettle, hsame]
  rfl

/-- The end of the event in which a spill has ended and its slot's fill waits: the fill is granted (R157). -/
theorem State.finish_of_passed (hlast : s.lastAccess) (hsame : ∀ q, (s.unit q).SameQuiet (u.unit q))
    (hdels : u.dels = s.dels)
    (hmem : u.mem = { s.mem with inProgress := none, fillQueue := s.mem.fillQueue ++ [(S, y)] })
    (hretry : u.retryDue = true → u.retryWaits = { u with retryDue := false }) :
    u.finish = { u with retryDue := false, mem := { s.mem with inProgress := some (.fill S y) } } := by
  obtain ⟨-, hports, -, -⟩ := (State.quiet_iff _).1 hlast
  obtain ⟨hfills, -, -, -⟩ := State.noneWaits_of_lastAccess hlast
  have hfills' : s.mem.fillQueue = [] := hfills
  have hgrant : u.mem.grant = { s.mem with inProgress := some (.fill S y) } := by
    rw [MemController.grant_of_fill (m := u.mem) (S := S) (f := y) (q := []) (by rw [hmem]) (by rw [hmem, hfills']; rfl),
      hmem]
    dsimp only
    rw [← hfills']
  rw [State.finish_of_retried (fun q => ?_) (fun q => ?_) hretry, hgrant]
  · rw [State.handOnDue_congr (hsame q)]
    exact (hports q).1
  · have hdel : u.del q = s.del q := congrArg (fun ds : Vector Delivery 4 => ds[q]) hdels
    have hout : u.readOutstanding q =
        ({ s with mem := { s.mem with inProgress := none } } : State).readOutstanding q := by
      unfold State.readOutstanding
      rw [hmem]
    rw [← (hports q).2, State.readDue, hdel, hout, (hsame q).2.2]
    rfl

/-! ## The outgoing flow's request joins the miss wait (R59, R60) -/

theorem State.arrive_of_missing (hmet : u.metStatus (.request q g) = none) (hlink : u.isLink (.request q g) = false)
    (hres : (u.flow (u.reqFlow (.request q g))).residency = none) (hwaits : u.noWaits)
    (hsearch : u.search = (none, u)) :
    u.arrive (.request q g) = ({ u with missWait := [.request q g] } : State).setPhase q g .missWait := by
  obtain ⟨hmiss, hlinkWait⟩ := hwaits
  have hreach : u.reach (.request q g) = u.searchFor (.request q g) (fun s => s.joinMiss (.request q g)) := by
    rw [State.reach, hlink, hmiss, hlinkWait]
    rfl
  have hjoin : u.joinMiss (.request q g) = ({ u with missWait := [.request q g] } : State).setPhase q g .missWait := by
    rw [State.joinMiss, hmiss]
    rfl
  rw [State.arrive_of_absent hmet hres, hreach, State.searchFor, hsearch]
  exact hjoin

/-- A retry that finds no slot for the one request that waits leaves it waiting (R63). -/
theorem State.retryWaits_of_missing (hmiss : u.missWait = [r]) (hlink : u.linkWait = [])
    (hres : (u.flow (u.reqFlow r)).residency = none) (hmet : u.metStatus r = none)
    (hsearch : ∀ T, ¬ u.candidate T) : u.retryWaits = { u with retryDue := false } := by
  have hlen : u.linkWait.length + u.missWait.length = 0 + 1 := by rw [hmiss, hlink]; rfl
  have hres' : (({ u with retryDue := false } : State).flow (({ u with retryDue := false } : State).reqFlow r)).residency =
      none := by
    cases r <;> exact hres
  have hmet' : ({ u with retryDue := false } : State).metStatus r = none := by
    cases r <;> exact hmet
  unfold State.retryWaits
  rw [hlen]
  refine State.retry_of_none (s := { u with retryDue := false })
    (State.headOfWaits_of_missWait (s := { u with retryDue := false }) hlink hmiss) ?_
    (State.search_of_no_candidate (s := { u with retryDue := false }) hsearch)
  rw [hres', hmet']
  simp

theorem State.not_candidate_of_passed (hnone : ∀ T, (s.slot T).state ≠ .free ∧ s.evictable T = false)
    (hself : u.slot S = Slot.filling y L) (hslots : ∀ T, T ≠ S → u.slot T = s.slot T) (hholds : u.holds = s.holds)
    (T : SlotId) : ¬ u.candidate T := by
  refine State.not_candidate_iff.2 ?_
  by_cases hT : T = S
  · rw [hT, State.evictable, hself]
    have hfilling : (Slot.filling y L).state = .filling := rfl
    exact ⟨by rw [hfilling]; decide, rfl⟩
  · have hheld : u.slotHeld T = s.slotHeld T := by
      simp only [State.slotHeld, State.holder, State.hold, hslots T hT, hholds]
      rfl
    rw [State.evictable, hheld, hslots T hT]
    exact hnone T

end

end Sys2Proof.Machine

/-! SUPPORT. The three ways of a spill's completion (R58, R59). -/

namespace Sys2Proof.Machine

section
variable {s u : State} {S : SlotId} {x y : FlowId} {q : PortId} {g : TagId}

/-- What the passing of the slot to the incoming flow leaves when a spill has ended, before the end of the event. -/
structure State.SpillPasses (s v : State) (S : SlotId) (x y : FlowId) : Prop where
  frame : v = { s.storeRecord S x with
    flows := v.flows, slots := v.slots, units := v.units, mem := v.mem, retryDue := true }
  slot : v.slot S = Slot.filling y (s.slot S).pendingList
  slot_ne : ∀ T, T ≠ S → v.slot T = s.slot T
  flow_out : v.flow x = { s.flow x with residency := none }
  flow_in : v.flow y = { s.flow y with residency := some S }
  flow_ne : ∀ f, f ≠ x → f ≠ y → v.flow f = s.flow f
  mem : v.mem = { s.mem with inProgress := none, fillQueue := s.mem.fillQueue ++ [(S, y)] }
  units : v.units = (s.enterPhases .waitingResidency (s.slot S).pendingList).units
  others : v.dels = s.dels ∧ v.holds = s.holds ∧ v.missWait = s.missWait ∧ v.linkWait = s.linkWait

theorem State.spillPasses (hne : x ≠ y) (hopen : (s.flow y).state ≠ .closed) (hL : (s.slot S).pendingList ≠ []) :
    s.SpillPasses (((s.spilled S x).setResidency x none).giveToIncoming S y) S x y := by
  have hspilled : s.spilled S x = { s.storeRecord S x with
    mem := { s.mem with inProgress := none }, retryDue := true } := rfl
  have hstore := s.inStore_spilled S x
  generalize s.spilled S x = z at *
  have hzslot (T : SlotId) : z.slot T = s.slot T := by rw [hstore]; rfl
  have hzflow (f : FlowId) : z.flow f = s.flow f := by rw [hstore]; rfl
  obtain ⟨hframe, hslot, hslot', hout, hin, hflow, hmem, hunits⟩ := State.passes_giveToIncoming (s := z) (S := S) (x := x)
    (y := y) hne (by rwa [hzflow]) (by rwa [hzslot])
  generalize (z.setResidency x none).giveToIncoming S y = v at *
  rw [hzslot] at hslot hunits
  refine ⟨?_, hslot, fun T hT => (hslot' T hT).trans (hzslot T), by rw [hout, hzflow], by rw [hin, hzflow],
    fun f hfx hfy => (hflow f hfx hfy).trans (hzflow f), by rw [hmem, hspilled],
    hunits.trans (State.units_enterPhases_congr (by rw [hstore])), ?_⟩
  · calc v = { z with flows := v.flows, slots := v.slots, units := v.units, mem := v.mem } := hframe
      _ = _ := by rw [hspilled]
  · rw [hframe, hstore]
    exact ⟨rfl, rfl, rfl, rfl⟩

theorem State.SpillPasses.answers {v : State} (h : s.SpillPasses v S x y) (q : PortId) :
    (s.unit q).Answers (v.unit q) ∧ (s.unit q).SameQuiet (v.unit q) := by
  have hunit : v.unit q = (s.enterPhases .waitingResidency (s.slot S).pendingList).unit q :=
    congrArg (fun us : Vector PortUnit 4 => us[q]) h.units
  rw [hunit]
  exact s.answers_enterPhases .waitingResidency (s.slot S).pendingList q

theorem State.SpillPasses.noWaits {v : State} (h : s.SpillPasses v S x y) (hwaits : s.noWaits) : v.noWaits := by
  obtain ⟨-, -, hmiss, hlink⟩ := h.others
  exact ⟨hmiss.trans hwaits.1, hlink.trans hwaits.2⟩

/-- What both ways in which the slot passes on leave at the slots and in the flow map. -/
theorem State.SpillPasses.outcome {v : State} (h : s.SpillPasses v S x y) (hslots : u.slots = v.slots)
    (hflows : u.flows = v.flows) :
    ((u.slot S).state = .filling ∧ (u.slot S).flow = some y ∧ (u.slot S).incoming = none ∧
      (u.slot S).pendingList = (s.slot S).pendingList ∧ (u.slot S).returnList = [] ∧
      ∀ T, T ≠ S → u.slot T = s.slot T) ∧
    u.flow x = { s.flow x with residency := none } ∧ u.flow y = { s.flow y with residency := some S } ∧
    (∀ g, g ≠ x → g ≠ y → u.flow g = s.flow g) := by
  have huslot (T : SlotId) : u.slot T = v.slot T := congrArg (fun vs : Vector Slot 64 => vs[T]) hslots
  have huflow (f : FlowId) : u.flow f = v.flow f :=
    congrArg (fun fs : List (Nat × FlowEntry) => Table.get FlowEntry.initial fs f.val) hflows
  refine ⟨?_, (huflow x).trans h.flow_out, (huflow y).trans h.flow_in,
    fun f hfx hfy => (huflow f).trans (h.flow_ne f hfx hfy)⟩
  rw [huslot, h.slot]
  exact ⟨rfl, rfl, rfl, rfl, rfl, fun T hT => (huslot T).trans (h.slot_ne T hT)⟩

theorem State.retryDue_storeRecord (hlast : s.lastAccess) : (s.storeRecord S x).retryDue = false := by
  have hstore := s.inStore_storeRecord S x
  unfold State.InStore at hstore
  rw [hstore]
  exact ((State.quiet_iff _).1 hlast).1

/-- Nobody waits for the outgoing flow: the slot passes to the incoming one (R58). -/
theorem finish_spillPasses (hlast : s.lastAccess) (hwaits : s.noWaits) (hne : x ≠ y) (hopen : (s.flow y).state ≠ .closed)
    (hL : (s.slot S).pendingList ≠ []) :
    let u := (((s.spilled S x).setResidency x none).giveToIncoming S y).finish
    ((u.slot S).state = .filling ∧ (u.slot S).flow = some y ∧ (u.slot S).incoming = none ∧
      (u.slot S).pendingList = (s.slot S).pendingList ∧ ∀ T, T ≠ S → u.slot T = s.slot T) ∧
    u.flow x = { s.flow x with residency := none } ∧ u.flow y = { s.flow y with residency := some S } ∧
    (∀ g, g ≠ x → g ≠ y → u.flow g = s.flow g) ∧
    u = { s.storeRecord S x with
      flows := u.flows, slots := u.slots, mem := { s.mem with inProgress := some (.fill S y) }
      units := (s.enterPhases .waitingResidency (s.slot S).pendingList).units } := by
  intro u
  have hu : u = (((s.spilled S x).setResidency x none).giveToIncoming S y).finish := rfl
  have hretry := State.retryDue_storeRecord (S := S) (x := x) hlast
  have hv := State.spillPasses (S := S) hne hopen hL
  clear_value u
  generalize ((s.spilled S x).setResidency x none).giveToIncoming S y = v at *
  rw [State.finish_of_passed hlast (fun q => (hv.answers q).2) hv.others.1 hv.mem
    fun _ => State.retryWaits_of_noWaits (hv.noWaits hwaits)] at hu
  obtain ⟨⟨hstate, hflow, hincoming, hpending, -, hothers⟩, hflows⟩ :=
    hv.outcome (u := u) (by rw [hu]) (by rw [hu])
  obtain ⟨hout, hin, hrest⟩ := hflows
  refine ⟨⟨hstate, hflow, hincoming, hpending, hothers⟩, hout, hin, hrest, ?_⟩
  rw [← hv.units, hu, hv.frame, ← hretry]

/-- The state in which the request for the outgoing flow has joined the miss wait. -/
def State.missed (v : State) (q : PortId) (g : TagId) : State :=
  { v with missWait := [.request q g], units := (v.setPhase q g .missWait).units }

/-- The request for the outgoing flow finds no slot, and neither does the retry that follows. -/
theorem State.SpillPasses.misses {v : State} (hv : s.SpillPasses v S x y) (hwaits : s.noWaits)
    (hopen : (s.flow x).state ≠ .closed) (hlost : (s.flow x).halt ≠ some .ctxErr)
    (hplain : s.plainRequests x [.request q g])
    (hnone : ∀ T, (s.slot T).state ≠ .free ∧ s.evictable T = false) :
    v.arrive (.request q g) = v.missed q g ∧
      (v.missed q g).retryWaits = { v.missed q g with retryDue := false } := by
  obtain ⟨hreq, hunit, -⟩ : (s.tagRec q g).request.flow = x ∧ (s.tagRec q g).unit = none ∧ _ :=
    hplain _ List.mem_cons_self
  obtain ⟨hsameReq, hsameUnit⟩ := (hv.answers q).1.tags g
  obtain ⟨-, hholds, -, -⟩ := hv.others
  have hvreq : v.reqFlow (.request q g) = x := (congrArg Request.flow hsameReq).trans hreq
  have hvx := hv.flow_out
  have hlink : v.isLink (.request q g) = false := by
    change (v.tagRec q g).unit.isSome = false
    rw [State.tagRec, hsameUnit]
    exact congrArg Option.isSome hunit
  have hmet : v.metStatus (.request q g) = none :=
    State.metStatus_of_open (by rw [hvreq, hvx]; exact hopen) (by rw [hvreq, hvx]; exact hlost)
  have hcandidates := State.not_candidate_of_passed hnone hv.slot hv.slot_ne hholds
  refine ⟨State.arrive_of_missing hmet hlink (by rw [hvreq, hvx]) (hv.noWaits hwaits)
    (State.search_of_no_candidate hcandidates), ?_⟩
  have hmreq : (v.missed q g).reqFlow (.request q g) = x :=
    (congrArg Request.flow (((v.answers_setPhase q g .missWait q).1.tags g).1)).trans hvreq
  have hmflow : (v.missed q g).flow x = v.flow x := rfl
  have hmslot (T : SlotId) : (v.missed q g).slot T = v.slot T := rfl
  exact State.retryWaits_of_missing (r := .request q g) rfl (hv.noWaits hwaits).2 (by rw [hmreq, hmflow, hvx])
    (State.metStatus_of_open (by rw [hmreq, hmflow, hvx]; exact hopen) (by rw [hmreq, hmflow, hvx]; exact hlost))
    (State.not_candidate_of_passed hnone hv.slot hv.slot_ne hholds)

/-- Both flows are waited for and no other slot can be had: the slot passes to the incoming flow, and the request for
the outgoing one joins the miss wait (R59, R60). -/
theorem finish_spillMisses (hlast : s.lastAccess) (hwaits : s.noWaits) (hne : x ≠ y) (hopen : (s.flow y).state ≠ .closed)
    (hL : (s.slot S).pendingList ≠ []) (hopenx : (s.flow x).state ≠ .closed) (hlost : (s.flow x).halt ≠ some .ctxErr)
    (hplain : s.plainRequests x [.request q g])
    (hnone : ∀ T, (s.slot T).state ≠ .free ∧ s.evictable T = false) :
    let u := ((((s.spilled S x).setResidency x none).giveToIncoming S y).arrive (.request q g)).finish
    u.missWait = [.request q g] ∧ (u.tagRec q g).phase = .missWait ∧
    ((u.slot S).state = .filling ∧ (u.slot S).flow = some y ∧ (u.slot S).pendingList = (s.slot S).pendingList ∧
      (u.slot S).returnList = [] ∧ ∀ T, T ≠ S → u.slot T = s.slot T) ∧
    u.flow x = { s.flow x with residency := none } ∧ u.flow y = { s.flow y with residency := some S } ∧
    (∀ k, k ≠ x → k ≠ y → u.flow k = s.flow k) ∧
    u = { s.storeRecord S x with
      flows := u.flows, slots := u.slots, units := u.units, missWait := u.missWait
      mem := { s.mem with inProgress := some (.fill S y) } } := by
  intro u
  have hu : u = ((((s.spilled S x).setResidency x none).giveToIncoming S y).arrive (.request q g)).finish := rfl
  have hretry := State.retryDue_storeRecord (S := S) (x := x) hlast
  have hv := State.spillPasses (S := S) hne hopen hL
  clear_value u
  generalize ((s.spilled S x).setResidency x none).giveToIncoming S y = v at *
  obtain ⟨harrive, hretried⟩ := hv.misses hwaits hopenx hlost hplain hnone
  have hphase : ((v.missed q g).tagRec q g).phase = .missWait :=
    congrArg TagRecord.phase (v.tagRec_setTagRec_self q g { v.tagRec q g with phase := .missWait })
  have hunits (o : PortId) : (v.unit o).SameQuiet ((v.missed q g).unit o) := (v.answers_setPhase q g .missWait o).2
  have hmissed : v.missed q g = { v with missWait := [.request q g], units := (v.missed q g).units } := rfl
  rw [harrive] at hu
  generalize v.missed q g = m at *
  rw [State.finish_of_passed hlast (fun o => (hv.answers o).2.trans (hunits o)) (by rw [hmissed]; exact hv.others.1)
    (by rw [hmissed]; exact hv.mem) fun _ => hretried] at hu
  obtain ⟨⟨hstate, hflow, -, hpending, hreturn, hothers⟩, hflows⟩ :=
    hv.outcome (u := u) (by rw [hu, hmissed]) (by rw [hu, hmissed])
  obtain ⟨hout, hin, hrest⟩ := hflows
  refine ⟨by rw [hu, hmissed], ?_, ⟨hstate, hflow, hpending, hreturn, hothers⟩, hout, hin, hrest, ?_⟩
  · have hutag : u.tagRec q g = m.tagRec q g := by rw [hu]; rfl
    rw [hutag]
    exact hphase
  · rw [hu, hmissed, hv.frame, ← hretry]

end

/-! ## The outgoing flow keeps the slot (R59) -/

section
variable {s : State} {S : SlotId} {x y : FlowId}

/-- Where nobody waits for the outgoing flow, it goes whether it is CLOSED or not (R58). -/
theorem State.spillDone_of_no_return (hincoming : (s.slot S).incoming = some y) (hreturn : (s.slot S).returnList = []) :
    s.accessEnded.spillDone S x = ((s.spilled S x).setResidency x none).giveToIncoming S y := by
  by_cases hclosed : (s.flow x).state = .closed
  · have hslot : (s.spilled S x).slot S = s.slot S := by rw [s.inStore_spilled S x]; rfl
    have hflow : (s.spilled S x).flow x = s.flow x := by rw [s.inStore_spilled S x]; rfl
    have hkept (v : Slot) (h : v.returnList = []) : ({ v with returnList := [] } : Slot) = v := by rw [← h]
    have hset (z : State) (h : z.slot S = s.slot S) :
        (z.setResidency x none).setSlot S (s.slot S) = z.setResidency x none := by
      rw [← h]
      exact (z.setResidency x none).setSlot_slot S
    unfold State.spillDone
    rw [State.spilled_eq]
    dsimp only
    rw [hslot, hflow]
    split
    · next h => exact absurd (hincoming.symm.trans h) (by simp)
    · next z h =>
      obtain rfl := Option.some.inj (hincoming.symm.trans h)
      rw [if_pos hclosed, hkept _ hreturn, hset _ hslot, hreturn]
      rfl
  · rw [State.spillDone_eq hincoming hclosed, hreturn]
    rfl

/-- The state in which a spill has ended and the outgoing flow keeps its slot, clean (R59). -/
def State.keptAfterSpill (s : State) (S : SlotId) (x y : FlowId) : State :=
  (({ s.storeRecord S x with mem := { s.mem with inProgress := none } } : State).setFlow y
    { s.flow y with residency := none }).setSlot S
      { s.slot S with state := .resident, incoming := none, dirty := false, returnList := [] }

theorem State.keepOutgoing_spilled (hpending : (s.slot S).pendingList = []) :
    ((s.spilled S x).setResidency y none).keepOutgoing S x =
      State.serveAt S x (s.slot S).returnList (s.keptAfterSpill S x y).dueRetry := by
  have hkept (v : Slot) (h : v.pendingList = []) :
      ({ v with state := .resident, incoming := none, dirty := false, pendingList := [], returnList := [] } : Slot) =
        { v with state := .resident, incoming := none, dirty := false, returnList := [] } := by rw [← h]
  have hslot : ((s.spilled S x).setResidency y none).slot S = s.slot S := by rw [s.inStore_spilled S x]; rfl
  have hflow : (s.spilled S x).flow y = s.flow y := by rw [s.inStore_spilled S x]; rfl
  have hspilled : s.spilled S x =
      ({ s.storeRecord S x with mem := { s.mem with inProgress := none } } : State).dueRetry := by
    unfold State.spilled
    generalize s.storeRecord S x = stored
    rfl
  have hdue (z : State) (e : FlowEntry) (v : Slot) :
      (z.dueRetry.setFlow y e).setSlot S v = ((z.setFlow y e).setSlot S v).dueRetry := rfl
  unfold State.keepOutgoing State.keptAfterSpill
  dsimp only
  rw [hslot, hkept _ hpending, State.setResidency, hflow, hspilled, hdue]

theorem finish_spillQueries (hlast : s.lastAccess) (hwaits : s.noWaits) (hne : x ≠ y)
    (hflow : (s.slot S).flow = some x) (hL : (s.slot S).returnList ≠ []) (hqueries : s.queries x (s.slot S).returnList) :
    (State.serveAt S x (s.slot S).returnList (s.keptAfterSpill S x y).dueRetry).finish =
      ({ s.keptAfterSpill S x y with
        units := s.unitsAnswering (s.slot S).returnList (s.queried x (s.slot S).context (s.slot S).pins) }
          : State).setSlot S { (s.keptAfterSpill S x y).slot S with ref := true } := by
  have hstore := s.inStore_storeRecord S x
  unfold State.InStore at hstore
  unfold State.keptAfterSpill
  generalize s.storeRecord S x = stored at *
  generalize hbase : ({ stored with mem := { s.mem with inProgress := none } } : State).setFlow y
    { s.flow y with residency := none } = base
  have hquiet : base.quiet = true := by
    rw [← hbase, State.quiet_setFlow, hstore]
    exact hlast
  have hbwaits : base.noWaits := by
    rw [← hbase, hstore]
    exact hwaits
  have hbunits : base.units = s.units := by rw [← hbase, hstore]; rfl
  have hbasms : base.asms = s.asms := by rw [← hbase, hstore]; rfl
  have hbqueried (c : Context) (n : Nat) : base.queried x c n = s.queried x c n := by
    have hbflow : base.flow x = s.flow x := by
      rw [← hbase]
      refine (State.flow_setFlow_ne _ _ hne).trans ?_
      rw [hstore]
      rfl
    have hholder : base.holder x = s.holder x := by rw [← hbase, hstore]; rfl
    rw [State.queried, State.queried, hbflow, hholder]
  have hbunit (q : PortId) : base.unit q = s.unit q := congrArg (fun us : Vector PortUnit 4 => us[q]) hbunits
  generalize hv : ({ s.slot S with state := .resident, incoming := none, dirty := false, returnList := [] } : Slot) = v
  have hvflow : v.flow = some x := by rw [← hv]; exact hflow
  have hvstate : v.state = .resident := by rw [← hv]
  have hvcontext : v.context = (s.slot S).context ∧ v.pins = (s.slot S).pins := by rw [← hv]; exact ⟨rfl, rfl⟩
  generalize (s.slot S).returnList = L at *
  have hslot : ((base.setSlot S v).dueRetry).slot S = v := State.slot_setSlot_self base S v
  have hslot' : (base.setSlot S v).slot S = v := State.slot_setSlot_self base S v
  have hresident : ((base.setSlot S v).dueRetry).residentWith S x = true := by
    rw [State.residentWith, hslot]
    exact Bool.and_eq_true_iff.2 ⟨decide_eq_true hvstate, decide_eq_true hvflow⟩
  have hplain := hqueries.1.congr (x := (base.setSlot S v).dueRetry) hbunits hbasms
  have hqueries' : ((base.setSlot S v).dueRetry).queries x L := by
    refine ⟨hplain, fun r hr => ?_⟩
    have hquery := hqueries.2 r hr
    cases r with
    | request q g =>
      have htag : ((base.setSlot S v).dueRetry).tagRec q g = s.tagRec q g :=
        congrArg (fun u : PortUnit => u.tag g) (hbunit q)
      change (((base.setSlot S v).dueRetry).tagRec q g).request.kind = .query
      rw [htag]
      exact hquery
    | clearHalt f => exact hquery
  have hqueried : ((base.setSlot S v).dueRetry).queried x v.context v.pins =
      s.queried x (s.slot S).context (s.slot S).pins := by
    rw [← hbqueried, ← hvcontext.1, ← hvcontext.2]
    rfl
  have hunits : ((base.setSlot S v).dueRetry).unitsAnswering L (s.queried x (s.slot S).context (s.slot S).pins) =
      s.unitsAnswering L (s.queried x (s.slot S).context (s.slot S).pins) := State.unitsAnswering_congr hbunits
  have href : (v.ref || !L.isEmpty) = true := by
    cases L with
    | nil => exact absurd rfl hL
    | cons r L => rw [List.isEmpty_cons, Bool.not_false, Bool.or_true]
  rw [State.serveAt_queries hresident hqueries', hslot, hqueried, hunits, href, hslot']
  have hsameQuiet := State.sameQuiet_unitsAnswering (res := s.queried x (s.slot S).context (s.slot S).pins) hqueries
  generalize s.unitsAnswering L (s.queried x (s.slot S).context (s.slot S).pins) = U at *
  have hdone := State.finish_answered (y := base) (z := { base with units := U }) hquiet rfl
    (fun q => by rw [hbunit]; exact hsameQuiet q) hbwaits S v { v with ref := true }
  have hset : ({ base.setSlot S v with units := U } : State).setSlot S { v with ref := true } =
      ({ base with units := U } : State).setSlot S { v with ref := true } :=
    State.setSlot_setSlot ({ base with units := U } : State) S v { v with ref := true }
  have hserved : ({ (base.setSlot S v).dueRetry with units := U } : State).setSlot S { v with ref := true } =
      ((({ ({ base with units := U } : State) with retryDue := true } : State).setSlot S v).setSlot S
        { v with ref := true }) := rfl
  rw [hset, hserved]
  exact hdone

end

/-- Settles O51. -/
theorem spillCompletionPassesTheSlot : Obligations.SpillCompletionPassesTheSlot := by
  unfold Obligations.SpillCompletionPassesTheSlot
  intro s S x y hlast hwaits hprogress hspilling hflow hincoming hne
  dsimp only
  rw [exec_spillCompletion hprogress]
  refine ⟨fun i hi => s.readSram_stored S x hi, fun a e ha => ?_, fun hreturn hpending hopen => ?_,
    fun hreturn hpending hopen => ?_, fun q g hreturn hpending hopenx hlost hopen hplain _ hnone => ?_⟩
  · exact State.readSram_writeRecordWords_other _ (List.range 4) s e fun i hi => ha i (List.mem_range.1 hi)
  · rw [State.spillDone_of_no_return hincoming hreturn]
    exact ⟨_, rfl, finish_spillPasses hlast hwaits hne hopen hpending⟩
  · rw [State.spillDone_eq hincoming hopen, if_neg (by simpa using hreturn), if_pos (by rw [hpending]; rfl),
      State.keepOutgoing_spilled hpending]
    exact ⟨rfl, fun hqueries => congrArg _ (finish_spillQueries hlast hwaits hne hflow hreturn hqueries)⟩
  · have hsearch : (s.spilled S x).search = (none, s.spilled S x) := by
      refine State.search_of_no_candidate fun T => State.not_candidate_iff.2 ?_
      have hslots : (s.spilled S x).slots = s.slots := by rw [s.inStore_spilled S x]
      rw [State.evictable_congr hslots (by rw [s.inStore_spilled S x]), State.slot, hslots]
      exact hnone T
    rw [State.spillDone_eq hincoming hopenx, hreturn, if_neg (by simp), if_neg (by simpa using hpending), hsearch]
    dsimp only
    have harrive (z : State) : z.arriveAll [.request q g] = z.arrive (.request q g) := rfl
    rw [harrive]
    exact ⟨_, rfl, finish_spillMisses hlast hwaits hne hopen hpending hopenx hlost (hreturn ▸ hplain) hnone⟩

end Sys2Proof.Machine

/-! SUPPORT. The bytes of a beat: their places in the assembly and in the port's gather word (R29, R74, R154). -/

namespace Sys2Proof.Machine

/-! ## The places of the bytes -/

section
variable {s v : State} {p : PortId} {n k : Nat}

/-- A byte of a beat takes its place in the assembly, which allocates a segment where the byte begins one. -/
def State.bytePlaced (s : State) (p : PortId) (ends : Bool) : State :=
  let off := (s.asm p).taken
  let s := if off % 128 = 0 then s.allocateFor p else s
  s.setAsm p { s.asm p with
    taken := off + 1, writesOutstanding := (s.asm p).writesOutstanding + (if ends then 1 else 0) }

/-- A byte that has its place is gathered there (R154). -/
def State.byteGathered (s v : State) (p : PortId) (b : Byte) (ends : Bool) : State :=
  v.gatherByte p (v.asm p).chainLast ((s.asm p).taken % 128) b ends
    (decide ((s.asm p).taken + 1 = (v.asm p).declared))

/-- A write ends with the beat's last byte, and with a segment's last byte (R154). -/
def State.writeEnds (s : State) (p : PortId) (bs : List Byte) : Bool :=
  bs.isEmpty || decide (((s.asm p).taken + 1) % 128 = 0)

theorem State.takeBytes_cons (s : State) (p : PortId) (b : Byte) (bs : List Byte) :
    State.takeBytes p (b :: bs) s =
      State.takeBytes p bs (s.byteGathered (s.bytePlaced p (s.writeEnds p bs)) p b (s.writeEnds p bs)) := by
  unfold State.byteGathered State.bytePlaced State.writeEnds
  rw [State.takeBytes]
  dsimp only
  rw [State.asm_setAsm_self]

/-- The pool when an assembly has allocated its next segment (R29). -/
def State.poolTaking (s : State) (p : PortId) : Pool :=
  let P := s.pool.allocate (s.asm p).declared ((s.asm p).allocated + 1)
  if (s.asm p).allocated = 0 then P else P.setNext (s.asm p).chainLast s.pool.freeHead

/-- An assembly whose chain a segment has joined. -/
def Assembly.grown (a : Assembly) (seg : Nat) : Assembly :=
  { a with allocated := a.allocated + 1, chainFirst := if a.allocated = 0 then seg else a.chainFirst, chainLast := seg }

theorem State.allocateFor_eq (s : State) (p : PortId) :
    s.allocateFor p = (s.setPool (s.poolTaking p)).setAsm p ((s.asm p).grown s.pool.freeHead) := rfl

theorem State.poolTaking_counts (s : State) (p : PortId) :
    (s.poolTaking p).free = s.pool.free - 1 ∧ (s.poolTaking p).reserved = s.pool.reserved - 1 := by
  unfold State.poolTaking
  dsimp only
  split <;> rw [Pool.allocate_eq] <;> exact ⟨rfl, rfl⟩

/-- The assembly and the pool when the first `k` of a beat's `n` bytes have their places. -/
def State.bytesTaken (s : State) (p : PortId) (n k : Nat) : State :=
  let a := s.asm p
  let s := if neededFor a.taken < neededFor (a.taken + k) then s.allocateFor p else s
  s.setAsm p { s.asm p with
    taken := a.taken + k, writesOutstanding := a.writesOutstanding + writesEnding (a.taken + n) a.taken (a.taken + k) }

theorem writesEnding_self (last lo : Nat) : writesEnding last lo lo = 0 := by
  simp [writesEnding]

theorem writesEnding_succ (last : Nat) {lo hi : Nat} (h : lo ≤ hi) : writesEnding last lo (hi + 1) =
    writesEnding last lo hi + (if hi + 1 = last ∨ (hi + 1) % 128 = 0 then 1 else 0) := by
  have hlen : hi + 1 - lo = hi - lo + 1 := by omega
  have hend : lo + 1 * (hi - lo) = hi := by omega
  rw [writesEnding, writesEnding, hlen, List.range'_concat, List.filter_append, List.length_append, hend,
    List.filter_singleton]
  split <;> simp_all

theorem State.bytesTaken_of_begins (h : neededFor (s.asm p).taken < neededFor ((s.asm p).taken + k)) :
    s.bytesTaken p n k = (s.setPool (s.poolTaking p)).setAsm p { (s.asm p).grown s.pool.freeHead with
      taken := (s.asm p).taken + k
      writesOutstanding := (s.asm p).writesOutstanding +
        writesEnding ((s.asm p).taken + n) (s.asm p).taken ((s.asm p).taken + k) } := by
  unfold State.bytesTaken
  dsimp only
  rw [if_pos h, State.allocateFor_eq, State.setAsm_setAsm, State.asm_setAsm_self]

theorem State.bytesTaken_of_not_begins (h : ¬ neededFor (s.asm p).taken < neededFor ((s.asm p).taken + k)) :
    s.bytesTaken p n k = s.setAsm p { s.asm p with
      taken := (s.asm p).taken + k
      writesOutstanding := (s.asm p).writesOutstanding +
        writesEnding ((s.asm p).taken + n) (s.asm p).taken ((s.asm p).taken + k) } := by
  unfold State.bytesTaken
  dsimp only
  rw [if_neg h]

theorem State.bytesTaken_zero (s : State) (p : PortId) (n : Nat) : s.bytesTaken p n 0 = s := by
  rw [State.bytesTaken_of_not_begins (Nat.lt_irrefl _), Nat.add_zero, writesEnding_self]
  exact State.setAsm_asm s p

theorem State.taken_bytesTaken (s : State) (p : PortId) (n k : Nat) :
    ((s.bytesTaken p n k).asm p).taken = (s.asm p).taken + k := by
  unfold State.bytesTaken
  dsimp only
  rw [State.asm_setAsm_self]

/-- One byte more. A beat begins at most one segment. -/
theorem State.bytePlaced_bytesTaken (hk : k < n) (hn : n ≤ 16) :
    (s.bytesTaken p n k).bytePlaced p (decide (k + 1 = n) || decide (((s.asm p).taken + k + 1) % 128 = 0)) =
      s.bytesTaken p n (k + 1) := by
  have hends : (if (decide (k + 1 = n) || decide (((s.asm p).taken + k + 1) % 128 = 0)) = true then 1 else 0) =
      (if (s.asm p).taken + k + 1 = (s.asm p).taken + n ∨ ((s.asm p).taken + k + 1) % 128 = 0 then 1 else 0) :=
    if_congr (by simp only [Bool.or_eq_true, decide_eq_true_eq]; omega) rfl rfl
  have hwrites := writesEnding_succ ((s.asm p).taken + n) (Nat.le_add_right (s.asm p).taken k)
  unfold State.bytePlaced
  rw [State.taken_bytesTaken, hends]
  by_cases hstart : ((s.asm p).taken + k) % 128 = 0
  · have hnot : ¬ neededFor (s.asm p).taken < neededFor ((s.asm p).taken + k) := by unfold neededFor; omega
    have hbegins : neededFor (s.asm p).taken < neededFor ((s.asm p).taken + (k + 1)) := by unfold neededFor; omega
    rw [State.bytesTaken_of_not_begins hnot, State.bytesTaken_of_begins hbegins]
    dsimp only
    rw [if_pos hstart, State.allocateFor_eq, State.setAsm_setAsm, State.asm_setAsm_self, State.asm_setAsm_self,
      ← Nat.add_assoc, hwrites, ← Nat.add_assoc]
    unfold State.poolTaking
    rw [State.asm_setAsm_self]
    exact State.setAsm_setAsm (s.setPool _) p _ _
  · dsimp only
    rw [if_neg hstart]
    have hsame : neededFor (s.asm p).taken < neededFor ((s.asm p).taken + (k + 1)) ↔
        neededFor (s.asm p).taken < neededFor ((s.asm p).taken + k) := by unfold neededFor; omega
    by_cases hbegins : neededFor (s.asm p).taken < neededFor ((s.asm p).taken + k)
    · rw [State.bytesTaken_of_begins hbegins, State.bytesTaken_of_begins (hsame.2 hbegins), State.asm_setAsm_self,
        State.setAsm_setAsm, ← Nat.add_assoc, hwrites, ← Nat.add_assoc]
    · rw [State.bytesTaken_of_not_begins hbegins, State.bytesTaken_of_not_begins (fun c => hbegins (hsame.1 c)),
        State.asm_setAsm_self, State.setAsm_setAsm, ← Nat.add_assoc, hwrites, ← Nat.add_assoc]

theorem State.bytePlaced_setAccesses (s : State) (p : PortId) (m : MemController) (h : Nat) (e : Bool) :
    ({ s with mem := m, handed := h } : State).bytePlaced p e = { s.bytePlaced p e with mem := m, handed := h } := by
  unfold State.bytePlaced
  dsimp only
  have hasm : ({ s with mem := m, handed := h } : State).asm p = s.asm p := rfl
  rw [hasm]
  split <;> rfl

end

/-! ## The gather word (R154) -/

section
variable {s v : State} {p : PortId}

/-- A memory controller whose port has gathered bytes: writes have joined the port's queue (R154). -/
structure MemController.Gathers (m m' : MemController) (p : PortId) : Prop where
  frame : m' = { m with portQueue := m'.portQueue, gather := m'.gather }
  queue : ∃ ws : List WordWrite, m'.portQueue[p] = m.portQueue[p] ++ ws.map PortAccess.write
  others : ∀ q : PortId, q ≠ p → m'.portQueue[q] = m.portQueue[q] ∧ m'.gather[q] = m.gather[q]

theorem MemController.Gathers.refl (m : MemController) (p : PortId) : m.Gathers m p :=
  ⟨rfl, ⟨[], by simp⟩, fun _ _ => ⟨rfl, rfl⟩⟩

theorem MemController.Gathers.trans {m m' m'' : MemController} (h : m.Gathers m' p) (h' : m'.Gathers m'' p) :
    m.Gathers m'' p := by
  obtain ⟨hframe, ⟨ws, hws⟩, hothers⟩ := h
  obtain ⟨hframe', ⟨ws', hws'⟩, hothers'⟩ := h'
  refine ⟨?_, ⟨ws ++ ws', by rw [hws', hws, List.map_append, List.append_assoc]⟩, fun q hq => ?_⟩
  · rw [hframe', hframe]
  · exact ⟨((hothers' q hq).1).trans (hothers q hq).1, ((hothers' q hq).2).trans (hothers q hq).2⟩

/-- The word write that a gather word becomes. -/
def GatherWord.written (g : GatherWord) (stamp : Nat) : WordWrite :=
  { seg := g.seg, word := g.word, data := wordOfBytes g.bytes, ends := g.ends, live := true, stamp := stamp }

/-- A port's gather word, or the empty one at a byte's place. -/
def State.wordAt (s : State) (p : PortId) (seg off : Nat) : GatherWord :=
  (s.mem.gather[p]).getD { seg := seg, word := off / 8, bytes := [], ends := 0 }

/-- A gather word with a byte more. -/
def GatherWord.adding (g : GatherWord) (b : Byte) (ends : Bool) : GatherWord :=
  { g with bytes := g.bytes ++ [b], ends := g.ends + (if ends then 1 else 0) }

theorem State.gatherByte_of_open {seg off : Nat} {b : Byte} {ends final : Bool}
    (h : ¬ (((s.wordAt p seg off).adding b ends).bytes.length = 8 ∨ final)) :
    s.gatherByte p seg off b ends final =
      s.setMem (s.mem.setGather p (some ((s.wordAt p seg off).adding b ends))) := if_neg h

theorem MemController.gather_setGather_self (m : MemController) (p : PortId) (g : Option GatherWord) :
    (m.setGather p g).gather[p] = g := Vector.getElem_set_self _

theorem MemController.gather_setGather_ne (m : MemController) {p q : PortId} (g : Option GatherWord) (h : q ≠ p) :
    (m.setGather p g).gather[q] = m.gather[q] := Vector.getElem_set_ne p.isLt q.isLt fun c => h (Fin.ext c.symm)

theorem State.gatherByte_of_full {seg off : Nat} {b : Byte} {ends final : Bool}
    (h : ((s.wordAt p seg off).adding b ends).bytes.length = 8 ∨ final) :
    s.gatherByte p seg off b ends final = { s with
      mem := (s.mem.setQueue p (s.mem.portQueue[p] ++
        [.write (((s.wordAt p seg off).adding b ends).written s.handed)])).setGather p none
      handed := s.handed + 1 } := by
  refine (if_pos h).trans ?_
  change State.flushGather (s.setMem (s.mem.setGather p (some ((s.wordAt p seg off).adding b ends)))) p true = _
  generalize (s.wordAt p seg off).adding b ends = g
  unfold State.flushGather
  rw [State.mem_setMem, MemController.gather_setGather_self]
  dsimp only
  unfold MemController.setGather MemController.setQueue State.setMem
  dsimp only
  rw [Vector.set_set]
  rfl

theorem State.gathers_gatherByte (s : State) (p : PortId) (seg off : Nat) (b : Byte) (ends final : Bool) :
    s.mem.Gathers (s.gatherByte p seg off b ends final).mem p ∧ s.gatherByte p seg off b ends final =
      { s with mem := (s.gatherByte p seg off b ends final).mem, handed := (s.gatherByte p seg off b ends final).handed } := by
  by_cases h : ((s.wordAt p seg off).adding b ends).bytes.length = 8 ∨ final
  · rw [State.gatherByte_of_full h]
    refine ⟨⟨rfl, ⟨[((s.wordAt p seg off).adding b ends).written s.handed], ?_⟩, fun q hq => ⟨?_, ?_⟩⟩, rfl⟩
    · exact MemController.portQueue_setQueue_self _ _ _
    · exact MemController.portQueue_setQueue_ne _ _ hq
    · exact MemController.gather_setGather_ne _ _ hq
  · rw [State.gatherByte_of_open h]
    exact ⟨⟨rfl, ⟨[], by simp [MemController.setGather]⟩, fun q hq => ⟨rfl, MemController.gather_setGather_ne _ _ hq⟩⟩, rfl⟩

/-- The writes of a beat are no reads (R92). -/
theorem State.readOutstanding_of_gathers (h : s.mem.Gathers v.mem p) (q : PortId) :
    v.readOutstanding q = s.readOutstanding q := by
  obtain ⟨hframe, ⟨ws, hws⟩, hothers⟩ := h
  have hprogress : v.mem.inProgress = s.mem.inProgress := by rw [hframe]
  unfold State.readOutstanding
  rw [hprogress]
  refine congrArg₂ _ ?_ rfl
  by_cases hq : q = p
  · subst hq
    rw [hws, List.any_append, List.any_map]
    simp [Function.comp_def]
  · rw [(hothers q hq).1]

end

end Sys2Proof.Machine

/-! SUPPORT. The words that a beat of an assembly fills (R74, R154). -/

namespace Sys2Proof.Machine

section
variable {s v : State} {p : PortId} {bytes bs : List Byte} {b : Byte} {j k : Nat} {e : Bool}

/-! ## The words -/

/-- The bytes in a port's gather word and the first `k` of a beat. -/
def State.heldBytes (s : State) (p : PortId) (bytes : List Byte) (k : Nat) : List Byte :=
  (s.gathered p).1 ++ bytes.take k

/-- Where the `j`-th word of a beat begins in the unit. -/
def State.wordStart (s : State) (p : PortId) (j : Nat) : Nat := (s.asm p).taken - (s.gathered p).1.length + 8 * j

/-- The `j`-th word of a beat when it holds all the bytes from its start through the beat's first `k`. -/
def State.partWord (s : State) (p : PortId) (bytes : List Byte) (j k : Nat) : GatherWord :=
  let a := s.asm p
  { seg := a.segAt s.pool.freeHead (s.wordStart p j), word := s.wordStart p j % 128 / 8
    bytes := (s.heldBytes p bytes k).drop (8 * j)
    ends := (if j = 0 then (s.gathered p).2 else 0) +
      writesEnding (a.taken + bytes.length) (max (s.wordStart p j) a.taken) (a.taken + k) }

/-- The words that the first `k` bytes of a beat fill, or that the unit ends in. -/
def State.wordsFilled (s : State) (p : PortId) (bytes : List Byte) (k : Nat) : Nat :=
  if (s.asm p).taken + k = (s.asm p).declared then ((s.heldBytes p bytes k).length + 7) / 8
  else (s.heldBytes p bytes k).length / 8

theorem State.length_gathered (hwhole : s.gatherWhole p) : (s.gathered p).1.length = (s.asm p).taken % 8 ∧
    ((s.gathered p).1.length = 0 → (s.gathered p).2 = 0) := by
  unfold State.gatherWhole at hwhole
  unfold State.gathered
  split at hwhole
  · next h =>
    rw [h]
    exact ⟨hwhole.symm, fun _ => rfl⟩
  · next g h =>
    rw [h]
    obtain ⟨hne, hlen, -, -⟩ := hwhole
    exact ⟨hlen, fun c => absurd (List.length_eq_zero_iff.1 c) hne⟩

theorem State.length_heldBytes (hk : k ≤ bytes.length) :
    (s.heldBytes p bytes k).length = (s.gathered p).1.length + k := by
  rw [State.heldBytes, List.length_append, List.length_take, Nat.min_eq_left hk]

theorem State.heldBytes_succ (hk : k < bytes.length) (hb : bytes[k] = b) :
    s.heldBytes p bytes (k + 1) = s.heldBytes p bytes k ++ [b] := by
  rw [State.heldBytes, State.heldBytes, List.take_succ_eq_append_getElem hk, hb, List.append_assoc]

/-- A byte more in the word it belongs to. -/
theorem State.adding_partWord (hwhole : s.gatherWhole p) (hk : k < bytes.length) (hb : bytes[k] = b)
    (hj : 8 * j ≤ (s.gathered p).1.length + k)
    (he : e = (decide (k + 1 = bytes.length) || decide (((s.asm p).taken + k + 1) % 128 = 0))) :
    (s.partWord p bytes j k).adding b e = s.partWord p bytes j (k + 1) := by
  obtain ⟨hlen, -⟩ := State.length_gathered hwhole
  have hends : (if e = true then 1 else 0) = (if (s.asm p).taken + k + 1 = (s.asm p).taken + bytes.length ∨
      ((s.asm p).taken + k + 1) % 128 = 0 then 1 else 0) :=
    if_congr (by rw [he, Bool.or_eq_true, decide_eq_true_eq, decide_eq_true_eq]; omega) rfl rfl
  have hstart : max (s.wordStart p j) (s.asm p).taken ≤ (s.asm p).taken + k := by
    unfold State.wordStart
    omega
  have hbytes : (s.heldBytes p bytes k).drop (8 * j) ++ [b] = (s.heldBytes p bytes (k + 1)).drop (8 * j) := by
    rw [State.heldBytes_succ hk hb, List.drop_append_of_le_length]
    rw [State.length_heldBytes (Nat.le_of_lt hk)]
    exact hj
  unfold State.partWord GatherWord.adding
  dsimp only
  rw [hends, hbytes, ← Nat.add_assoc (s.asm p).taken k 1, writesEnding_succ _ hstart, Nat.add_assoc]

/-- A word is written when it is full, or when the unit ends in it. -/
theorem State.written_partWord (hwhole : s.gatherWhole p) (hk : k ≤ bytes.length)
    (hfull : (s.gathered p).1.length + k = 8 * j + 8 ∨
      k = bytes.length ∧ (s.gathered p).1.length + k ≤ 8 * j + 8) :
    (s.partWord p bytes j k).written (s.handed + j) = s.beatWord p bytes j := by
  obtain ⟨hlen, -⟩ := State.length_gathered hwhole
  have hend : min (s.wordStart p j + 8) ((s.asm p).taken + bytes.length) = (s.asm p).taken + k := by
    unfold State.wordStart
    omega
  have hbytes : (((s.gathered p).1 ++ bytes).drop (8 * j)).take 8 = (s.heldBytes p bytes k).drop (8 * j) := by
    have hcut : s.heldBytes p bytes k = ((s.gathered p).1 ++ bytes).take ((s.gathered p).1.length + k) :=
      (List.take_length_add_append k).symm
    rw [hcut, List.drop_take]
    rcases hfull with hfull | ⟨hlast, hle⟩
    · congr 1
      omega
    · rw [List.take_of_length_le (by rw [List.length_drop, List.length_append]; omega),
        List.take_of_length_le (by rw [List.length_drop, List.length_append]; omega)]
  unfold State.beatWord GatherWord.written State.partWord
  dsimp only
  unfold State.wordStart at *
  rw [hend, hbytes]

/-! ## A beat's bytes, one by one -/

/-- A state in which the first `k` bytes of a beat have their places. -/
structure State.Takes (s v : State) (p : PortId) (bytes : List Byte) (k : Nat) : Prop where
  frame : v = { s.bytesTaken p bytes.length k with mem := v.mem, handed := v.handed }
  gathers : s.mem.Gathers v.mem p

/-- A state in which the first `k` bytes of a beat have gone to their places in the port's gather word. -/
structure State.Fills (s v : State) (p : PortId) (bytes : List Byte) (k : Nat) : Prop where
  queue : v.mem.portQueue[p] = s.mem.portQueue[p] ++
    (List.range (s.wordsFilled p bytes k)).map (fun j => PortAccess.write (s.beatWord p bytes j))
  gather : v.mem.gather[p] = if (s.heldBytes p bytes k).length ≤ 8 * s.wordsFilled p bytes k then none
    else some (s.partWord p bytes (s.wordsFilled p bytes k) k)
  handed : v.handed = s.handed + s.wordsFilled p bytes k

theorem State.declared_bytesTaken (s : State) (p : PortId) (n k : Nat) :
    ((s.bytesTaken p n k).asm p).declared = (s.asm p).declared := by
  by_cases h : neededFor (s.asm p).taken < neededFor ((s.asm p).taken + k)
  · rw [State.bytesTaken_of_begins h, State.asm_setAsm_self]
    rfl
  · rw [State.bytesTaken_of_not_begins h, State.asm_setAsm_self]

/-- The last byte lies in the last segment of the chain (R29). -/
theorem State.chainLast_bytesTaken (s : State) (p : PortId) (n k : Nat) :
    ((s.bytesTaken p n (k + 1)).asm p).chainLast = (s.asm p).segAt s.pool.freeHead ((s.asm p).taken + k) := by
  have hiff : neededFor (s.asm p).taken < neededFor ((s.asm p).taken + (k + 1)) ↔
      ¬ ((s.asm p).taken + k) / 128 < neededFor (s.asm p).taken := by unfold neededFor; omega
  unfold Assembly.segAt
  by_cases h : neededFor (s.asm p).taken < neededFor ((s.asm p).taken + (k + 1))
  · rw [State.bytesTaken_of_begins h, State.asm_setAsm_self, if_neg (hiff.1 h)]
    rfl
  · rw [State.bytesTaken_of_not_begins h, State.asm_setAsm_self, if_pos (by omega)]

theorem State.Takes.taken (h : s.Takes v p bytes k) : (v.asm p).taken = (s.asm p).taken + k := by
  rw [h.frame]
  exact s.taken_bytesTaken p _ k

theorem State.Takes.placed (h : s.Takes v p bytes k) (hk : k < bytes.length) (hn : bytes.length ≤ 16) :
    v.bytePlaced p (decide (k + 1 = bytes.length) || decide (((s.asm p).taken + k + 1) % 128 = 0)) =
      { s.bytesTaken p bytes.length (k + 1) with mem := v.mem, handed := v.handed } := by
  rw [h.frame, State.bytePlaced_setAccesses, State.bytePlaced_bytesTaken hk hn]

theorem State.Takes.gathered (h : s.Takes v p bytes k) (hk : k < bytes.length) (hn : bytes.length ≤ 16)
    (he : e = (decide (k + 1 = bytes.length) || decide (((s.asm p).taken + k + 1) % 128 = 0))) :
    v.byteGathered (v.bytePlaced p e) p b e =
      ({ s.bytesTaken p bytes.length (k + 1) with mem := v.mem, handed := v.handed } : State).gatherByte p
        ((s.asm p).segAt s.pool.freeHead ((s.asm p).taken + k)) (((s.asm p).taken + k) % 128) b e
        (decide ((s.asm p).taken + k + 1 = (s.asm p).declared)) := by
  unfold State.byteGathered
  rw [h.taken, he, h.placed hk hn]
  have hasm : ({ s.bytesTaken p bytes.length (k + 1) with mem := v.mem, handed := v.handed } : State).asm p =
      (s.bytesTaken p bytes.length (k + 1)).asm p := rfl
  rw [hasm, State.chainLast_bytesTaken, State.declared_bytesTaken]

theorem State.Takes.next (h : s.Takes v p bytes k) (hk : k < bytes.length) (hn : bytes.length ≤ 16)
    (he : e = (decide (k + 1 = bytes.length) || decide (((s.asm p).taken + k + 1) % 128 = 0))) :
    s.Takes (v.byteGathered (v.bytePlaced p e) p b e) p bytes (k + 1) := by
  rw [h.gathered hk hn he]
  generalize hz : ({ s.bytesTaken p bytes.length (k + 1) with mem := v.mem, handed := v.handed } : State) = z
  obtain ⟨hgathers, hframe⟩ := z.gathers_gatherByte p ((s.asm p).segAt s.pool.freeHead ((s.asm p).taken + k))
    (((s.asm p).taken + k) % 128) b e (decide ((s.asm p).taken + k + 1 = (s.asm p).declared))
  generalize z.gatherByte _ _ _ _ _ _ = u at hgathers hframe ⊢
  subst hz
  exact ⟨hframe, h.gathers.trans hgathers⟩

/-- The gather word that a byte of a beat goes to. -/
theorem State.Fills.wordAt (h : s.Fills v p bytes k) (hwhole : s.gatherWhole p) (hk : k ≤ bytes.length)
    (hmore : (s.asm p).taken + k ≠ (s.asm p).declared) :
    v.wordAt p ((s.asm p).segAt s.pool.freeHead ((s.asm p).taken + k)) (((s.asm p).taken + k) % 128) =
      s.partWord p bytes (((s.gathered p).1.length + k) / 8) k := by
  obtain ⟨hlen, hnone⟩ := State.length_gathered hwhole
  have hwords : s.wordsFilled p bytes k = ((s.gathered p).1.length + k) / 8 := by
    rw [State.wordsFilled, if_neg hmore, State.length_heldBytes hk]
  unfold State.wordAt
  rw [h.gather, hwords, State.length_heldBytes hk]
  split
  · next hle =>
    have hstart : s.wordStart p (((s.gathered p).1.length + k) / 8) = (s.asm p).taken + k := by
      unfold State.wordStart
      omega
    have hends : (if ((s.gathered p).1.length + k) / 8 = 0 then (s.gathered p).2 else 0) = 0 := by
      split
      · exact hnone (by omega)
      · rfl
    unfold State.partWord
    dsimp only [Option.getD]
    rw [hstart, hends, Nat.max_eq_left (Nat.le_add_right _ _), writesEnding_self, List.drop_eq_nil_of_le]
    rw [State.length_heldBytes hk]
    exact hle
  · rfl

theorem State.Fills.next (h : s.Fills v p bytes k) (hwhole : s.gatherWhole p) (hk : k < bytes.length)
    (hb : bytes[k] = b) (hfits : (s.asm p).taken + bytes.length ≤ (s.asm p).declared)
    (he : e = (decide (k + 1 = bytes.length) || decide (((s.asm p).taken + k + 1) % 128 = 0))) :
    s.Fills (v.gatherByte p ((s.asm p).segAt s.pool.freeHead ((s.asm p).taken + k)) (((s.asm p).taken + k) % 128) b e
      (decide ((s.asm p).taken + k + 1 = (s.asm p).declared))) p bytes (k + 1) := by
  have hmore : (s.asm p).taken + k ≠ (s.asm p).declared := by omega
  have hword := h.wordAt hwhole (Nat.le_of_lt hk) hmore
  have hlen := State.length_heldBytes (s := s) (p := p) (Nat.le_of_lt hk)
  have hlen' := State.length_heldBytes (s := s) (p := p) (Nat.succ_le_of_lt hk)
  have hadd := State.adding_partWord hwhole hk hb (Nat.mul_div_le ((s.gathered p).1.length + k) 8) he
  obtain ⟨hqueue, hgather, hhanded⟩ := h
  have hwords : s.wordsFilled p bytes k = ((s.gathered p).1.length + k) / 8 := by
    rw [State.wordsFilled, if_neg hmore, hlen]
  have hbytes : (s.partWord p bytes (((s.gathered p).1.length + k) / 8) (k + 1)).bytes.length =
      (s.gathered p).1.length + k + 1 - 8 * (((s.gathered p).1.length + k) / 8) := by
    rw [State.partWord, List.length_drop, hlen', Nat.add_assoc]
  rw [hwords] at hqueue hgather hhanded
  generalize hi : ((s.gathered p).1.length + k) / 8 = i at *
  by_cases hfull : (s.partWord p bytes i (k + 1)).bytes.length = 8 ∨
      decide ((s.asm p).taken + k + 1 = (s.asm p).declared)
  · have hwords' : s.wordsFilled p bytes (k + 1) = i + 1 := by
      rw [decide_eq_true_eq, hbytes] at hfull
      rw [State.wordsFilled, hlen']
      split <;> omega
    have hwritten : (s.partWord p bytes i (k + 1)).written (s.handed + i) = s.beatWord p bytes i := by
      rw [decide_eq_true_eq, hbytes] at hfull
      exact State.written_partWord hwhole hk (by omega)
    rw [State.gatherByte_of_full (by rw [hword, hadd]; exact hfull), hword, hadd]
    refine ⟨?_, ?_, ?_⟩
    · refine (MemController.portQueue_setQueue_self _ _ _).trans ?_
      rw [hqueue, hhanded, hwritten, hwords', List.range_succ, List.map_append, List.append_assoc]
      rfl
    · refine (MemController.gather_setGather_self _ _ _).trans ?_
      rw [hwords', hlen', if_pos (by omega)]
    · rw [hwords', ← Nat.add_assoc, ← hhanded]
  · have hwords' : s.wordsFilled p bytes (k + 1) = i := by
      rw [decide_eq_true_eq, hbytes] at hfull
      rw [State.wordsFilled, hlen', if_neg (by omega)]
      omega
    rw [State.gatherByte_of_open (by rw [hword, hadd]; exact hfull), hword, hadd]
    refine ⟨?_, ?_, ?_⟩
    · rw [hwords']
      exact hqueue
    · refine (MemController.gather_setGather_self _ _ _).trans ?_
      rw [hwords', hlen', if_neg (by omega)]
    · rw [hwords']
      exact hhanded

/-! ## The whole beat -/

theorem isEmpty_eq_decide (h : bytes.length = k + bs.length + 1) : bs.isEmpty = decide (k + 1 = bytes.length) := by
  rw [Bool.eq_iff_iff, List.isEmpty_iff, decide_eq_true_iff, ← List.length_eq_zero_iff]
  omega

/-- A beat that fits, byte by byte: each byte keeps what the beat's bytes before it have left. -/
theorem State.takeBytes_induction {P : State → Nat → Prop} {taken : List Byte} (hbytes : taken ++ bs = bytes)
    (hn : bytes.length ≤ 16) (htakes : s.Takes v p bytes taken.length) (h : P v taken.length)
    (hnext : ∀ (u : State) (b : Byte) (e : Bool) (k : Nat) (hk : k < bytes.length), s.Takes u p bytes k → bytes[k] = b →
      e = (decide (k + 1 = bytes.length) || decide (((s.asm p).taken + k + 1) % 128 = 0)) → P u k →
        P (u.byteGathered (u.bytePlaced p e) p b e) (k + 1)) :
    s.Takes (State.takeBytes p bs v) p bytes bytes.length ∧ P (State.takeBytes p bs v) bytes.length := by
  induction bs generalizing taken v with
  | nil =>
    rw [List.append_nil] at hbytes
    subst hbytes
    exact ⟨htakes, h⟩
  | cons b bs ih =>
    have hlen : bytes.length = taken.length + bs.length + 1 := by
      rw [← hbytes, List.length_append, List.length_cons, Nat.add_assoc]
    have hk : taken.length < bytes.length := by omega
    have hb : bytes[taken.length] = b := by simp [← hbytes]
    have hends : v.writeEnds p bs =
        (decide (taken.length + 1 = bytes.length) || decide (((s.asm p).taken + taken.length + 1) % 128 = 0)) := by
      rw [State.writeEnds, htakes.taken, isEmpty_eq_decide hlen]
    have hlen' : (taken ++ [b]).length = taken.length + 1 := List.length_append
    rw [State.takeBytes_cons]
    refine ih (taken := taken ++ [b]) (by rw [← hbytes, List.append_assoc]; rfl) ?_ ?_
    · rw [hlen']
      exact htakes.next hk hn hends
    · rw [hlen']
      exact hnext v b _ _ hk htakes hb hends h

theorem State.takes_zero (s : State) (p : PortId) (bytes : List Byte) : s.Takes s p bytes 0 :=
  ⟨by rw [State.bytesTaken_zero], .refl _ _⟩

theorem State.fills_zero (hwhole : s.gatherWhole p) (hmore : (s.asm p).taken ≠ (s.asm p).declared) :
    s.Fills s p bytes 0 := by
  have hlen : (s.heldBytes p bytes 0).length = (s.asm p).taken % 8 := by
    rw [State.length_heldBytes (Nat.zero_le _), Nat.add_zero, (State.length_gathered hwhole).1]
  have hwords : s.wordsFilled p bytes 0 = 0 := by
    rw [State.wordsFilled, Nat.add_zero, if_neg hmore, hlen]
    omega
  refine ⟨by rw [hwords, List.range_zero, List.map_nil, List.append_nil], ?_, by rw [hwords, Nat.add_zero]⟩
  rw [hwords, hlen]
  unfold State.gatherWhole at hwhole
  unfold State.partWord State.heldBytes State.wordStart State.gathered
  cases hg : s.mem.gather[p] with
  | none =>
    rw [hg] at hwhole
    rw [if_pos (Nat.le_of_eq hwhole)]
  | some g =>
    rw [hg] at hwhole
    obtain ⟨hne, hbytes, hseg, hword⟩ := hwhole
    have hpos := List.length_pos_iff.2 hne
    have hin : ((s.asm p).taken - g.bytes.length) / 128 < neededFor (s.asm p).taken := by unfold neededFor; omega
    rw [if_neg (by omega)]
    dsimp only
    rw [Nat.mul_zero, Nat.add_zero, Nat.add_zero, Assembly.segAt, if_pos hin, List.take_zero, List.append_nil,
      List.drop_zero, if_pos rfl, Nat.max_eq_right (Nat.sub_le _ _), writesEnding_self, Nat.add_zero, ← hseg,
      show ((s.asm p).taken - g.bytes.length) % 128 / 8 = g.word by omega]

/-- A beat that fits has its places, and its bytes have gone to them (R74, R154). -/
theorem State.takes_takeBytes (s : State) (p : PortId) (hn : bytes.length ≤ 16) :
    s.Takes (State.takeBytes p bytes s) p bytes bytes.length :=
  (State.takeBytes_induction (P := fun _ _ => True) (taken := []) rfl hn (s.takes_zero p bytes) trivial
    fun _ _ _ _ _ _ _ _ _ => trivial).1

theorem State.fills_takeBytes (hwhole : s.gatherWhole p) (hn : bytes.length ≤ 16) (hne : 1 ≤ bytes.length)
    (hfits : (s.asm p).taken + bytes.length ≤ (s.asm p).declared) :
    s.Fills (State.takeBytes p bytes s) p bytes bytes.length := by
  refine (State.takeBytes_induction (P := fun u k => s.Fills u p bytes k) (taken := []) rfl hn (s.takes_zero p bytes)
    (State.fills_zero hwhole (by omega)) fun u b e k hk htakes hb he h => ?_).2
  rw [htakes.gathered hk hn he]
  exact State.Fills.next ⟨h.queue, h.gather, h.handed⟩ hwhole hk hb hfits he

end

end Sys2Proof.Machine

/-! SUPPORT. The take-in of DATA (R74 to R77, R156). -/

namespace Sys2Proof.Machine

section
variable {s v w y : State} {p : PortId} {bytes : List Byte} {rest : List Message} {n k : Nat}

/-! ## The command -/

theorem exec_data_of_takesIn (htakes : s.takesIn p (.data bytes) rest) (hroom : s.beatWaits p = false) :
    exec (.data p) s = ((s.setUnit p ((s.unit p).afterTakeIn rest)).beatTaken p bytes).concluded := by
  have hexec : exec (.data p) s = execData p s := rfl
  rw [hexec, execData, State.nextMessage_of_takesIn htakes]
  dsimp only
  rw [if_neg (by rw [hroom]; decide), State.popInbound_of_takesIn htakes]

theorem exec_data_of_waits (htakes : s.takesIn p (.data bytes) rest) (hfull : s.beatWaits p = true) :
    exec (.data p) s = .next s := by
  have hexec : exec (.data p) s = execData p s := rfl
  rw [hexec, execData, State.nextMessage_of_takesIn htakes]
  dsimp only
  rw [if_pos hfull]

theorem State.beatWaits_of_not_assembling (h : (s.asm p).state ≠ .assembling) : s.beatWaits p = false := by
  rw [State.beatWaits, decide_eq_false h, Bool.false_and]

theorem State.beatWaits_of_room (h : writesIn s.mem.portQueue[p] + 3 ≤ 16) : s.beatWaits p = false := by
  rw [State.beatWaits, decide_eq_false (Nat.not_lt.2 h), Bool.and_false]

theorem State.beatTaken_of_idle (h : (s.asm p).state = .idle) : s.beatTaken p bytes = s.strayBeat := by
  unfold State.beatTaken
  dsimp only
  rw [h]

theorem State.beatTaken_of_discarding (h : (s.asm p).state = .discarding) : s.beatTaken p bytes =
    if (s.asm p).taken + bytes.length ≤ (s.asm p).declared then s.discardBeat p bytes.length
    else (s.setAsm p Assembly.initial).violation p .overLengthBeat := by
  unfold State.beatTaken
  dsimp only
  rw [h]

theorem State.beatTaken_of_assembling (h : (s.asm p).state = .assembling) : s.beatTaken p bytes =
    if (s.asm p).taken + bytes.length ≤ (s.asm p).declared then s.acceptBeat p bytes
    else (s.abort p .badLen).violation p .overLengthBeat := by
  unfold State.beatTaken
  dsimp only
  rw [h]

/-- A beat past the declared length takes the port to FAULT, whatever becomes of the assembly (R75). -/
theorem State.beatTaken_of_overLength (hstate : (s.asm p).state = .assembling ∨ (s.asm p).state = .discarding)
    (hover : (s.asm p).declared < (s.asm p).taken + bytes.length) :
    ∃ t : State, s.beatTaken p bytes = t.violation p .overLengthBeat := by
  rcases hstate with h | h
  · exact ⟨_, (State.beatTaken_of_assembling h).trans (if_neg (Nat.not_le.2 hover))⟩
  · exact ⟨_, (State.beatTaken_of_discarding h).trans (if_neg (Nat.not_le.2 hover))⟩

/-! ## A beat that fits -/

/-- How many segments the first `k` bytes of a beat begin (R29). -/
def Assembly.segsBegun (a : Assembly) (k : Nat) : Nat := (a.taken + k + 127) / 128 - (a.taken + 127) / 128

theorem State.frame_bytesTaken (s : State) (p : PortId) (n k : Nat) : s.bytesTaken p n k =
    { s with asms := (s.bytesTaken p n k).asms, pool := (s.bytesTaken p n k).pool } := by
  unfold State.bytesTaken
  dsimp only
  split <;> rfl

theorem State.asm_bytesTaken_ne {q : PortId} (hq : q ≠ p) : (s.bytesTaken p n k).asm q = s.asm q := by
  unfold State.bytesTaken
  dsimp only
  rw [State.asm_setAsm_ne _ _ hq]
  split
  · rw [State.allocateFor_eq, State.asm_setAsm_ne _ _ hq, State.asm_setPool]
  · rfl

/-- The assembly and the pool when a beat begins no segment, and when it begins one. -/
theorem State.bytesTaken_cases (s : State) (p : PortId) (n : Nat) (hk : k ≤ 16) :
    (¬ neededFor (s.asm p).taken < neededFor ((s.asm p).taken + k) ∧ (s.asm p).segsBegun k = 0 ∧
      (s.bytesTaken p n k).pool = s.pool ∧ (s.bytesTaken p n k).asm p = { s.asm p with
        taken := (s.asm p).taken + k
        writesOutstanding := (s.asm p).writesOutstanding +
          writesEnding ((s.asm p).taken + n) (s.asm p).taken ((s.asm p).taken + k) }) ∨
    (neededFor (s.asm p).taken < neededFor ((s.asm p).taken + k) ∧ (s.asm p).segsBegun k = 1 ∧
      (s.bytesTaken p n k).pool = s.poolTaking p ∧ (s.bytesTaken p n k).asm p = { (s.asm p).grown s.pool.freeHead with
        taken := (s.asm p).taken + k
        writesOutstanding := (s.asm p).writesOutstanding +
          writesEnding ((s.asm p).taken + n) (s.asm p).taken ((s.asm p).taken + k) }) := by
  by_cases h : neededFor (s.asm p).taken < neededFor ((s.asm p).taken + k)
  · refine .inr ⟨h, ?_, ?_, ?_⟩
    · unfold neededFor at h
      unfold Assembly.segsBegun
      omega
    · rw [State.bytesTaken_of_begins h, State.pool_setAsm, State.pool_setPool]
    · rw [State.bytesTaken_of_begins h, State.asm_setAsm_self]
  · refine .inl ⟨h, ?_, ?_, ?_⟩
    · unfold neededFor at h
      unfold Assembly.segsBegun
      omega
    · rw [State.bytesTaken_of_not_begins h, State.pool_setAsm]
    · rw [State.bytesTaken_of_not_begins h, State.asm_setAsm_self]

theorem State.counts_bytesTaken (s : State) (p : PortId) (n : Nat) (hk : k ≤ 16) :
    ((s.bytesTaken p n k).asm p).state = (s.asm p).state ∧
    ((s.bytesTaken p n k).asm p).writesOutstanding = (s.asm p).writesOutstanding +
      writesEnding ((s.asm p).taken + n) (s.asm p).taken ((s.asm p).taken + k) ∧
    ((s.bytesTaken p n k).asm p).allocated = (s.asm p).allocated + (s.asm p).segsBegun k ∧
    (s.bytesTaken p n k).pool.free = s.pool.free - (s.asm p).segsBegun k ∧
    (s.bytesTaken p n k).pool.reserved = s.pool.reserved - (s.asm p).segsBegun k ∧
    ((s.asm p).segsBegun k = 0 → (s.bytesTaken p n k).pool = s.pool) := by
  rcases s.bytesTaken_cases p n hk with ⟨-, hnew, hpool, hasm⟩ | ⟨-, hnew, hpool, hasm⟩
  · rw [hasm, hnew, hpool]
    exact ⟨rfl, rfl, rfl, rfl, rfl, fun _ => rfl⟩
  · rw [hasm, hnew, hpool]
    obtain ⟨hfree, hreserved⟩ := s.poolTaking_counts p
    exact ⟨rfl, rfl, rfl, hfree, hreserved, fun h => absurd h (by decide)⟩

/-- The first segment of a chain is the first that the unit has allocated. -/
theorem State.chainFirst_bytesTaken (s : State) (p : PortId) (n : Nat) (hk : k ≤ 16) (hpos : 1 ≤ k)
    (hwhole : (s.asm p).allocated = neededFor (s.asm p).taken) : ((s.bytesTaken p n k).asm p).chainFirst =
      if (s.asm p).allocated = 0 then s.pool.freeHead else (s.asm p).chainFirst := by
  rcases s.bytesTaken_cases p n hk with ⟨hnot, -, -, hasm⟩ | ⟨-, -, -, hasm⟩
  · have hstarted : (s.asm p).allocated ≠ 0 := by
      unfold neededFor at hnot hwhole
      omega
    rw [hasm, if_neg hstarted]
  · rw [hasm]
    rfl

theorem State.pool_bytesTaken (hk : k ≤ 16) (h : neededFor (s.asm p).taken < neededFor ((s.asm p).taken + k)) :
    (s.bytesTaken p n k).pool = s.poolTaking p := by
  rcases s.bytesTaken_cases p n hk with ⟨hnot, -⟩ | ⟨-, -, hpool, -⟩
  · exact absurd h hnot
  · exact hpool

theorem State.Takes.asm (h : s.Takes v p bytes k) (q : PortId) : v.asm q = (s.bytesTaken p bytes.length k).asm q := by
  rw [h.frame]
  rfl

theorem State.Takes.pool (h : s.Takes v p bytes k) : v.pool = (s.bytesTaken p bytes.length k).pool := by
  rw [h.frame]

theorem State.Takes.frame_state (h : s.Takes v p bytes k) :
    v = { s with asms := v.asms, pool := v.pool, mem := v.mem, handed := v.handed } := by
  refine h.frame.trans ?_
  have hasms : v.asms = (s.bytesTaken p bytes.length k).asms := by rw [h.frame]
  rw [h.pool, hasms]
  exact congrArg (fun t : State => { t with mem := v.mem, handed := v.handed }) (s.frame_bytesTaken p bytes.length k)

/-- The gap timer of an assembly that has accepted a beat (R77). -/
def Assembly.timed (a : Assembly) : Assembly := { a with gapTimer := if a.taken = a.declared then none else some 0 }

/-- A beat's last write is outstanding, so the unit is not complete with its acceptance (R78). -/
theorem State.acceptBeat_eq (hn : bytes.length ≤ 16) (hpos : 1 ≤ bytes.length) : s.acceptBeat p bytes =
    (State.takeBytes p bytes s).setAsm p ((State.takeBytes p bytes s).asm p).timed := by
  have htakes := s.takes_takeBytes p hn
  obtain ⟨-, hwrites, -⟩ := s.counts_bytesTaken p bytes.length hn
  rw [← htakes.asm p] at hwrites
  have hlast := writesEnding_succ ((s.asm p).taken + bytes.length)
    (show (s.asm p).taken ≤ (s.asm p).taken + bytes.length - 1 by omega)
  rw [Nat.sub_add_cancel (by omega), if_pos (.inl rfl)] at hlast
  refine State.completeAssembly_of_not fun ⟨_, _, hnone⟩ => ?_
  rw [State.asm_setAsm_self] at hnone
  dsimp only at hnone
  omega

/-- The end of a beat that fits: nothing is due but the grant (R157). -/
theorem State.finish_acceptBeat (hquiet : y.quiet = true) (hunits : ∀ q, (y.unit q).SameQuiet (s.unit q))
    (hdels : s.dels = y.dels) (hmem : s.mem = y.mem) (hretry : s.retryDue = y.retryDue) (hn : bytes.length ≤ 16)
    (hpos : 1 ≤ bytes.length) : (s.acceptBeat p bytes).finish =
      { (State.takeBytes p bytes s).setAsm p ((State.takeBytes p bytes s).asm p).timed with
        mem := (State.takeBytes p bytes s).mem.grant } := by
  have htakes := s.takes_takeBytes p hn
  have hnone : s.retryDue = false := hretry.trans (y.quiet_iff.1 hquiet).1
  rw [State.acceptBeat_eq hn hpos]
  generalize State.takeBytes p bytes s = w at *
  have hframe := htakes.frame_state
  have hreads (q : PortId) : w.readOutstanding q = y.readOutstanding q := by
    rw [State.readOutstanding_of_gathers htakes.gathers, State.readOutstanding, hmem]
    rfl
  have hwunits : w.units = s.units := by rw [hframe]
  have hwdels : w.dels = s.dels := by rw [hframe]
  have hwretry : w.retryDue = false := by rw [hframe]; exact hnone
  have hunit (q : PortId) : (w.setAsm p (w.asm p).timed).unit q = s.unit q :=
    congrArg (fun us : Vector PortUnit 4 => us[q]) hwunits
  rw [State.finish_of_sameQuiet (s := w.setAsm p (w.asm p).timed) hquiet (fun q => by rw [hunit]; exact hunits q)
    (hwdels.trans hdels) hreads (fun h => absurd (hwretry.symm.trans h) (by decide)), ← hwretry]
  rfl

end

end Sys2Proof.Machine

/-! PROOF. A DATA beat is taken in (R74 to R77, R156). -/

namespace Sys2Proof.Machine

section
variable {s v w u : State} {p : PortId} {bytes : List Byte} {rest : List Message}

/-- What a beat that fits leaves, at the end of its event, of the state in which its bytes have their places. -/
def State.accepted (w : State) (p : PortId) : State :=
  { w.setAsm p (w.asm p).timed with mem := w.mem.grant }

theorem State.accepted_asm (w : State) (p : PortId) : (w.accepted p).asm p = (w.asm p).timed :=
  State.asm_setAsm_self w p _

theorem State.accepted_asm_ne {q : PortId} (hq : q ≠ p) : (w.accepted p).asm q = w.asm q :=
  State.asm_setAsm_ne w _ hq

/-- The assembly and the pool when a beat has been accepted (R29, R74, R77). -/
theorem State.Takes.counts_accepted (h : s.Takes w p bytes bytes.length) (hn : bytes.length ≤ 16)
    (hstate : (s.asm p).state = .assembling) :
    ((w.accepted p).asm p).state = .assembling ∧ ((w.accepted p).asm p).taken = (s.asm p).taken + bytes.length ∧
    ((w.accepted p).asm p).gapTimer =
      (if (s.asm p).taken + bytes.length = (s.asm p).declared then none else some 0) ∧
    ((w.accepted p).asm p).allocated = (s.asm p).allocated + (s.asm p).segsBegun bytes.length ∧
    (w.accepted p).pool.free = s.pool.free - (s.asm p).segsBegun bytes.length ∧
    (w.accepted p).pool.reserved = s.pool.reserved - (s.asm p).segsBegun bytes.length ∧
    ((s.asm p).segsBegun bytes.length = 0 → (w.accepted p).pool = s.pool) := by
  obtain ⟨hsame, -, halloc, hfree, hreserved, hpool⟩ := s.counts_bytesTaken p bytes.length hn
  have hgap : ((w.asm p).timed).gapTimer =
      (if (s.asm p).taken + bytes.length = (s.asm p).declared then none else some 0) := by
    rw [Assembly.timed, h.taken, h.asm p, State.declared_bytesTaken]
  have hasm := w.accepted_asm p
  have hwpool : (w.accepted p).pool = (s.bytesTaken p bytes.length bytes.length).pool := h.pool
  rw [hasm, hwpool]
  refine ⟨?_, h.taken, hgap, ?_, hfree, hreserved, hpool⟩
  · exact ((congrArg Assembly.state (h.asm p)).trans hsame).trans hstate
  · exact (congrArg Assembly.allocated (h.asm p)).trans halloc

/-- The chain and the writes outstanding when a beat has been accepted (R26, R29, R154). -/
theorem State.Takes.chain_accepted (h : s.Takes w p bytes bytes.length) (hn : bytes.length ≤ 16)
    (hpos : 1 ≤ bytes.length) (hwhole : (s.asm p).allocated = neededFor (s.asm p).taken) :
    ((w.accepted p).asm p).chainFirst =
      (if (s.asm p).allocated = 0 then s.pool.freeHead else (s.asm p).chainFirst) ∧
    ((w.accepted p).asm p).chainLast =
      (s.asm p).segAt s.pool.freeHead ((s.asm p).taken + bytes.length - 1) ∧
    ((w.accepted p).asm p).writesOutstanding = (s.asm p).writesOutstanding +
      writesEnding ((s.asm p).taken + bytes.length) (s.asm p).taken ((s.asm p).taken + bytes.length) := by
  obtain ⟨-, hwrites, -⟩ := s.counts_bytesTaken p bytes.length hn
  have hlast := s.chainLast_bytesTaken p bytes.length (bytes.length - 1)
  rw [Nat.sub_add_cancel hpos, ← Nat.add_sub_assoc hpos] at hlast
  rw [w.accepted_asm p]
  exact ⟨(congrArg Assembly.chainFirst (h.asm p)).trans (s.chainFirst_bytesTaken p _ hn hpos hwhole),
    (congrArg Assembly.chainLast (h.asm p)).trans hlast,
    (congrArg Assembly.writesOutstanding (h.asm p)).trans hwrites⟩

/-- While an access is in progress, none is granted (R157). -/
theorem State.Takes.mem_accepted (h : s.Takes w p bytes bytes.length) (hbusy : s.mem.inProgress ≠ none) :
    (w.accepted p).mem = w.mem := by
  have hprogress : w.mem.inProgress = s.mem.inProgress := by rw [h.gathers.frame]
  have hsome : w.mem.inProgress.isSome = true := by
    rw [hprogress]
    exact Option.isSome_iff_ne_none.2 hbusy
  exact if_pos hsome

theorem State.Takes.frame_accepted (h : s.Takes w p bytes bytes.length) : w.accepted p = { s with
    asms := (w.accepted p).asms, pool := (w.accepted p).pool, mem := (w.accepted p).mem
    handed := (w.accepted p).handed } :=
  congrArg (fun t : State => { t with asms := (w.accepted p).asms, mem := w.mem.grant }) h.frame_state

/-- The word that a beat leaves open has the place and the writes of the word it would fill. -/
theorem State.partWord_of_open {j : Nat} (h : ((s.gathered p).1 ++ bytes).length < 8 * j + 8) :
    s.partWord p bytes j bytes.length =
      { seg := (s.beatWord p bytes j).seg, word := (s.beatWord p bytes j).word
        bytes := ((s.gathered p).1 ++ bytes).drop (8 * j), ends := (s.beatWord p bytes j).ends } := by
  rw [List.length_append] at h
  have hend : min ((s.asm p).taken - (s.gathered p).1.length + 8 * j + 8) ((s.asm p).taken + bytes.length) =
      (s.asm p).taken + bytes.length := by omega
  unfold State.partWord State.heldBytes State.beatWord State.wordStart
  dsimp only
  rw [hend, List.take_length]

/-- The bytes of a beat that has been accepted, in the port's queue and its gather word (R74, R154). -/
theorem State.Fills.words (h : s.Fills w p bytes bytes.length) :
    let held := (s.gathered p).1 ++ bytes
    let words := if (s.asm p).taken + bytes.length = (s.asm p).declared then (held.length + 7) / 8 else held.length / 8
    let last := s.beatWord p bytes words
    w.mem.portQueue[p] = s.mem.portQueue[p] ++ (List.range words).map (fun j => PortAccess.write (s.beatWord p bytes j)) ∧
    w.mem.gather[p] = (if held.length ≤ 8 * words then none
      else some { seg := last.seg, word := last.word, bytes := held.drop (8 * words), ends := last.ends }) ∧
    w.handed = s.handed + words := by
  have hheld : s.heldBytes p bytes bytes.length = (s.gathered p).1 ++ bytes := by
    rw [State.heldBytes, List.take_length]
  have hless : (s.heldBytes p bytes bytes.length).length < 8 * s.wordsFilled p bytes bytes.length + 8 := by
    unfold State.wordsFilled
    split <;> omega
  obtain ⟨hqueue, hgather, hhanded⟩ := h
  intro held words last
  have hwords : s.wordsFilled p bytes bytes.length = words := by rw [State.wordsFilled, hheld]
  rw [hwords] at hqueue hgather hhanded hless
  rw [hheld] at hgather hless
  rw [State.partWord_of_open hless] at hgather
  exact ⟨hqueue, hgather, hhanded⟩

/-! ## The command -/

theorem exec_data_of_fits (hquiet : s.quiet = true) (htakes : s.takesIn p (.data bytes) rest)
    (hpos : 1 ≤ bytes.length) (hn : bytes.length ≤ 16) (hstate : (s.asm p).state = .assembling)
    (hroom : writesIn s.mem.portQueue[p] + 3 ≤ 16) (hfits : (s.asm p).taken + bytes.length ≤ (s.asm p).declared) :
    exec (.data p) s = .next
      ((State.takeBytes p bytes (s.setUnit p ((s.unit p).afterTakeIn rest))).accepted p) := by
  have hunits := State.sameQuiet_setUnit (s := s) (p := p) (u := (s.unit p).afterTakeIn rest) ⟨rfl, rfl, rfl⟩
  rw [exec_data_of_takesIn htakes (State.beatWaits_of_room hroom)]
  generalize hz : s.setUnit p ((s.unit p).afterTakeIn rest) = z at *
  have hasm : z.asm p = s.asm p := by rw [← hz, State.asm_setUnit]
  rw [State.beatTaken_of_assembling (by rw [hasm]; exact hstate), hasm, if_pos hfits, State.concluded,
    State.finish_acceptBeat hquiet hunits (by rw [← hz]; rfl) (by rw [← hz]; rfl) (by rw [← hz]; rfl) hn hpos]
  rfl

theorem exec_data_of_overLength (htakes : s.takesIn p (.data bytes) rest)
    (hstate : (s.asm p).state = .assembling ∧ writesIn s.mem.portQueue[p] + 3 ≤ 16 ∨ (s.asm p).state = .discarding)
    (hover : (s.asm p).declared < (s.asm p).taken + bytes.length) :
    ∃ u, exec (.data p) s = .next u ∧ u.faulted p .overLengthBeat := by
  have hroom : s.beatWaits p = false := by
    rcases hstate with ⟨-, hroom⟩ | hstate
    · exact State.beatWaits_of_room hroom
    · exact State.beatWaits_of_not_assembling (by rw [hstate]; decide)
  obtain ⟨v, hv⟩ := State.beatTaken_of_overLength (s := s.setUnit p ((s.unit p).afterTakeIn rest)) (p := p)
    (bytes := bytes) (hstate.imp_left And.left) hover
  rw [exec_data_of_takesIn htakes hroom, hv]
  exact v.faulted_violation p .overLengthBeat

/-- The end of the take-in of a beat that no assembly takes. -/
theorem exec_data_of_unassembled {u : State} (hquiet : s.quiet = true) (htakes : s.takesIn p (.data bytes) rest)
    (hstate : (s.asm p).state ≠ .assembling)
    (hu : (s.setUnit p ((s.unit p).afterTakeIn rest)).beatTaken p bytes = u)
    (hsame : u.quiet = (s.setUnit p ((s.unit p).afterTakeIn rest)).quiet) : exec (.data p) s = .next u := by
  have hquietz : (s.setUnit p ((s.unit p).afterTakeIn rest)).quiet = true := by
    rw [← hquiet]
    exact State.quiet_congr rfl rfl rfl (State.sameQuiet_setUnit ⟨rfl, rfl, rfl⟩)
  rw [exec_data_of_takesIn htakes (State.beatWaits_of_not_assembling hstate), hu, State.concluded,
    State.finish_of_quiet (hsame.trans hquietz)]

theorem State.discardBeat_of_part (h : (s.asm p).state = .discarding)
    (hless : (s.asm p).taken + bytes.length < (s.asm p).declared) : s.beatTaken p bytes =
      s.setAsm p { s.asm p with taken := (s.asm p).taken + bytes.length, gapTimer := some 0 } :=
  (State.beatTaken_of_discarding h).trans ((if_pos (Nat.le_of_lt hless)).trans (if_neg (Nat.ne_of_lt hless)))

theorem State.discardBeat_of_last (h : (s.asm p).state = .discarding)
    (hlast : (s.asm p).taken + bytes.length = (s.asm p).declared) : s.beatTaken p bytes =
      s.setAsm p Assembly.initial :=
  (State.beatTaken_of_discarding h).trans ((if_pos (Nat.le_of_eq hlast)).trans (if_pos hlast))

theorem exec_data_of_idle (hquiet : s.quiet = true) (htakes : s.takesIn p (.data bytes) rest)
    (hstate : (s.asm p).state = .idle) :
    exec (.data p) s = .next (s.setUnit p ((s.unit p).afterTakeIn rest)).strayBeat :=
  exec_data_of_unassembled hquiet htakes (by rw [hstate]; decide) (State.beatTaken_of_idle hstate)
    (State.quiet_setMgmt _)

theorem exec_data_of_discarding {a : Assembly} (hquiet : s.quiet = true) (htakes : s.takesIn p (.data bytes) rest)
    (hstate : (s.asm p).state = .discarding) (h : (s.setUnit p ((s.unit p).afterTakeIn rest)).beatTaken p bytes =
      (s.setUnit p ((s.unit p).afterTakeIn rest)).setAsm p a) :
    exec (.data p) s = .next ((s.setUnit p ((s.unit p).afterTakeIn rest)).setAsm p a) :=
  exec_data_of_unassembled hquiet htakes (by rw [hstate]; decide) h (State.quiet_setAsm _ _ _)

end

/-- Settles O45. -/
theorem dataBeatIsTaken : Obligations.DataBeatIsTaken := by
  unfold Obligations.DataBeatIsTaken
  intro s p bytes rest hquiet htakes hpos hn a n taken
  refine ⟨fun hidle => ?_, fun hstate hless => ?_, fun hstate hlast => ?_, fun hstate hroom hfits => ?_,
    exec_data_of_overLength htakes, fun hstate hfull => ?_⟩
  · exact exec_data_of_idle hquiet htakes hidle
  · exact exec_data_of_discarding hquiet htakes hstate (State.discardBeat_of_part (s := taken) hstate hless)
  · exact exec_data_of_discarding hquiet htakes hstate (State.discardBeat_of_last (s := taken) hstate hlast)
  · have hexec := exec_data_of_fits hquiet htakes hpos hn hstate hroom hfits
    have hplaces := State.takes_takeBytes taken p hn
    have hfills (hwhole : taken.gatherWhole p) := State.fills_takeBytes hwhole hn hpos hfits
    change exec (.data p) s = .next ((State.takeBytes p bytes taken).accepted p) at hexec
    generalize State.takeBytes p bytes taken = w at *
    obtain ⟨hasm, htaken, hgap, halloc, hfree, hreserved, hpool⟩ := hplaces.counts_accepted hn hstate
    have hframe := hplaces.frame_accepted
    have hunits : (w.accepted p).units = taken.units := by rw [hframe]
    refine ⟨w.accepted p, hexec, hunits, hasm, htaken, hgap, ⟨halloc, hfree, hreserved, hpool⟩, fun q hq => ?_, ?_,
      fun hwhole hgather hbusy => ?_⟩
    · exact (State.accepted_asm_ne hq).trans ((hplaces.asm q).trans (State.asm_bytesTaken_ne hq))
    · rw [hunits]
      exact hframe
    · obtain ⟨hfirst, hchain, hwrites⟩ := hplaces.chain_accepted hn hpos hwhole
      obtain ⟨hqueue, hword, hhanded⟩ := (hfills hgather).words
      have hmem : (w.accepted p).mem = w.mem := hplaces.mem_accepted hbusy
      rw [hmem]
      exact ⟨fun hbegins => hplaces.pool.trans (State.pool_bytesTaken hn hbegins), hfirst, hchain, hwrites, hqueue, hword,
        hplaces.gathers.others, hplaces.gathers.frame, hhanded⟩
  · refine exec_data_of_waits htakes ?_
    rw [State.beatWaits, decide_eq_true hstate, decide_eq_true hfull, Bool.and_self]

end Sys2Proof.Machine
